-- ==== Sys2Proof/Word.lean ====
section
/-! DEFINITION. The word types of the E9400 (00 R7, 02 R38): bytes, 32-bit registers and 64-bit pairs. -/

namespace Sys2Proof

/-- One byte of memory, the location of 04 R73. -/
abbrev Byte := BitVec 8

/-- One 32-bit register (02 R38) or instruction word (10 R187). -/
abbrev Word := BitVec 32

/-- A 64-bit value in an even register pair (02 R40) or a pointer (03 R54). -/
abbrev DWord := BitVec 64

/-- The 64-bit value of a register pair, low word first (02 R40). -/
def DWord.ofWords (lo hi : Word) : DWord := hi ++ lo

/-- The low word of a pair (02 R40). -/
def DWord.lo (x : DWord) : Word := x.setWidth 32

/-- The high word of a pair (02 R40). -/
def DWord.hi (x : DWord) : Word := (x >>> 32).setWidth 32

end Sys2Proof
end

