-- ==== Sys2Proof/Config.lean ====
section
/-! DEFINITION. What one implementation fixes and the free values. An opaque constant has no body, so
nothing can be proved of its value; a statement that mentions one holds for every value. -/

namespace Sys2Proof.Config

/-- Free choice number n: which of two values the spec allows is taken (10 R198). -/
opaque freeBit : Nat → Bool

/-- Free 32-bit value number n, where the spec states no value. -/
opaque freeWord : Nat → Word

/-- Status of the VERSION service: the Tamgal version (28 R440). -/
opaque tamgalVersion : Word

/-- Bytes of the second tier that are populated (30 R463). -/
opaque tier2Size : Nat

/-- gen of a SPAWN completion entry, which has no bind record (28 R431). -/
opaque spawnGen : Word

/-- AES-256-XTS encryption of a 128-byte line under a 512-bit key, by line number (30 R469). -/
opaque xtsEncrypt : BitVec 512 → Nat → BitVec 1024 → BitVec 1024

/-- AES-256-XTS decryption of a line (30 R469). -/
opaque xtsDecrypt : BitVec 512 → Nat → BitVec 1024 → BitVec 1024

/-- Addresses in the firmware's own memory that it writes into a context block's header: the list of a cohort's record pages, and
a list buffer of a spawn queue (28 R430, R432). -/
opaque firmwareList : Nat → Nat

/-- Contents of the boot ROM, and its version (31 R482, R486). -/
opaque romBytes : List Byte

/-- ROM version (31 R486). -/
opaque romVersion : Word

/-- Header and payload of the image in a slot of the boot flash, B or not (31 R482). -/
opaque imageBytes : Bool → List Byte

/-- Public key in an image's header (31 R482). -/
opaque imageKey : Bool → List Byte

/-- Signature of an image (31 R482). -/
opaque imageSig : Bool → List Byte

/-- Version of an image (31 R482). -/
opaque imageVersion : Bool → Word

/-- Configuration blob of an image (31 R482). -/
opaque imageConfig : Bool → List Byte

/-- Fused root hash (31 R482). -/
opaque rootHash : BitVec 512

/-- Fused minimum version (31 R482). -/
opaque minVersion : Word

/-- Power record of the configuration blob (34 R515). -/
opaque powerRecord : BitVec 256

/-- Ed448 verification of a signature by a key over a message (31 R482, RFC 8032). -/
opaque ed448Verify : List Byte → List Byte → List Byte → Bool

/-- The report signer's Ed448 signature over a message (31 R484, R485). -/
opaque ed448Sign : List Byte → List Byte

/-- Ed448 identity public key (31 R484). -/
opaque identityKey : List Byte

/-- X448 channel public key of a boot, by number (31 R482). -/
opaque channelKey : Nat → List Byte

/-- X448 secret that a boot's channel key shares with the key owner (31 R487). -/
opaque sharedSecret : Nat → List Byte

/-- Key slot 0 of a boot, by number (30 R470). -/
opaque slot0Key : Nat → BitVec 512

/-- Ed448 public key of the key owner (31 R487). -/
opaque ownerKey : List Byte

/-- The configuration blob's choice of the number of corrected errors that mark a resource, before it is brought into 1 to 255 (33 R507). -/
opaque errorCountLess : Nat

/-- Corrected errors that mark a resource, n, from 1 to 255 (33 R507). -/
def errorCount : Nat := errorCountLess % 255 + 1

/-- The time w within which they count, in nanoseconds (33 R507). -/
opaque errorWindow : Nat

/-- Bank of an HBM4 row, and the first of the row's frames with their number (33 R512). -/
opaque rowBank : Nat → Nat

/-- First frame of an HBM4 row and the number of frames (33 R512). -/
opaque rowFrames : Nat → Nat × Nat

/-- Spare rows of a core's array (33 R512). -/
opaque arraySpares : Nat

/-- Number of planes of the fabric, less one (32 R491). -/
opaque planesLess : Nat

/-- Plane of a port (32 R491). -/
opaque portPlane : Nat → Nat

/-- Fabric timeout in nanoseconds (32 R500). -/
opaque fabricTimeout : Nat

/-- Membership list of the pod (32 R500). -/
opaque podMembers : List Nat

end Sys2Proof.Config
end

