-- ==== Sys2Proof/Syntax.lean ====
section
/-! DEFINITION. The steps of the E9400: one constructor for each row of the table of operations and
events. Rows with an encoding (12 R223) carry the decoded fields of their words; event rows carry
the object the event happens to, which the agent that makes the step names. -/

namespace Sys2Proof

/-- CLASS of a clause header (10 R181). -/
inductive Cls | int | flt | pkd | mem | ctl | mtx | eng | sys
  deriving DecidableEq, Repr

/-- Rounding mode RM (10 R181). -/
inductive RMode | rne | rtz | rdn | rup
  deriving DecidableEq, Repr

/-- Source operand: what a seven-bit code names as a source (10 R192). A literal holds its word, or its
two words low word first, zero-extended. -/
inductive Src
  | main (n : Fin 96) | opf (n : Fin 8) | latch (k : Fin 2) | idx (i : Fin 4) | zero
  | lit (w : DWord) | uni (n : Fin 16)
  deriving DecidableEq, Repr

/-- Destination operand: what a seven-bit code names as a destination (10 R192). -/
inductive Dst
  | main (n : Fin 96) | opf (n : Fin 8) | idx (i : Fin 4) | zero | uni (n : Fin 16)
  deriving DecidableEq, Repr

/-- STALL count (10 R196). -/
abbrev Stall := BitVec 3
/-- Predicate number p0 to p7 (02 R47). -/
abbrev Pn := BitVec 3
/-- Token number t0 to t7 (05 R109). -/
abbrev Tok := BitVec 3

/-- Number formats (12 R221). -/
inductive Fmt
  | f64 | f32 | f16 | bf16 | f8e4 | f8e5 | f4
  | i4 | n4 | i8 | n8 | i16 | n16 | i32 | n32 | i64 | n64
  deriving DecidableEq, Repr

/-- Float bits of M (10 R187). -/
structure FFlags where
  ftzi : Bool
  ftzo : Bool
  sat  : Bool
  deriving DecidableEq, Repr

/-- Compare conditions (12 R222). -/
inductive Cond | eq | ne | lt | le | gt | ge | ltn | gen
  deriving DecidableEq, Repr

/-- IMUL and IMAD variants (13 R238). -/
inductive MulVar | lo | hi | hin | wide
  deriving DecidableEq, Repr

/-- SHF operations (13 R241). -/
inductive ShOp | shl | shr | sar | rol | ror
  deriving DecidableEq, Repr

/-- BITS operations (13 R245). -/
inductive BitOp | popc | clz | ctz | brev | bswap
  deriving DecidableEq, Repr

/-- PLOP functions (13 R249). -/
inductive LogFn | and | or | xor | andn | orn | nand | nor | xnor
  deriving DecidableEq, Repr

/-- FNEGABS operations (14 R262). -/
inductive NegOp | neg | abs | nabs
  deriving DecidableEq, Repr

/-- Access widths (15 R278). -/
inductive MWidth | n8 | i8 | n16 | i16 | b32 | b64 | b128
  deriving DecidableEq, Repr

/-- Order field (15 R278). -/
inductive MOrder | none | acq | rel | acqrel
  deriving DecidableEq, Repr

/-- Scratch layouts (03 R61, 15 R278). -/
inductive Layout | lin | xor16 | xor32
  deriving DecidableEq, Repr

/-- Cache field (15 R289). -/
inductive CacheOp | ca | cg | ev
  deriving DecidableEq, Repr

/-- LDS qualifiers (15 R288). -/
inductive FeQual | none | fe | feClr
  deriving DecidableEq, Repr

/-- Atomic operations (15 R291). -/
inductive AtomOp
  | add | min | max | minn | maxn | and | or | xor | exch | cas | fadd | fmin | fmax
  deriving DecidableEq, Repr

/-- VOTE destination and operation (16 R306). -/
inductive VoteDst | all (p : Pn) | any (p : Pn) | ballot (d : Dst)
  deriving DecidableEq, Repr

/-- SHFL lane selection (16 R307). -/
inductive ShflOp | idx | up | down | xor
  deriving DecidableEq, Repr

/-- REDU operations (16 R309). -/
inductive ReduOp | add | min | max | and | or | xor
  deriving DecidableEq, Repr

/-- Accumulator kinds (17 R320). -/
inductive AccKind | f32 | f64 | i32
  deriving DecidableEq, Repr

/-- Traversal modes (08 R160, 19 R359). -/
inductive TravMode | closest | any | emit
  deriving DecidableEq, Repr

/-- CCTL operations (20 R383). -/
inductive CctlOp | wbl | invl | wbinvl | wball | invall
  deriving DecidableEq, Repr

/-- MODE forms (20 R390). -/
inductive ModeOp | rd (d : Dst) | set (a : Src) | clr (a : Src)
  deriving DecidableEq, Repr

/-- EFLT forms (20 R391). -/
inductive EfltOp | copy (a : Src) | clr | copyClr (a : Src)
  deriving DecidableEq, Repr

/-- REPLAY forms (20 R389). -/
inductive ReplayOp | rd (d : Dst) | req (a : Src)
  deriving DecidableEq, Repr

/-- A slot of the slot tables: physical core and slot number (28 R427). -/
structure SlotRef where
  core : Nat
  slot : Nat
  deriving DecidableEq, Repr

/-- Header of a fabric message (32 R495). -/
structure FabHdr where
  src    : Nat
  dst    : Nat
  tag    : Word
  line   : Nat
  state  : Nat
  poison : Bool
  plane  : Nat
  deriving DecidableEq, Repr

/-- The steps of the machine. -/
inductive Instr
  -- INT, class 0 (13)
  | iadd (st : Stall) (d : Dst) (a b : Src) (sat : Bool)
  | isub (st : Stall) (d : Dst) (a b : Src) (sat : Bool)
  | imul (st : Stall) (d : Dst) (a b : Src) (v : MulVar)
  | imad (st : Stall) (d : Dst) (a b c : Src) (v : MulVar)
  | imin (st : Stall) (d : Dst) (a b : Src) (n : Bool)
  | imax (st : Stall) (d : Dst) (a b : Src) (n : Bool)
  | iabs (st : Stall) (d : Dst) (a : Src)
  | andb (st : Stall) (d : Dst) (a b : Src)
  | orb (st : Stall) (d : Dst) (a b : Src)
  | xorb (st : Stall) (d : Dst) (a b : Src)
  | andn (st : Stall) (d : Dst) (a b : Src)
  | shf (st : Stall) (d : Dst) (a b : Src) (op : ShOp)
  | fshf (st : Stall) (d : Dst) (a b c : Src) (right : Bool)
  | bfe (st : Stall) (d : Dst) (a b : Src) (sgn : Bool)
  | bfi (st : Stall) (d : Dst) (a b c : Src)
  | bits (st : Stall) (d : Dst) (a : Src) (op : BitOp)
  | icmp (st : Stall) (p : Pn) (a b : Src) (cond : Cond)
  | sel (st : Stall) (d : Dst) (a b : Src) (k : Pn)
  | mov (st : Stall) (d : Dst) (a : Src)
  | lea (st : Stall) (d : Dst) (a b : Src) (sh : Fin 5)
  | iaddx (st : Stall) (d : Dst) (a b : Src)
  | plop (st : Stall) (p : Pn) (na : Bool) (pa : Pn) (nb : Bool) (pb : Pn) (fn : LogFn)
  | pmovTor (st : Stall) (d : Dst)
  | pmovFromr (st : Stall) (a b : Src)
  | xset (st : Stall) (a : Src) (idx : Bool) (x : Fin 4)
  | xget (st : Stall) (d : Dst) (idx : Bool) (x : Fin 4) (t : Tok)
  | iaddi (st : Stall) (d : Dst) (a : Src) (imm : BitVec 10)
  | shfi (st : Stall) (d : Dst) (a : Src) (op : ShOp) (n : BitVec 5)
  | icmpi (st : Stall) (p : Pn) (cond : Cond) (a : Src) (imm : BitVec 10)
  -- FLT, class 1 (14)
  | fadd (st : Stall) (d : Dst) (a b : Src) (f : FFlags)
  | fsub (st : Stall) (d : Dst) (a b : Src) (f : FFlags)
  | fmul (st : Stall) (d : Dst) (a b : Src) (f : FFlags)
  | ffma (st : Stall) (d : Dst) (a b c : Src) (f : FFlags)
  | fmin (st : Stall) (d : Dst) (a b : Src) (ftzi ftzo : Bool)
  | fmax (st : Stall) (d : Dst) (a b : Src) (ftzi ftzo : Bool)
  | fcmp (st : Stall) (p : Pn) (a b : Src) (cond : Cond)
  | fnegabs (st : Stall) (d : Dst) (a : Src) (op : NegOp)
  | frnd (st : Stall) (d : Dst) (a : Src) (ftzi ftzo : Bool)
  | fcvti (st : Stall) (d : Dst) (a : Src) (src dst : Fmt) (f : FFlags)
  | icvtf (st : Stall) (d : Dst) (a : Src) (src dst : Fmt) (f : FFlags)
  | frcp (st : Stall) (d : Dst) (a : Src) (ftzi ftzo : Bool) (t : Tok)
  | frsq (st : Stall) (d : Dst) (a : Src) (ftzi ftzo : Bool) (t : Tok)
  | fsqrt (st : Stall) (d : Dst) (a : Src) (ftzi ftzo : Bool) (t : Tok)
  | fexp2 (st : Stall) (d : Dst) (a : Src) (ftzi ftzo : Bool) (t : Tok)
  | flog2 (st : Stall) (d : Dst) (a : Src) (ftzi ftzo : Bool) (t : Tok)
  | fsin (st : Stall) (d : Dst) (a : Src) (ftzi ftzo : Bool) (t : Tok)
  | fcos (st : Stall) (d : Dst) (a : Src) (ftzi ftzo : Bool) (t : Tok)
  | fdiv (st : Stall) (d : Dst) (a b : Src) (f : FFlags) (t : Tok)
  | dadd (st : Stall) (d : Dst) (a b : Src) (f : FFlags)
  | dmul (st : Stall) (d : Dst) (a b : Src) (f : FFlags)
  | dfma (st : Stall) (d : Dst) (a b c : Src) (f : FFlags)
  | dminmax (st : Stall) (d : Dst) (a b : Src) (ftzi ftzo max : Bool)
  | dcmp (st : Stall) (p : Pn) (a b : Src) (cond : Cond)
  | dcvt (st : Stall) (d : Dst) (a : Src) (src dst : Fmt) (f : FFlags)
  | dsqrt (st : Stall) (d : Dst) (a : Src) (f : FFlags) (t : Tok)
  | ddiv (st : Stall) (d : Dst) (a b : Src) (f : FFlags) (t : Tok)
  | fclass (st : Stall) (d : Dst) (a : Src)
  | fscale (st : Stall) (d : Dst) (a b : Src) (f : FFlags)
  -- PKD, class 2 (14)
  | hadd2 (st : Stall) (d : Dst) (a b : Src) (fa : Fmt) (f : FFlags)
  | hmul2 (st : Stall) (d : Dst) (a b : Src) (fa : Fmt) (f : FFlags)
  | hfma2 (st : Stall) (d : Dst) (a b c : Src) (fa : Fmt) (f : FFlags)
  | hminmax2 (st : Stall) (d : Dst) (a b : Src) (fa : Fmt) (ftzi ftzo max : Bool)
  | dot2h (st : Stall) (d : Dst) (a b c : Src) (fa fb : Fmt) (ftzi ftzo : Bool)
  | dot4i8 (st : Stall) (d : Dst) (a b c : Src) (fa fb : Fmt) (sat : Bool)
  | dot8i4 (st : Stall) (d : Dst) (a b c : Src) (fa fb : Fmt) (sat : Bool)
  | dot4f8 (st : Stall) (d : Dst) (a b c : Src) (fa fb : Fmt) (ftzi ftzo : Bool)
  | dot8f4 (st : Stall) (d : Dst) (a b c : Src) (ftzi ftzo : Bool)
  | pack (st : Stall) (d : Dst) (a b c : Src) (fa : Fmt) (f : FFlags) (pair : Fin 4)
  | unpack (st : Stall) (d : Dst) (a : Src) (fa : Fmt) (ftzi : Bool) (el : Fin 8)
  | scl (st : Stall) (d : Dst) (a b : Src) (fa : Fmt) (f : FFlags)
  | prmt (st : Stall) (d : Dst) (a b c : Src) (sgn : Bool)
  | hcvt (st : Stall) (d : Dst) (a : Src) (fa fb : Fmt) (f : FFlags)
  -- MEM, class 3 (15)
  | ld (st : Stall) (d : Dst) (a b : Src) (w : MWidth) (acq : Bool) (l : Layout) (c : CacheOp) (t : Tok)
  | stg (st : Stall) (a b c : Src) (w : MWidth) (rel : Bool) (l : Layout) (k : CacheOp) (t : Tok)
  | lds (st : Stall) (d : Dst) (a b : Src) (w : MWidth) (l : Layout) (fe : FeQual) (t : Tok)
  | sts (st : Stall) (a b c : Src) (w : MWidth) (l : Layout) (setFull : Bool) (t : Tok)
  | ldp (st : Stall) (d : Dst) (a b : Src) (w : MWidth) (t : Tok)
  | stp (st : Stall) (a b c : Src) (w : MWidth) (t : Tok)
  | ldc (st : Stall) (d : Dst) (a b : Src) (w : MWidth) (t : Tok)
  | atom (st : Stall) (d : Dst) (a b c : Src) (op : AtomOp) (wide : Bool) (o : MOrder) (l : Layout) (t : Tok)
  | atoms (st : Stall) (d : Dst) (a b c : Src) (op : AtomOp) (wide : Bool) (l : Layout) (t : Tok)
  | scadd (st : Stall) (a b : Src) (t : Tok)
  | fence (st : Stall) (o : MOrder) (t : Tok)
  | pref (st : Stall) (a b : Src) (cg : Bool) (t : Tok)
  -- CTL, class 4 (16)
  | bra (st : Stall) (p : Pn) (neg : Bool) (off : BitVec 20)
  | brx (st : Stall) (a : Src) (p : Pn)
  | call (st : Stall) (p : Pn) (neg : Bool) (off : BitVec 20)
  | callx (st : Stall) (a : Src) (p : Pn)
  | ret (st : Stall)
  | exit (st : Stall)
  | yield (st : Stall)
  | joinw (st : Stall) (p : Pn) (a : Src)
  | vote (st : Stall) (d : VoteDst) (inv : Bool) (pa : Pn)
  | shfl (st : Stall) (d : Dst) (a b : Src) (op : ShflOp)
  | matchl (st : Stall) (d : Dst) (a b : Src)
  | redu (st : Stall) (d : Dst) (a : Src) (op : ReduOp) (fmt : Fmt) (ftzi ftzo : Bool) (t : Tok)
  | binit (st : Stall) (range : Bool) (a b : Src) (t : Tok)
  | barv (st : Stall) (d : Dst) (a b : Src) (t : Tok)
  | bwait (st : Stall) (p : Pn) (a b : Src)
  | ticket (st : Stall) (d : Dst) (a : Src) (t : Tok)
  | tkwait (st : Stall) (p : Pn)
  | tkdone (st : Stall) (p : Pn)
  | spawn (st : Stall) (a b : Src) (first : BitVec 8) (count : Fin 9) (t : Tok)
  | spawnt (st : Stall) (p : Pn) (a b : Src) (first : BitVec 8) (count : Fin 9) (t : Tok)
  | junc (st : Stall) (d : Dst) (a : Src)
  | jwait (st : Stall) (p : Pn) (a : Src)
  | handoff (st : Stall) (a b : Fin 8)
  | donate (st : Stall) (p : Pn) (n : Fin 25) (tag : BitVec 4)
  | accept (st : Stall) (p : Pn) (tag : BitVec 4)
  | trap (st : Stall) (code : BitVec 8)
  | bpt (st : Stall) (code : BitVec 8)
  | nop (st : Stall)
  | waitt (st : Stall) (mask : BitVec 8)
  -- MTX, class 5 (17)
  | mclaim (st : Stall) (p : Option Pn) (a : Src) (t : Tok)
  | mfree (st : Stall) (a : Src) (t : Tok)
  | mldw (st : Stall) (fmt : Fmt) (slot : Fin 32) (t : Tok)
  | mma (st : Stall) (fmt : Fmt) (slot : Fin 32) (acc : Fin 8) (ftzi ftzo : Bool) (t : Tok)
  | mzero (st : Stall) (mask : BitVec 8) (t : Tok)
  | mrd (st : Stall) (d : Dst) (b : Src) (acc : Fin 8) (wide : Bool) (t : Tok)
  | mwr (st : Stall) (a b : Src) (acc : Fin 8) (wide : Bool) (t : Tok)
  | mst (st : Stall) (a b : Src) (fmt : Fmt) (l : Layout) (f : FFlags) (acc : Fin 8) (kind : AccKind) (t : Tok)
  | mld (st : Stall) (a b : Src) (fmt : Fmt) (l : Layout) (f : FFlags) (acc : Fin 8) (kind : AccKind) (t : Tok)
  | mburst (st : Stall) (n : BitVec 16) (t : Tok)
  | msync (st : Stall) (t : Tok)
  | mslotw (st : Stall) (a b : Src) (slot : Fin 32) (wide : Bool) (t : Tok)
  | mslotr (st : Stall) (d : Dst) (b : Src) (slot : Fin 32) (wide : Bool) (t : Tok)
  | mredn (st : Stall) (on : Bool) (t : Tok)
  -- ENG, class 6, majors 0 to 9 (18)
  | ecopy (st : Stall) (a b c : Src) (follow bind rel acq : Bool) (t : Tok)
  | ecopys (st : Stall) (a b c : Src) (l : Layout) (bind rel acq : Bool) (t : Tok)
  | echain (st : Stall) (a b : Src) (t : Tok)
  | eadv (st : Stall) (a : Src) (t : Tok)
  | ewait (st : Stall) (p : Pn) (a b : Src)
  | coll (st : Stall) (a b : Src) (rel acq : Bool) (t : Tok)
  | trec (st : Stall) (v : Fin 93) (mask : BitVec 4) (t : Tok)
  | tpop (st : Stall) (v : Fin 93) (p : Pn) (t : Tok)
  | tspan (st : Stall) (v : Fin 93) (detour : Bool) (mask : BitVec 4) (t : Tok)
  | tseek (st : Stall) (d : Option Dst) (t : Tok)
  -- ENG majors 10 to 19 (19); octets and twelves are named by their first register ÷ 8 or ÷ 4
  | travs (st : Stall) (d : Dst) (a b c : Src) (mode : TravMode) (t : Tok)
  | travr (st : Stall) (d : Fin 12) (a : Src) (keep : Bool) (t : Tok)
  | trava (st : Stall) (d : Fin 12) (a b c : Src) (t : Tok)
  | txs (st : Stall) (d : Dst) (a b : Src) (t : Tok)
  | txg (st : Stall) (d : Dst) (a b c : Src) (t : Tok)
  | rsub (st : Stall) (a b c : Src) (t : Tok)
  | radj (st : Stall) (d : Fin 12) (a b c : Src) (t : Tok)
  | edge (st : Stall) (d : Fin 12) (a b c : Src) (t : Tok)
  | gscom (st : Stall) (t : Tok)
  | pemit (st : Stall) (p : Pn) (a : Src) (b : Fin 22) (t : Tok)
  -- SYS, class 7 (20)
  | srd (st : Stall) (d : Dst) (reg : BitVec 8) (t : Tok)
  | swr (st : Stall) (a : Src) (reg : BitVec 8) (t : Tok)
  | cctl (st : Stall) (a : Src) (op : CctlOp) (t : Tok)
  | pmc (st : Stall) (ev : BitVec 6) (k : BitVec 2) (enable clear own : Bool) (t : Tok)
  | pmr (st : Stall) (d : Dst) (k : BitVec 2) (t : Tok)
  | clk (st : Stall) (d : Dst) (ns : Bool) (t : Tok)
  | tlbh (st : Stall) (a : Src) (evict : Bool) (t : Tok)
  | scall (st : Stall) (d : Dst) (a : Src) (service : BitVec 12) (t : Tok)
  | digestAbsorb (st : Stall) (a b c : Src) (slot : BitVec 4) (t : Tok)
  | digestStep (st : Stall) (a : Src) (slot : BitVec 4)
  | mode (st : Stall) (op : ModeOp) (t : Tok)
  | eflt (st : Stall) (op : EfltOp) (t : Tok)
  | pwrh (st : Stall) (level : BitVec 2) (t : Tok)
  | qrd (st : Stall) (d : Dst) (q : BitVec 3) (t : Tok)
  | qwr (st : Stall) (a : Src) (q : BitVec 3) (t : Tok)
  | lnch (st : Stall) (a b : Src) (t : Tok)
  | replay (st : Stall) (op : ReplayOp) (t : Tok)
  -- frontier and clauses of the focused convoy (01, 10)
  | clauseFetch
  | clauseBoundary
  | frontierAgeExpiry
  | joinwTimeout (pc : Nat)
  -- the memory system (03, 04)
  | memRequestComplete (k : Nat) (stale : Bool)
  | tokenUnitComplete (k : Nat)
  | feWaitRetry (granule : Nat)
  | ownershipRegister (core k : Nat)
  | l1CopyExpiry (core addr : Nat)
  | atomicPerform (k : Nat)
  | engineWriteLand (k : Nat)
  | ticketAutoPass (counter : Nat)
  -- engines and the matrix unit (06, 17, 18)
  | copyCommandStart (at_ : SlotRef)
  | copyElementRead (at_ : SlotRef) (seq : Nat)
  | milepostWrite (at_ : SlotRef) (seq : Nat)
  | followOnMmaHandover (at_ : SlotRef) (seq : Nat)
  | chainRecordTake (at_ : SlotRef)
  | mldwLatchComplete (at_ : SlotRef)
  | mmaPassComplete (at_ : SlotRef) (differ : Bool)
  | matrixRampUpEnd (core : Nat)
  | matrixRampDownEnd (core : Nat)
  | mburstIdleExpiry (core : Nat)
  | collCommandStart (k : Nat)
  -- spawn, retirement, handoff (07, 16)
  | spawnQueueIdleTimeout (core q : Nat)
  | cohortRetire (at_ : SlotRef)
  | handoffRendezvous (at_ : SlotRef)
  -- rendering and traversal (08, 19)
  | rasterBatch
  | classifyResume
  | rbFragment (rb : Nat)
  | textureSample (core : Nat)
  | travNodeStep (at_ : SlotRef) (ray : Nat)
  | travPrimitiveTest (at_ : SlotRef) (ray : Nat)
  | gsuAddend (k : Nat)
  | gsuCommit (k : Nat)
  -- translation and keys (30, 31)
  | pageWalk (core : Nat) (root va : Nat)
  | walkRetryTimer (core : Nat) (root va : Nat)
  | invpage (cmd : BitVec 256)
  | invspace (cmd : BitVec 256)
  | invall (cmd : BitVec 256)
  | migrate (cmd : BitVec 256)
  | keyLoad
  | keyClear
  | keyClearDone (slot : Nat)
  | attestReport
  | attestExtend
  -- the host link (31)
  | bar2Read (off len : Nat)
  | bar2Write (off : Nat) (bytes : List Byte) (ep : Bool)
  | atomicopFetchadd (off : Nat) (wide : Bool) (x : DWord)
  | atomicopSwap (off : Nat) (wide : Bool) (x : DWord)
  | atomicopCas (off : Nat) (wide : Bool) (cmp new : DWord)
  | functionLevelReset
  | packageReset
  | tamgalReady
  | queueNotify (record rcb : DWord)
  | notifyLink
  | eventLogConfigWrite (size : Bool) (x : DWord)
  | eventLogTailWrite (x : DWord)
  | registerWrite (off : Nat) (x : DWord)
  -- services (28 R440); `req` is the index of a pending SCALL, none for the host mailbox
  | version (req : Option Nat)
  | yieldq (req : Option Nat)
  | sleep (req : Option Nat)
  | sleepExpiry (cohort : Nat)
  | log (req : Option Nat)
  | regionupd (req : Option Nat)
  | halt (req : Option Nat)
  | kill (req : Option Nat)
  | scallStatusDelivery (k : Nat)
  -- the dispatch hardware and the firmware (27, 28, 29, 34)
  | slotBind (at_ : SlotRef)
  | slotEvict (at_ : SlotRef)
  | slotGrowGrant (at_ : SlotRef) (ctx : Nat)
  | bindRecordOtherWrite (at_ : SlotRef) (state : BitVec 2)
  | evictComplete (at_ : SlotRef)
  | launchTake (rcb : Nat)
  | bindDecision (logical : Nat) (at_ : SlotRef) (tmask : BitVec 16)
  | deadlinePassed (rcb : Nat)
  | quantumCheck (at_ : SlotRef)
  | launchEnd (k : Nat)
  | energyDeduction (at_ : SlotRef)
  | powerSample (milliwatts : Nat) (temps : List Nat)
  -- errors and spares (33)
  | correctedError (cls index : Nat)
  | uncorrectableError (cls index : Nat) (unit : Nat)
  | arrayRowMapOut (core row : Nat)
  | hbmRowRepairDone (row : Nat)
  | patrolScrub (line : Nat) (bad : Bool)
  | portRetrainDone (port : Nat)
  -- the fabric (32)
  | reads (h : FabHdr)
  | reado (h : FabHdr)
  | upgr (h : FabHdr)
  | wback (h : FabHdr) (data : Option (List Byte))
  | fwd (h : FabHdr) (data : Option (List Byte))
  | inv (h : FabHdr)
  | recall (h : FabHdr)
  | censusStart (h : FabHdr)
  | censusLine (h : FabHdr)
  | censusEnd (h : FabHdr)
  | censusClose (h : FabHdr)
  | fabricTimeout (tag : Word)
  | censusEndTimeout (plane pkg : Nat)
  | collData (h : FabHdr) (seq : Nat) (data : List Byte)
  | collAck (h : FabHdr) (seq : Nat)
  | atomicRequest (h : FabHdr) (seq : Nat) (data : List Byte)
  | atomicResponse (h : FabHdr) (seq : Nat) (old : DWord) (refused : Bool)
  -- replay and the remaining completions (35, 05, 08, 28, 33)
  | replayPassStart
  | writesetCapture (page : Nat)
  | traversalContextReset (at_ : SlotRef)
  | completionRingRead (die n : Nat)
  | l2WayWritebackDone (way : Nat)
  deriving DecidableEq, Repr

end Sys2Proof
end

