-- ==== Sys2Proof/Machine/Forms.lean ====
section
/-! DEFINITION. What the entries accept in their format, width, index and register-number fields
(13 to 20). Well-formedness and decoding both use these. -/

namespace Sys2Proof

/-- f16 or bf16 (14 R256). -/
def fmtHalf (f : Fmt) : Bool := decide (f = .f16 ∨ f = .bf16)

/-- The scalar floats of the conversions (14 R266). -/
def fmtScalarFloat (f : Fmt) : Bool := decide (f = .f64 ∨ f = .f32 ∨ f = .f16 ∨ f = .bf16)

/-- The integers of the conversions (14 R266). -/
def fmtScalarInt (f : Fmt) : Bool :=
  decide (f = .i8 ∨ f = .n8 ∨ f = .i16 ∨ f = .n16 ∨ f = .i32 ∨ f = .n32 ∨ f = .i64 ∨ f = .n64)

/-- FCVTI (14 R266). -/
def fcvtiFmts (s t : Fmt) : Bool := fmtScalarFloat s && fmtScalarInt t
/-- ICVTF (14 R266). -/
def icvtfFmts (s t : Fmt) : Bool := fmtScalarInt s && fmtScalarFloat t
/-- DCVT (14 R266). -/
def dcvtFmts (s t : Fmt) : Bool := fmtScalarFloat s && fmtScalarFloat t
/-- DOT2H and HCVT (14 R256). -/
def dot2hFmts (s t : Fmt) : Bool := fmtHalf s && fmtHalf t
/-- DOT4I8 (14 R256). -/
def dot4i8Fmts (s t : Fmt) : Bool := decide ((s = .i8 ∨ s = .n8) ∧ (t = .i8 ∨ t = .n8))
/-- DOT8I4 (14 R256). -/
def dot8i4Fmts (s t : Fmt) : Bool := decide ((s = .i4 ∨ s = .n4) ∧ (t = .i4 ∨ t = .n4))
/-- DOT4F8 (14 R256). -/
def dot4f8Fmts (s t : Fmt) : Bool := decide ((s = .f8e4 ∨ s = .f8e5) ∧ (t = .f8e4 ∨ t = .f8e5))
/-- DOT8F4 (14 R256). -/
def dot8f4Fmts (s t : Fmt) : Bool := decide (s = .f4 ∧ t = .f4)
/-- SCL (14 R256). -/
def fmtScl (f : Fmt) : Bool := decide (f = .f16 ∨ f = .bf16 ∨ f = .f8e4 ∨ f = .f8e5 ∨ f = .f4)
/-- PACK and UNPACK (14 R273, R274). -/
def fmtPack (f : Fmt) : Bool :=
  fmtScl f || decide (f = .i16 ∨ f = .n16 ∨ f = .i8 ∨ f = .n8 ∨ f = .i4 ∨ f = .n4)
/-- PRMT (14 R276). -/
def fmtByte (f : Fmt) : Bool := decide (f = .i8 ∨ f = .n8)

/-- Elements of a packed format in one 32-bit register (14 R273, R274). -/
def fmtLanes (f : Fmt) : Nat :=
  match f with
  | .f16 | .bf16 | .i16 | .n16 => 2
  | .f8e4 | .f8e5 | .i8 | .n8 => 4
  | .f4 | .i4 | .n4 => 8
  | _ => 1

/-- The pair index PACK accepts (14 R273). -/
def packIndex (f : Fmt) (e : Nat) : Bool := decide (2 * e < fmtLanes f)
/-- The element index UNPACK accepts (14 R274). -/
def unpackIndex (f : Fmt) (j : Nat) : Bool := decide (j < fmtLanes f)

/-- Widths of a store (15 R279). -/
def storeWidth (w : MWidth) : Bool := decide (w ≠ .i8 ∧ w ≠ .i16)

/-- REDU: the formats, no bitwise operation on floats, no M with an integer format (16 R309). -/
def reduFmt (op : ReduOp) (f : Fmt) (m : Bool) : Bool :=
  match f with
  | .f64 | .f32 => decide (op = .add ∨ op = .min ∨ op = .max)
  | .i32 | .n32 | .i64 | .n64 => !m
  | _ => false

/-- Formats of MLDW and MMA (17 R325, R326). -/
def fmtMma (f : Fmt) : Bool :=
  decide (f = .f64 ∨ f = .f32 ∨ f = .f16 ∨ f = .bf16 ∨ f = .f8e4 ∨ f = .f8e5 ∨ f = .f4 ∨
    f = .i8 ∨ f = .n8 ∨ f = .i4 ∨ f = .n4)

/-- The integer formats of MMA (17 R326). -/
def fmtMmaInt (f : Fmt) : Bool := decide (f = .i8 ∨ f = .n8 ∨ f = .i4 ∨ f = .n4)

/-- The flush bits of an integer MMA are clear (17 R326). -/
def mmaFtz (f : Fmt) (ftzi ftzo : Bool) : Bool := !(fmtMmaInt f) || (!ftzi && !ftzo)

/-- Pairs of accumulator kind and memory format of MST and MLD (17 R329). -/
def tileFmt (k : AccKind) (f : Fmt) : Bool :=
  match k with
  | .f32 => decide (f = .f64 ∨ f = .f32 ∨ f = .f16 ∨ f = .bf16 ∨ f = .f8e4 ∨ f = .f8e5 ∨ f = .f4)
  | .f64 => decide (f = .f64 ∨ f = .f32 ∨ f = .f16 ∨ f = .bf16)
  | .i32 => decide (f = .i32 ∨ f = .n32 ∨ f = .i16 ∨ f = .n16 ∨ f = .i8 ∨ f = .n8 ∨ f = .f32)

/-- The special registers that exist (20 R392). -/
def specialKnown (r : BitVec 8) : Bool :=
  decide (r.toNat ≤ 0x14) || decide (0x20 ≤ r.toNat && r.toNat ≤ 0x26)

/-- The 64-bit special registers (20 R392). -/
def specialWide (r : BitVec 8) : Bool :=
  decide (r = 0x12#8 ∨ r = 0x22#8 ∨ r = 0x23#8 ∨ r = 0x24#8)

/-- The per-thread special registers (20 R392). -/
def perThreadSpecial (r : BitVec 8) : Bool := decide (r.toNat ≤ 4)

end Sys2Proof
end

