-- ==== Sys2Proof/WellFormed.lean ====
section
/-! DEFINITION. Well-formed instructions: the field values that the entries of 13 to 20 define. A term
that breaks a check has no encoding. Operand codes need no check: their types hold only codes of
10 R192. -/

namespace Sys2Proof

/-- A literal of a 32-bit operand holds one word (10 R193). -/
def Src.ok32 (s : Src) : Bool :=
  match s with
  | .lit w => decide (w.toNat < 4294967296)
  | _ => true

/-- A 128-bit operand is no literal (15 R279, 18 R338). -/
def Src.ok128 (s : Src) : Bool :=
  match s with
  | .lit _ => false
  | _ => true

/-- Store data of a width (15 R279). -/
def Src.okW (s : Src) (w : MWidth) : Bool :=
  match w with
  | .b64 => true
  | .b128 => s.ok128
  | _ => s.ok32

/-- The 64-bit scalar formats (14 R255, 16 R309). -/
def wide64 (f : Fmt) : Bool := decide (f = .f64 ∨ f = .i64 ∨ f = .n64)

/-- Well-formed instructions. -/
def Instr.wf (i : Instr) : Bool :=
  match i with
  | .iadd _ _ a b _ => a.ok32 && b.ok32
  | .isub _ _ a b _ => a.ok32 && b.ok32
  | .imul _ _ a b _ => a.ok32 && b.ok32
  | .imad _ _ a b c v => a.ok32 && b.ok32 && (if v = .wide then true else c.ok32)
  | .imin _ _ a b _ => a.ok32 && b.ok32
  | .imax _ _ a b _ => a.ok32 && b.ok32
  | .iabs _ _ a => a.ok32
  | .andb _ _ a b => a.ok32 && b.ok32
  | .orb _ _ a b => a.ok32 && b.ok32
  | .xorb _ _ a b => a.ok32 && b.ok32
  | .andn _ _ a b => a.ok32 && b.ok32
  | .shf _ _ a b _ => a.ok32 && b.ok32
  | .fshf _ _ a b c _ => a.ok32 && b.ok32 && c.ok32
  | .bfe _ _ a b _ => a.ok32 && b.ok32
  | .bfi _ _ a b c => a.ok32 && b.ok32 && c.ok32
  | .bits _ _ a _ => a.ok32
  | .icmp _ _ a b _ => a.ok32 && b.ok32
  | .sel _ _ a b _ => a.ok32 && b.ok32
  | .mov _ _ a => a.ok32
  | .lea _ _ _ b _ => b.ok32
  | .iaddx _ _ _ _ => true
  | .plop _ _ _ _ _ _ _ => true
  | .pmovTor _ _ => true
  | .pmovFromr _ a b => a.ok32 && b.ok32
  | .xset _ a _ _ => a.ok32
  | .xget _ _ _ _ _ => true
  | .iaddi _ _ a _ => a.ok32
  | .shfi _ _ a _ _ => a.ok32
  | .icmpi _ _ _ a _ => a.ok32
  | .fadd _ _ a b _ => a.ok32 && b.ok32
  | .fsub _ _ a b _ => a.ok32 && b.ok32
  | .fmul _ _ a b _ => a.ok32 && b.ok32
  | .ffma _ _ a b c _ => a.ok32 && b.ok32 && c.ok32
  | .fmin _ _ a b _ _ => a.ok32 && b.ok32
  | .fmax _ _ a b _ _ => a.ok32 && b.ok32
  | .fcmp _ _ a b _ => a.ok32 && b.ok32
  | .fnegabs _ _ a _ => a.ok32
  | .frnd _ _ a _ _ => a.ok32
  | .fcvti _ _ a src dst _ => fcvtiFmts src dst && (wide64 src || a.ok32)
  | .icvtf _ _ a src dst _ => icvtfFmts src dst && (wide64 src || a.ok32)
  | .frcp _ _ a _ _ _ => a.ok32
  | .frsq _ _ a _ _ _ => a.ok32
  | .fsqrt _ _ a _ _ _ => a.ok32
  | .fexp2 _ _ a _ _ _ => a.ok32
  | .flog2 _ _ a _ _ _ => a.ok32
  | .fsin _ _ a _ _ _ => a.ok32
  | .fcos _ _ a _ _ _ => a.ok32
  | .fdiv _ _ a b _ _ => a.ok32 && b.ok32
  | .dadd _ _ _ _ _ => true
  | .dmul _ _ _ _ _ => true
  | .dfma _ _ _ _ _ _ => true
  | .dminmax _ _ _ _ _ _ _ => true
  | .dcmp _ _ _ _ _ => true
  | .dcvt _ _ a src dst _ => dcvtFmts src dst && (wide64 src || a.ok32)
  | .dsqrt _ _ _ _ _ => true
  | .ddiv _ _ _ _ _ _ => true
  | .fclass _ _ a => a.ok32
  | .fscale _ _ a b _ => a.ok32 && b.ok32
  | .hadd2 _ _ a b fa _ => a.ok32 && b.ok32 && fmtHalf fa
  | .hmul2 _ _ a b fa _ => a.ok32 && b.ok32 && fmtHalf fa
  | .hfma2 _ _ a b c fa _ => a.ok32 && b.ok32 && c.ok32 && fmtHalf fa
  | .hminmax2 _ _ a b fa _ _ _ => a.ok32 && b.ok32 && fmtHalf fa
  | .dot2h _ _ a b c fa fb _ _ => a.ok32 && b.ok32 && c.ok32 && dot2hFmts fa fb
  | .dot4i8 _ _ a b c fa fb _ => a.ok32 && b.ok32 && c.ok32 && dot4i8Fmts fa fb
  | .dot8i4 _ _ a b c fa fb _ => a.ok32 && b.ok32 && c.ok32 && dot8i4Fmts fa fb
  | .dot4f8 _ _ a b c fa fb _ _ => a.ok32 && b.ok32 && c.ok32 && dot4f8Fmts fa fb
  | .dot8f4 _ _ a b c _ _ => a.ok32 && b.ok32 && c.ok32
  | .pack _ _ a b c fa _ pair => a.ok32 && b.ok32 && c.ok32 && fmtPack fa && packIndex fa pair.val
  | .unpack _ _ a fa _ el => a.ok32 && fmtPack fa && unpackIndex fa el.val
  | .scl _ _ a b fa _ => a.ok32 && b.ok32 && fmtScl fa
  | .prmt _ _ a b c _ => a.ok32 && b.ok32 && c.ok32
  | .hcvt _ _ a fa fb _ => a.ok32 && dot2hFmts fa fb
  | .ld _ _ _ b _ _ _ _ _ => b.ok32
  | .stg _ _ b c w _ _ _ _ => b.ok32 && storeWidth w && c.okW w
  | .lds _ _ a b _ _ _ _ => a.ok32 && b.ok32
  | .sts _ a b c w _ _ _ => a.ok32 && b.ok32 && storeWidth w && c.okW w
  | .ldp _ _ a b _ _ => a.ok32 && b.ok32
  | .stp _ a b c w _ => a.ok32 && b.ok32 && storeWidth w && c.okW w
  | .ldc _ _ a b _ _ => a.ok32 && b.ok32
  | .atom _ _ _ b c op wide _ _ _ => (wide || b.ok32) && (if op = .cas then wide || c.ok32 else decide (c = .zero))
  | .atoms _ _ a b c op wide _ _ => a.ok32 && (wide || b.ok32) && (if op = .cas then wide || c.ok32 else decide (c = .zero))
  | .scadd _ _ b _ => b.ok32
  | .fence _ o _ => decide (o ≠ .none)
  | .pref _ _ b _ _ => b.ok32
  | .bra _ _ _ _ => true
  | .brx _ _ _ => true
  | .call _ _ _ _ => true
  | .callx _ _ _ => true
  | .ret _ => true
  | .exit _ => true
  | .yield _ => true
  | .joinw _ _ a => a.ok32
  | .vote _ _ _ _ => true
  | .shfl _ _ a b _ => a.ok32 && b.ok32
  | .matchl _ _ a b => a.ok32 && b.ok32
  | .redu _ _ a op fmt ftzi ftzo _ => reduFmt op fmt (ftzi || ftzo) && (wide64 fmt || a.ok32)
  | .binit _ _ a b _ => a.ok32 && b.ok32
  | .barv _ _ a b _ => a.ok32 && b.ok32
  | .bwait _ _ a b => a.ok32 && b.ok32
  | .ticket _ _ _ _ => true
  | .tkwait _ _ => true
  | .tkdone _ _ => true
  | .spawn _ _ _ _ _ _ => true
  | .spawnt _ _ _ _ _ _ _ => true
  | .junc _ _ _ => true
  | .jwait _ _ _ => true
  | .handoff _ _ _ => true
  | .donate _ _ _ _ => true
  | .accept _ _ _ => true
  | .trap _ _ => true
  | .bpt _ _ => true
  | .nop _ => true
  | .waitt _ _ => true
  | .mclaim _ _ a _ => a.ok32
  | .mfree _ a _ => a.ok32
  | .mldw _ fmt _ _ => fmtMma fmt
  | .mma _ fmt _ _ ftzi ftzo _ => fmtMma fmt && mmaFtz fmt ftzi ftzo
  | .mzero _ _ _ => true
  | .mrd _ _ b _ _ _ => b.ok32
  | .mwr _ a b _ wide _ => (wide || a.ok32) && b.ok32
  | .mst _ _ b fmt _ _ _ kind _ => b.ok32 && tileFmt kind fmt
  | .mld _ _ b fmt _ _ _ kind _ => b.ok32 && tileFmt kind fmt
  | .mburst _ n _ => decide (n ≠ 0#16)
  | .msync _ _ => true
  | .mslotw _ a b _ wide _ => (wide || a.ok32) && b.ok32
  | .mslotr _ _ b _ _ _ => b.ok32
  | .mredn _ _ _ => true
  | .ecopy _ _ _ c _ _ _ _ _ => c.ok128
  | .ecopys _ _ _ c _ _ _ _ _ => c.ok128
  | .echain _ _ _ _ => true
  | .eadv _ _ _ => true
  | .ewait _ _ _ _ => true
  | .coll _ _ _ _ _ _ => true
  | .trec _ _ _ _ => true
  | .tpop _ _ _ _ => true
  | .tspan _ _ _ _ _ => true
  | .tseek _ _ _ => true
  | .travs _ _ a b c _ _ => a.ok128 && b.ok128 && c.ok128
  | .travr _ _ a _ _ => a.ok32
  | .trava _ _ a b _ _ => a.ok32 && b.ok128
  | .txs _ _ _ _ _ => true
  | .txg _ _ _ _ c _ => c.ok128
  | .rsub _ _ _ _ _ => true
  | .radj _ _ _ b c _ => b.ok128 && c.ok32
  | .edge _ _ a _ c _ => a.ok128 && c.ok32
  | .gscom _ _ => true
  | .pemit _ _ _ _ _ => true
  | .srd _ _ reg _ => specialKnown reg
  | .swr _ a reg _ => specialKnown reg && (specialWide reg || a.ok32)
  | .cctl _ _ _ _ => true
  | .pmc _ _ _ _ _ _ _ => true
  | .pmr _ _ _ _ => true
  | .clk _ _ _ _ => true
  | .tlbh _ _ _ _ => true
  | .scall _ _ _ _ _ => true
  | .digestAbsorb _ _ _ c _ _ => c.ok32
  | .digestStep _ _ _ => true
  | .mode _ op _ => (match op with | .rd _ => true | .set a => a.ok32 | .clr a => a.ok32)
  | .eflt _ _ _ => true
  | .pwrh _ _ _ => true
  | .qrd _ _ _ _ => true
  | .qwr _ a _ _ => a.ok32
  | .lnch _ _ _ _ => true
  | .replay _ _ _ => true
  | .clauseFetch => true
  | .clauseBoundary => true
  | .frontierAgeExpiry => true
  | .joinwTimeout _ => true
  | .memRequestComplete _ _ => true
  | .feWaitRetry _ => true
  | .ownershipRegister _ _ => true
  | .l1CopyExpiry _ _ => true
  | .atomicPerform _ => true
  | .engineWriteLand _ => true
  | .ticketAutoPass _ => true
  | .copyCommandStart _ => true
  | .copyElementRead _ _ => true
  | .milepostWrite _ _ => true
  | .followOnMmaHandover _ _ => true
  | .chainRecordTake _ => true
  | .mldwLatchComplete _ => true
  | .mmaPassComplete _ _ => true
  | .matrixRampUpEnd _ => true
  | .matrixRampDownEnd _ => true
  | .mburstIdleExpiry _ => true
  | .collCommandStart _ => true
  | .spawnQueueIdleTimeout _ _ => true
  | .cohortRetire _ => true
  | .handoffRendezvous _ => true
  | .rasterBatch => true
  | .classifyResume => true
  | .rbFragment _ => true
  | .textureSample _ => true
  | .travNodeStep _ _ => true
  | .travPrimitiveTest _ _ => true
  | .gsuAddend _ => true
  | .gsuCommit _ => true
  | .pageWalk _ _ _ => true
  | .walkRetryTimer _ _ _ => true
  | .invpage _ => true
  | .invspace _ => true
  | .invall _ => true
  | .migrate _ => true
  | .keyLoad => true
  | .keyClear => true
  | .keyClearDone _ => true
  | .attestReport => true
  | .attestExtend => true
  | .bar2Read _ _ => true
  | .bar2Write _ _ _ => true
  | .atomicopFetchadd _ _ _ => true
  | .atomicopSwap _ _ _ => true
  | .atomicopCas _ _ _ _ => true
  | .functionLevelReset => true
  | .packageReset => true
  | .tamgalReady => true
  | .queueNotify _ _ => true
  | .notifyLink => true
  | .eventLogConfigWrite _ _ => true
  | .eventLogTailWrite _ => true
  | .registerWrite _ _ => true
  | .version _ => true
  | .yieldq _ => true
  | .sleep _ => true
  | .sleepExpiry _ => true
  | .log _ => true
  | .regionupd _ => true
  | .halt _ => true
  | .kill _ => true
  | .scallStatusDelivery _ => true
  | .slotBind _ => true
  | .slotEvict _ => true
  | .slotGrowGrant _ _ => true
  | .bindRecordOtherWrite _ _ => true
  | .evictComplete _ => true
  | .launchTake _ => true
  | .bindDecision _ _ _ => true
  | .deadlinePassed _ => true
  | .quantumCheck _ => true
  | .launchEnd _ => true
  | .energyDeduction _ => true
  | .powerSample _ _ => true
  | .correctedError _ _ => true
  | .uncorrectableError _ _ _ => true
  | .arrayRowMapOut _ _ => true
  | .hbmRowRepairDone _ => true
  | .patrolScrub _ _ => true
  | .portRetrainDone _ => true
  | .reads _ => true
  | .reado _ => true
  | .upgr _ => true
  | .wback _ _ => true
  | .fwd _ _ => true
  | .inv _ => true
  | .recall _ => true
  | .censusStart _ => true
  | .censusLine _ => true
  | .censusEnd _ => true
  | .censusClose _ => true
  | .fabricTimeout _ => true
  | .censusEndTimeout _ _ => true
  | .collData _ _ _ => true
  | .collAck _ _ => true
  | .atomicRequest _ _ _ => true
  | .atomicResponse _ _ _ _ => true
  | .replayPassStart => true
  | .writesetCapture _ => true
  | .tokenUnitComplete _ => true
  | .traversalContextReset _ => true
  | .completionRingRead _ _ => true
  | .l2WayWritebackDone _ => true

end Sys2Proof
end

