-- ==== Sys2Proof/Decode.lean ====
section
/-! DEFINITION. Decoding (10 R181 to R193, 12 R218 to R224) and the encoder. A word is read with the
class of its clause; the checks stand in the order of 12 R218; every pattern is an instruction or is
refused by the name of its fault. The encoder is written from the same tables. -/

namespace Sys2Proof

/-- Why a pattern is refused: the first four checks of 12 R218. -/
inductive DecodeFault | clauseFormat | illegal | reserved
  deriving DecidableEq, Repr

/-- The fields of an A-form word (10 R187). An I-form immediate is B and M together, and a B-form word's
predicate, sense and offset are D, A, B and M together (10 R188, R189). -/
structure AWord where
  maj : BitVec 5
  st  : BitVec 3
  d   : BitVec 7
  a   : BitVec 7
  b   : BitVec 7
  m   : BitVec 3
  deriving DecidableEq, Repr

/-- The fields of an X-word below its marker (10 R190). -/
structure XWord where
  c : BitVec 7
  f : BitVec 20
  deriving DecidableEq, Repr

/-- Fields of an instruction word (10 R187). -/
def AWord.unpack (w : Word) : AWord :=
  { maj := w.extractLsb' 27 5, st := w.extractLsb' 24 3, d := w.extractLsb' 17 7,
    a := w.extractLsb' 10 7, b := w.extractLsb' 3 7, m := w.extractLsb' 0 3 }

/-- An instruction word from its fields (10 R187). -/
def AWord.pack (x : AWord) : Word := x.maj ++ x.st ++ x.d ++ x.a ++ x.b ++ x.m

/-- The I-form immediate (10 R188). -/
def AWord.imm (x : AWord) : BitVec 10 := x.b ++ x.m

/-- The B-form bits 23:0 (10 R189). -/
def AWord.bform (x : AWord) : BitVec 24 := x.d ++ x.a ++ x.b ++ x.m

/-- Fields of an X-word, where its marker is 0b11110 (10 R190). -/
def XWord.unpack (w : Word) : Option XWord :=
  if w.extractLsb' 27 5 = 0b11110#5 then some { c := w.extractLsb' 20 7, f := w.extractLsb' 0 20 } else none

/-- An X-word from its fields (10 R190). -/
def XWord.pack (x : XWord) : Word := 0b11110#5 ++ x.c ++ x.f

/-- The zero code, which an unused field holds (10 R191, R192). -/
abbrev zeroCode : BitVec 7 := 0x6E#7

/-- The literal code (10 R192). -/
abbrev litCode : BitVec 7 := 0x6F#7

/-- A number as a member of Fin n. -/
def finOf (n k : Nat) : Option (Fin n) := if h : k < n then some ⟨k, h⟩ else none

/-- Source code of 10 R192; `lit` is the literal's value. -/
def srcOf (lit : DWord) (code : BitVec 7) : Src :=
  let n := code.toNat
  if h : n < 96 then .main ⟨n, h⟩
  else if h : n - 96 < 8 then .opf ⟨n - 96, h⟩
  else if h : n - 104 < 2 then .latch ⟨n - 104, h⟩
  else if h : n - 106 < 4 then .idx ⟨n - 106, h⟩
  else if n = 110 then .zero
  else if n = 111 then .lit lit
  else if h : n - 112 < 16 then .uni ⟨n - 112, h⟩
  else .zero

/-- Destination code of 10 R192; the three codes that are no destination are refused before. -/
def dstOf (code : BitVec 7) : Dst :=
  let n := code.toNat
  if h : n < 96 then .main ⟨n, h⟩
  else if h : n - 96 < 8 then .opf ⟨n - 96, h⟩
  else if h : n - 106 < 4 then .idx ⟨n - 106, h⟩
  else if n = 110 then .zero
  else if h : n - 112 < 16 then .uni ⟨n - 112, h⟩
  else .zero

/-- The code of a source operand (10 R192). -/
def srcCode : Src → BitVec 7
  | .main n => BitVec.ofNat 7 n.val
  | .opf n => BitVec.ofNat 7 (96 + n.val)
  | .latch k => BitVec.ofNat 7 (104 + k.val)
  | .idx i => BitVec.ofNat 7 (106 + i.val)
  | .zero => zeroCode
  | .lit _ => litCode
  | .uni n => BitVec.ofNat 7 (112 + n.val)

/-- The code of a destination operand (10 R192). -/
def dstCode : Dst → BitVec 7
  | .main n => BitVec.ofNat 7 n.val
  | .opf n => BitVec.ofNat 7 (96 + n.val)
  | .idx i => BitVec.ofNat 7 (106 + i.val)
  | .zero => zeroCode
  | .uni n => BitVec.ofNat 7 (112 + n.val)

/-- Format codes (12 R221). -/
def fmtOf (c : BitVec 5) : Option Fmt :=
  match c.toNat with
  | 0 => some .f64 | 1 => some .f32 | 2 => some .f16 | 3 => some .bf16
  | 4 => some .f8e4 | 5 => some .f8e5 | 6 => some .f4
  | 16 => some .i4 | 17 => some .n4 | 18 => some .i8 | 19 => some .n8
  | 20 => some .i16 | 21 => some .n16 | 22 => some .i32 | 23 => some .n32
  | 24 => some .i64 | 25 => some .n64
  | _ => none

/-- The code of a format (12 R221). -/
def fmtCode : Fmt → BitVec 5
  | .f64 => 0#5 | .f32 => 1#5 | .f16 => 2#5 | .bf16 => 3#5 | .f8e4 => 4#5 | .f8e5 => 5#5 | .f4 => 6#5
  | .i4 => 16#5 | .n4 => 17#5 | .i8 => 18#5 | .n8 => 19#5 | .i16 => 20#5 | .n16 => 21#5
  | .i32 => 22#5 | .n32 => 23#5 | .i64 => 24#5 | .n64 => 25#5

/-- Conditions (12 R222). -/
def condOf (c : BitVec 3) : Cond :=
  match c.toNat with
  | 0 => .eq | 1 => .ne | 2 => .lt | 3 => .le | 4 => .gt | 5 => .ge | 6 => .ltn | _ => .gen

/-- The code of a condition (12 R222). -/
def condCode : Cond → BitVec 3
  | .eq => 0#3 | .ne => 1#3 | .lt => 2#3 | .le => 3#3 | .gt => 4#3 | .ge => 5#3 | .ltn => 6#3 | .gen => 7#3

/-- Float bits of M (10 R187). -/
def ffOf (m : BitVec 3) : FFlags := ⟨m.getLsbD 0, m.getLsbD 1, m.getLsbD 2⟩

/-- The M field of float bits (10 R187). -/
def ffCode (f : FFlags) : BitVec 3 := BitVec.ofBool f.sat ++ BitVec.ofBool f.ftzo ++ BitVec.ofBool f.ftzi

def mulVarOf (c : BitVec 2) : MulVar :=
  match c.toNat with | 0 => .lo | 1 => .hi | 2 => .hin | _ => .wide
def mulVarCode : MulVar → BitVec 3
  | .lo => 0#3 | .hi => 1#3 | .hin => 2#3 | .wide => 3#3

def shOpOf (c : BitVec 3) : Option ShOp :=
  match c.toNat with | 0 => some .shl | 1 => some .shr | 2 => some .sar | 3 => some .rol | 4 => some .ror | _ => none
def shOpCode : ShOp → BitVec 3
  | .shl => 0#3 | .shr => 1#3 | .sar => 2#3 | .rol => 3#3 | .ror => 4#3

def bitOpOf (c : BitVec 3) : Option BitOp :=
  match c.toNat with | 0 => some .popc | 1 => some .clz | 2 => some .ctz | 3 => some .brev | 4 => some .bswap | _ => none
def bitOpCode : BitOp → BitVec 3
  | .popc => 0#3 | .clz => 1#3 | .ctz => 2#3 | .brev => 3#3 | .bswap => 4#3

def logFnOf (c : BitVec 3) : LogFn :=
  match c.toNat with
  | 0 => .and | 1 => .or | 2 => .xor | 3 => .andn | 4 => .orn | 5 => .nand | 6 => .nor | _ => .xnor
def logFnCode : LogFn → BitVec 3
  | .and => 0#3 | .or => 1#3 | .xor => 2#3 | .andn => 3#3 | .orn => 4#3 | .nand => 5#3 | .nor => 6#3 | .xnor => 7#3

def negOpOf (c : BitVec 3) : Option NegOp :=
  match c.toNat with | 1 => some .neg | 2 => some .abs | 3 => some .nabs | _ => none
def negOpCode : NegOp → BitVec 3
  | .neg => 1#3 | .abs => 2#3 | .nabs => 3#3

def widthOf (c : BitVec 3) : Option MWidth :=
  match c.toNat with
  | 0 => some .n8 | 1 => some .i8 | 2 => some .n16 | 3 => some .i16 | 4 => some .b32 | 5 => some .b64 | 6 => some .b128
  | _ => none
def widthCode : MWidth → BitVec 3
  | .n8 => 0#3 | .i8 => 1#3 | .n16 => 2#3 | .i16 => 3#3 | .b32 => 4#3 | .b64 => 5#3 | .b128 => 6#3

def orderOf (c : BitVec 2) : MOrder :=
  match c.toNat with | 0 => .none | 1 => .acq | 2 => .rel | _ => .acqrel
def orderCode : MOrder → BitVec 2
  | .none => 0#2 | .acq => 1#2 | .rel => 2#2 | .acqrel => 3#2

def layoutOf (c : BitVec 2) : Option Layout :=
  match c.toNat with | 0 => some .lin | 1 => some .xor16 | 2 => some .xor32 | _ => none
def layoutCode : Layout → BitVec 2
  | .lin => 0#2 | .xor16 => 1#2 | .xor32 => 2#2

def cacheOf (c : BitVec 2) : Option CacheOp :=
  match c.toNat with | 0 => some .ca | 1 => some .cg | 2 => some .ev | _ => none
def cacheCode : CacheOp → BitVec 2
  | .ca => 0#2 | .cg => 1#2 | .ev => 2#2

def feOf (c : BitVec 3) : Option FeQual :=
  match c.toNat with | 0 => some .none | 1 => some .fe | 3 => some .feClr | _ => none
def feCode : FeQual → BitVec 3
  | .none => 0#3 | .fe => 1#3 | .feClr => 3#3

def atomOpOf (c : BitVec 5) : Option AtomOp :=
  match c.toNat with
  | 0 => some .add | 1 => some .min | 2 => some .max | 3 => some .minn | 4 => some .maxn | 5 => some .and
  | 6 => some .or | 7 => some .xor | 8 => some .exch | 9 => some .cas | 10 => some .fadd | 11 => some .fmin
  | 12 => some .fmax | _ => none
def atomOpCode : AtomOp → BitVec 5
  | .add => 0#5 | .min => 1#5 | .max => 2#5 | .minn => 3#5 | .maxn => 4#5 | .and => 5#5 | .or => 6#5
  | .xor => 7#5 | .exch => 8#5 | .cas => 9#5 | .fadd => 10#5 | .fmin => 11#5 | .fmax => 12#5

def shflOf (c : BitVec 2) : ShflOp :=
  match c.toNat with | 0 => .idx | 1 => .up | 2 => .down | _ => .xor
def shflCode : ShflOp → BitVec 3
  | .idx => 0#3 | .up => 1#3 | .down => 2#3 | .xor => 3#3

def reduOf (c : BitVec 3) : Option ReduOp :=
  match c.toNat with
  | 0 => some .add | 1 => some .min | 2 => some .max | 3 => some .and | 4 => some .or | 5 => some .xor | _ => none
def reduCode : ReduOp → BitVec 3
  | .add => 0#3 | .min => 1#3 | .max => 2#3 | .and => 3#3 | .or => 4#3 | .xor => 5#3

def accKindOf (c : BitVec 2) : Option AccKind :=
  match c.toNat with | 0 => some .f32 | 1 => some .f64 | 2 => some .i32 | _ => none
def accKindCode : AccKind → BitVec 2
  | .f32 => 0#2 | .f64 => 1#2 | .i32 => 2#2

def travModeOf (c : BitVec 2) : Option TravMode :=
  match c.toNat with | 0 => some .closest | 1 => some .any | 2 => some .emit | _ => none
def travModeCode : TravMode → BitVec 2
  | .closest => 0#2 | .any => 1#2 | .emit => 2#2

def cctlOf (c : BitVec 3) : Option CctlOp :=
  match c.toNat with
  | 0 => some .wbl | 1 => some .invl | 2 => some .wbinvl | 3 => some .wball | 4 => some .invall | _ => none
def cctlCode : CctlOp → BitVec 3
  | .wbl => 0#3 | .invl => 1#3 | .wbinvl => 2#3 | .wball => 3#3 | .invall => 4#3

/-- The number of a class (10 R181). -/
def clsCode : Cls → BitVec 3
  | .int => 0#3 | .flt => 1#3 | .pkd => 2#3 | .mem => 3#3 | .ctl => 4#3 | .mtx => 5#3 | .eng => 6#3 | .sys => 7#3

/-- The class of a number (10 R181). -/
def clsOf (c : BitVec 3) : Cls :=
  match c.toNat with
  | 0 => .int | 1 => .flt | 2 => .pkd | 3 => .mem | 4 => .ctl | 5 => .mtx | 6 => .eng | _ => .sys

/-- A clause header (10 R181). -/
structure Header where
  count : BitVec 4
  cls   : BitVec 3
  wait  : BitVec 8
  rm    : BitVec 2
  uni   : Bool
  yld   : Bool
  prio  : BitVec 8
  deriving DecidableEq, Repr

/-- The marker of a header (10 R181). -/
def isHeader (w : Word) : Bool := w.extractLsb' 27 5 = 0b11111#5

/-- Fields of a header word (10 R181). -/
def Header.unpack (w : Word) : Header :=
  { count := w.extractLsb' 23 4, cls := w.extractLsb' 20 3, wait := w.extractLsb' 12 8,
    rm := w.extractLsb' 10 2, uni := w.getLsbD 9, yld := w.getLsbD 8, prio := w.extractLsb' 0 8 }

/-- A header word from its fields (10 R181). -/
def Header.pack (h : Header) : Word :=
  0b11111#5 ++ h.count ++ h.cls ++ h.wait ++ h.rm ++ BitVec.ofBool h.uni ++ BitVec.ofBool h.yld ++ h.prio

/-- The rounding mode of a header (10 R181). -/
def Header.mode (h : Header) : RMode :=
  match h.rm.toNat with | 0 => .rne | 1 => .rtz | 2 => .rdn | _ => .rup

/-- Word forms (10 R187 to R189). -/
inductive Form | a | i | b
  deriving DecidableEq, Repr

/-- What an instruction does with its D field. -/
inductive DK
  | none   -- unused
  | reg    -- a destination operand
  | pred   -- a predicate (12 R219)
  | raw    -- checked by the entry
  deriving DecidableEq, Repr

/-- What an instruction does with a source field: unused, an operand of 32, 64 or 128 bits, or a field
that the entry checks. -/
inductive SK | none | r32 | r64 | r128 | raw
  deriving DecidableEq, Repr

/-- The operands that the fields name. -/
structure Opnds where
  d : Dst
  p : Pn
  a : Src
  b : Src
  c : Src
  deriving DecidableEq, Repr

/-- One row of the encoding tables, for the words at hand. -/
structure Row where
  /-- word form -/
  form  : Form := .a
  d     : DK := .none
  a     : SK := .none
  b     : SK := .none
  c     : SK := .none
  /-- whether M is used -/
  m     : Bool := false
  /-- whether the instruction may stand in a uniform clause -/
  uni   : Bool := true
  /-- whether the instruction must stand first in its clause -/
  first : Bool := false
  /-- M, immediate and X-word values are ones the entry defines -/
  ok    : Bool := true
  /-- zero bits of D, A and B that the entry marks are zero -/
  zero  : Bool := true
  /-- the instruction -/
  ins   : Opnds → Option Instr

/-- Whether a major of a class takes an X-word (12 R220, R223). -/
def takesX (c : Cls) (maj : Nat) : Bool :=
  match c with
  | .int => maj = 3 || maj = 12 || maj = 14
  | .flt => maj = 3 || (9 ≤ maj && maj ≤ 18) || maj = 21 || (24 ≤ maj && maj ≤ 26)
  | .pkd => maj ≤ 13
  | .mem => maj ≤ 11
  | .ctl => maj = 11 || maj = 18 || maj = 19
  | .mtx => maj ≤ 13
  | .eng => maj ≤ 19
  | .sys => maj ≤ 15

/-- Bits of the X-word fields 19:0. -/
abbrev xb (x : XWord) (lo n : Nat) : BitVec n := x.f.extractLsb' lo n

/-- The token of an X-word (12 R220). -/
abbrev xt (x : XWord) : Tok := xb x 0 3

/-- The INT class (13 R235). -/
def rowInt (w : AWord) (x : XWord) : Option Row :=
  match w.maj.toNat with
  | 0 => some { d := .reg, a := .r32, b := .r32, m := true, ok := decide (w.m.toNat < 2), ins := fun o => some (.iadd w.st o.d o.a o.b (w.m.getLsbD 0)) }
  | 1 => some { d := .reg, a := .r32, b := .r32, m := true, ok := decide (w.m.toNat < 2), ins := fun o => some (.isub w.st o.d o.a o.b (w.m.getLsbD 0)) }
  | 2 => some { d := .reg, a := .r32, b := .r32, m := true, ok := decide (w.m.toNat < 4), ins := fun o => some (.imul w.st o.d o.a o.b (mulVarOf (w.m.extractLsb' 0 2))) }
  | 3 => some { d := .reg, a := .r32, b := .r32, c := if w.m = 3#3 then .r64 else .r32, m := true, ok := decide (w.m.toNat < 4) && decide (x.f = 0#20), ins := fun o => some (.imad w.st o.d o.a o.b o.c (mulVarOf (w.m.extractLsb' 0 2))) }
  | 4 => some { d := .reg, a := .r32, b := .r32, m := true, ok := decide (w.m.toNat < 2), ins := fun o => some (.imin w.st o.d o.a o.b (w.m.getLsbD 0)) }
  | 5 => some { d := .reg, a := .r32, b := .r32, m := true, ok := decide (w.m.toNat < 2), ins := fun o => some (.imax w.st o.d o.a o.b (w.m.getLsbD 0)) }
  | 6 => some { d := .reg, a := .r32, ins := fun o => some (.iabs w.st o.d o.a) }
  | 7 => some { d := .reg, a := .r32, b := .r32, ins := fun o => some (.andb w.st o.d o.a o.b) }
  | 8 => some { d := .reg, a := .r32, b := .r32, ins := fun o => some (.orb w.st o.d o.a o.b) }
  | 9 => some { d := .reg, a := .r32, b := .r32, ins := fun o => some (.xorb w.st o.d o.a o.b) }
  | 10 => some { d := .reg, a := .r32, b := .r32, ins := fun o => some (.andn w.st o.d o.a o.b) }
  | 11 => some { d := .reg, a := .r32, b := .r32, m := true, ins := fun o => (shOpOf w.m).map (.shf w.st o.d o.a o.b) }
  | 12 => some { d := .reg, a := .r32, b := .r32, c := .r32, m := true, ok := decide (w.m.toNat < 2) && decide (x.f = 0#20), ins := fun o => some (.fshf w.st o.d o.a o.b o.c (w.m.getLsbD 0)) }
  | 13 => some { d := .reg, a := .r32, b := .r32, m := true, ok := decide (w.m.toNat < 2), ins := fun o => some (.bfe w.st o.d o.a o.b (w.m.getLsbD 0)) }
  | 14 => some { d := .reg, a := .r32, b := .r32, c := .r32, ok := decide (x.f = 0#20), ins := fun o => some (.bfi w.st o.d o.a o.b o.c) }
  | 15 => some { d := .reg, a := .r32, m := true, ins := fun o => (bitOpOf w.m).map (.bits w.st o.d o.a) }
  | 16 => some { d := .pred, a := .r32, b := .r32, m := true, uni := false, ins := fun o => some (.icmp w.st o.p o.a o.b (condOf w.m)) }
  | 17 => some { d := .reg, a := .r32, b := .r32, m := true, uni := false, ins := fun o => some (.sel w.st o.d o.a o.b w.m) }
  | 18 => some { d := .reg, a := .r32, ins := fun o => some (.mov w.st o.d o.a) }
  | 19 => some { d := .reg, a := .r64, b := .r32, m := true, ins := fun o => (finOf 5 w.m.toNat).map (.lea w.st o.d o.a o.b) }
  | 20 => some { d := .reg, a := .r64, b := .r64, ins := fun o => some (.iaddx w.st o.d o.a o.b) }
  | 21 => some { d := .pred, a := .raw, b := .raw, m := true, uni := false, zero := decide (w.a.toNat < 16) && decide (w.b.toNat < 16), ins := fun o => some (.plop w.st o.p (w.a.getLsbD 3) (w.a.extractLsb' 0 3) (w.b.getLsbD 3) (w.b.extractLsb' 0 3) (logFnOf w.m)) }
  | 22 => some (if w.m = 0#3 then { d := .reg, m := true, uni := false, ins := fun o => some (.pmovTor w.st o.d) } else { a := .r32, b := .r32, m := true, uni := false, ok := decide (w.m.toNat < 2), ins := fun o => some (.pmovFromr w.st o.a o.b) })
  | 23 => some { a := .r32, m := true, uni := !(w.m.getLsbD 2), ins := fun o => some (.xset w.st o.a (w.m.getLsbD 2) (w.m.extractLsb' 0 2).toFin) }
  | 24 => some { d := .reg, a := .raw, m := true, uni := false, zero := decide (w.a.toNat < 8), ins := fun o => some (.xget w.st o.d (w.a.getLsbD 2) (w.a.extractLsb' 0 2).toFin w.m) }
  | 25 => some { form := .i, d := .reg, a := .r32, ins := fun o => some (.iaddi w.st o.d o.a w.imm) }
  | 26 => some { form := .i, d := .reg, a := .r32, ok := decide (w.imm.extractLsb' 8 2 = 0#2), ins := fun o => (shOpOf (w.imm.extractLsb' 5 3)).map (fun op => .shfi w.st o.d o.a op (w.imm.extractLsb' 0 5)) }
  | 27 => some { form := .i, d := .raw, a := .r32, uni := false, zero := !(w.d.getLsbD 6), ins := fun o => some (.icmpi w.st (w.d.extractLsb' 0 3) (condOf (w.d.extractLsb' 3 3)) o.a w.imm) }
  | _ => none

/-- The two format codes of a conversion's X-word, where both are accepted (14 R255, R266). -/
def fmtPair (ok : Fmt → Fmt → Bool) (x : XWord) (k : Fmt → Fmt → Instr) : Option Instr :=
  match fmtOf (xb x 15 5), fmtOf (xb x 10 5) with
  | some s, some t => if ok s t then some (k s t) else none
  | _, _ => none

/-- The single format code of an X-word with nothing in the second, where accepted. -/
def fmtOne (ok : Fmt → Bool) (x : XWord) (k : Fmt → Option Instr) : Option Instr :=
  match fmtOf (xb x 15 5) with
  | some s => if ok s && decide (xb x 10 5 = 0#5) then k s else none
  | none => none

/-- The FLT class (14 R255). -/
def rowFlt (w : AWord) (x : XWord) : Option Row :=
  match w.maj.toNat with
  | 0 => some { d := .reg, a := .r32, b := .r32, m := true, ins := fun o => some (.fadd w.st o.d o.a o.b (ffOf w.m)) }
  | 1 => some { d := .reg, a := .r32, b := .r32, m := true, ins := fun o => some (.fsub w.st o.d o.a o.b (ffOf w.m)) }
  | 2 => some { d := .reg, a := .r32, b := .r32, m := true, ins := fun o => some (.fmul w.st o.d o.a o.b (ffOf w.m)) }
  | 3 => some { d := .reg, a := .r32, b := .r32, c := .r32, m := true, ok := decide (x.f = 0#20), ins := fun o => some (.ffma w.st o.d o.a o.b o.c (ffOf w.m)) }
  | 4 => some { d := .reg, a := .r32, b := .r32, m := true, ok := decide (w.m.toNat < 4), ins := fun o => some (.fmin w.st o.d o.a o.b (w.m.getLsbD 0) (w.m.getLsbD 1)) }
  | 5 => some { d := .reg, a := .r32, b := .r32, m := true, ok := decide (w.m.toNat < 4), ins := fun o => some (.fmax w.st o.d o.a o.b (w.m.getLsbD 0) (w.m.getLsbD 1)) }
  | 6 => some { d := .pred, a := .r32, b := .r32, m := true, uni := false, ins := fun o => some (.fcmp w.st o.p o.a o.b (condOf w.m)) }
  | 7 => some { d := .reg, a := .r32, m := true, ins := fun o => (negOpOf w.m).map (.fnegabs w.st o.d o.a) }
  | 8 => some { d := .reg, a := .r32, m := true, ok := decide (w.m.toNat < 4), ins := fun o => some (.frnd w.st o.d o.a (w.m.getLsbD 0) (w.m.getLsbD 1)) }
  | 9 => some { d := .reg, a := if xb x 15 5 = 0#5 || xb x 15 5 = 24#5 || xb x 15 5 = 25#5 then .r64 else .r32, m := true, ok := decide (xb x 0 10 = 0#10), ins := fun o => fmtPair fcvtiFmts x (fun s t => .fcvti w.st o.d o.a s t (ffOf w.m)) }
  | 10 => some { d := .reg, a := if xb x 15 5 = 0#5 || xb x 15 5 = 24#5 || xb x 15 5 = 25#5 then .r64 else .r32, m := true, ok := decide (xb x 0 10 = 0#10), ins := fun o => fmtPair icvtfFmts x (fun s t => .icvtf w.st o.d o.a s t (ffOf w.m)) }
  | 11 => some { d := .reg, a := .r32, m := true, ok := decide (w.m.toNat < 4) && decide (xb x 3 17 = 0#17), ins := fun o => some (.frcp w.st o.d o.a (w.m.getLsbD 0) (w.m.getLsbD 1) (xt x)) }
  | 12 => some { d := .reg, a := .r32, m := true, ok := decide (w.m.toNat < 4) && decide (xb x 3 17 = 0#17), ins := fun o => some (.frsq w.st o.d o.a (w.m.getLsbD 0) (w.m.getLsbD 1) (xt x)) }
  | 13 => some { d := .reg, a := .r32, m := true, ok := decide (w.m.toNat < 4) && decide (xb x 3 17 = 0#17), ins := fun o => some (.fsqrt w.st o.d o.a (w.m.getLsbD 0) (w.m.getLsbD 1) (xt x)) }
  | 14 => some { d := .reg, a := .r32, m := true, ok := decide (w.m.toNat < 4) && decide (xb x 3 17 = 0#17), ins := fun o => some (.fexp2 w.st o.d o.a (w.m.getLsbD 0) (w.m.getLsbD 1) (xt x)) }
  | 15 => some { d := .reg, a := .r32, m := true, ok := decide (w.m.toNat < 4) && decide (xb x 3 17 = 0#17), ins := fun o => some (.flog2 w.st o.d o.a (w.m.getLsbD 0) (w.m.getLsbD 1) (xt x)) }
  | 16 => some { d := .reg, a := .r32, m := true, ok := decide (w.m.toNat < 4) && decide (xb x 3 17 = 0#17), ins := fun o => some (.fsin w.st o.d o.a (w.m.getLsbD 0) (w.m.getLsbD 1) (xt x)) }
  | 17 => some { d := .reg, a := .r32, m := true, ok := decide (w.m.toNat < 4) && decide (xb x 3 17 = 0#17), ins := fun o => some (.fcos w.st o.d o.a (w.m.getLsbD 0) (w.m.getLsbD 1) (xt x)) }
  | 18 => some { d := .reg, a := .r32, b := .r32, m := true, ok := decide (xb x 3 17 = 0#17), ins := fun o => some (.fdiv w.st o.d o.a o.b (ffOf w.m) (xt x)) }
  | 19 => some { d := .reg, a := .r64, b := .r64, m := true, ins := fun o => some (.dadd w.st o.d o.a o.b (ffOf w.m)) }
  | 20 => some { d := .reg, a := .r64, b := .r64, m := true, ins := fun o => some (.dmul w.st o.d o.a o.b (ffOf w.m)) }
  | 21 => some { d := .reg, a := .r64, b := .r64, c := .r64, m := true, ok := decide (x.f = 0#20), ins := fun o => some (.dfma w.st o.d o.a o.b o.c (ffOf w.m)) }
  | 22 => some { d := .reg, a := .r64, b := .r64, m := true, ins := fun o => some (.dminmax w.st o.d o.a o.b (w.m.getLsbD 0) (w.m.getLsbD 1) (w.m.getLsbD 2)) }
  | 23 => some { d := .pred, a := .r64, b := .r64, m := true, uni := false, ins := fun o => some (.dcmp w.st o.p o.a o.b (condOf w.m)) }
  | 24 => some { d := .reg, a := if xb x 15 5 = 0#5 || xb x 15 5 = 24#5 || xb x 15 5 = 25#5 then .r64 else .r32, m := true, ok := decide (xb x 0 10 = 0#10), ins := fun o => fmtPair dcvtFmts x (fun s t => .dcvt w.st o.d o.a s t (ffOf w.m)) }
  | 25 => some { d := .reg, a := .r64, m := true, ok := decide (xb x 3 17 = 0#17), ins := fun o => some (.dsqrt w.st o.d o.a (ffOf w.m) (xt x)) }
  | 26 => some { d := .reg, a := .r64, b := .r64, m := true, ok := decide (xb x 3 17 = 0#17), ins := fun o => some (.ddiv w.st o.d o.a o.b (ffOf w.m) (xt x)) }
  | 27 => some { d := .reg, a := .r32, ins := fun o => some (.fclass w.st o.d o.a) }
  | 29 => some { d := .reg, a := .r32, b := .r32, m := true, ins := fun o => some (.fscale w.st o.d o.a o.b (ffOf w.m)) }
  | _ => none

/-- The PKD class (14 R256). -/
def rowPkd (w : AWord) (x : XWord) : Option Row :=
  match w.maj.toNat with
  | 0 => some { d := .reg, a := .r32, b := .r32, m := true, ok := decide (xb x 0 10 = 0#10), ins := fun o => fmtOne fmtHalf x (fun fa => some (.hadd2 w.st o.d o.a o.b fa (ffOf w.m))) }
  | 1 => some { d := .reg, a := .r32, b := .r32, m := true, ok := decide (xb x 0 10 = 0#10), ins := fun o => fmtOne fmtHalf x (fun fa => some (.hmul2 w.st o.d o.a o.b fa (ffOf w.m))) }
  | 2 => some { d := .reg, a := .r32, b := .r32, c := .r32, m := true, ok := decide (xb x 0 10 = 0#10), ins := fun o => fmtOne fmtHalf x (fun fa => some (.hfma2 w.st o.d o.a o.b o.c fa (ffOf w.m))) }
  | 3 => some { d := .reg, a := .r32, b := .r32, m := true, ok := decide (xb x 0 10 = 0#10), ins := fun o => fmtOne fmtHalf x (fun fa => some (.hminmax2 w.st o.d o.a o.b fa (w.m.getLsbD 0) (w.m.getLsbD 1) (w.m.getLsbD 2))) }
  | 4 => some { d := .reg, a := .r32, b := .r32, c := .r32, m := true, ok := decide (w.m.toNat < 4) && decide (xb x 0 10 = 0#10), ins := fun o => fmtPair dot2hFmts x (fun fa fb => .dot2h w.st o.d o.a o.b o.c fa fb (w.m.getLsbD 0) (w.m.getLsbD 1)) }
  | 5 => some { d := .reg, a := .r32, b := .r32, c := .r32, m := true, ok := decide (w.m.toNat < 2) && decide (xb x 0 10 = 0#10), ins := fun o => fmtPair dot4i8Fmts x (fun fa fb => .dot4i8 w.st o.d o.a o.b o.c fa fb (w.m.getLsbD 0)) }
  | 6 => some { d := .reg, a := .r32, b := .r32, c := .r32, m := true, ok := decide (w.m.toNat < 2) && decide (xb x 0 10 = 0#10), ins := fun o => fmtPair dot8i4Fmts x (fun fa fb => .dot8i4 w.st o.d o.a o.b o.c fa fb (w.m.getLsbD 0)) }
  | 7 => some { d := .reg, a := .r32, b := .r32, c := .r32, m := true, ok := decide (w.m.toNat < 4) && decide (xb x 0 10 = 0#10), ins := fun o => fmtPair dot4f8Fmts x (fun fa fb => .dot4f8 w.st o.d o.a o.b o.c fa fb (w.m.getLsbD 0) (w.m.getLsbD 1)) }
  | 8 => some { d := .reg, a := .r32, b := .r32, c := .r32, m := true, ok := decide (w.m.toNat < 4) && decide (xb x 0 10 = 0#10), ins := fun o => fmtPair dot8f4Fmts x (fun _ _ => .dot8f4 w.st o.d o.a o.b o.c (w.m.getLsbD 0) (w.m.getLsbD 1)) }
  | 9 => some { d := .reg, a := .r32, b := .r32, c := .r32, m := true, ok := decide (xb x 0 8 = 0#8), ins := fun o => fmtOne fmtPack x (fun fa => if packIndex fa (xb x 8 2).toNat then some (.pack w.st o.d o.a o.b o.c fa (ffOf w.m) (xb x 8 2).toFin) else none) }
  | 10 => some { d := .reg, a := .r32, m := true, ok := decide (w.m.toNat < 2) && decide (xb x 0 7 = 0#7), ins := fun o => fmtOne fmtPack x (fun fa => if unpackIndex fa (xb x 7 3).toNat then some (.unpack w.st o.d o.a fa (w.m.getLsbD 0) (xb x 7 3).toFin) else none) }
  | 11 => some { d := .reg, a := .r32, b := .r32, m := true, ok := decide (xb x 0 10 = 0#10), ins := fun o => fmtOne fmtScl x (fun fa => some (.scl w.st o.d o.a o.b fa (ffOf w.m))) }
  | 12 => some { d := .reg, a := .r32, b := .r32, c := .r32, ok := decide (xb x 0 10 = 0#10), ins := fun o => fmtOne fmtByte x (fun fa => some (.prmt w.st o.d o.a o.b o.c (decide (fa = .i8)))) }
  | 13 => some { d := .reg, a := .r32, m := true, ok := decide (xb x 0 10 = 0#10), ins := fun o => fmtPair dot2hFmts x (fun fa fb => .hcvt w.st o.d o.a fa fb (ffOf w.m)) }
  | _ => none

/-- An X-word of the MEM class (15 R278). -/
structure MemX where
  op     : BitVec 5
  qual   : BitVec 3
  cache  : BitVec 2
  layout : BitVec 2
  order  : BitVec 2
  width  : BitVec 3
  deriving DecidableEq, Repr

/-- Fields of an X-word of the MEM class (15 R278). -/
def memX (x : XWord) : MemX :=
  { op := xb x 15 5, qual := xb x 12 3, cache := xb x 10 2, layout := xb x 8 2, order := xb x 6 2, width := xb x 3 3 }

/-- The X-word fields of a MEM instruction (15 R278). -/
def memXCode (m : MemX) (t : Tok) : BitVec 20 := m.op ++ m.qual ++ m.cache ++ m.layout ++ m.order ++ m.width ++ t

/-- The operand size of a memory width (15 R279). -/
def memSK (c : BitVec 3) : SK := if c = 5#3 then .r64 else if c = 6#3 then .r128 else .r32

/-- Width, layout and cache codes together, where defined. -/
def memWLC (m : MemX) (k : MWidth → Layout → CacheOp → Option Instr) : Option Instr :=
  match widthOf m.width, layoutOf m.layout, cacheOf m.cache with
  | some w, some l, some c => k w l c
  | _, _, _ => none

/-- No field of a MEM X-word but the width and the token is used. -/
def memPlain (m : MemX) : Bool :=
  decide (m.op = 0#5 && m.qual = 0#3 && m.cache = 0#2 && m.layout = 0#2 && m.order = 0#2)

/-- The MEM class (15 R279). -/
def rowMem (w : AWord) (x : XWord) : Option Row :=
  match w.maj.toNat with
  | 0 => some { d := .reg, a := .r64, b := .r32, ok := decide ((memX x).op = 0#5 && (memX x).qual = 0#3 && (memX x).order.toNat < 2), ins := fun o => memWLC (memX x) (fun wd l c => some (.ld w.st o.d o.a o.b wd ((memX x).order.getLsbD 0) l c (xt x))) }
  | 1 => some { a := .r64, b := .r32, c := memSK (memX x).width, ok := decide ((memX x).op = 0#5 && (memX x).qual = 0#3 && !((memX x).order.getLsbD 0)), ins := fun o => memWLC (memX x) (fun wd l c => if storeWidth wd then some (.stg w.st o.a o.b o.c wd ((memX x).order.getLsbD 1) l c (xt x)) else none) }
  | 2 => some { d := .reg, a := .r32, b := .r32, ok := decide ((memX x).op = 0#5 && (memX x).cache = 0#2 && (memX x).order = 0#2), ins := fun o => memWLC (memX x) (fun wd l _ => (feOf (memX x).qual).map (fun q => .lds w.st o.d o.a o.b wd l q (xt x))) }
  | 3 => some { a := .r32, b := .r32, c := memSK (memX x).width, ok := decide ((memX x).op = 0#5 && (memX x).cache = 0#2 && (memX x).order = 0#2 && (memX x).qual.extractLsb' 0 2 = 0#2), ins := fun o => memWLC (memX x) (fun wd l _ => if storeWidth wd then some (.sts w.st o.a o.b o.c wd l ((memX x).qual.getLsbD 2) (xt x)) else none) }
  | 4 => some { d := .reg, a := .r32, b := .r32, uni := false, ok := memPlain (memX x), ins := fun o => (widthOf (memX x).width).map (fun wd => .ldp w.st o.d o.a o.b wd (xt x)) }
  | 5 => some { a := .r32, b := .r32, c := memSK (memX x).width, uni := false, ok := memPlain (memX x), ins := fun o => memWLC (memX x) (fun wd _ _ => if storeWidth wd then some (.stp w.st o.a o.b o.c wd (xt x)) else none) }
  | 6 => some { d := .reg, a := .r32, b := .r32, ok := memPlain (memX x), ins := fun o => (widthOf (memX x).width).map (fun wd => .ldc w.st o.d o.a o.b wd (xt x)) }
  | 7 => some { d := .reg, a := .r64, b := memSK (memX x).width, c := if (memX x).op = 9#5 then memSK (memX x).width else .none, ok := decide ((memX x).qual = 0#3 && (memX x).cache = 0#2 && ((memX x).width = 4#3 || (memX x).width = 5#3)), ins := fun o => memWLC (memX x) (fun _ l _ => (atomOpOf (memX x).op).map (fun op => .atom w.st o.d o.a o.b o.c op (decide ((memX x).width = 5#3)) (orderOf (memX x).order) l (xt x))) }
  | 8 => some { d := .reg, a := .r32, b := memSK (memX x).width, c := if (memX x).op = 9#5 then memSK (memX x).width else .none, ok := decide ((memX x).qual = 0#3 && (memX x).cache = 0#2 && (memX x).order = 0#2 && ((memX x).width = 4#3 || (memX x).width = 5#3)), ins := fun o => memWLC (memX x) (fun _ l _ => (atomOpOf (memX x).op).map (fun op => .atoms w.st o.d o.a o.b o.c op (decide ((memX x).width = 5#3)) l (xt x))) }
  | 9 => some { a := .r64, b := .r32, ok := memPlain (memX x) && decide ((memX x).width = 4#3), ins := fun o => some (.scadd w.st o.a o.b (xt x)) }
  | 10 => some { ok := decide ((memX x).op = 0#5 && (memX x).qual = 0#3 && (memX x).cache = 0#2 && (memX x).layout = 0#2 && (memX x).order ≠ 0#2 && (memX x).width = 4#3), ins := fun _ => some (.fence w.st (orderOf (memX x).order) (xt x)) }
  | 11 => some { a := .r64, b := .r32, ok := decide ((memX x).op = 0#5 && (memX x).qual = 0#3 && (memX x).cache.toNat < 2 && (memX x).layout = 0#2 && (memX x).order = 0#2 && (memX x).width = 4#3), ins := fun o => some (.pref w.st o.a o.b ((memX x).cache.getLsbD 0) (xt x)) }
  | _ => none

/-- A code that names an even uniform register, s0 to s14 (16 R300, R317). -/
def evenUniform (c : BitVec 7) : Bool := decide (112 ≤ c.toNat) && !(c.getLsbD 0)

/-- The payload count of SPAWN (16 R314). -/
def spawnCount (x : XWord) : Option (Fin 9) := finOf 9 (xb x 8 4).toNat

/-- The CTL class (16 R296). -/
def rowCtl (uni : Bool) (w : AWord) (x : XWord) : Option Row :=
  match w.maj.toNat with
  | 0 => some { form := .b, ins := fun _ => some (.bra w.st (w.bform.extractLsb' 21 3) (w.bform.getLsbD 20) (w.bform.extractLsb' 0 20)) }
  | 1 => some { a := .r64, m := true, ok := !uni || evenUniform w.a, ins := fun o => some (.brx w.st o.a w.m) }
  | 2 => some { form := .b, ins := fun _ => some (.call w.st (w.bform.extractLsb' 21 3) (w.bform.getLsbD 20) (w.bform.extractLsb' 0 20)) }
  | 3 => some { a := .r64, m := true, ok := !uni || evenUniform w.a, ins := fun o => some (.callx w.st o.a w.m) }
  | 4 => some { ins := fun _ => some (.ret w.st) }
  | 5 => some { ins := fun _ => some (.exit w.st) }
  | 6 => some { ins := fun _ => some (.yield w.st) }
  | 7 => some { d := .pred, a := .r32, uni := false, first := true, ins := fun o => some (.joinw w.st o.p o.a) }
  | 8 => some { d := if w.m = 2#3 then .reg else .pred, a := .raw, m := true, uni := false, ok := decide (w.m.toNat < 3) && decide (w.a.toNat < 16), ins := fun o => some (.vote w.st (if w.m = 0#3 then .all o.p else if w.m = 1#3 then .any o.p else .ballot o.d) (w.a.getLsbD 3) (w.a.extractLsb' 0 3)) }
  | 9 => some { d := .reg, a := .r32, b := .r32, m := true, uni := false, ok := decide (w.m.toNat < 4), ins := fun o => some (.shfl w.st o.d o.a o.b (shflOf (w.m.extractLsb' 0 2))) }
  | 10 => some { d := .reg, a := .r32, b := .r32, uni := false, ins := fun o => some (.matchl w.st o.d o.a o.b) }
  | 11 => some { d := .reg, a := if xb x 15 5 = 0#5 || xb x 15 5 = 24#5 || xb x 15 5 = 25#5 then .r64 else .r32, m := true, uni := false, ok := decide (w.m.toNat < 4) && decide (xb x 3 9 = 0#9), ins := fun o => match fmtOf (xb x 15 5), reduOf (xb x 12 3) with | some f, some op => if reduFmt op f (w.m ≠ 0#3) then some (.redu w.st o.d o.a op f (w.m.getLsbD 0) (w.m.getLsbD 1) (xt x)) else none | _, _ => none }
  | 12 => some { d := .raw, a := .r32, b := .r32, m := true, ok := decide (w.d.toNat < 2), ins := fun o => some (.binit w.st (w.d.getLsbD 0) o.a o.b w.m) }
  | 13 => some { d := .reg, a := .r32, b := .r32, m := true, ins := fun o => some (.barv w.st o.d o.a o.b w.m) }
  | 14 => some { d := .pred, a := .r32, b := .r32, uni := false, first := true, ins := fun o => some (.bwait w.st o.p o.a o.b) }
  | 15 => some { d := .reg, a := .r64, m := true, ins := fun o => some (.ticket w.st o.d o.a w.m) }
  | 16 => some { d := .pred, uni := false, first := true, ins := fun o => some (.tkwait w.st o.p) }
  | 17 => some { d := .pred, uni := false, first := true, ins := fun o => some (.tkdone w.st o.p) }
  | 18 => some { a := .r64, b := .r64, uni := false, ok := decide (xb x 3 5 = 0#5), ins := fun o => (spawnCount x).map (fun c => .spawn w.st o.a o.b (xb x 12 8) c (xt x)) }
  | 19 => some { d := .pred, a := .r64, b := .r64, uni := false, ok := decide (xb x 3 5 = 0#5), ins := fun o => (spawnCount x).map (fun c => .spawnt w.st o.p o.a o.b (xb x 12 8) c (xt x)) }
  | 20 => some { d := .reg, a := .r64, ins := fun o => some (.junc w.st o.d o.a) }
  | 21 => some { d := .pred, a := .r64, uni := false, first := true, ins := fun o => some (.jwait w.st o.p o.a) }
  | 22 => some { a := .r64, b := .r64, first := true, ok := evenUniform w.a && evenUniform w.b, ins := fun _ => match finOf 8 ((w.a.toNat - 112) / 2), finOf 8 ((w.b.toNat - 112) / 2) with | some a, some b => some (.handoff w.st a b) | _, _ => none }
  | 23 => some { form := .i, d := .pred, uni := false, ok := !(w.imm.getLsbD 9), ins := fun o => (finOf 25 (w.imm.extractLsb' 4 5).toNat).map (fun n => .donate w.st o.p n (w.imm.extractLsb' 0 4)) }
  | 24 => some { form := .i, d := .pred, uni := false, ok := decide (w.imm.extractLsb' 4 6 = 0#6), ins := fun o => some (.accept w.st o.p (w.imm.extractLsb' 0 4)) }
  | 25 => some { form := .i, ok := decide (w.imm.extractLsb' 8 2 = 0#2), ins := fun _ => some (.trap w.st (w.imm.extractLsb' 0 8)) }
  | 26 => some { form := .i, ok := decide (w.imm.extractLsb' 8 2 = 0#2), ins := fun _ => some (.bpt w.st (w.imm.extractLsb' 0 8)) }
  | 27 => some { ins := fun _ => some (.nop w.st) }
  | 28 => some { form := .i, ok := decide (w.imm.extractLsb' 8 2 = 0#2), ins := fun _ => some (.waitt w.st (w.imm.extractLsb' 0 8)) }
  | _ => none

/-- The MTX class (17 R320). -/
def rowMtx (w : AWord) (x : XWord) : Option Row :=
  match w.maj.toNat with
  | 0 => some { d := if x.f.getLsbD 3 then .pred else .none, a := .r32, uni := !(x.f.getLsbD 3), ok := decide (xb x 4 16 = 0#16), ins := fun o => some (.mclaim w.st (if x.f.getLsbD 3 then some o.p else none) o.a (xt x)) }
  | 1 => some { a := .r32, ok := decide (xb x 3 17 = 0#17), ins := fun o => some (.mfree w.st o.a (xt x)) }
  | 2 => some { ok := decide (xb x 3 7 = 0#7), ins := fun _ => (fmtOf (xb x 15 5)).bind (fun f => if fmtMma f then some (.mldw w.st f (xb x 10 5).toFin (xt x)) else none) }
  | 3 => some { ok := decide (xb x 3 2 = 0#2), ins := fun _ => (fmtOf (xb x 15 5)).bind (fun f => if fmtMma f && mmaFtz f (x.f.getLsbD 6) (x.f.getLsbD 5) then some (.mma w.st f (xb x 10 5).toFin (xb x 7 3).toFin (x.f.getLsbD 6) (x.f.getLsbD 5) (xt x)) else none) }
  | 4 => some { ok := decide (xb x 11 9 = 0#9), ins := fun _ => some (.mzero w.st (xb x 3 8) (xt x)) }
  | 5 => some { d := .reg, b := .r32, uni := false, ok := decide (xb x 10 10 = 0#10 && xb x 3 3 = 0#3), ins := fun o => some (.mrd w.st o.d o.b (xb x 7 3).toFin (x.f.getLsbD 6) (xt x)) }
  | 6 => some { a := if x.f.getLsbD 6 then .r64 else .r32, b := .r32, uni := false, ok := decide (xb x 10 10 = 0#10 && xb x 3 3 = 0#3), ins := fun o => some (.mwr w.st o.a o.b (xb x 7 3).toFin (x.f.getLsbD 6) (xt x)) }
  | 7 => some { a := .r64, b := .r32, ok := decide (xb x 3 2 = 0#2), ins := fun o => match fmtOf (xb x 15 5), layoutOf (xb x 13 2), accKindOf (xb x 5 2) with | some f, some l, some k => if tileFmt k f then some (.mst w.st o.a o.b f l ⟨x.f.getLsbD 11, x.f.getLsbD 10, x.f.getLsbD 12⟩ (xb x 7 3).toFin k (xt x)) else none | _, _, _ => none }
  | 8 => some { a := .r64, b := .r32, ok := decide (xb x 3 2 = 0#2), ins := fun o => match fmtOf (xb x 15 5), layoutOf (xb x 13 2), accKindOf (xb x 5 2) with | some f, some l, some k => if tileFmt k f then some (.mld w.st o.a o.b f l ⟨x.f.getLsbD 11, x.f.getLsbD 10, x.f.getLsbD 12⟩ (xb x 7 3).toFin k (xt x)) else none | _, _, _ => none }
  | 9 => some { ok := decide (xb x 19 1 = 0#1 && xb x 3 16 ≠ 0#16), ins := fun _ => some (.mburst w.st (xb x 3 16) (xt x)) }
  | 10 => some { ok := decide (xb x 3 17 = 0#17), ins := fun _ => some (.msync w.st (xt x)) }
  | 11 => some { a := if x.f.getLsbD 6 then .r64 else .r32, b := .r32, uni := false, ok := decide (xb x 15 5 = 0#5 && xb x 7 3 = 0#3 && xb x 3 3 = 0#3), ins := fun o => some (.mslotw w.st o.a o.b (xb x 10 5).toFin (x.f.getLsbD 6) (xt x)) }
  | 12 => some { d := .reg, b := .r32, uni := false, ok := decide (xb x 15 5 = 0#5 && xb x 7 3 = 0#3 && xb x 3 3 = 0#3), ins := fun o => some (.mslotr w.st o.d o.b (xb x 10 5).toFin (x.f.getLsbD 6) (xt x)) }
  | 13 => some { ok := decide (xb x 4 16 = 0#16), ins := fun _ => some (.mredn w.st (x.f.getLsbD 3) (xt x)) }
  | _ => none

/-- An octet, named by its first register ÷ 8 (19 R361). -/
def octetOf (c : BitVec 7) : Option (Fin 12) := if c.toNat % 8 = 0 then finOf 12 (c.toNat / 8) else none

/-- A group of twelve registers, named by its first register ÷ 4 (19 R361). -/
def twelveOf (c : BitVec 7) : Option (Fin 22) := if c.toNat % 4 = 0 then finOf 22 (c.toNat / 4) else none

/-- The ENG class (18 R335, 19 R359). -/
def rowEng (w : AWord) (x : XWord) : Option Row :=
  match w.maj.toNat with
  | 0 => some { a := .r64, b := .r64, c := .r128, ok := decide (xb x 7 13 = 0#13), ins := fun o => some (.ecopy w.st o.a o.b o.c (x.f.getLsbD 6) (x.f.getLsbD 5) (x.f.getLsbD 4) (x.f.getLsbD 3) (xt x)) }
  | 1 => some { a := .r64, b := .r64, c := .r128, ok := decide (xb x 9 11 = 0#11 && xb x 6 1 = 0#1), ins := fun o => (layoutOf (xb x 7 2)).map (fun l => .ecopys w.st o.a o.b o.c l (x.f.getLsbD 5) (x.f.getLsbD 4) (x.f.getLsbD 3) (xt x)) }
  | 2 => some { a := .r64, b := .r64, ok := decide (xb x 3 17 = 0#17), ins := fun o => some (.echain w.st o.a o.b (xt x)) }
  | 3 => some { a := .r64, ok := decide (xb x 3 17 = 0#17), ins := fun o => some (.eadv w.st o.a (xt x)) }
  | 4 => some { d := .pred, a := .r64, b := .r64, uni := false, first := true, ok := decide (x.f = 0#20), ins := fun o => some (.ewait w.st o.p o.a o.b) }
  | 5 => some { a := .r64, b := .r64, ok := decide (xb x 5 15 = 0#15), ins := fun o => some (.coll w.st o.a o.b (x.f.getLsbD 4) (x.f.getLsbD 3) (xt x)) }
  | 6 => some { a := .raw, uni := false, ok := decide (xb x 7 13 = 0#13), ins := fun _ => (finOf 93 w.a.toNat).map (fun v => .trec w.st v (xb x 3 4) (xt x)) }
  | 7 => some { d := .raw, uni := false, ok := decide (xb x 6 14 = 0#14), ins := fun _ => (finOf 93 w.d.toNat).map (fun v => .tpop w.st v (xb x 3 3) (xt x)) }
  | 8 => some { a := .raw, uni := false, ok := decide (xb x 8 12 = 0#12), ins := fun _ => (finOf 93 w.a.toNat).map (fun v => .tspan w.st v (x.f.getLsbD 7) (xb x 3 4) (xt x)) }
  | 9 => some { d := if x.f.getLsbD 3 then .reg else .none, uni := false, ok := decide (xb x 4 16 = 0#16), ins := fun o => some (.tseek w.st (if x.f.getLsbD 3 then some o.d else none) (xt x)) }
  | 10 => some { d := .reg, a := .r128, b := .r128, c := .r128, uni := false, ok := decide (xb x 5 15 = 0#15), ins := fun o => (travModeOf (xb x 3 2)).map (fun md => .travs w.st o.d o.a o.b o.c md (xt x)) }
  | 11 => some { d := .raw, a := .r32, uni := false, ok := decide (xb x 4 16 = 0#16), ins := fun o => (octetOf w.d).map (fun d => .travr w.st d o.a (x.f.getLsbD 3) (xt x)) }
  | 12 => some { d := .raw, a := .r32, b := .r128, c := .r64, uni := false, ok := decide (xb x 3 17 = 0#17), ins := fun o => (octetOf w.d).map (fun d => .trava w.st d o.a o.b o.c (xt x)) }
  | 13 => some { d := .reg, a := .r64, b := .r64, uni := false, ok := decide (xb x 3 17 = 0#17), ins := fun o => some (.txs w.st o.d o.a o.b (xt x)) }
  | 14 => some { d := .reg, a := .r64, b := .r64, c := .r128, uni := false, ok := decide (xb x 3 17 = 0#17), ins := fun o => some (.txg w.st o.d o.a o.b o.c (xt x)) }
  | 15 => some { a := .r64, b := .r64, c := .r64, ok := decide (xb x 3 17 = 0#17), ins := fun o => some (.rsub w.st o.a o.b o.c (xt x)) }
  | 16 => some { d := .raw, a := .r64, b := .r128, c := .r32, uni := false, ok := decide (xb x 3 17 = 0#17), ins := fun o => (octetOf w.d).map (fun d => .radj w.st d o.a o.b o.c (xt x)) }
  | 17 => some { d := .raw, a := .r128, b := .r64, c := .r32, uni := false, ok := decide (xb x 3 17 = 0#17), ins := fun o => (octetOf w.d).map (fun d => .edge w.st d o.a o.b o.c (xt x)) }
  | 18 => some { ok := decide (xb x 3 17 = 0#17), ins := fun _ => some (.gscom w.st (xt x)) }
  | 19 => some { d := .pred, a := .r64, b := .raw, uni := false, ok := decide (xb x 3 17 = 0#17), ins := fun o => (twelveOf w.b).map (fun b => .pemit w.st o.p o.a b (xt x)) }
  | _ => none

/-- The SYS class (20 R379). -/
def rowSys (w : AWord) (x : XWord) : Option Row :=
  match w.maj.toNat with
  | 0 => some { d := .reg, uni := !(perThreadSpecial (xb x 8 8)), ok := decide (xb x 16 4 = 0#4) && decide (xb x 3 5 = 0#5) && specialKnown (xb x 8 8), ins := fun o => some (.srd w.st o.d (xb x 8 8) (xt x)) }
  | 1 => some { a := if specialWide (xb x 8 8) then .r64 else .r32, ok := decide (xb x 16 4 = 0#4) && decide (xb x 3 5 = 0#5) && specialKnown (xb x 8 8), ins := fun o => some (.swr w.st o.a (xb x 8 8) (xt x)) }
  | 2 => some { a := .r64, ok := decide (xb x 6 14 = 0#14), ins := fun o => (cctlOf (xb x 3 3)).map (fun op => .cctl w.st o.a op (xt x)) }
  | 3 => some { ok := decide (xb x 3 6 = 0#6), ins := fun _ => some (.pmc w.st (xb x 14 6) (xb x 12 2) (x.f.getLsbD 11) (x.f.getLsbD 10) (x.f.getLsbD 9) (xt x)) }
  | 4 => some { d := .reg, ok := decide (xb x 14 6 = 0#6) && decide (xb x 3 9 = 0#9), ins := fun o => some (.pmr w.st o.d (xb x 12 2) (xt x)) }
  | 5 => some { d := .reg, ok := decide (xb x 4 16 = 0#16), ins := fun o => some (.clk w.st o.d (x.f.getLsbD 3) (xt x)) }
  | 6 => some { a := .r64, ok := decide (xb x 4 16 = 0#16), ins := fun o => some (.tlbh w.st o.a (x.f.getLsbD 3) (xt x)) }
  | 7 => some { d := .reg, a := .r64, ok := decide (xb x 3 5 = 0#5), ins := fun o => some (.scall w.st o.d o.a (xb x 8 12) (xt x)) }
  | 8 => some (if x.f.getLsbD 3 then { a := .r64, first := true, ok := decide (xb x 8 12 = 0#12) && decide (xt x = 0#3), ins := fun o => some (.digestStep w.st o.a (xb x 4 4)) } else { a := .r64, b := .r64, c := .r32, ok := decide (xb x 8 12 = 0#12), ins := fun o => some (.digestAbsorb w.st o.a o.b o.c (xb x 4 4) (xt x)) })
  | 9 => some { d := if xb x 3 2 = 0#2 then .reg else .none, a := if xb x 3 2 = 0#2 then .none else .r32, ok := decide (xb x 5 15 = 0#15) && decide ((xb x 3 2).toNat < 3), ins := fun o => some (.mode w.st (if xb x 3 2 = 0#2 then .rd o.d else if xb x 3 2 = 1#2 then .set o.a else .clr o.a) (xt x)) }
  | 10 => some { a := if xb x 3 2 = 1#2 then .none else .r64, ok := decide (xb x 5 15 = 0#15) && decide ((xb x 3 2).toNat < 3), ins := fun o => some (.eflt w.st (if xb x 3 2 = 0#2 then .copy o.a else if xb x 3 2 = 1#2 then .clr else .copyClr o.a) (xt x)) }
  | 11 => some { ok := decide (xb x 5 15 = 0#15), ins := fun _ => some (.pwrh w.st (xb x 3 2) (xt x)) }
  | 12 => some { d := .reg, ok := decide (xb x 6 14 = 0#14), ins := fun o => some (.qrd w.st o.d (xb x 3 3) (xt x)) }
  | 13 => some { a := .r32, ok := decide (xb x 6 14 = 0#14), ins := fun o => some (.qwr w.st o.a (xb x 3 3) (xt x)) }
  | 14 => some { a := .r64, b := .r64, ok := decide (xb x 3 17 = 0#17), ins := fun o => some (.lnch w.st o.a o.b (xt x)) }
  | 15 => some { d := if x.f.getLsbD 3 then .none else .reg, a := if x.f.getLsbD 3 then .r64 else .none, ok := decide (xb x 4 16 = 0#16), ins := fun o => some (.replay w.st (if x.f.getLsbD 3 then .req o.a else .rd o.d) (xt x)) }
  | _ => none

/-- The row of a word in a class (12 R223); none where the major is unassigned. -/
def rowOf (c : Cls) (uni : Bool) (w : AWord) (x : XWord) : Option Row :=
  match c with
  | .int => rowInt w x
  | .flt => rowFlt w x
  | .pkd => rowPkd w x
  | .mem => rowMem w x
  | .ctl => rowCtl uni w x
  | .mtx => rowMtx w x
  | .eng => rowEng w x
  | .sys => rowSys w x

/-- Words a literal of this operand takes (10 R193); a 128-bit operand takes none (15 R279). -/
def SK.litWords (k : SK) (code : BitVec 7) : Nat :=
  if code = litCode then (match k with | .r32 => 1 | .r64 => 2 | _ => 0) else 0

/-- The literal of an operand, low word first (10 R193). -/
def litVal (n : Nat) (ws : List Word) : DWord :=
  match n, ws with
  | 1, x :: _ => x.setWidth 64
  | 2, x :: y :: _ => DWord.ofWords x y
  | _, _ => 0#64

/-- Whether the field is an operand. -/
def SK.isOp (k : SK) : Bool := k = .r32 || k = .r64 || k = .r128

/-- Codes a uniform clause allows an operand (01 R20). -/
def uniCode (code : BitVec 7) : Bool := decide (110 ≤ code.toNat)

/-- The Clause Format cases of one instruction that its fields decide (10 R184). -/
def formatBad (r : Row) (uni first : Bool) (w : AWord) (x : XWord) : Bool :=
  (decide (r.form ≠ .b) && decide (w.d = 0x68#7 ∨ w.d = 0x69#7 ∨ w.d = litCode)) ||
  (r.first && !first) ||
  (uni && (!r.uni || (r.a.isOp && !uniCode w.a) || (r.b.isOp && !uniCode w.b) || (r.c.isOp && !uniCode x.c) ||
    (decide (r.d = .reg) && !uniCode w.d)))

/-- The Illegal Instruction cases that do not need the instruction: undefined values, a C field that is
not the zero code where there is no C operand, and a 128-bit literal (10 R191, 15 R279). -/
def illegalBad (r : Row) (hasX : Bool) (w : AWord) (x : XWord) : Bool :=
  !r.ok || (hasX && decide (r.c = .none) && decide (x.c ≠ zeroCode)) ||
  (decide (r.a = .r128) && decide (w.a = litCode)) || (decide (r.b = .r128) && decide (w.b = litCode)) ||
  (decide (r.c = .r128) && decide (x.c = litCode))

/-- The Reserved Bits cases (10 R191, 12 R219). -/
def reservedBad (r : Row) (w : AWord) : Bool :=
  decide (r.form ≠ .b) &&
  ((decide (r.d = .none) && decide (w.d ≠ zeroCode)) || (decide (r.d = .pred) && decide (8 ≤ w.d.toNat)) ||
   (decide (r.a = .none) && decide (w.a ≠ zeroCode)) ||
   (decide (r.form = .a) &&
     ((decide (r.b = .none) && decide (w.b ≠ zeroCode)) || (!r.m && decide (w.m ≠ 0#3)))) ||
   !r.zero)

/-- The rest of decoding once the row is known; `rest` are the words after the instruction word and its
X-word, `used` their number. -/
def finish (r : Row) (hasX uni first : Bool) (w : AWord) (x : XWord) (rest : List Word) (used : Nat) :
    Except DecodeFault (Instr × Nat) :=
  let na := r.a.litWords w.a
  let nb := if r.form = .a then r.b.litWords w.b else 0
  let nc := r.c.litWords x.c
  if rest.length < na + nb + nc then .error .clauseFormat
  else if formatBad r uni first w x then .error .clauseFormat
  else if illegalBad r hasX w x then .error .illegal
  else
    let o : Opnds :=
      { d := dstOf w.d, p := w.d.extractLsb' 0 3, a := srcOf (litVal na rest) w.a,
        b := srcOf (litVal nb (rest.drop na)) w.b, c := srcOf (litVal nc (rest.drop (na + nb))) x.c }
    match r.ins o with
    | none => .error .illegal
    | some i => if reservedBad r w then .error .reserved else .ok (i, used + na + nb + nc)

/-- Decoding the instruction at the front of a clause's remaining words: the instruction and the words it
takes, or the fault of 12 R218. -/
def decode (c : Cls) (uni first : Bool) (ws : List Word) : Except DecodeFault (Instr × Nat) :=
  match ws with
  | [] => .error .clauseFormat
  | w0 :: rest =>
    let w := AWord.unpack w0
    if 30 ≤ w.maj.toNat then .error .clauseFormat
    else if takesX c w.maj.toNat then
      match rest with
      | [] => .error .clauseFormat
      | x0 :: rest' =>
        match XWord.unpack x0 with
        | none => .error .clauseFormat
        | some x =>
          match rowOf c uni w x with
          | none => .error .illegal
          | some r => finish r true uni first w x rest' 2
    else
      match rowOf c uni w ⟨zeroCode, 0#20⟩ with
      | none => .error .illegal
      | some r => finish r false uni first w ⟨zeroCode, 0#20⟩ rest 1

/-- How many fields of the word the instruction leaves unused; used where no class is given. -/
def fixedFields (c : Cls) (w0 : Word) : Nat :=
  match rowOf c false (AWord.unpack w0) ⟨zeroCode, 0#20⟩ with
  | none => 0
  | some r =>
    (if r.d = .none && r.form ≠ .b then 2 else if r.d = .pred then 1 else 0) + (if r.a = .none && r.form ≠ .b then 2 else 0) +
    (if r.b = .none && r.form = .a then 2 else 0)

/-- The classes in their order. -/
def allCls : List Cls := [.int, .flt, .pkd, .mem, .ctl, .mtx, .eng, .sys]

/-- The n words of a number, the least significant first. -/
def wordsOf (x : Nat) : Nat → List Word
  | 0 => []
  | n + 1 => BitVec.ofNat 32 x :: wordsOf (x >>> 32) n

/-- The class a word is read in where the table gives none: of the classes in which it is an instruction
that takes at least its bits, the one that leaves most fields unused, the first of them in order. -/
def tableCls (nbits x : Nat) : Option (Cls × Instr × Nat) :=
  allCls.foldl (fun best c =>
    match decode c false true (wordsOf x 8) with
    | .error _ => best
    | .ok (i, n) =>
      if 32 * n < nbits then best
      else match best with
        | none => some (c, i, n)
        | some (c', _, _) =>
          if fixedFields c' (BitVec.ofNat 32 x) < fixedFields c (BitVec.ofNat 32 x) then some (c, i, n) else best)
    none

/-- The instruction the decoder reads from a word of the opcode table. -/
def decodeTableWord (nbits w : Nat) : Option Instr := (tableCls nbits w).map (fun r => r.2.1)

/-- An encoded instruction: its class, its word, its X-word and its literals (10 R183). -/
structure Enc where
  cls  : Cls
  w    : AWord
  x    : Option XWord
  lits : List Word
  deriving DecidableEq, Repr

/-- The words in their order (10 R183). -/
def Enc.words (e : Enc) : List Word :=
  match e.x with
  | none => e.w.pack :: e.lits
  | some x => e.w.pack :: x.pack :: e.lits

/-- The literal word of a 32-bit operand. -/
def lit32 (s : Src) : List Word :=
  match s with
  | .lit w => [w.lo]
  | _ => []

/-- The literal words of a 64-bit operand, low word first. -/
def lit64 (s : Src) : List Word :=
  match s with
  | .lit w => [w.lo, w.hi]
  | _ => []

/-- The literal words of an operand of 64 bits where `wide`, of 32 otherwise. -/
def litW (wide : Bool) (s : Src) : List Word := if wide then lit64 s else lit32 s

/-- The literal words of store data. -/
def litM (w : MWidth) (s : Src) : List Word :=
  match w with
  | .b64 => lit64 s
  | .b128 => []
  | _ => lit32 s

/-- A predicate in the D field (12 R219). -/
def pd (p : Pn) : BitVec 7 := 0#4 ++ p

/-- One bit. -/
abbrev bit (b : Bool) : BitVec 1 := BitVec.ofBool b

/-- M of the two flush bits. -/
def ftzCode (ftzi ftzo : Bool) : BitVec 3 := 0#1 ++ bit ftzo ++ bit ftzi

/-- The X-word of a kind-C instruction, fields zero. -/
def xc (c : Src) : Option XWord := some ⟨srcCode c, 0#20⟩

/-- An X-word with fields and no C operand. -/
def xf (f : BitVec 20) : Option XWord := some ⟨zeroCode, f⟩

/-- An X-word with the token alone. -/
def xtok (t : Tok) : Option XWord := xf (0#17 ++ t)

/-- An X-word of the MEM class. -/
def xmem (op : BitVec 5) (qual : BitVec 3) (c : CacheOp) (l : Layout) (o : MOrder) (w : MWidth) (t : Tok) : BitVec 20 :=
  memXCode ⟨op, qual, cacheCode c, layoutCode l, orderCode o, widthCode w⟩ t

/-- The integer width of an atomic. -/
def atomWidth (wide : Bool) : MWidth := if wide then .b64 else .b32

/-- The code of a direct register number. -/
def regCode (n : Nat) : BitVec 7 := BitVec.ofNat 7 n

/-- An A-form word. -/
def wa (cls : Cls) (maj : BitVec 5) (st : Stall) (d a b : BitVec 7) (m : BitVec 3) (x : Option XWord)
    (lits : List Word) : Option Enc := some ⟨cls, ⟨maj, st, d, a, b, m⟩, x, lits⟩

/-- An I-form word (10 R188). -/
def wi (cls : Cls) (maj : BitVec 5) (st : Stall) (d a : BitVec 7) (imm : BitVec 10) (lits : List Word) : Option Enc :=
  some ⟨cls, ⟨maj, st, d, a, imm.extractLsb' 3 7, imm.extractLsb' 0 3⟩, none, lits⟩

/-- A B-form word (10 R189). -/
def wb (maj : BitVec 5) (st : Stall) (p : Pn) (neg : Bool) (off : BitVec 20) : Option Enc :=
  let f : BitVec 24 := p ++ bit neg ++ off
  some ⟨.ctl, ⟨maj, st, f.extractLsb' 17 7, f.extractLsb' 10 7, f.extractLsb' 3 7, f.extractLsb' 0 3⟩, none, []⟩

/-- The encoding of a well-formed instruction; events have none (12 R223). -/
def encFields (i : Instr) : Option Enc :=
  match i with
  | .iadd st d a b sat => wa .int 0#5 st (dstCode d) (srcCode a) (srcCode b) (0#2 ++ bit sat) none (lit32 a ++ lit32 b)
  | .isub st d a b sat => wa .int 1#5 st (dstCode d) (srcCode a) (srcCode b) (0#2 ++ bit sat) none (lit32 a ++ lit32 b)
  | .imul st d a b v => wa .int 2#5 st (dstCode d) (srcCode a) (srcCode b) (mulVarCode v) none (lit32 a ++ lit32 b)
  | .imad st d a b c v => wa .int 3#5 st (dstCode d) (srcCode a) (srcCode b) (mulVarCode v) (xc c) (lit32 a ++ lit32 b ++ litW (decide (v = .wide)) c)
  | .imin st d a b n => wa .int 4#5 st (dstCode d) (srcCode a) (srcCode b) (0#2 ++ bit n) none (lit32 a ++ lit32 b)
  | .imax st d a b n => wa .int 5#5 st (dstCode d) (srcCode a) (srcCode b) (0#2 ++ bit n) none (lit32 a ++ lit32 b)
  | .iabs st d a => wa .int 6#5 st (dstCode d) (srcCode a) zeroCode (0#3) none (lit32 a)
  | .andb st d a b => wa .int 7#5 st (dstCode d) (srcCode a) (srcCode b) (0#3) none (lit32 a ++ lit32 b)
  | .orb st d a b => wa .int 8#5 st (dstCode d) (srcCode a) (srcCode b) (0#3) none (lit32 a ++ lit32 b)
  | .xorb st d a b => wa .int 9#5 st (dstCode d) (srcCode a) (srcCode b) (0#3) none (lit32 a ++ lit32 b)
  | .andn st d a b => wa .int 10#5 st (dstCode d) (srcCode a) (srcCode b) (0#3) none (lit32 a ++ lit32 b)
  | .shf st d a b op => wa .int 11#5 st (dstCode d) (srcCode a) (srcCode b) (shOpCode op) none (lit32 a ++ lit32 b)
  | .fshf st d a b c right => wa .int 12#5 st (dstCode d) (srcCode a) (srcCode b) (0#2 ++ bit right) (xc c) (lit32 a ++ lit32 b ++ lit32 c)
  | .bfe st d a b sgn => wa .int 13#5 st (dstCode d) (srcCode a) (srcCode b) (0#2 ++ bit sgn) none (lit32 a ++ lit32 b)
  | .bfi st d a b c => wa .int 14#5 st (dstCode d) (srcCode a) (srcCode b) (0#3) (xc c) (lit32 a ++ lit32 b ++ lit32 c)
  | .bits st d a op => wa .int 15#5 st (dstCode d) (srcCode a) zeroCode (bitOpCode op) none (lit32 a)
  | .icmp st p a b cond => wa .int 16#5 st (pd p) (srcCode a) (srcCode b) (condCode cond) none (lit32 a ++ lit32 b)
  | .sel st d a b k => wa .int 17#5 st (dstCode d) (srcCode a) (srcCode b) (k) none (lit32 a ++ lit32 b)
  | .mov st d a => wa .int 18#5 st (dstCode d) (srcCode a) zeroCode (0#3) none (lit32 a)
  | .lea st d a b sh => wa .int 19#5 st (dstCode d) (srcCode a) (srcCode b) (BitVec.ofNat 3 sh.val) none (lit64 a ++ lit32 b)
  | .iaddx st d a b => wa .int 20#5 st (dstCode d) (srcCode a) (srcCode b) (0#3) none (lit64 a ++ lit64 b)
  | .plop st p na pa nb pb fn => wa .int 21#5 st (pd p) (0#3 ++ bit na ++ pa) (0#3 ++ bit nb ++ pb) (logFnCode fn) none ([])
  | .pmovTor st d => wa .int 22#5 st (dstCode d) zeroCode zeroCode (0#3) none ([])
  | .pmovFromr st a b => wa .int 22#5 st zeroCode (srcCode a) (srcCode b) (1#3) none (lit32 a ++ lit32 b)
  | .xset st a idx x => wa .int 23#5 st zeroCode (srcCode a) zeroCode (bit idx ++ BitVec.ofNat 2 x.val) none (lit32 a)
  | .xget st d idx x t => wa .int 24#5 st (dstCode d) (0#4 ++ bit idx ++ BitVec.ofNat 2 x.val) zeroCode (t) none ([])
  | .iaddi st d a imm => wi .int 25#5 st (dstCode d) (srcCode a) imm (lit32 a)
  | .shfi st d a op n => wi .int 26#5 st (dstCode d) (srcCode a) (0#2 ++ shOpCode op ++ n) (lit32 a)
  | .icmpi st p cond a imm => wi .int 27#5 st (0#1 ++ condCode cond ++ p) (srcCode a) imm (lit32 a)
  | .fadd st d a b f => wa .flt 0#5 st (dstCode d) (srcCode a) (srcCode b) (ffCode f) none (lit32 a ++ lit32 b)
  | .fsub st d a b f => wa .flt 1#5 st (dstCode d) (srcCode a) (srcCode b) (ffCode f) none (lit32 a ++ lit32 b)
  | .fmul st d a b f => wa .flt 2#5 st (dstCode d) (srcCode a) (srcCode b) (ffCode f) none (lit32 a ++ lit32 b)
  | .ffma st d a b c f => wa .flt 3#5 st (dstCode d) (srcCode a) (srcCode b) (ffCode f) (xc c) (lit32 a ++ lit32 b ++ lit32 c)
  | .fmin st d a b ftzi ftzo => wa .flt 4#5 st (dstCode d) (srcCode a) (srcCode b) (ftzCode ftzi ftzo) none (lit32 a ++ lit32 b)
  | .fmax st d a b ftzi ftzo => wa .flt 5#5 st (dstCode d) (srcCode a) (srcCode b) (ftzCode ftzi ftzo) none (lit32 a ++ lit32 b)
  | .fcmp st p a b cond => wa .flt 6#5 st (pd p) (srcCode a) (srcCode b) (condCode cond) none (lit32 a ++ lit32 b)
  | .fnegabs st d a op => wa .flt 7#5 st (dstCode d) (srcCode a) zeroCode (negOpCode op) none (lit32 a)
  | .frnd st d a ftzi ftzo => wa .flt 8#5 st (dstCode d) (srcCode a) zeroCode (ftzCode ftzi ftzo) none (lit32 a)
  | .fcvti st d a src dst f => wa .flt 9#5 st (dstCode d) (srcCode a) zeroCode (ffCode f) (xf (fmtCode src ++ fmtCode dst ++ 0#10)) (litW (wide64 src) a)
  | .icvtf st d a src dst f => wa .flt 10#5 st (dstCode d) (srcCode a) zeroCode (ffCode f) (xf (fmtCode src ++ fmtCode dst ++ 0#10)) (litW (wide64 src) a)
  | .dcvt st d a src dst f => wa .flt 24#5 st (dstCode d) (srcCode a) zeroCode (ffCode f) (xf (fmtCode src ++ fmtCode dst ++ 0#10)) (litW (wide64 src) a)
  | .frcp st d a ftzi ftzo t => wa .flt 11#5 st (dstCode d) (srcCode a) zeroCode (ftzCode ftzi ftzo) (xtok t) (lit32 a)
  | .frsq st d a ftzi ftzo t => wa .flt 12#5 st (dstCode d) (srcCode a) zeroCode (ftzCode ftzi ftzo) (xtok t) (lit32 a)
  | .fsqrt st d a ftzi ftzo t => wa .flt 13#5 st (dstCode d) (srcCode a) zeroCode (ftzCode ftzi ftzo) (xtok t) (lit32 a)
  | .fexp2 st d a ftzi ftzo t => wa .flt 14#5 st (dstCode d) (srcCode a) zeroCode (ftzCode ftzi ftzo) (xtok t) (lit32 a)
  | .flog2 st d a ftzi ftzo t => wa .flt 15#5 st (dstCode d) (srcCode a) zeroCode (ftzCode ftzi ftzo) (xtok t) (lit32 a)
  | .fsin st d a ftzi ftzo t => wa .flt 16#5 st (dstCode d) (srcCode a) zeroCode (ftzCode ftzi ftzo) (xtok t) (lit32 a)
  | .fcos st d a ftzi ftzo t => wa .flt 17#5 st (dstCode d) (srcCode a) zeroCode (ftzCode ftzi ftzo) (xtok t) (lit32 a)
  | .fdiv st d a b f t => wa .flt 18#5 st (dstCode d) (srcCode a) (srcCode b) (ffCode f) (xtok t) (lit32 a ++ lit32 b)
  | .dadd st d a b f => wa .flt 19#5 st (dstCode d) (srcCode a) (srcCode b) (ffCode f) none (lit64 a ++ lit64 b)
  | .dmul st d a b f => wa .flt 20#5 st (dstCode d) (srcCode a) (srcCode b) (ffCode f) none (lit64 a ++ lit64 b)
  | .dfma st d a b c f => wa .flt 21#5 st (dstCode d) (srcCode a) (srcCode b) (ffCode f) (xc c) (lit64 a ++ lit64 b ++ lit64 c)
  | .dminmax st d a b ftzi ftzo max => wa .flt 22#5 st (dstCode d) (srcCode a) (srcCode b) (bit max ++ bit ftzo ++ bit ftzi) none (lit64 a ++ lit64 b)
  | .dcmp st p a b cond => wa .flt 23#5 st (pd p) (srcCode a) (srcCode b) (condCode cond) none (lit64 a ++ lit64 b)
  | .dsqrt st d a f t => wa .flt 25#5 st (dstCode d) (srcCode a) zeroCode (ffCode f) (xtok t) (lit64 a)
  | .ddiv st d a b f t => wa .flt 26#5 st (dstCode d) (srcCode a) (srcCode b) (ffCode f) (xtok t) (lit64 a ++ lit64 b)
  | .fclass st d a => wa .flt 27#5 st (dstCode d) (srcCode a) zeroCode (0#3) none (lit32 a)
  | .fscale st d a b f => wa .flt 29#5 st (dstCode d) (srcCode a) (srcCode b) (ffCode f) none (lit32 a ++ lit32 b)
  | .hadd2 st d a b fa f => wa .pkd 0#5 st (dstCode d) (srcCode a) (srcCode b) (ffCode f) (xf (fmtCode fa ++ 0#15)) (lit32 a ++ lit32 b)
  | .hmul2 st d a b fa f => wa .pkd 1#5 st (dstCode d) (srcCode a) (srcCode b) (ffCode f) (xf (fmtCode fa ++ 0#15)) (lit32 a ++ lit32 b)
  | .hfma2 st d a b c fa f => wa .pkd 2#5 st (dstCode d) (srcCode a) (srcCode b) (ffCode f) (some ⟨srcCode c, fmtCode fa ++ 0#15⟩) (lit32 a ++ lit32 b ++ lit32 c)
  | .hminmax2 st d a b fa ftzi ftzo max => wa .pkd 3#5 st (dstCode d) (srcCode a) (srcCode b) (bit max ++ bit ftzo ++ bit ftzi) (xf (fmtCode fa ++ 0#15)) (lit32 a ++ lit32 b)
  | .dot2h st d a b c fa fb ftzi ftzo => wa .pkd 4#5 st (dstCode d) (srcCode a) (srcCode b) (ftzCode ftzi ftzo) (some ⟨srcCode c, fmtCode fa ++ fmtCode fb ++ 0#10⟩) (lit32 a ++ lit32 b ++ lit32 c)
  | .dot4i8 st d a b c fa fb sat => wa .pkd 5#5 st (dstCode d) (srcCode a) (srcCode b) (0#2 ++ bit sat) (some ⟨srcCode c, fmtCode fa ++ fmtCode fb ++ 0#10⟩) (lit32 a ++ lit32 b ++ lit32 c)
  | .dot8i4 st d a b c fa fb sat => wa .pkd 6#5 st (dstCode d) (srcCode a) (srcCode b) (0#2 ++ bit sat) (some ⟨srcCode c, fmtCode fa ++ fmtCode fb ++ 0#10⟩) (lit32 a ++ lit32 b ++ lit32 c)
  | .dot4f8 st d a b c fa fb ftzi ftzo => wa .pkd 7#5 st (dstCode d) (srcCode a) (srcCode b) (ftzCode ftzi ftzo) (some ⟨srcCode c, fmtCode fa ++ fmtCode fb ++ 0#10⟩) (lit32 a ++ lit32 b ++ lit32 c)
  | .dot8f4 st d a b c ftzi ftzo => wa .pkd 8#5 st (dstCode d) (srcCode a) (srcCode b) (ftzCode ftzi ftzo) (some ⟨srcCode c, fmtCode .f4 ++ fmtCode .f4 ++ 0#10⟩) (lit32 a ++ lit32 b ++ lit32 c)
  | .pack st d a b c fa f pair => wa .pkd 9#5 st (dstCode d) (srcCode a) (srcCode b) (ffCode f) (some ⟨srcCode c, fmtCode fa ++ 0#5 ++ BitVec.ofNat 2 pair.val ++ 0#8⟩) (lit32 a ++ lit32 b ++ lit32 c)
  | .unpack st d a fa ftzi el => wa .pkd 10#5 st (dstCode d) (srcCode a) zeroCode (0#2 ++ bit ftzi) (xf (fmtCode fa ++ 0#5 ++ BitVec.ofNat 3 el.val ++ 0#7)) (lit32 a)
  | .scl st d a b fa f => wa .pkd 11#5 st (dstCode d) (srcCode a) (srcCode b) (ffCode f) (xf (fmtCode fa ++ 0#15)) (lit32 a ++ lit32 b)
  | .prmt st d a b c sgn => wa .pkd 12#5 st (dstCode d) (srcCode a) (srcCode b) (0#3) (some ⟨srcCode c, fmtCode (if sgn then .i8 else .n8) ++ 0#15⟩) (lit32 a ++ lit32 b ++ lit32 c)
  | .hcvt st d a fa fb f => wa .pkd 13#5 st (dstCode d) (srcCode a) zeroCode (ffCode f) (xf (fmtCode fa ++ fmtCode fb ++ 0#10)) (lit32 a)
  | .ld st d a b w acq l c t => wa .mem 0#5 st (dstCode d) (srcCode a) (srcCode b) (0#3) (xf (xmem 0#5 0#3 c l (if acq then .acq else .none) w t)) (lit64 a ++ lit32 b)
  | .stg st a b c w rel l k t => wa .mem 1#5 st zeroCode (srcCode a) (srcCode b) (0#3) (some ⟨srcCode c, xmem 0#5 0#3 k l (if rel then .rel else .none) w t⟩) (lit64 a ++ lit32 b ++ litM w c)
  | .lds st d a b w l fe t => wa .mem 2#5 st (dstCode d) (srcCode a) (srcCode b) (0#3) (xf (xmem 0#5 (feCode fe) .ca l .none w t)) (lit32 a ++ lit32 b)
  | .sts st a b c w l setFull t => wa .mem 3#5 st zeroCode (srcCode a) (srcCode b) (0#3) (some ⟨srcCode c, xmem 0#5 (bit setFull ++ 0#2) .ca l .none w t⟩) (lit32 a ++ lit32 b ++ litM w c)
  | .ldp st d a b w t => wa .mem 4#5 st (dstCode d) (srcCode a) (srcCode b) (0#3) (xf (xmem 0#5 0#3 .ca .lin .none w t)) (lit32 a ++ lit32 b)
  | .stp st a b c w t => wa .mem 5#5 st zeroCode (srcCode a) (srcCode b) (0#3) (some ⟨srcCode c, xmem 0#5 0#3 .ca .lin .none w t⟩) (lit32 a ++ lit32 b ++ litM w c)
  | .ldc st d a b w t => wa .mem 6#5 st (dstCode d) (srcCode a) (srcCode b) (0#3) (xf (xmem 0#5 0#3 .ca .lin .none w t)) (lit32 a ++ lit32 b)
  | .atom st d a b c op wide o l t => wa .mem 7#5 st (dstCode d) (srcCode a) (srcCode b) (0#3) (some ⟨srcCode c, xmem (atomOpCode op) 0#3 .ca l o (atomWidth wide) t⟩) (lit64 a ++ litW wide b ++ litW wide c)
  | .atoms st d a b c op wide l t => wa .mem 8#5 st (dstCode d) (srcCode a) (srcCode b) (0#3) (some ⟨srcCode c, xmem (atomOpCode op) 0#3 .ca l .none (atomWidth wide) t⟩) (lit32 a ++ litW wide b ++ litW wide c)
  | .scadd st a b t => wa .mem 9#5 st zeroCode (srcCode a) (srcCode b) (0#3) (xf (xmem 0#5 0#3 .ca .lin .none .b32 t)) (lit64 a ++ lit32 b)
  | .fence st o t => wa .mem 10#5 st zeroCode zeroCode zeroCode (0#3) (xf (xmem 0#5 0#3 .ca .lin o .b32 t)) ([])
  | .pref st a b cg t => wa .mem 11#5 st zeroCode (srcCode a) (srcCode b) (0#3) (xf (xmem 0#5 0#3 (if cg then .cg else .ca) .lin .none .b32 t)) (lit64 a ++ lit32 b)
  | .bra st p neg off => wb 0#5 st p neg off
  | .call st p neg off => wb 2#5 st p neg off
  | .brx st a p => wa .ctl 1#5 st zeroCode (srcCode a) zeroCode (p) none (lit64 a)
  | .callx st a p => wa .ctl 3#5 st zeroCode (srcCode a) zeroCode (p) none (lit64 a)
  | .ret st => wa .ctl 4#5 st zeroCode zeroCode zeroCode (0#3) none ([])
  | .exit st => wa .ctl 5#5 st zeroCode zeroCode zeroCode (0#3) none ([])
  | .yield st => wa .ctl 6#5 st zeroCode zeroCode zeroCode (0#3) none ([])
  | .nop st => wa .ctl 27#5 st zeroCode zeroCode zeroCode (0#3) none ([])
  | .joinw st p a => wa .ctl 7#5 st (pd p) (srcCode a) zeroCode (0#3) none (lit32 a)
  | .vote st d inv pa => match d with | .all p => wa .ctl 8#5 st (pd p) (0#3 ++ bit inv ++ pa) zeroCode (0#3) none ([]) | .any p => wa .ctl 8#5 st (pd p) (0#3 ++ bit inv ++ pa) zeroCode (1#3) none ([]) | .ballot d => wa .ctl 8#5 st (dstCode d) (0#3 ++ bit inv ++ pa) zeroCode (2#3) none ([])
  | .shfl st d a b op => wa .ctl 9#5 st (dstCode d) (srcCode a) (srcCode b) (shflCode op) none (lit32 a ++ lit32 b)
  | .matchl st d a b => wa .ctl 10#5 st (dstCode d) (srcCode a) (srcCode b) (0#3) none (lit32 a ++ lit32 b)
  | .redu st d a op fmt ftzi ftzo t => wa .ctl 11#5 st (dstCode d) (srcCode a) zeroCode (ftzCode ftzi ftzo) (xf (fmtCode fmt ++ reduCode op ++ 0#9 ++ t)) (litW (wide64 fmt) a)
  | .binit st range a b t => wa .ctl 12#5 st (0#6 ++ bit range) (srcCode a) (srcCode b) (t) none (lit32 a ++ lit32 b)
  | .barv st d a b t => wa .ctl 13#5 st (dstCode d) (srcCode a) (srcCode b) (t) none (lit32 a ++ lit32 b)
  | .bwait st p a b => wa .ctl 14#5 st (pd p) (srcCode a) (srcCode b) (0#3) none (lit32 a ++ lit32 b)
  | .ticket st d a t => wa .ctl 15#5 st (dstCode d) (srcCode a) zeroCode (t) none (lit64 a)
  | .tkwait st p => wa .ctl 16#5 st (pd p) zeroCode zeroCode (0#3) none ([])
  | .tkdone st p => wa .ctl 17#5 st (pd p) zeroCode zeroCode (0#3) none ([])
  | .spawn st a b first count t => wa .ctl 18#5 st zeroCode (srcCode a) (srcCode b) (0#3) (xf (first ++ BitVec.ofNat 4 count.val ++ 0#5 ++ t)) (lit64 a ++ lit64 b)
  | .spawnt st p a b first count t => wa .ctl 19#5 st (pd p) (srcCode a) (srcCode b) (0#3) (xf (first ++ BitVec.ofNat 4 count.val ++ 0#5 ++ t)) (lit64 a ++ lit64 b)
  | .junc st d a => wa .ctl 20#5 st (dstCode d) (srcCode a) zeroCode (0#3) none (lit64 a)
  | .jwait st p a => wa .ctl 21#5 st (pd p) (srcCode a) zeroCode (0#3) none (lit64 a)
  | .handoff st a b => wa .ctl 22#5 st zeroCode (regCode (112 + 2 * a.val)) (regCode (112 + 2 * b.val)) (0#3) none ([])
  | .donate st p n tag => wi .ctl 23#5 st (pd p) zeroCode (0#1 ++ BitVec.ofNat 5 n.val ++ tag) []
  | .accept st p tag => wi .ctl 24#5 st (pd p) zeroCode (0#6 ++ tag) []
  | .trap st code => wi .ctl 25#5 st zeroCode zeroCode (0#2 ++ code) []
  | .bpt st code => wi .ctl 26#5 st zeroCode zeroCode (0#2 ++ code) []
  | .waitt st mask => wi .ctl 28#5 st zeroCode zeroCode (0#2 ++ mask) []
  | .mclaim st p a t => match p with | none => wa .mtx 0#5 st zeroCode (srcCode a) zeroCode (0#3) (xf (0#17 ++ t)) (lit32 a) | some p => wa .mtx 0#5 st (pd p) (srcCode a) zeroCode (0#3) (xf (0#16 ++ 1#1 ++ t)) (lit32 a)
  | .mfree st a t => wa .mtx 1#5 st zeroCode (srcCode a) zeroCode (0#3) (xtok t) (lit32 a)
  | .mldw st fmt slot t => wa .mtx 2#5 st zeroCode zeroCode zeroCode (0#3) (xf (fmtCode fmt ++ BitVec.ofNat 5 slot.val ++ 0#7 ++ t)) ([])
  | .mma st fmt slot acc ftzi ftzo t => wa .mtx 3#5 st zeroCode zeroCode zeroCode (0#3) (xf (fmtCode fmt ++ BitVec.ofNat 5 slot.val ++ BitVec.ofNat 3 acc.val ++ bit ftzi ++ bit ftzo ++ 0#2 ++ t)) ([])
  | .mzero st mask t => wa .mtx 4#5 st zeroCode zeroCode zeroCode (0#3) (xf (0#9 ++ mask ++ t)) ([])
  | .mrd st d b acc wide t => wa .mtx 5#5 st (dstCode d) zeroCode (srcCode b) (0#3) (xf (0#10 ++ BitVec.ofNat 3 acc.val ++ bit wide ++ 0#3 ++ t)) (lit32 b)
  | .mwr st a b acc wide t => wa .mtx 6#5 st zeroCode (srcCode a) (srcCode b) (0#3) (xf (0#10 ++ BitVec.ofNat 3 acc.val ++ bit wide ++ 0#3 ++ t)) (litW wide a ++ lit32 b)
  | .mst st a b fmt l f acc kind t => wa .mtx 7#5 st zeroCode (srcCode a) (srcCode b) (0#3) (xf (fmtCode fmt ++ layoutCode l ++ bit f.sat ++ bit f.ftzi ++ bit f.ftzo ++ BitVec.ofNat 3 acc.val ++ accKindCode kind ++ 0#2 ++ t)) (lit64 a ++ lit32 b)
  | .mld st a b fmt l f acc kind t => wa .mtx 8#5 st zeroCode (srcCode a) (srcCode b) (0#3) (xf (fmtCode fmt ++ layoutCode l ++ bit f.sat ++ bit f.ftzi ++ bit f.ftzo ++ BitVec.ofNat 3 acc.val ++ accKindCode kind ++ 0#2 ++ t)) (lit64 a ++ lit32 b)
  | .mburst st n t => wa .mtx 9#5 st zeroCode zeroCode zeroCode (0#3) (xf (0#1 ++ n ++ t)) ([])
  | .msync st t => wa .mtx 10#5 st zeroCode zeroCode zeroCode (0#3) (xtok t) ([])
  | .mslotw st a b slot wide t => wa .mtx 11#5 st zeroCode (srcCode a) (srcCode b) (0#3) (xf (0#5 ++ BitVec.ofNat 5 slot.val ++ 0#3 ++ bit wide ++ 0#3 ++ t)) (litW wide a ++ lit32 b)
  | .mslotr st d b slot wide t => wa .mtx 12#5 st (dstCode d) zeroCode (srcCode b) (0#3) (xf (0#5 ++ BitVec.ofNat 5 slot.val ++ 0#3 ++ bit wide ++ 0#3 ++ t)) (lit32 b)
  | .mredn st on t => wa .mtx 13#5 st zeroCode zeroCode zeroCode (0#3) (xf (0#16 ++ bit on ++ t)) ([])
  | .ecopy st a b c follow bind rel acq t => wa .eng 0#5 st zeroCode (srcCode a) (srcCode b) (0#3) (some ⟨srcCode c, 0#13 ++ bit follow ++ bit bind ++ bit rel ++ bit acq ++ t⟩) (lit64 a ++ lit64 b)
  | .ecopys st a b c l bind rel acq t => wa .eng 1#5 st zeroCode (srcCode a) (srcCode b) (0#3) (some ⟨srcCode c, 0#11 ++ layoutCode l ++ 0#1 ++ bit bind ++ bit rel ++ bit acq ++ t⟩) (lit64 a ++ lit64 b)
  | .echain st a b t => wa .eng 2#5 st zeroCode (srcCode a) (srcCode b) (0#3) (xtok t) (lit64 a ++ lit64 b)
  | .eadv st a t => wa .eng 3#5 st zeroCode (srcCode a) zeroCode (0#3) (xtok t) (lit64 a)
  | .ewait st p a b => wa .eng 4#5 st (pd p) (srcCode a) (srcCode b) (0#3) (xf 0#20) (lit64 a ++ lit64 b)
  | .coll st a b rel acq t => wa .eng 5#5 st zeroCode (srcCode a) (srcCode b) (0#3) (xf (0#15 ++ bit rel ++ bit acq ++ t)) (lit64 a ++ lit64 b)
  | .trec st v mask t => wa .eng 6#5 st zeroCode (regCode v.val) zeroCode (0#3) (xf (0#13 ++ mask ++ t)) ([])
  | .tpop st v p t => wa .eng 7#5 st (regCode v.val) zeroCode zeroCode (0#3) (xf (0#14 ++ p ++ t)) ([])
  | .tspan st v detour mask t => wa .eng 8#5 st zeroCode (regCode v.val) zeroCode (0#3) (xf (0#12 ++ bit detour ++ mask ++ t)) ([])
  | .tseek st d t => match d with | none => wa .eng 9#5 st zeroCode zeroCode zeroCode (0#3) (xtok t) ([]) | some d => wa .eng 9#5 st (dstCode d) zeroCode zeroCode (0#3) (xf (0#16 ++ 1#1 ++ t)) ([])
  | .travs st d a b c mode t => wa .eng 10#5 st (dstCode d) (srcCode a) (srcCode b) (0#3) (some ⟨srcCode c, 0#15 ++ travModeCode mode ++ t⟩) ([])
  | .travr st d a keep t => wa .eng 11#5 st (regCode (8 * d.val)) (srcCode a) zeroCode (0#3) (xf (0#16 ++ bit keep ++ t)) (lit32 a)
  | .trava st d a b c t => wa .eng 12#5 st (regCode (8 * d.val)) (srcCode a) (srcCode b) (0#3) (some ⟨srcCode c, 0#17 ++ t⟩) (lit32 a ++ lit64 c)
  | .txs st d a b t => wa .eng 13#5 st (dstCode d) (srcCode a) (srcCode b) (0#3) (xtok t) (lit64 a ++ lit64 b)
  | .txg st d a b c t => wa .eng 14#5 st (dstCode d) (srcCode a) (srcCode b) (0#3) (some ⟨srcCode c, 0#17 ++ t⟩) (lit64 a ++ lit64 b)
  | .rsub st a b c t => wa .eng 15#5 st zeroCode (srcCode a) (srcCode b) (0#3) (some ⟨srcCode c, 0#17 ++ t⟩) (lit64 a ++ lit64 b ++ lit64 c)
  | .radj st d a b c t => wa .eng 16#5 st (regCode (8 * d.val)) (srcCode a) (srcCode b) (0#3) (some ⟨srcCode c, 0#17 ++ t⟩) (lit64 a ++ lit32 c)
  | .edge st d a b c t => wa .eng 17#5 st (regCode (8 * d.val)) (srcCode a) (srcCode b) (0#3) (some ⟨srcCode c, 0#17 ++ t⟩) (lit64 b ++ lit32 c)
  | .gscom st t => wa .eng 18#5 st zeroCode zeroCode zeroCode (0#3) (xtok t) ([])
  | .pemit st p a b t => wa .eng 19#5 st (pd p) (srcCode a) (regCode (4 * b.val)) (0#3) (xtok t) (lit64 a)
  | .srd st d reg t => wa .sys 0#5 st (dstCode d) zeroCode zeroCode (0#3) (xf (0#4 ++ reg ++ 0#5 ++ t)) ([])
  | .swr st a reg t => wa .sys 1#5 st zeroCode (srcCode a) zeroCode (0#3) (xf (0#4 ++ reg ++ 0#5 ++ t)) (litW (specialWide reg) a)
  | .cctl st a op t => wa .sys 2#5 st zeroCode (srcCode a) zeroCode (0#3) (xf (0#14 ++ cctlCode op ++ t)) (lit64 a)
  | .pmc st ev k enable clear own t => wa .sys 3#5 st zeroCode zeroCode zeroCode (0#3) (xf (ev ++ k ++ bit enable ++ bit clear ++ bit own ++ 0#6 ++ t)) ([])
  | .pmr st d k t => wa .sys 4#5 st (dstCode d) zeroCode zeroCode (0#3) (xf (0#6 ++ k ++ 0#9 ++ t)) ([])
  | .clk st d ns t => wa .sys 5#5 st (dstCode d) zeroCode zeroCode (0#3) (xf (0#16 ++ bit ns ++ t)) ([])
  | .tlbh st a evict t => wa .sys 6#5 st zeroCode (srcCode a) zeroCode (0#3) (xf (0#16 ++ bit evict ++ t)) (lit64 a)
  | .scall st d a service t => wa .sys 7#5 st (dstCode d) (srcCode a) zeroCode (0#3) (xf (service ++ 0#5 ++ t)) (lit64 a)
  | .digestAbsorb st a b c slot t => wa .sys 8#5 st zeroCode (srcCode a) (srcCode b) (0#3) (some ⟨srcCode c, 0#12 ++ slot ++ 0#1 ++ t⟩) (lit64 a ++ lit64 b ++ lit32 c)
  | .digestStep st a slot => wa .sys 8#5 st zeroCode (srcCode a) zeroCode (0#3) (xf (0#12 ++ slot ++ 1#1 ++ 0#3)) (lit64 a)
  | .mode st op t => match op with | .rd d => wa .sys 9#5 st (dstCode d) zeroCode zeroCode (0#3) (xf (0#15 ++ 0#2 ++ t)) ([]) | .set a => wa .sys 9#5 st zeroCode (srcCode a) zeroCode (0#3) (xf (0#15 ++ 1#2 ++ t)) (lit32 a) | .clr a => wa .sys 9#5 st zeroCode (srcCode a) zeroCode (0#3) (xf (0#15 ++ 2#2 ++ t)) (lit32 a)
  | .eflt st op t => match op with | .copy a => wa .sys 10#5 st zeroCode (srcCode a) zeroCode (0#3) (xf (0#15 ++ 0#2 ++ t)) (lit64 a) | .clr => wa .sys 10#5 st zeroCode zeroCode zeroCode (0#3) (xf (0#15 ++ 1#2 ++ t)) ([]) | .copyClr a => wa .sys 10#5 st zeroCode (srcCode a) zeroCode (0#3) (xf (0#15 ++ 2#2 ++ t)) (lit64 a)
  | .pwrh st level t => wa .sys 11#5 st zeroCode zeroCode zeroCode (0#3) (xf (0#15 ++ level ++ t)) ([])
  | .qrd st d q t => wa .sys 12#5 st (dstCode d) zeroCode zeroCode (0#3) (xf (0#14 ++ q ++ t)) ([])
  | .qwr st a q t => wa .sys 13#5 st zeroCode (srcCode a) zeroCode (0#3) (xf (0#14 ++ q ++ t)) (lit32 a)
  | .lnch st a b t => wa .sys 14#5 st zeroCode (srcCode a) (srcCode b) (0#3) (xtok t) (lit64 a ++ lit64 b)
  | .replay st op t => match op with | .rd d => wa .sys 15#5 st (dstCode d) zeroCode zeroCode (0#3) (xf (0#16 ++ 0#1 ++ t)) ([]) | .req a => wa .sys 15#5 st zeroCode (srcCode a) zeroCode (0#3) (xf (0#16 ++ 1#1 ++ t)) (lit64 a)
  | .clauseFetch => none
  | .clauseBoundary => none
  | .frontierAgeExpiry => none
  | .joinwTimeout _ => none
  | .memRequestComplete _ _ => none
  | .feWaitRetry _ => none
  | .ownershipRegister _ _ => none
  | .l1CopyExpiry _ _ => none
  | .atomicPerform _ => none
  | .engineWriteLand _ => none
  | .ticketAutoPass _ => none
  | .copyCommandStart _ => none
  | .copyElementRead _ _ => none
  | .milepostWrite _ _ => none
  | .followOnMmaHandover _ _ => none
  | .chainRecordTake _ => none
  | .mldwLatchComplete _ => none
  | .mmaPassComplete _ _ => none
  | .matrixRampUpEnd _ => none
  | .matrixRampDownEnd _ => none
  | .mburstIdleExpiry _ => none
  | .collCommandStart _ => none
  | .spawnQueueIdleTimeout _ _ => none
  | .cohortRetire _ => none
  | .handoffRendezvous _ => none
  | .rasterBatch => none
  | .classifyResume => none
  | .rbFragment _ => none
  | .textureSample _ => none
  | .travNodeStep _ _ => none
  | .travPrimitiveTest _ _ => none
  | .gsuAddend _ => none
  | .gsuCommit _ => none
  | .pageWalk _ _ _ => none
  | .walkRetryTimer _ _ _ => none
  | .invpage _ => none
  | .invspace _ => none
  | .invall _ => none
  | .migrate _ => none
  | .keyLoad => none
  | .keyClear => none
  | .keyClearDone _ => none
  | .attestReport => none
  | .attestExtend => none
  | .bar2Read _ _ => none
  | .bar2Write _ _ _ => none
  | .atomicopFetchadd _ _ _ => none
  | .atomicopSwap _ _ _ => none
  | .atomicopCas _ _ _ _ => none
  | .functionLevelReset => none
  | .packageReset => none
  | .tamgalReady => none
  | .queueNotify _ _ => none
  | .notifyLink => none
  | .eventLogConfigWrite _ _ => none
  | .eventLogTailWrite _ => none
  | .registerWrite _ _ => none
  | .version _ => none
  | .yieldq _ => none
  | .sleep _ => none
  | .sleepExpiry _ => none
  | .log _ => none
  | .regionupd _ => none
  | .halt _ => none
  | .kill _ => none
  | .scallStatusDelivery _ => none
  | .slotBind _ => none
  | .slotEvict _ => none
  | .slotGrowGrant _ _ => none
  | .bindRecordOtherWrite _ _ => none
  | .evictComplete _ => none
  | .launchTake _ => none
  | .bindDecision _ _ _ => none
  | .deadlinePassed _ => none
  | .quantumCheck _ => none
  | .launchEnd _ => none
  | .energyDeduction _ => none
  | .powerSample _ _ => none
  | .correctedError _ _ => none
  | .uncorrectableError _ _ _ => none
  | .arrayRowMapOut _ _ => none
  | .hbmRowRepairDone _ => none
  | .patrolScrub _ _ => none
  | .portRetrainDone _ => none
  | .reads _ => none
  | .reado _ => none
  | .upgr _ => none
  | .wback _ _ => none
  | .fwd _ _ => none
  | .inv _ => none
  | .recall _ => none
  | .censusStart _ => none
  | .censusLine _ => none
  | .censusEnd _ => none
  | .censusClose _ => none
  | .fabricTimeout _ => none
  | .censusEndTimeout _ _ => none
  | .collData _ _ _ => none
  | .collAck _ _ => none
  | .atomicRequest _ _ _ => none
  | .atomicResponse _ _ _ _ => none
  | .replayPassStart => none
  | .writesetCapture _ => none
  | .tokenUnitComplete _ => none
  | .traversalContextReset _ => none
  | .completionRingRead _ _ => none
  | .l2WayWritebackDone _ => none

/-- The class and the words of a well-formed instruction (10 R183). -/
def encode (i : Instr) : Option (Cls × List Word) := (encFields i).map (fun e => (e.cls, e.words))

end Sys2Proof
end

