-- ==== Sys2Proof/Machine/NMap.lean ====
section
/-! DEFINITION. Sparse storage keyed by a number, in one canonical form: keys strictly rising and no
entry equal to the default, so that equal contents are equal data. Memory, registers, scratch,
tiles and slots are all held this way. -/

namespace Sys2Proof.Machine

/-- Sparse contents: (key, value) pairs in rising key order. -/
abbrev NMap (α : Type) := List (Nat × α)

/-- The value at a key; the default where nothing is listed. -/
def NMap.get {α : Type} (d : α) : NMap α → Nat → α
  | [], _ => d
  | (k, v) :: m, i => if k = i then v else NMap.get d m i

/-- The entries under other keys. -/
def NMap.drop {α : Type} (i : Nat) (m : NMap α) : NMap α := m.filter (fun e => decide (e.1 ≠ i))

/-- The entry in front of a rest whose keys are larger; a default value lists nothing. -/
def NMap.link {α : Type} [DecidableEq α] (d : α) (i : Nat) (x : α) (m : NMap α) : NMap α :=
  if x = d then m else (i, x) :: m

/-- Writing a value at a key; writing the default removes the entry. -/
def NMap.set {α : Type} [DecidableEq α] (d : α) : NMap α → Nat → α → NMap α
  | [], i, x => NMap.link d i x []
  | (k, v) :: m, i, x =>
    if k = i then NMap.link d i x (NMap.drop i m)
    else if i < k then NMap.link d i x ((k, v) :: NMap.drop i m)
    else (k, v) :: NMap.set d m i x

/-- Every key is above the bound, keys rise, and no entry is the default. -/
def NMap.wfFrom {α : Type} [DecidableEq α] (d : α) : Nat → NMap α → Bool
  | _, [] => true
  | lo, (k, v) :: m => decide (lo ≤ k) && decide (v ≠ d) && NMap.wfFrom d (k + 1) m

/-- The canonical form. -/
def NMap.wf {α : Type} [DecidableEq α] (d : α) (m : NMap α) : Bool := NMap.wfFrom d 0 m

/-- Writing a list of values at consecutive keys. -/
def NMap.setAll {α : Type} [DecidableEq α] (d : α) (m : NMap α) (i : Nat) : List α → NMap α
  | [] => m
  | x :: xs => NMap.setAll d (NMap.set d m i x) (i + 1) xs

/-- Reading n values at consecutive keys. -/
def NMap.getAll {α : Type} (d : α) (m : NMap α) (i : Nat) : Nat → List α
  | 0 => []
  | n + 1 => NMap.get d m i :: NMap.getAll d m (i + 1) n

/-- Keeping the entries whose key passes a test. -/
def NMap.keep {α : Type} (p : Nat → Bool) (m : NMap α) : NMap α := m.filter (fun e => p e.1)

end Sys2Proof.Machine
end

