-- ==== Sys2Proof/Machine/Bits.lean ====
section
/-! DEFINITION. Bit-field, sign-extension and byte-order helpers (10 R201, 00 R7) and the integer
functions of the INT class on whole words (13 R237 to R248). -/

namespace Sys2Proof.Machine

/-- Bits hi:lo of a number, the slice x[hi:lo] of 00 R12. -/
def slice (x : Nat) (hi lo : Nat) : Nat := (x >>> lo) % 2 ^ (hi + 1 - lo)

/-- One bit of a number. -/
def bitAt (x : Nat) (k : Nat) : Bool := x.testBit k

/-- Sext(x, n): the low n bits as a two's complement value (10 R201). -/
def sextN (n x : Nat) : Int :=
  let y := x % 2 ^ n
  if y < 2 ^ (n - 1) then (y : Int) else (y : Int) - (2 ^ n : Nat)

/-- The two's complement pattern of an integer at a width (11 R205). -/
def wrapN (n : Nat) (x : Int) : Nat := (x % ((2 ^ n : Nat) : Int)).toNat

/-- Sext(x, 32) of a register. -/
def sx (x : Word) : Int := x.toInt

/-- The 32-bit pattern of an integer. -/
def wordOfInt (x : Int) : Word := BitVec.ofInt 32 x

/-- The 64-bit pattern of an integer. -/
def dwordOfInt (x : Int) : DWord := BitVec.ofInt 64 x

/-- Clamping to the ends of i32 (11 R205). -/
def clampI32 (x : Int) : Int := min (max x (-2147483648)) 2147483647

/-- The n bytes of a number, least significant first (00 R7). -/
def bytesOf (x : Nat) : Nat → List Byte
  | 0 => []
  | n + 1 => BitVec.ofNat 8 x :: bytesOf (x >>> 8) n

/-- The number whose bytes these are, least significant first (00 R7). -/
def natOfBytes : List Byte → Nat
  | [] => 0
  | b :: bs => b.toNat + 256 * natOfBytes bs

/-- A 0 or 1 as a number. -/
def b2n (b : Bool) : Nat := if b then 1 else 0

/-- The active threads of a mask in ascending order (10 R201, Active). -/
def lanes (mask : Word) : List Nat := (List.range 32).filter (fun t => mask.getLsbD t)

/-- The mask of a list of threads. -/
def maskOf (ts : List Nat) : Word :=
  ts.foldl (fun m t => m ||| (1#32 <<< t)) 0#32

/-- The lowest set bit of a mask, Lowest(c) of 10 R201; 0 when none is set. -/
def lowestLane (mask : Word) : Nat := (lanes mask).headD 0

/-- Number of set bits (13 R245). -/
def popc (x : Word) : Nat := (lanes x).length

/-- IADD and ISUB: the exact sum, clamped with .sat, reduced to 32 bits (13 R237). -/
def addSat (sat : Bool) (a b : Word) : Word :=
  let x := sx a + sx b
  wordOfInt (if sat then clampI32 x else x)

/-- ISUB (13 R237). -/
def subSat (sat : Bool) (a b : Word) : Word :=
  let x := sx a - sx b
  wordOfInt (if sat then clampI32 x else x)

/-- IMUL and IMAD, the 32-bit variants (13 R238). -/
def mulAdd32 (v : MulVar) (a b c : Word) : Word :=
  match v with
  | .lo => wordOfInt (sx a * sx b + sx c)
  | .hi => wordOfInt ((sx a * sx b) / 4294967296 + sx c)
  | .hin => wordOfInt (((a.toNat * b.toNat) / 4294967296 : Nat) + sx c)
  | .wide => wordOfInt (sx a * sx b + sx c)

/-- IMUL.wide and IMAD.wide (13 R238). -/
def mulAddWide (a b : Word) (c : DWord) : DWord := dwordOfInt (sx a * sx b + c.toInt)

/-- IMIN (13 R239). -/
def minW (unsigned : Bool) (a b : Word) : Word :=
  if unsigned then (if a.toNat ≤ b.toNat then a else b) else (if sx a ≤ sx b then a else b)

/-- IMAX (13 R239). -/
def maxW (unsigned : Bool) (a b : Word) : Word :=
  if unsigned then (if a.toNat ≤ b.toNat then b else a) else (if sx a ≤ sx b then b else a)

/-- IABS (13 R239). -/
def absW (a : Word) : Word := wordOfInt (if sx a < 0 then - sx a else sx a)

/-- SHF and SHFI (13 R241). -/
def shiftW (op : ShOp) (a : Word) (n : Nat) : Word :=
  match op with
  | .shl => if n ≥ 32 then 0#32 else a <<< n
  | .shr => if n ≥ 32 then 0#32 else a >>> n
  | .sar => if n ≥ 32 then (if a.getLsbD 31 then 0xFFFFFFFF#32 else 0#32) else a.sshiftRight n
  | .rol => a.rotateLeft (n % 32)
  | .ror => a.rotateRight (n % 32)

/-- FSHF (13 R243). -/
def funnelW (right : Bool) (a b c : Word) : Word :=
  let w := a.toNat * 4294967296 + b.toNat
  let n := min c.toNat 32
  BitVec.ofNat 32 (if right then w >>> n else (w <<< n) / 4294967296)

/-- The width of a bit-field operand, b[15:8] up to 32 (13 R244). -/
def fieldWidth (b : Word) : Nat := min (slice b.toNat 15 8) 32

/-- BFE (13 R244). -/
def bfeW (signed : Bool) (a b : Word) : Word :=
  let w := fieldWidth b
  let f := (a.toNat >>> slice b.toNat 7 0) % 2 ^ w
  if w = 0 then 0#32 else if signed then wordOfInt (sextN w f) else BitVec.ofNat 32 f

/-- BFI (13 R244). -/
def bfiW (a b c : Word) : Word :=
  let pos := slice b.toNat 7 0
  let m : Nat := ((2 ^ fieldWidth b - 1) <<< pos) % 4294967296
  let ins : Word := BitVec.ofNat 32 ((a.toNat <<< pos) % 4294967296)
  (c &&& ~~~ (BitVec.ofNat 32 m)) ||| (ins &&& BitVec.ofNat 32 m)

/-- BITS (13 R245). -/
def bitsW (op : BitOp) (a : Word) : Word :=
  match op with
  | .popc => BitVec.ofNat 32 (popc a)
  | .clz => BitVec.ofNat 32 (if a = 0#32 then 32 else 31 - a.toNat.log2)
  | .ctz => BitVec.ofNat 32 (if a = 0#32 then 32 else lowestLane a)
  | .brev => maskOf ((lanes a).map (fun i => 31 - i))
  | .bswap =>
    BitVec.ofNat 32 (slice a.toNat 7 0 * 16777216 + slice a.toNat 15 8 * 65536
      + slice a.toNat 23 16 * 256 + slice a.toNat 31 24)

/-- LEA: the pair a plus Sext(b, 32) × 2^k (13 R248). -/
def leaW (k : Nat) (a : DWord) (b : Word) : DWord := dwordOfInt (a.toInt + sx b * 2 ^ k)

/-- IADDX (13 R248). -/
def addX (a b : DWord) : DWord := a + b

/-- PLOP (13 R249). -/
def logFn (f : LogFn) (x y : Bool) : Bool :=
  match f with
  | .and => x && y
  | .or => x || y
  | .xor => x ^^ y
  | .andn => x && !y
  | .orn => x || !y
  | .nand => !(x && y)
  | .nor => !(x || y)
  | .xnor => !(x ^^ y)

/-- PRMT: source byte choice and fill by selector nibbles (14 R276). -/
def prmtW (signed : Bool) (a b c : Word) : Word :=
  let src : Nat := a.toNat + b.toNat * 4294967296
  let byte (i : Nat) : Nat :=
    let s := slice c.toNat (4 * i + 3) (4 * i)
    let x := slice src (8 * (s % 8) + 7) (8 * (s % 8))
    if s < 8 then x else if signed && decide (x ≥ 128) then 255 else 0
  BitVec.ofNat 32 (byte 0 + byte 1 * 256 + byte 2 * 65536 + byte 3 * 16777216)

/-- The lane SHFL takes for thread t (16 R307); `none` outside 0 to 31. -/
def shflLane (op : ShflOp) (t : Nat) (b : Word) : Option Nat :=
  match op with
  | .idx => some (b.toNat % 32)
  | .up => if b.toNat ≤ t then some (t - b.toNat) else none
  | .down => if t + b.toNat ≤ 31 then some (t + b.toNat) else none
  | .xor => some (t ^^^ (b.toNat % 32))

end Sys2Proof.Machine
end

