-- ==== Sys2Proof/Machine/Num.lean ====
section
/-! DEFINITION. Number formats and exact arithmetic (11): values, Round, FlushIn, FlushOut, Convert,
Sum and Prod, and the aligned sum. Every value is exact until Round makes it a value of a format. -/

namespace Sys2Proof.Machine

/-- An exact rational, not reduced; the denominator is positive wherever one is built. -/
structure Q where
  num : Int
  den : Nat
  deriving DecidableEq, Repr


/-- m × 2^e. -/
def Q.scaled (m : Int) (e : Int) : Q :=
  if 0 ≤ e then ⟨m * ((2 ^ e.toNat : Nat) : Int), 1⟩ else ⟨m, 2 ^ (-e).toNat⟩

def Q.ofInt (m : Int) : Q := ⟨m, 1⟩
def Q.add (x y : Q) : Q := ⟨x.num * (y.den : Int) + y.num * (x.den : Int), x.den * y.den⟩
def Q.neg (x : Q) : Q := ⟨-x.num, x.den⟩
def Q.sub (x y : Q) : Q := x.add y.neg
def Q.mul (x y : Q) : Q := ⟨x.num * y.num, x.den * y.den⟩
/-- x ÷ y for y ≠ 0. -/
def Q.div (x y : Q) : Q :=
  ⟨(if y.num < 0 then -x.num else x.num) * (y.den : Int), x.den * y.num.natAbs⟩
def Q.isZero (x : Q) : Bool := decide (x.num = 0)
def Q.isNeg (x : Q) : Bool := decide (x.num < 0)
def Q.lt (x y : Q) : Bool := decide (x.num * (y.den : Int) < y.num * (x.den : Int))
def Q.le (x y : Q) : Bool := decide (x.num * (y.den : Int) ≤ y.num * (x.den : Int))
def Q.eq (x y : Q) : Bool := decide (x.num * (y.den : Int) = y.num * (x.den : Int))
def Q.abs (x : Q) : Q := ⟨x.num.natAbs, x.den⟩
/-- ⌊x⌋. -/
def Q.floor (x : Q) : Int := x.num / (x.den : Int)
/-- x × 2^e. -/
def Q.shift (x : Q) (e : Int) : Q := x.mul (Q.scaled 1 e)
/-- ⌊log2 |x|⌋ of a non-zero value. -/
def Q.ilog2 (x : Q) : Int :=
  let n := x.num.natAbs
  let a : Int := (n.log2 : Int) - (x.den.log2 : Int)
  let ge := if 0 ≤ a then decide (x.den * 2 ^ a.toNat ≤ n) else decide (x.den ≤ n * 2 ^ (-a).toNat)
  if ge then a else a - 1


end Sys2Proof.Machine

namespace Sys2Proof

/-- A float format (11 R202): exponent and fraction widths and bias. -/
structure FloatFmt where
  we   : Nat
  wf   : Nat
  bias : Int
  deriving DecidableEq, Repr

/-- The floats of 11 R202; integers answer none. -/
def Fmt.float : Fmt → Option FloatFmt
  | .f64 => some ⟨11, 52, 1023⟩
  | .f32 => some ⟨8, 23, 127⟩
  | .f16 => some ⟨5, 10, 15⟩
  | .bf16 => some ⟨8, 7, 127⟩
  | .f8e4 => some ⟨4, 3, 7⟩
  | .f8e5 => some ⟨5, 2, 15⟩
  | .f4 => some ⟨2, 1, 1⟩
  | _ => none

/-- Fields of a float format; the widths of an integer format are not used. -/
def Fmt.ff (f : Fmt) : FloatFmt := f.float.getD ⟨8, 23, 127⟩

/-- Width in bits (11 R202, R205). -/
def Fmt.width : Fmt → Nat
  | .f64 => 64 | .f32 => 32 | .f16 => 16 | .bf16 => 16 | .f8e4 => 8 | .f8e5 => 8 | .f4 => 4
  | .i4 => 4 | .n4 => 4 | .i8 => 8 | .n8 => 8 | .i16 => 16 | .n16 => 16
  | .i32 => 32 | .n32 => 32 | .i64 => 64 | .n64 => 64

/-- Whether the format is a float. -/
def Fmt.isFloat (f : Fmt) : Bool := f.float.isSome

/-- Whether the format is two's complement (11 R205). -/
def Fmt.signed : Fmt → Bool
  | .i4 | .i8 | .i16 | .i32 | .i64 => true
  | _ => false

/-- Whether the format has infinities (11 R202). -/
def Fmt.hasInf : Fmt → Bool
  | .f8e4 | .f4 => false
  | _ => true

/-- The canonical NaN (11 R202, R203); f4 has none and takes +0 (11 R209). -/
def Fmt.canonNaN : Fmt → Nat
  | .f64 => 0x7FF8000000000000
  | .f32 => 0x7FC00000
  | .f16 => 0x7E00
  | .bf16 => 0x7FC0
  | .f8e4 => 0x7F
  | .f8e5 => 0x7E
  | _ => 0

/-- The largest finite value M (11 R202). -/
def Fmt.maxFinite (f : Fmt) : Machine.Q :=
  match f with
  | .f8e4 => Machine.Q.ofInt 448
  | .f4 => Machine.Q.ofInt 6
  | _ => Machine.Q.scaled (2 ^ (f.ff.wf + 1) - 1) ((2 ^ f.ff.we : Nat) - 2 - f.ff.bias - f.ff.wf)

/-- The exponent of the smallest normal value (11 R202). -/
def Fmt.emin (f : Fmt) : Int := 1 - f.ff.bias

/-- The least value of an integer format (11 R205). -/
def Fmt.lo (f : Fmt) : Int := if f.signed then -((2 ^ (f.width - 1) : Nat) : Int) else 0

/-- The greatest value of an integer format (11 R205). -/
def Fmt.hi (f : Fmt) : Int :=
  if f.signed then ((2 ^ (f.width - 1) : Nat) : Int) - 1 else ((2 ^ f.width : Nat) : Int) - 1

end Sys2Proof

namespace Sys2Proof.Machine

/-- The value of an encoding (11 R202, 14 R254 FVal): NaN, an infinity, a signed zero or a non-zero
real. The flag is the sign, set for negative. -/
inductive FV
  | nan
  | inf (neg : Bool)
  | zero (neg : Bool)
  | fin (x : Q)
  deriving DecidableEq, Repr

/-- FVal of a float encoding (11 R202). -/
def fval (f : Fmt) (x : Nat) : FV :=
  let ff := f.ff
  let e := slice x (ff.wf + ff.we - 1) ff.wf
  let fr := x % 2 ^ ff.wf
  let neg := bitAt x (ff.wf + ff.we)
  let top := 2 ^ ff.we - 1
  let special : Option FV :=
    match f with
    | .f4 => none
    | .f8e4 => if e = top ∧ fr = 7 then some .nan else none
    | _ => if e = top then some (if fr = 0 then .inf neg else .nan) else none
  match special with
  | some v => v
  | none =>
    if e = 0 ∧ fr = 0 then .zero neg
    else
      let m : Nat := if e = 0 then fr else 2 ^ ff.wf + fr
      let k : Int := (if e = 0 then 1 else (e : Int)) - ff.bias - ff.wf
      .fin (Q.scaled (if neg then -(m : Int) else m) k)

/-- Enc of a value of the format (14 R254); the value is one the format has. -/
def enc (f : Fmt) (v : FV) : Nat :=
  let ff := f.ff
  let sgn (neg : Bool) : Nat := if neg then 2 ^ (ff.wf + ff.we) else 0
  match v with
  | .nan => f.canonNaN
  | .inf neg => sgn neg + (2 ^ ff.we - 1) * 2 ^ ff.wf
  | .zero neg => sgn neg
  | .fin x =>
    let e := max x.ilog2 f.emin
    let m := ((x.abs).shift (ff.wf - e)).floor.toNat
    sgn x.isNeg + (if m < 2 ^ ff.wf then m else m - 2 ^ ff.wf + (e + ff.bias).toNat * 2 ^ ff.wf)

/-- Rounding a non-negative exact value to an integer by mode; `neg` is the sign of the whole. -/
def roundMag (rm : RMode) (neg : Bool) (x : Q) : Nat :=
  let n := x.num.natAbs
  let f := n / x.den
  let r := n % x.den
  let up :=
    match rm with
    | .rne => decide (2 * r > x.den) || (decide (2 * r = x.den) && decide (f % 2 = 1))
    | .rtz => false
    | .rdn => neg && decide (r ≠ 0)
    | .rup => !neg && decide (r ≠ 0)
  if up then f + 1 else f

/-- The result of an overflow (11 R207 step 4). -/
def overflowed (f : Fmt) (rm : RMode) (sat neg : Bool) : FV :=
  let m : FV := .fin (if neg then f.maxFinite.neg else f.maxFinite)
  if sat then m
  else if rm = .rtz || (rm = .rdn && !neg) || (rm = .rup && neg) then m
  else if f.hasInf then .inf neg
  else if f = .f8e4 then .nan
  else m

/-- Round(x, fmt, rm, sat) of a non-zero exact value (11 R207). -/
def roundTo (f : Fmt) (rm : RMode) (sat : Bool) (x : Q) : FV :=
  let e := max x.ilog2 f.emin
  let k : Int := e - f.ff.wf
  let m := roundMag rm x.isNeg (x.abs.shift (-k))
  let y := Q.scaled (if x.isNeg then -(m : Int) else m) k
  if m = 0 then .zero x.isNeg
  else if y.abs.le f.maxFinite then .fin y
  else overflowed f rm sat x.isNeg

/-- Magnitude below the smallest normal value, non-zero. -/
def subnormal (f : Fmt) (v : FV) : Bool :=
  match v with
  | .fin x => x.abs.lt (Q.scaled 1 f.emin)
  | _ => false

/-- The sign of a value; NaN counts as positive (11 R203). -/
def FV.neg : FV → Bool
  | .nan => false
  | .inf n => n
  | .zero n => n
  | .fin x => x.isNeg

/-- The value with its sign flipped; NaN stays NaN. -/
def FV.flip : FV → FV
  | .nan => .nan
  | .inf n => .inf (!n)
  | .zero n => .zero (!n)
  | .fin x => .fin x.neg

/-- FlushIn and FlushOut on a value of a format (11 R208); f4 is never flushed. -/
def flush (f : Fmt) (on : Bool) (v : FV) : FV :=
  if on && f ≠ .f4 && subnormal f v then .zero v.neg else v

/-- FResult (14 R258). -/
def fresult (f : Fmt) (rm : RMode) (sat ftzo : Bool) (v : FV) : FV :=
  match v with
  | .fin x => if x.isZero then .zero false else flush f ftzo (roundTo f rm sat x)
  | v => v

/-- The sign an exact zero sum takes (14 R258). -/
def zeroSum (rm : RMode) (nx ny : Option Bool) : FV :=
  match nx, ny with
  | some true, some true => .zero true
  | some false, some false => .zero false
  | _, _ => .zero (rm = .rdn)

/-- Prod (14 R258). -/
def fprod (u v : FV) : FV :=
  match u, v with
  | .nan, _ => .nan
  | _, .nan => .nan
  | .zero _, .inf _ => .nan
  | .inf _, .zero _ => .nan
  | .inf a, w => .inf (a ^^ w.neg)
  | w, .inf a => .inf (a ^^ w.neg)
  | .zero a, w => .zero (a ^^ w.neg)
  | w, .zero a => .zero (a ^^ w.neg)
  | .fin x, .fin y => .fin (x.mul y)

/-- Sum (14 R258); the mode gives the sign of an exact zero. -/
def fsum (rm : RMode) (u v : FV) : FV :=
  match u, v with
  | .nan, _ => .nan
  | _, .nan => .nan
  | .inf a, .inf b => if a = b then .inf a else .nan
  | .inf a, _ => .inf a
  | _, .inf b => .inf b
  | .zero a, .zero b => zeroSum rm (some a) (some b)
  | .zero _, .fin y => .fin y
  | .fin x, .zero _ => .fin x
  | .fin x, .fin y => if (x.add y).isZero then zeroSum rm none none else .fin (x.add y)

/-- The quotient column of 14 R267. -/
def fquot (u v : FV) : FV :=
  match u, v with
  | .nan, _ => .nan
  | _, .nan => .nan
  | .inf _, .inf _ => .nan
  | .zero _, .zero _ => .nan
  | .inf a, w => .inf (a ^^ w.neg)
  | w, .inf a => .zero (a ^^ w.neg)
  | w, .zero a => .inf (a ^^ w.neg)
  | .zero a, w => .zero (a ^^ w.neg)
  | .fin x, .fin y => .fin (x.div y)

/-- Ordering of two values as reals; false when either is NaN. -/
def flt (u v : FV) : Bool :=
  match u, v with
  | .nan, _ => false
  | _, .nan => false
  | .inf a, .inf b => a && !b
  | .inf a, _ => a
  | _, .inf b => !b
  | .zero _, .zero _ => false
  | .zero _, .fin y => !y.isNeg
  | .fin x, .zero _ => x.isNeg
  | .fin x, .fin y => x.lt y

/-- Equality of two values as reals, +0 and −0 equal (12 R222); false when either is NaN. -/
def feq (u v : FV) : Bool :=
  match u, v with
  | .nan, _ => false
  | _, .nan => false
  | u, v => !(flt u v) && !(flt v u)

/-- The lesser or greater value by the rows of 14 R260. -/
def fminmax (max : Bool) (u v : FV) : FV :=
  match u, v with
  | .nan, .nan => .nan
  | .nan, w => w
  | w, .nan => w
  | .zero a, .zero b => .zero (if max then a && b else a || b)
  | u, v => if flt u v then (if max then v else u) else (if max then u else v)

/-- Rounding a value to an integer by mode, ties to even under rne (11 R209, 14 R264). -/
def roundInt (rm : RMode) (x : Q) : Int :=
  let m := roundMag rm x.isNeg x.abs
  if x.isNeg then -(m : Int) else m

/-- Clamping into an integer format (11 R205). -/
def clampTo (f : Fmt) (x : Int) : Int := min (max x f.lo) f.hi

/-- The integer an integer encoding stands for (11 R205). -/
def ival (f : Fmt) (x : Nat) : Int := if f.signed then sextN f.width x else (x % 2 ^ f.width : Nat)

/-- Convert between float formats (11 R209). -/
def convFF (src tgt : Fmt) (rm : RMode) (f : FFlags) (v : FV) : FV :=
  match flush src f.ftzi v with
  | .nan => if tgt = .f4 then .zero false else .nan
  | .inf n =>
    if tgt = .f4 then .fin (if n then tgt.maxFinite.neg else tgt.maxFinite)
    else if f.sat then .fin (if n then tgt.maxFinite.neg else tgt.maxFinite)
    else if tgt = .f8e4 then .nan else .inf n
  | .zero n => .zero n
  | .fin x => flush tgt f.ftzo (roundTo tgt rm f.sat x)

/-- Convert from a float to an integer format (11 R209). -/
def convFI (src tgt : Fmt) (rm : RMode) (ftzi : Bool) (v : FV) : Int :=
  match flush src ftzi v with
  | .nan => 0
  | .inf n => if n then tgt.lo else tgt.hi
  | .zero _ => 0
  | .fin x => clampTo tgt (roundInt rm x)

/-- Convert from an integer to a float format (11 R209). -/
def convIF (tgt : Fmt) (rm : RMode) (f : FFlags) (x : Int) : FV :=
  if x = 0 then .zero false else flush tgt f.ftzo (roundTo tgt rm f.sat (Q.ofInt x))

/-- Convert (11 R209) on encodings, from one format to another. -/
def convert (src tgt : Fmt) (rm : RMode) (f : FFlags) (x : Nat) : Nat :=
  match src.isFloat, tgt.isFloat with
  | true, true => enc tgt (convFF src tgt rm f (fval src x))
  | true, false => wrapN tgt.width (convFI src tgt rm f.ftzi (fval src x))
  | false, true => enc tgt (convIF tgt rm f (ival src x))
  | false, false => wrapN tgt.width (if f.sat then clampTo tgt (ival src x) else ival src x)

/-- ToFixed(x, e) as a multiple of 2^e (11 R211). -/
def toFixed (x : Q) (e : Int) : Int := (x.shift (-e)).floor

/-- The largest exponent of leading bit among the non-zero products (11 R211). -/
def maxExp : List Q → Option Int
  | [] => none
  | x :: xs =>
    match maxExp xs with
    | none => some x.ilog2
    | some e => some (max e x.ilog2)

/-- The non-zero real members of a list of values. -/
def finites : List FV → List Q
  | [] => []
  | .fin x :: vs => x :: finites vs
  | _ :: vs => finites vs

/-- AlignedSum(P, c, G, fmt, rm, ftzi, ftzo) with the products already formed (11 R211). -/
def alignedSum (ps : List FV) (c0 : FV) (g : Nat) (f : Fmt) (rm : RMode) (ftzi ftzo : Bool) : FV :=
  let c := flush f ftzi c0
  let all := c :: ps
  if all.any (fun v => v = .nan) then .nan
  else if all.any (fun v => v = .inf false) && all.any (fun v => v = .inf true) then .nan
  else if all.any (fun v => v = .inf false) then .inf false
  else if all.any (fun v => v = .inf true) then .inf true
  else
    let fs := finites ps
    let s : Q :=
      match maxExp fs with
      | none => Q.ofInt 0
      | some e => Q.scaled ((fs.map (fun p => toFixed p (e - g))).foldl (· + ·) 0) (e - g)
    let x := match c with
      | .fin q => s.add q
      | _ => s
    if x.isZero then
      if fs = [] && all.all (fun v => v = .zero true) then .zero true
      else if fs = [] && all.all (fun v => v = .zero false) then .zero false
      else .zero (rm = .rdn)
    else flush f ftzo (roundTo f rm false x)

/-- The guard width of an element format (11 R212). -/
def guardWidth : Fmt → Nat
  | .f64 => 132
  | .f32 => 72
  | _ => 40

/-- The pairwise tree of REDU, one level (11 R217). -/
def pairUp {α : Type} (f : α → α → α) : List α → List α
  | a :: b :: xs => f a b :: pairUp f xs
  | xs => xs

/-- The pairwise tree of REDU; five levels reduce at most 32 values (11 R217). -/
def pairTree {α : Type} (f : α → α → α) (xs : List α) : List α :=
  pairUp f (pairUp f (pairUp f (pairUp f (pairUp f xs))))

end Sys2Proof.Machine
end

