-- ==== Sys2Proof/Machine/NumFun.lean ====
section
/-! DEFINITION. Roots and the special functions of 14 R267 and R268. A root is taken exactly, with a
half unit below the last kept bit where it is not exact. The other functions are taken in fixed point
with far more bits than any rounding needs, and rounded once. -/

namespace Sys2Proof.Machine

/-- One step of the bitwise integer root: keeps the bit when the square still fits. -/
def isqrtStep (x r k : Nat) : Nat := if (r + 2 ^ k) * (r + 2 ^ k) ≤ x then r + 2 ^ k else r

/-- The integer root of x below 2^(2 k), by bits from k − 1 down to 0. -/
def isqrtFrom (x : Nat) : Nat → Nat → Nat
  | 0, r => r
  | k + 1, r => isqrtFrom x k (isqrtStep x r k)

/-- ⌊√x⌋. -/
def isqrt (x : Nat) : Nat := isqrtFrom x (x.log2 / 2 + 1) 0

/-- √x of a positive value: exact where the root is rational, otherwise within the bit below 2^−s and
never on a multiple of it. -/
def qsqrt (s : Nat) (x : Q) : Q :=
  let n := x.num.natAbs * 2 ^ (2 * s)
  let r := isqrt (n / x.den)
  if r * r * x.den = n then ⟨r, 2 ^ s⟩ else ⟨2 * r + 1, 2 ^ (s + 1)⟩

/-- FSQRT and DSQRT before rounding (14 R267). -/
def fsqrtV (s : Nat) (v : FV) : FV :=
  match v with
  | .nan => .nan
  | .zero n => .zero n
  | .inf n => if n then .nan else .inf false
  | .fin x => if x.isNeg then .nan else .fin (qsqrt s x)

/-- FRSQ before rounding (14 R268). -/
def frsqV (v : FV) : FV :=
  match v with
  | .nan => .nan
  | .zero n => .inf n
  | .inf n => if n then .nan else .zero false
  | .fin x => if x.isNeg then .nan else .fin (qsqrt 300 ((Q.ofInt 1).div x))

/-- Σ over k of (±1)^k × 2^p ÷ ((2k + 1) × m^(2k + 1)), the arc tangent series of 1 ÷ m. -/
def atanInv (alt : Bool) (m : Nat) : Nat → Nat → Nat → Int → Int
  | 0, _, _, acc => acc
  | n + 1, t, k, acc =>
    let term : Int := ((t / (2 * k + 1) : Nat) : Int)
    atanInv alt m n (t / (m * m)) (k + 1) (if alt && decide (k % 2 = 1) then acc - term else acc + term)

/-- π × 2^p by Machin's formula. -/
def piFixed (p : Nat) : Int :=
  16 * atanInv true 5 (p / 4 + 8) (2 ^ p / 5) 0 0 - 4 * atanInv true 239 (p / 15 + 8) (2 ^ p / 239) 0 0

/-- ln 2 × 2^p, twice the hyperbolic arc tangent of 1 ÷ 3. -/
def ln2Fixed (p : Nat) : Int := 2 * atanInv false 3 (p / 3 + 8) (2 ^ p / 3) 0 0

/-- Σ of x^k ÷ k!, in fixed point at p bits. -/
def expSeries (p : Nat) (x : Int) : Nat → Int → Nat → Int → Int
  | 0, _, _, acc => acc
  | n + 1, t, k, acc => expSeries p x n (t * x / ((2 ^ p * (k + 1) : Nat) : Int)) (k + 1) (acc + t)

/-- Σ of (−1)^k x^(2k + j) ÷ (2k + j)! from the term `t`, in fixed point at p bits. -/
def trigSeries (p : Nat) (x : Int) : Nat → Int → Nat → Int → Int
  | 0, _, _, acc => acc
  | n + 1, t, k, acc =>
    trigSeries p x n (-(t * x * x / ((2 ^ (2 * p) * ((k + 1) * (k + 2)) : Nat) : Int))) (k + 2) (acc + t)

/-- Σ of z^(2k + 1) ÷ (2k + 1), in fixed point at p bits. -/
def atanhSeries (p : Nat) (z : Int) : Nat → Int → Nat → Int → Int
  | 0, _, _, acc => acc
  | n + 1, t, k, acc =>
    atanhSeries p z n (t * z * z / ((2 ^ (2 * p) : Nat) : Int)) (k + 1) (acc + t / ((2 * k + 1 : Nat) : Int))

/-- A fixed-point value as a rational. -/
def ofFixed (p : Nat) (x : Int) : Q := ⟨x, 2 ^ p⟩

/-- ⌊x × 2^p⌋. -/
def inFixed (p : Nat) (x : Q) : Int := toFixed x (-(p : Int))

/-- 2^x of a non-zero value (14 R268). Values far outside the format's range stand for every such value. -/
def exp2Q (x : Q) : Q :=
  let i := x.floor
  if 200 ≤ i then Q.scaled 1 200
  else if i < -300 then Q.scaled 1 (-300)
  else
    let f := x.sub (Q.ofInt i)
    if f.isZero then Q.scaled 1 i
    else
      let y := inFixed 320 f * ln2Fixed 320 / ((2 ^ 320 : Nat) : Int)
      (ofFixed 320 (expSeries 320 y 90 (2 ^ 320) 0 0)).shift i

/-- FEXP2 before rounding (14 R268). -/
def fexp2V (v : FV) : FV :=
  match v with
  | .nan => .nan
  | .zero _ => .fin (Q.ofInt 1)
  | .inf n => if n then .zero false else .inf false
  | .fin x => .fin (exp2Q x)

/-- log2 x of a positive value (14 R268). -/
def log2Q (x : Q) : Q :=
  let e := x.ilog2
  let m := x.shift (-e)
  if m.eq (Q.ofInt 1) then Q.ofInt e
  else
    let z := inFixed 320 ((m.sub (Q.ofInt 1)).div (m.add (Q.ofInt 1)))
    let ln := 2 * atanhSeries 320 z 110 z 0 0
    (Q.ofInt e).add ((ofFixed 320 ln).div (ofFixed 320 (ln2Fixed 320)))

/-- FLOG2 before rounding (14 R268). -/
def flog2V (v : FV) : FV :=
  match v with
  | .nan => .nan
  | .zero _ => .inf true
  | .inf n => if n then .nan else .inf false
  | .fin x => if x.isNeg then .nan else .fin (log2Q x)

/-- sin (x + q π ÷ 2) of a value, its argument reduced exactly to the precision kept (14 R268). -/
def sinQ (q : Int) (x : Q) : Q :=
  let p := 640
  let half := piFixed p / 2
  let a := inFixed p x
  let k := a / half
  let r := a - k * half
  let quad := (k + q) % 4
  let v :=
    if quad % 2 = 0 then trigSeries p r 130 r 1 0 else trigSeries p r 130 ((2 ^ p : Nat) : Int) 0 0
  ofFixed p (if quad < 2 then v else -v)

/-- FSIN before rounding (14 R268). -/
def fsinV (v : FV) : FV :=
  match v with
  | .nan => .nan
  | .inf _ => .nan
  | .zero n => .zero n
  | .fin x => .fin (sinQ 0 x)

/-- FCOS before rounding (14 R268). -/
def fcosV (v : FV) : FV :=
  match v with
  | .nan => .nan
  | .inf _ => .nan
  | .zero _ => .fin (Q.ofInt 1)
  | .fin x => .fin (sinQ 1 x)

/-- The output of the functions of 14 R268: rounded once with rne, then FlushOut. -/
def specialOut (ftzo : Bool) (v : FV) : FV := fresult .f32 .rne false ftzo v

/-- FRND (14 R264) on a value of binary32. -/
def frndV (rm : RMode) (v : FV) : FV :=
  match v with
  | .fin x =>
    if (Q.scaled 1 23).le x.abs then .fin x
    else
      let i := roundInt rm x
      if i = 0 then .zero x.isNeg else .fin (Q.ofInt i)
  | v => v

/-- FCLASS (14 R263). -/
def fclassW (x : Word) : Word :=
  let e := slice x.toNat 30 23
  let f := slice x.toNat 22 0
  let s := x.getLsbD 31
  let k : Nat :=
    if e = 255 then
      if f = 0 then (if s then 0 else 7) else (if bitAt f 22 then 9 else 8)
    else if e = 0 then
      if f = 0 then (if s then 3 else 4) else (if s then 2 else 5)
    else (if s then 1 else 6)
  1#32 <<< k

/-- The conditions of 12 R222 on two integer words. -/
def icond (c : Cond) (a b : Word) : Bool :=
  match c with
  | .eq => decide (a = b)
  | .ne => decide (a ≠ b)
  | .lt => decide (sx a < sx b)
  | .le => decide (sx a ≤ sx b)
  | .gt => decide (sx b < sx a)
  | .ge => decide (sx b ≤ sx a)
  | .ltn => decide (a.toNat < b.toNat)
  | .gen => decide (b.toNat ≤ a.toNat)

/-- The conditions of 12 R222 on two float values; the last two are ordered and unordered. -/
def fcond (c : Cond) (u v : FV) : Bool :=
  let un := decide (u = .nan) || decide (v = .nan)
  match c with
  | .eq => feq u v
  | .ne => !(feq u v)
  | .lt => flt u v
  | .le => flt u v || feq u v
  | .gt => flt v u
  | .ge => flt v u || feq u v
  | .ltn => !un
  | .gen => un

end Sys2Proof.Machine
end

