-- ==== Sys2Proof/Machine/Parts.lean ====
section
/-! DEFINITION. The parts of the machine's state: what a convoy, a cohort and the shared units hold.
Everything is plain data. A docstring names the rule that gives a field. -/

namespace Sys2Proof.Machine

/-- A 32-bit location of a convoy's registers (02 R38). Latches hold 64 bits. -/
inductive Loc
  | main (n t : Nat) | opf (j t : Nat) | uni (j : Nat) | pred (k t : Nat) | latch (k t : Nat)
  | idx (i t : Nat) | lim (i : Nat)
  deriving DecidableEq, Repr

/-- One result latch of a thread (02 R42, R43). -/
structure Latch where
  val   : DWord := 0#64
  wide  : Bool := false
  /-- produced in the current clause -/
  valid : Bool := false
  deriving DecidableEq, Repr

/-- Fixed-latency results of one instruction that are not ready: the locations with what they held before,
and the first issue opportunity at which they are ready (10 R196, R198). -/
structure Pend where
  olds  : List (Loc × DWord)
  ready : Nat
  pc    : Nat
  deriving DecidableEq, Repr

/-- Convoy roles (02 R48). -/
inductive Role | general | feed | compute | drain
  deriving DecidableEq, Repr

/-- The waiting state of a frontier entry (01 R27, R34; 05 R97): the instruction that waits at the
entry's header. A join holds the cycle of its deadline. -/
inductive Wait
  | join (deadline : Nat) (expired : Bool)
  | bwait (off : Nat) (target : BitVec 16)
  | tkwait
  | tkdone
  | jwait (pa : Nat)
  | ewait (pa : Nat) (k : Nat)
  | handoff (desc inherit_ : DWord)
  | digest (n : DWord)
  deriving DecidableEq, Repr

/-- A frontier entry (01 R27). -/
structure Entry where
  pc   : Nat
  prio : Nat
  mask : Word
  age  : Nat := 0
  wait : Option Wait := none
  deriving DecidableEq, Repr

/-- The clause an entry is issuing (10 R181, R185): its header, its words, and the index of the current
and of the next word. `spilled` marks a clause issued from the overflow area (01 R539). -/
structure Clause where
  pc      : Nat
  hdr     : Word
  words   : List Word
  cur     : Nat := 0
  nxt     : Nat := 0
  mask    : Word
  yld     : Bool := false
  spilled : Bool := false
  /-- priority and age of the entry (01 R27) -/
  prio    : Nat := 0
  age     : Nat := 0
  /-- issue opportunities counted when the clause began (01 R32) -/
  age0    : Nat := 0
  /-- the wait the entry comes back from (01 R34) -/
  wait    : Option Wait := none
  deriving DecidableEq, Repr

/-- Kinds of outstanding unit (05 R109): a value known at issue, and the kinds of memory request. -/
inductive UKind
  | value
  | load
  | store
  | scrLoad (fe clr : Bool)
  | scrStore (full : Bool)
  | atom (op : AtomOp) (wide : Bool)
  | scrAtom (op : AtomOp) (wide : Bool)
  | scadd
  | fence (o : MOrder)
  | pref
  | cctl (op : CctlOp)
  | travr (ray gen : Nat) (keep : Bool)
  | trava (ray gen : Nat) (g : List Word) (base : DWord)
  | scall (req : Nat)
  /-- a value read when the unit completes: 0 to 3 a counter, 4 CLK.cyc, 5 CLK.ns, 6 %energy (20 R382, R385, R386); the values of
  its writes are word numbers -/
  | sysRead (what : Nat)
  /-- a register set when the unit completes: 0 %trav.table, 1 the power level, 2 EFTRAP (20 R382, R390; 34 R517) -/
  | sysSet (what : Nat) (x : DWord)
  /-- DIGEST.absorb: slot, tag, buffer and length (09 R180) -/
  | absorb (slot : Nat) (tag buf : DWord) (len : Nat)
  /-- LNCH: the record and the region (20 R388) -/
  | lnch (rec_ : DWord) (rcb : Nat)
  /-- REPLAY.req: the session record (20 R389) -/
  | replayReq (va : DWord)
  /-- TXS: texel format, coordinates, whether bilinear (19 R374) -/
  | texture (fmt : Nat) (x y : Word) (bi : Bool)
  /-- TXG: as TXS, with g0 to g3 (19 R375) -/
  | texGrad (fmt : Nat) (x y : Word) (bi : Bool) (g : List Word)
  /-- RADJ: px, py, gb1, gb2 and gz (19 R376) -/
  | radj (q : List Word) (gz : Word)
  | engine
  /-- BINIT: barrier or range form, offset, count or length (05 R100) -/
  | binit (range : Bool) (off n : Nat)
  /-- BARV: offset and declared bytes (05 R100) -/
  | barv (off k : Nat)
  /-- SPAWN: descriptor, junction as named, its physical place, and the payload of each child (07 R128, R131) -/
  | spawn (desc junction : DWord) (at_ : Option (Nat × Nat)) (children : List (Nat × List Word))
  | matrix (seq : Nat)
  | gscom
  deriving DecidableEq, Repr

/-- One piece of an access: bytes at one place for one thread (04 R73). `scr` marks scratch, at a
physical scratch byte; otherwise `addr` is a physical address. A load writes `dst`, one word each. -/
structure Piece where
  lane : Nat
  scr  : Bool
  addr : Nat
  va   : Nat
  n    : Nat
  sgn  : Bool := false
  data : List Byte := []
  cmp  : DWord := 0#64
  dst  : List Loc := []
  priv : Bool := false
  ms   : Bool := false
  key  : Nat := 0
  deriving DecidableEq, Repr

/-- An outstanding unit of a variable-latency instruction (03 R60, 05 R109). -/
structure Pending where
  seq    : Nat
  tok    : Option Nat
  kind   : UKind
  mask   : Word
  pc     : Nat
  pieces : List Piece := []
  writes : List (Loc × DWord) := []
  acq    : Bool := false
  rel    : Bool := false
  cache  : CacheOp := .ca
  /-- it acts once for the convoy, and a fault of it concerns every thread of its mask (15 R280, 29 R445) -/
  once   : Bool := false
  deriving DecidableEq, Repr

/-- A fault to be charged (29 R441, R445, R446). -/
structure FaultRec where
  kind : Nat
  sub  : Nat := 0
  addr : Nat := 0
  aux  : Nat := 0
  mask : Word := 0#32
  pc   : Option Nat := none
  /-- place of a boundary fault's instruction in issue order: units of the convoy, or commands of the queue, before it (29 R442) -/
  ord  : Nat := 0
  deriving DecidableEq, Repr

/-- How a convoy stands (29 R443): running, stopped at its current instruction, or at a boundary. -/
inductive Halt | run | atInstr | atBoundary
  deriving DecidableEq, Repr

/-- A spill entry of a thread's tape (09 R171): the bytes from `start` that are not resident, or the stub of a dropped
span, its descriptor and waypoint. -/
structure TapeSpill where
  thread : Nat
  start  : Nat
  bytes  : List Byte
  stub   : Bool
  deriving DecidableEq, Repr

/-- Tape state of one thread (09 R167, R170, R171, R173): the pointers, whether a span is open, whether the open span has been
dropped, and refill mode. -/
structure Tape where
  low     : Nat := 0
  top     : Nat := 0
  cs      : Nat := 0
  span    : Bool := false
  dropped : Bool := false
  refill  : Bool := false
  deriving DecidableEq, Repr

/-- A convoy (01 R14, 02 R38). Register contents are keyed by register × 32 + thread. -/
structure Convoy where
  id      : Nat := 0
  track   : Nat := 0
  role    : Role := .general
  /-- register budget in granules (02 R39, R50) -/
  budget  : Nat := 2
  main    : NMap Word := []
  opf     : NMap Word := []
  latch   : NMap Latch := []
  uni     : NMap Word := []
  preds   : NMap Bool := []
  idx     : NMap Word := []
  /-- base + 256 × limit of each index register (13 R252) -/
  xlim    : NMap Word := []
  /-- completion counters (05 R109) -/
  tok     : NMap Nat := []
  /-- threads that have not exited (01 R16, R27) -/
  live    : Word := 0#32
  fr      : List Entry := []
  spill   : List Entry := []
  /-- header of the entry a yield placed last (01 R33) -/
  yielded : Option Nat := none
  depth   : NMap Nat := []
  clause  : Option Clause := none
  /-- issue opportunities still to skip (10 R196) -/
  stall   : Nat := 0
  /-- issue opportunities counted so far (01 R19) -/
  opp     : Nat := 0
  pend    : List Pend := []
  /-- values an instruction reads early in place of the register's (10 R198) -/
  peek    : List (Loc × DWord) := []
  /-- poisoned registers (29 R458) -/
  rpoison : List Loc := []
  /-- threads whose sources of the current instruction are poisoned (29 R458) -/
  bad     : Word := 0#32
  units   : List Pending := []
  useq    : Nat := 0
  /-- cohort registers as this convoy sees them (02 R46) -/
  qview   : NMap Word := []
  /-- private base, a virtual address of the pool's region (03 R64, 27 R538) -/
  pbase   : Nat := 0
  tapes   : NMap Tape := []
  tspill  : List TapeSpill := []
  /-- pending boundary faults (29 R442) -/
  bfaults : List FaultRec := []
  halt    : Halt := .run
  /-- lanes whose first exit still has to decrement a junction, with the junction (07 R135) -/
  junc    : NMap Nat := []
  /-- lanes whose junction has been counted down -/
  juncDone : Word := 0#32
  /-- a stalled translation is retried after an event (30 R464) -/
  stalled : Bool := false
  /-- waiting DONATE: tag, granules; waiting ACCEPT: tag (02 R51) -/
  donate  : Option (Nat × Nat) := none
  accept  : Option Nat := none
  /-- result of a rendezvous that the waiting DONATE or ACCEPT has still to take (02 R53) -/
  xfer    : Option Bool := none
  /-- clauses issued by each thread in the replay pass (35 R529) -/
  dig     : NMap Nat := []
  deriving DecidableEq, Repr

/-- A kernel descriptor (12 R231). -/
structure KDesc where
  entry   : Nat := 0
  roles   : Nat := 0
  shapex  : Nat := 32
  shapey  : Nat := 1
  shapez  : Nat := 1
  convoys : Nat := 1
  gengr   : Nat := 2
  feedgr  : Nat := 2
  compgr  : Nat := 2
  draingr : Nat := 2
  /-- in units of 32 KiB -/
  scratch : Nat := 0
  priv    : Nat := 8
  spawnb  : Nat := 0
  tape    : Nat := 0
  spawn   : Bool := false
  deriving DecidableEq, Repr

/-- A weight plane: the latched B tile and its format (06 R120). -/
structure Plane where
  fmt   : Fmt
  tile  : NMap Byte
  /-- MLDW of the queue that latched it -/
  seq   : Nat
  deriving DecidableEq, Repr

/-- What an entry of the matrix queue does (06 R122, 17 R322): MLDW, MMA, MZERO, MRD, MWR, MST, MLD, MSYNC, MSLOTW, MSLOTR
and MFREE. The places that MRD and MSLOTR deliver to, and the memory that MST and MLD reach, are pieces of their unit. -/
inductive MOp
  | ldw (fmt : Fmt) (slot : Nat)
  | mma (fmt : Fmt) (slot acc : Nat) (ftzi ftzo : Bool) (rm : RMode) (follow : Option Nat)
  | zero (mask : BitVec 8)
  | rd (acc : Nat) (wide : Bool)
  | wr (acc : Nat) (wide : Bool) (els : List (Nat × DWord))
  | st (acc : Nat) (kind : AccKind) (fmt : Fmt) (f : FFlags) (rm : RMode)
  | ld (acc : Nat) (kind : AccKind) (fmt : Fmt) (f : FFlags) (rm : RMode)
  | sync
  | slotw (slot : Nat) (ws : List (Nat × List Byte))
  | slotr (slot : Nat) (wide : Bool)
  | free (mask : Word)
  deriving DecidableEq, Repr

/-- An entry of the matrix queue, with the convoy and the unit of its instruction; a follow-on MMA has no unit. -/
structure MEntry where
  op     : MOp
  convoy : Nat
  unit   : Option Nat
  /-- MMA number of the cohort (06 R123) -/
  num    : Nat := 0
  redn   : Bool := false
  pc     : Nat := 0
  /-- the MLDW whose plane an MMA uses, its format and its slot (06 R120, 17 R326) -/
  plane  : Nat := 0
  bfmt   : Fmt := .f32
  bslot  : Nat := 0
  deriving DecidableEq, Repr

/-- Where a copy element lies: physical memory, scratch or a slot. -/
inductive Place | mem (pa key : Nat) | scr (off : Nat) | slot (m off : Nat)
  deriving DecidableEq, Repr

/-- A write of a copy that has not been registered (04 R87, R89, R541): in flight, or landed at its destination. -/
structure EWrite where
  cmd    : Nat
  place  : Place
  bytes  : List Byte
  poison : Bool := false
  landed : Bool := false
  deriving DecidableEq, Repr

/-- Kinds of copy command (06 R114, R115; 18 R340). -/
inductive CKind | tensor | linear
  deriving DecidableEq, Repr

/-- A command of a copy queue (06 R111, R115; 18 R340). -/
structure Cmd where
  seq     : Nat
  kind    : CKind
  src     : DWord
  dst     : DWord
  mile    : DWord
  len     : Nat := 0
  slayout : Layout := .lin
  dlayout : Layout := .lin
  bind    : Option Nat := none
  follow  : Option (Word × Word) := none
  acq     : Bool := false
  rel     : Bool := false
  convoy  : Nat := 0
  /-- the issuing threads, convoy and lane, and how many units their convoys had issued before (04 R87) -/
  after   : List (Nat × Nat × Nat) := []
  chain   : Nat := 0
  chainNo : Nat := 0
  source  : Nat := 0
  started : Bool := false
  /-- tensor record once read: extents, strides, element size -/
  ext     : List Nat := []
  sstr    : List Int := []
  dstr    : List Int := []
  esize   : Nat := 4
  /-- the next element to read -/
  next    : Nat := 0
  /-- bytes delivered -/
  done    : Nat := 0
  /-- engine error code and failing address; no later element is read (18 R342) -/
  err     : Option (Nat × Nat) := none
  mmaOut  : Bool := false
  mmaDone : Bool := false
  deriving DecidableEq, Repr

/-- A running chain (18 R343): its resume address, tail, and the last record taken. -/
structure Chain where
  no     : Nat
  head   : Nat
  resume : Nat
  tail   : Nat
  last   : Option Nat := none
  convoy : Nat
  /-- as for a command: the threads of the ECHAIN and of the EADVs -/
  after  : List (Nat × Nat × Nat) := []
  deriving DecidableEq, Repr

/-- A command of the package's collective engine (06 R126; 18 R346 to R349): the slot and convoy that issued it, then, once
it has started, the fields of its record, its group and what has arrived. -/
structure Coll where
  core    : Nat
  slot    : Nat
  uid     : Nat
  convoy  : Nat
  seq     : Nat
  recVa   : DWord
  mile    : DWord
  acq     : Bool := false
  rel     : Bool := false
  /-- as for a copy command (04 R87) -/
  after   : List (Nat × Nat × Nat) := []
  started : Bool := false
  /-- the 64-byte record -/
  fields  : Nat := 0
  /-- packages of the group by rank, this package's rank, and the tag -/
  members : List Nat := []
  rank    : Nat := 0
  gtag    : Word := 0#32
  /-- contributions by rank and message number, and what has been written -/
  got     : List (Nat × Nat × List Byte) := []
  written : List (Nat × Nat) := []
  /-- elements of remote atomics whose response is outstanding, and the least one refused -/
  waits   : List Nat := []
  refused : Option Nat := none
  acks    : List (Nat × Nat) := []
  done    : Nat := 0
  err     : Option (Nat × Nat) := none
  deriving DecidableEq, Repr

/-- A place on a ray's walk (08 R159): a reference, its depth, and whether it is only to be emitted. -/
structure Visit where
  ref   : DWord
  depth : Nat
  emit  : Bool := false
  deriving DecidableEq, Repr

/-- The instance a ray is in (08 R158): depth and address of the instance node, and its id. -/
structure InstRef where
  depth : Nat
  addr  : Nat
  id    : Word
  m     : List Word := []
  deriving DecidableEq, Repr

/-- An accepted hit (08 R160; 19 R367, R371): t, u, v, the primitive's reference and id, its instance with the instance's
transform, the frame it was tested in, and the tmax and held t that its accepting step saw. -/
structure Hit where
  t    : Word
  u    : Word
  v    : Word
  ref  : DWord
  prim : Word
  inst : Option InstRef
  m    : List Word := []
  fo   : List Word := []
  fd   : List Word := []
  tmax : Word := 0#32
  held : Option Word := none
  deriving DecidableEq, Repr

/-- A ray (08 R156 to R163, 19 R365 to R371). -/
structure Ray where
  num    : Nat
  gen    : Nat
  lane   : Nat
  convoy : Nat
  /-- units of the convoy that issued before the ray (08 R157) -/
  before : Nat := 0
  mode   : TravMode
  o      : List Word
  d      : List Word
  tmin   : Word
  tmax   : Word
  emit_  : DWord
  table  : Nat
  /-- reference that the walk starts at -/
  root   : DWord := 0#64
  cur    : Option Visit
  /-- pending references, newest first, at most 8 -/
  stack  : List Visit := []
  dropped : Bool := false
  trail  : DWord := 0#64
  /-- accepted children of the node at depth k − 1 on the path, by k; what a restart finds again -/
  kids   : NMap Nat := []
  inst   : Option InstRef := none
  fo     : List Word := []
  fd     : List Word := []
  hit    : Option Hit := none
  status : Option Nat := none
  restarted : Bool := false
  emitted : Nat := 0
  /-- held for a TRAVA -/
  kept   : Bool := false
  /-- to be freed by the TRAVR or TRAVA that is outstanding -/
  freed  : Bool := false
  deriving DecidableEq, Repr

/-- A TXS thread that waits for a sampler of its core (08 R155). -/
structure TexReq where
  core   : Nat
  slot   : Nat
  uid    : Nat
  convoy : Nat
  unit   : Nat
  deriving DecidableEq, Repr

/-- An entry of a GSU (09 R176, 11 R214), keyed by region and word: the exact sum in units of 2^−149 and the sticky flags. -/
structure GsuEntry where
  rcb  : Nat
  word : Nat
  key  : Nat
  acc  : Int := 0
  nan  : Bool := false
  ninf : Bool := false
  pinf : Bool := false
  deriving DecidableEq, Repr

/-- A spill record of a word of a region: its place in the GSU spill area of the region that holds the pools (09 R176). -/
structure GSpill where
  rcb   : Nat
  owner : Nat
  idx   : Nat
  word  : Nat
  key   : Nat
  deriving DecidableEq, Repr

/-- What the firmware holds of a region: the fields that it reads when it takes the region and at each update (27 R412, R538),
the physical base of the save pool, and the logical cores allotted under DET (28 R435). -/
structure Region where
  rcb     : Nat
  parent  : Nat := 0
  child   : Nat := 0
  sibling : Nat := 0
  ptroot  : DWord := 0#64
  partner : Nat := 0
  rpool   : Nat := 0
  ppool   : Nat := 0
  spool   : Nat := 0
  tspill  : Nat := 0
  gspill  : Nat := 0
  rpages  : Nat := 0
  psize   : Nat := 0
  ssize   : Nat := 0
  tsize   : Nat := 0
  gsize   : Nat := 0
  tper    : Nat := 0
  detBase : Option Nat := none
  /-- when a cohort of the region was last bound (28 R434) -/
  lastBind : Nat := 0
  /-- the launch taken last from the queue (27 R417) -/
  lastLaunch : Nat := 0
  /-- a DEADLINE event has been logged for this deadline (28 R438) -/
  logged  : Option Nat := none
  /-- key slot of the save pool's pages, and its virtual address (27 R538) -/
  skey    : Nat := 0
  sva     : Nat := 0
  /-- cohorts of the spawn grid dispatched so far (07 R132) -/
  spawnNo : Nat := 0
  deriving DecidableEq, Repr

/-- The engine fault record of a slot (29 R447). -/
structure EngFault where
  vaddr  : DWord := 0#64
  chain  : DWord := 0#64
  seq    : DWord := 0#64
  done   : DWord := 0#64
  later  : Word := 0#32
  code   : Byte := 0#8
  source : Byte := 0#8
  convoy : Nat := 0
  deriving DecidableEq, Repr

/-- A bound cohort (01 R14). The focused cohort's focused convoy is kept apart, in State. -/
structure Cohort where
  core    : Nat := 0
  slot    : Nat := 0
  /-- number of the cohort in the model, which no two cohorts share -/
  uid     : Nat := 0
  convoys : List Convoy := []
  desc    : KDesc := {}
  descPtr : Nat := 0
  /-- region control block, physical (27 R538) -/
  rcb     : Nat := 0
  /-- effective page table root of the region (30 R459) -/
  root    : DWord := 0#64
  keyid   : Nat := 0
  /-- page table root of the region whose private pool the cohort uses (27 R538) -/
  proot   : DWord := 0#64
  tmask   : BitVec 16 := 1#16
  prio    : Nat := 0
  logical : Nat := 0
  action  : Nat := 0
  handler : Nat := 0
  det     : Bool := false
  strict  : Bool := false
  check   : Bool := false
  pmacc   : Bool := false
  dclass  : Bool := false
  quantum : Nat := 200
  gen     : Word := 0#32
  /-- context block, physical (28 R430) -/
  ctx     : Nat := 0
  ctxPages : Nat := 0
  /-- key slot of the save pool's pages (27 R538, 30 R469) -/
  ckey    : Nat := 0
  /-- launch this cohort belongs to; 0 for the region's spawn grid -/
  launch  : Nat := 0
  linear  : Nat := 0
  coord   : Nat × Nat × Nat := (0, 0, 0)
  grid    : Nat × Nat × Nat := (1, 1, 1)
  arg     : DWord := 0#64
  cbank   : Nat := 0
  cfirst  : Nat := 0
  ccount  : Nat := 0
  q       : NMap Word := []
  scratch : NMap Byte := []
  fe      : NMap Bool := []
  /-- full-empty loads that wait beside their granules, in the order they arrived: convoy and unit (03 R63) -/
  feWait  : List (Nat × Nat) := []
  /-- poisoned scratch words (29 R458) -/
  spoison : NMap Bool := []
  /-- memory as it stood at the launch, for clause fetches (10 R185) -/
  code    : NMap Byte := []
  /-- accumulator words, keyed by tile × 1024 + row × 32 + column (17 R327) -/
  acc     : NMap Word := []
  /-- bytes of the operand slots, keyed by slot × 16384 + offset (06 R113, 17 R324) -/
  slots   : NMap Byte := []
  /-- poisoned slot words, by slot × 4096 + word, and accumulator words, from 131072 on (29 R458) -/
  mpoison : NMap Bool := []
  claim   : Word := 0#32
  hold    : Bool := false
  planes  : List Plane := []
  /-- format and slot of the most recent MLDW in queue order, and how many there were (17 R326) -/
  lastLdw : Option (Fmt × Nat) := none
  nldw    : Nat := 0
  mq      : List MEntry := []
  mseq    : Nat := 0
  mnum    : Nat := 0
  redn    : Bool := false
  burst   : Nat := 0
  cq      : List Cmd := []
  writes  : List EWrite := []
  nextCmd : Nat := 1
  chain   : Option Chain := none
  pchain  : Option Chain := none
  nchain  : Nat := 0
  efault  : EngFault := {}
  /-- held ticket counter, physical, and whether the turn was passed (05 R106, R107) -/
  ticket  : Option (Nat × Nat) := none
  passed  : Bool := false
  spawnk  : Nat := 0
  handoffs : Word := 0#32
  travtab : DWord := 0#64
  eftrap  : Bool := false
  pwrh    : BitVec 2 := 3#2
  rays    : List Ray := []
  raygen  : NMap Nat := []
  rlist   : Nat := 0
  /-- tape spill share, physical, and its units of 256 bytes for each thread (27 R410, 28 R430) -/
  tbase   : Nat := 0
  tper    : Nat := 0
  recs    : List Nat := []
  evict   : Bool := false
  /-- a fault has been charged; convoys stop at their next boundary (29 R443) -/
  faulting : Bool := false
  /-- the cohort is to be saved and posted as stopped; with action 4 a handler follows (29 R448) -/
  stopping : Bool := false
  /-- steps of a handoff that have been passed (07 R140), and a context block that has been granted (29 R455) -/
  handoff_ : Nat := 0
  growWant : Option Nat := none
  grown   : Bool := false
  /-- when the slot entered RUN, when its quantum began, and what its energy has been charged to (28 R436, 34 R519) -/
  bindNs  : Nat := 0
  quantumNs : Nat := 0
  chargeNs : Nat := 0
  chargeRem : Nat := 0
  /-- killed, and waiting for room in the completion ring (28 R431) -/
  dying   : Bool := false
  /-- the cohort sleeps until this time (28 R440) -/
  sleepTo : Option Nat := none
  /-- the quantum has been ended by the cohort (28 R440) -/
  yielded_ : Bool := false
  /-- a cohort of the spawn grid, with the payload record of each lane, 0 where it started exited (35 R529) -/
  payloads : List Nat := []
  /-- counted by the replay session (35 R527) -/
  session : Bool := false
  /-- model's own: barrier phases completed and faults charged, for the counters (35 R523) -/
  phases  : Nat := 0
  charged : Nat := 0
  deriving DecidableEq, Repr

/-- Why a cohort waits unbound (28 R434, 29 R450). -/
inductive Parking | ready | sleeping (until_ : Nat) | stopped | handled
  deriving DecidableEq, Repr

/-- A cohort that is not bound: what its context block holds, with the contents that only the device reads (29 R452 to R456). -/
structure Parked where
  co    : Cohort
  why   : Parking
  /-- when it was unbound (01 R36) -/
  since : Nat
  deriving DecidableEq, Repr

/-- A launch that the firmware has taken (27 R414 to R425; 07 R143). -/
structure Launch where
  no     : Nat
  rcb    : Nat
  rec_   : Nat
  /-- descriptor, and its virtual address -/
  desc   : KDesc
  descPtr : Nat
  job    : Bool := false
  commit : Bool := false
  bitmap : Bool := false
  grid   : Nat × Nat × Nat := (1, 1, 1)
  count  : Nat := 1
  arg    : DWord := 0#64
  cbank  : Nat := 0
  signal : DWord := 0#64
  dep    : DWord := 0#64
  /-- job card: N, the minimum chunk and C -/
  jn     : Nat := 0
  jmin   : Nat := 1
  jcores : Nat := 1
  /-- cohorts below `base` and those listed have been bound or have ended -/
  base   : Nat := 0
  taken  : List Nat := []
  /-- cohorts that have ended, and those of them that were lost -/
  ended  : Nat := 0
  lost   : Nat := 0
  killed : Bool := false
  aborted : Bool := false
  depfailed : Bool := false
  /-- the cohort that this launch is the handler of (29 R451) -/
  handles : Option Nat := none
  /-- the batch that this launch serves (08 R154) -/
  batch  : Option Nat := none
  session : Bool := false
  /-- when the launch was taken (01 R36), and memory as it stood then (10 R185) -/
  since  : Nat := 0
  code   : NMap Byte := []
  deriving DecidableEq, Repr

/-- A ticket pass that is due (05 R108). -/
structure TicketPass where
  launch : Nat
  pa     : Nat
  key    : Nat
  id     : Nat
  deriving DecidableEq, Repr

/-- What a BIND names: a cohort of a launch, a list buffer of a spawn queue, or a parked cohort. -/
inductive BindFrom | launch (no id : Nat) | spawn (core q buf : Nat) | parked (uid : Nat)
  deriving DecidableEq, Repr

/-- A BIND that the firmware has written and the hardware has still to check (28 R429, R430). -/
structure BindReq where
  core  : Nat
  slot  : Nat
  tmask : BitVec 16
  src   : BindFrom
  co    : Cohort
  deriving DecidableEq, Repr

/-- A request of SCALL (20 R387, 28 R440): the unit that waits, where the status goes, and the status once it is known. -/
structure Scall where
  no      : Nat
  uid     : Nat
  convoy  : Nat
  unit    : Nat
  rcb     : Nat
  root    : DWord
  service : Nat
  arg     : DWord
  status  : Option Word := none
  deriving DecidableEq, Repr

/-- Digest slots of a region (09 R180): the slots, the step published, and the step completed last. -/
structure Digest where
  rcb   : Nat
  slots : NMap (BitVec 256) := []
  pub   : Option DWord := none
  done  : Option DWord := none
  deriving DecidableEq, Repr

/-- A batch of the raster front end (08 R144 to R154; 19 R364). -/
structure Batch where
  no      : Nat
  core    : Nat
  slot    : Nat
  uid     : Nat
  convoy  : Nat
  seq     : Nat
  batch   : DWord
  state_  : DWord
  mile    : DWord
  rcb     : Nat
  root    : DWord
  after   : List (Nat × Nat × Nat) := []
  started : Bool := false
  /-- the render state record, the header's idbase and the records to draw -/
  rs      : Nat := 0
  idbase  : Word := 0#32
  count   : Nat := 0
  next    : Nat := 0
  /-- where the next record of the ring goes, and the first of the batch's records that no grid has been launched for -/
  ring    : Nat := 0
  served  : Nat := 0
  paused  : Bool := false
  done    : Nat := 0
  err     : Option (Nat × Nat) := none
  deriving DecidableEq, Repr

/-- A small-triangle ring of the raster front end (08 R154): the records in use, and the launches over them. -/
structure RingPos where
  root  : DWord
  base  : Nat
  used  : Nat
  grids : List Nat := []
  deriving DecidableEq, Repr

/-- A fragment that waits for its raster backend (08 R150, R151): depth and the interpolated colours, or the 64-bit value. -/
structure Frag where
  batch : Nat
  rb    : Nat
  x     : Nat
  y     : Nat
  z     : Word
  rgba  : List Word
  id    : Word
  deriving DecidableEq, Repr

/-- A message that the package has sent on the fabric (32 R495): kind, destination package, the header's other fields, and data. -/
structure FabMsg where
  kind  : Nat
  sw    : Bool
  h     : FabHdr
  part  : Nat := 0
  seq   : Nat := 0
  word  : DWord := 0#64
  data  : Option (List Byte) := none
  /-- the plane it travels on (32 R491) -/
  via   : Nat := 0
  deriving DecidableEq, Repr

/-- A request of the package that has no reply (32 R500). -/
structure FabReq where
  tag   : Word
  kind  : Nat
  line  : Nat
  plane : Nat
  ns    : Nat
  deriving DecidableEq, Repr

/-- A performance counter of a core (20 R385): its event, whether it counts, whose events, and its value. -/
structure PmCtr where
  ev  : BitVec 6 := 0#6
  en  : Bool := false
  own : Option Nat := none
  val : DWord := 0#64
  deriving DecidableEq, Repr

/-- A replay session (35 R524 to R530). -/
structure Session where
  rcb     : Nat
  root    : DWord
  launch  : DWord
  result  : DWord
  wsbuf   : DWord
  wspages : Nat
  events  : List Nat
  stop    : Bool
  /-- the current pass; a pass that has been set up and has not ended has its launch's number -/
  pass    : Nat := 0
  running : Option Nat := none
  /-- pages captured, in order, and whether the buffer overflowed -/
  pages   : List Nat := []
  full    : Bool := false
  external : Bool := false
  mask    : Nat := 0
  signals : List DWord := []
  counts  : List (Nat × DWord) := []
  digest  : BitVec 256 := 0#256
  digests : List (BitVec 256) := []
  deriving DecidableEq, Repr

end Sys2Proof.Machine
end

