-- ==== Sys2Proof/Machine/State.lean ====
section
/-! DEFINITION. The state of the E9400. The focused convoy is `cv`, the rest of its cohort `ch`, the
other bound cohorts `others`; which convoy is focused is a matter of the model, not of the machine.
Memory holds the coherent contents, and each core's L1 the copies and stores that differ from it. -/

namespace Sys2Proof.Machine

/-- Why the machine stops. The architected faults of 29 R441 are no such stops: their entry is a next state, and so is the
Protection fault of an access to an address that does not exist (29 R446, 30 R463). -/
inductive Fault
  /-- raised by no step; it names an access outside the physical map, for which the spec gives an architected fault; safe -/
  | noSuchAddress (pa : Nat)
  deriving DecidableEq, Repr

/-- Why the model gives no step. -/
inductive Refusal
  /-- raised by the dispatcher for an instruction that has no meaning yet; safe -/
  | notModelled (mnemonic : String)
  deriving DecidableEq, Repr

/-- A line held in a core's L1 by words that the core does not own (04 R81, R82): which bytes are
valid, their values, and when the line was filled (04 R541). -/
structure L1Line where
  core  : Nat
  line  : Nat
  valid : BitVec 128
  data  : BitVec 1024
  fill  : Nat
  /-- a private line, written back when evicted (03 R66); its valid bytes are the dirty ones -/
  priv  : Bool := false
  /-- cohort whose private line this is -/
  uid   : Nat := 0
  deriving DecidableEq, Repr

/-- A store in a core's L1 whose ownership is not registered yet (04 R82). -/
structure PStore where
  core   : Nat
  uid    : Nat
  convoy : Nat
  lane   : Nat
  addr   : Nat
  bytes  : List Byte
  key    : Nat
  cg     : Bool := false
  /-- unit of the convoy that stored it, and whether that unit stored its whole line -/
  unit   : Nat := 0
  whole  : Bool := false
  deriving DecidableEq, Repr

/-- A cached translation (30 R464). `core` is none for a die entry. -/
structure TlbEntry where
  core  : Option Nat
  die   : Nat
  root  : DWord
  vpage : Nat
  pte   : DWord
  level : Nat
  ptePa : Nat
  deriving DecidableEq, Repr

/-- A walk that met a retryable entry (30 R464). -/
structure StalledWalk where
  core : Nat
  root : DWord
  va   : Nat
  deriving DecidableEq, Repr

/-- State of a key slot (30 R471). -/
inductive KeyState | empty | loaded | clearing
  deriving DecidableEq, Repr

/-- A key slot (30 R470, R471). -/
structure KeySlot where
  st  : KeyState := .empty
  key : BitVec 512 := 0#512
  deriving DecidableEq, Repr

/-- A list buffer of a spawn queue (28 R432): descriptor, region, record addresses, the cohort's number in the spawn grid, and
whether the firmware has read its SPAWN entry. -/
structure SpawnBuf where
  desc : Nat
  rcb  : Nat
  recs : List Nat
  no   : Nat
  seen : Bool := false
  deriving DecidableEq, Repr

/-- A spawn queue of a core (07 R132, 28 R432, R433): the descriptor and region it serves, the record
addresses with the cohort each came from, its two list buffers, and a dispatch that waits for one. -/
structure SpawnQ where
  core : Nat
  q    : Nat
  desc : Nat := 0
  rcb  : Nat := 0
  used : Bool := false
  recs : List (Nat × Nat) := []
  last : Nat := 0
  want : Bool := false
  bufA : Option SpawnBuf := none
  bufB : Option SpawnBuf := none
  deriving DecidableEq, Repr

/-- Units of a region's pools taken for one cohort (27 R423): 0 record pages, 1 private, 2 save, 3 tape
spill; `owner` is the region that holds the pool. -/
structure Alloc where
  uid   : Nat
  owner : Nat
  pool  : Nat
  start : Nat
  len   : Nat
  deriving DecidableEq, Repr

/-- What happens next: the next issue on a track, an event of the machine or its surroundings, a move
of the model's focus, or the passing of time. -/
inductive Choice
  | issue (core track : Nat)
  | event (i : Instr)
  | focus (core slot convoy : Nat)
  | elapse (cycles ns : Nat)
  deriving DecidableEq, Repr

/-- What the array of a core does (06 R124): at rest or held, a ramp-up, passes, a ramp-down. -/
inductive ArrayMode | rest | up | run | down
  deriving DecidableEq, Repr

/-- The array of a core (06 R124): since when it does what it does, and since when it has been idle, in cycles. -/
structure ArrayRec where
  mode  : ArrayMode := .rest
  start : Nat := 0
  idle  : Nat := 0
  deriving DecidableEq, Repr

/-- The boot state and what boot leaves (31 R482, R483): state, error, slot, image version, and the measurement registers. -/
structure Boot where
  state_ : Nat := 0
  error  : Nat := 0
  slotB  : Bool := false
  image  : Word := 0#32
  /-- boots so far -/
  boots  : Nat := 0
  m      : List (BitVec 512) := [0#512, 0#512, 0#512, 0#512]
  deriving DecidableEq, Repr

/-- The registers of BAR0 (31 R475 to R488), the notifications that wait, and the MSI-X vectors that have fired. -/
structure HostRegs where
  rec_     : DWord := 0#64
  rcb      : DWord := 0#64
  accepted : DWord := 0#64
  fifo     : List (DWord × DWord) := []
  cmdWin   : BitVec 256 := 0#256
  service  : DWord := 0#64
  arg      : DWord := 0#64
  status   : DWord := 0#64
  busy     : Bool := false
  logBase  : DWord := 0#64
  logSize  : DWord := 0#64
  logHead  : DWord := 0#64
  logTail  : DWord := 0#64
  logLost  : DWord := 0#64
  window   : DWord := 0#64
  keyStat  : DWord := 0#64
  keyNonce : DWord := 0#64
  keyReq   : BitVec 2048 := 0#2048
  /-- a key channel request is running, and the slot whose write-back it waits for -/
  keyBusy  : Bool := false
  keyClear : Option Nat := none
  attNonce : BitVec 512 := 0#512
  attExt   : BitVec 512 := 0#512
  attCmd   : DWord := 0#64
  attBusy  : Bool := false
  attStat  : DWord := 0#64
  report   : BitVec 5120 := 0#5120
  /-- MSI-X vectors that have fired, oldest first -/
  msix     : List Nat := []
  /-- what the host's reads and atomics returned, oldest first: offset, bytes, EP -/
  replies  : List (Nat × List Byte × Bool) := []
  deriving DecidableEq, Repr

/-- The power settings and what the firmware has sampled (34 R515 to R522), in watts, degrees, MHz, milliwatts and nanoseconds. -/
structure Power where
  envelope : Nat := 2000
  soft     : Nat := 95
  hard     : Nat := 105
  floor    : Nat := 650
  sample   : Nat := 0
  temps    : List Nat := [0, 0, 0, 0]
  /-- envelope clock, and the temperature clock of each die -/
  clock    : Nat := 1300
  dieClock : List Nat := [1300, 1300, 1300, 1300]
  /-- since when each die has been at its floor at or above its hard limit -/
  hot      : List (Option Nat) := [none, none, none, none]
  /-- the throttling step in force; 0 while the envelope is kept (34 R520) -/
  step_    : Nat := 0
  /-- a quantum check has acted under the step in force -/
  acted    : Bool := false
  /-- when a cohort was last passed over for headroom -/
  passed   : Nat := 0
  deriving DecidableEq, Repr

/-- Errors, repairs and spares (33 R505 to R512). -/
structure Ras where
  /-- times of corrected errors by class and index -/
  errs    : List (Nat × Nat × Nat) := []
  /-- declared resources by class and index -/
  faulty  : List (Nat × Nat) := []
  /-- resources whose replacement is under way -/
  busy    : List (Nat × Nat) := []
  /-- the repair record in boot flash, which a reset keeps -/
  repair  : List (Nat × Nat) := []
  /-- spare rows used: of each array, of each SRAM macro, of each HBM4 bank -/
  arrays  : NMap Nat := []
  srams   : NMap Nat := []
  banks   : NMap Nat := []
  /-- L2 ways disabled, by slice × 16 + way -/
  ways    : NMap Bool := []
  service : Bool := false
  /-- fabric messages of unknown kind (32 R495) -/
  fabErrs : Nat := 0
  deriving DecidableEq, Repr

/-- The fabric side of the package (32 R489 to R501). -/
structure Fabric where
  /-- state of each FC line held: 0 I, 1 S, 2 E, 3 O, 4 M (32 R494); 5 is I for a line of this package that may be held elsewhere -/
  lines   : NMap Nat := []
  /-- requests without a reply, and those abandoned -/
  reqs    : List FabReq := []
  pend    : List FabReq := []
  tag     : Word := 0#32
  /-- failed planes in order of failure, directory slices that are recovering, packages removed from the membership list -/
  failed  : List Nat := []
  recov   : List Nat := []
  removed : List Nat := []
  /-- faulty lanes by port × 4 + lane -/
  lanes   : List Nat := []
  /-- messages sent, oldest first -/
  out     : List FabMsg := []
  deriving DecidableEq, Repr

/-- The machine. -/
structure State where
  /-- model's own: which agent moves next; an empty list lets the focused convoy go on -/
  schedule : List Choice := []
  /-- model's own: number of the next free value -/
  free     : Nat := 0
  /-- whether a cohort is bound and focused -/
  focus    : Bool := false
  cv       : Convoy := {}
  ch       : Cohort := {}
  others   : List Cohort := []
  /-- memory at its points of coherence, by physical address; an unlisted byte reads 0 -/
  mem      : NMap Byte := []
  poison   : NMap Bool := []
  ltag     : NMap Nat := []
  l1       : List L1Line := []
  pstores  : List PStore := []
  /-- owner core + 1 of each owned word, by physical address ÷ 4 (04 R82) -/
  owner    : NMap Nat := []
  tlb      : List TlbEntry := []
  walks    : List StalledWalk := []
  ns       : Nat := 0
  /-- cycles of each core since package reset (20 R386) -/
  cyc      : NMap Nat := []
  /-- convoy that issued last on each track, by core × 16 + track: slot × 32 + convoy + 1 (01 R19) -/
  lastIssue : NMap Nat := []
  uids     : Nat := 1
  /-- bind records, by core × 16 + slot (28 R427) -/
  slotTab  : NMap (BitVec 256) := []
  /-- completion rings: die and entry, oldest first (28 R431) -/
  ring     : List (Nat × BitVec 128) := []
  spawnqs  : List SpawnQ := []
  allocs   : List Alloc := []
  keys     : NMap KeySlot := []
  /-- the arrays of the matrix units, by core (06 R124) -/
  arrays   : NMap ArrayRec := []
  /-- TXS threads in arrival order (08 R155) -/
  texq     : List TexReq := []
  /-- entries of the GSUs, the one that has gone longest without an addend first, and their spill records (09 R176) -/
  gsu      : List GsuEntry := []
  gspills  : List GSpill := []
  /-- regions that the firmware has taken (27 R409 to R412) -/
  regions  : List Region := []
  /-- commands of the collective engine, oldest first (06 R126) -/
  colls    : List Coll := []
  /-- package number of this package (30 R463, 32 R502) -/
  pkg      : Nat := 0
  /-- launches that have not ended, in the order they were taken, and how many there were (27 R417) -/
  launches : List Launch := []
  nlaunch  : Nat := 0
  passes   : List TicketPass := []
  parked   : List Parked := []
  binds    : List BindReq := []
  scalls   : List Scall := []
  nscall   : Nat := 0
  digests  : List Digest := []
  /-- batches in submission order, and the fragments that wait, in submission order (08 R147, R151) -/
  batches  : List Batch := []
  nbatch   : Nat := 0
  frags    : List Frag := []
  rings    : List RingPos := []
  /-- physical core + 1 of each logical core that has been remapped (28 R439, 33 R511) -/
  remap    : NMap Nat := []
  boot     : Boot := {}
  regs     : HostRegs := {}
  power    : Power := {}
  ras      : Ras := {}
  fab      : Fabric := {}
  /-- counters, by core × 4 + counter (20 R385) -/
  ctrs     : NMap PmCtr := []
  session  : Option Session := none
  /-- the mismatch flag of the session word (20 R389, 35 R529) -/
  sessMis  : Bool := false
  deriving DecidableEq, Repr

/-- The machine right after package reset. -/
def State.reset : State := {}

end Sys2Proof.Machine
end

