-- ==== Sys2Proof/Machine/Base.lean ====
section
/-! DEFINITION. Plain operations on the state: memory bytes, focus, free choices, tokens and units,
completion entries, and the address translation of 30. -/

namespace Sys2Proof.Machine

/-- The byte at a physical address, at its point of coherence. -/
def memByte (s : State) (a : Nat) : Byte := NMap.get 0#8 s.mem a

/-- n bytes from a physical address. -/
def memGet (s : State) (a n : Nat) : List Byte := NMap.getAll 0#8 s.mem a n

/-- The number in n bytes at a physical address (00 R7). -/
def memNat (s : State) (a n : Nat) : Nat := natOfBytes (memGet s a n)

/-- Writing bytes at a physical address. -/
def memPut (s : State) (a : Nat) (bs : List Byte) : State := { s with mem := NMap.setAll 0#8 s.mem a bs }

/-- Writing a number in n bytes at a physical address (00 R7). -/
def memPutNat (s : State) (a n x : Nat) : State := memPut s a (bytesOf x n)

/-- The 128-byte line of an address (03 R67). -/
def lineOf (a : Nat) : Nat := a / 128

/-- Whether a line is poisoned (29 R458). -/
def poisoned (s : State) (line : Nat) : Bool := NMap.get false s.poison line

/-- Whether any line of a range is poisoned. -/
def poisonedRange (s : State) (a n : Nat) : Bool := poisoned s (lineOf a) || poisoned s (lineOf (a + n - 1))

/-- Setting or clearing poison of a line. -/
def setPoison (s : State) (line : Nat) (b : Bool) : State := { s with poison := NMap.set false s.poison line b }

/-- The compute die of a physical core (28 R426). -/
def dieOf (core : Nat) : Nat := core / 88

/-- Cycle count of a core (20 R386). -/
def cycles (s : State) (core : Nat) : Nat := NMap.get 0 s.cyc core

/-- Every convoy of the focused cohort. -/
def convoysOf (s : State) : List Convoy := s.cv :: s.ch.convoys

/-- Putting a convoy in its place by number. -/
def insertConvoy (c : Convoy) : List Convoy → List Convoy
  | [] => [c]
  | d :: ds => if c.id ≤ d.id then c :: d :: ds else d :: insertConvoy c ds

/-- Convoys in ascending number. -/
def sortConvoys (cs : List Convoy) : List Convoy := cs.foldr insertConvoy []

/-- The focused cohort with all its convoys, in ascending convoy number. -/
def wholeCohort (s : State) : Cohort :=
  { s.ch with convoys := sortConvoys (convoysOf s) }

/-- Putting the focused cohort back among the others. -/
def unfocus (s : State) : State :=
  if s.focus then { s with focus := false, cv := {}, ch := {}, others := wholeCohort s :: s.others } else s

/-- Taking a cohort and one of its convoys into focus, where they exist. -/
def focusOn (s0 : State) (core slot convoy : Nat) : State :=
  let s := unfocus s0
  match s.others.find? (fun c => c.core = core && c.slot = slot) with
  | none => s
  | some c =>
    match c.convoys.find? (fun v => v.id = convoy) with
    | none => s
    | some v =>
      { s with
        focus := true, cv := v, ch := { c with convoys := c.convoys.filter (fun w => w.id ≠ convoy) },
        others := s.others.filter (fun d => !(d.core = core && d.slot = slot)) }

/-- Taking another convoy of the focused cohort into focus. -/
def focusConvoy (s : State) (convoy : Nat) : State :=
  match s.ch.convoys.find? (fun v => v.id = convoy) with
  | none => s
  | some v =>
    { s with cv := v, ch := { s.ch with convoys := s.cv :: s.ch.convoys.filter (fun w => w.id ≠ convoy) } }

/-- Focus on any bound cohort when none is focused. -/
def pickFocus (s : State) : State :=
  if s.focus then s
  else match s.others with
    | [] => s
    | c :: _ => match c.convoys with
      | [] => s
      | v :: _ => focusOn s c.core c.slot v.id

/-- Every bound cohort with all its convoys. -/
def allCohorts (s : State) : List Cohort := if s.focus then wholeCohort s :: s.others else s.others

/-- The next free choice (10 R198). -/
def pickBit (s : State) : Bool × State := (Config.freeBit s.free, { s with free := s.free + 1 })

/-- The completion counter of a token (05 R109). -/
def tokCount (c : Convoy) (k : Nat) : Nat := NMap.get 0 c.tok k

/-- Whether every token of a mask is clear (05 R110). -/
def tokensClear (c : Convoy) (mask : BitVec 8) : Bool :=
  (List.range 8).all (fun k => !(mask.getLsbD k) || tokCount c k = 0)

/-- Adding units to a convoy and to their token's counter, in order (03 R60, 05 R109). -/
def addUnits (c : Convoy) (us : List Pending) : Convoy :=
  us.foldl (fun c u =>
    { c with
      useq := c.useq + 1, units := c.units ++ [{ u with seq := c.useq }],
      tok := match u.tok with
        | none => c.tok
        | some k => NMap.set 0 c.tok k (tokCount c k + 1) }) c

/-- Whether the units fit the token's 16-bit counter (05 R109). -/
def tokRoom (c : Convoy) (tok n : Nat) : Bool := decide (tokCount c tok + n ≤ 65535)

/-- Two Poison Consumed faults of one instruction: the threads of both, and the address of the lowest (29 R446). -/
def mergeFault (f g : FaultRec) : FaultRec :=
  let low := if lowestLane g.mask < lowestLane f.mask then g else f
  { low with mask := f.mask ||| g.mask, ord := min f.ord g.ord }

/-- A Poison Consumed fault becomes pending, as one with what its instruction has consumed before (15 R285, 29 R442, R445). -/
def noteConsumed (c : Convoy) (f : FaultRec) : Convoy :=
  let same (g : FaultRec) : Bool := decide (g.kind = 0x15) && decide (g.pc = f.pc) && decide (g.sub = f.sub)
  match c.bfaults.find? same with
  | none => { c with bfaults := c.bfaults ++ [f] }
  | some _ => { c with bfaults := c.bfaults.map (fun g => if same g then mergeFault g f else g) }

/-- Removing a unit and counting its token down (03 R60). -/
def dropUnit (c : Convoy) (u : Pending) : Convoy :=
  { c with
    units := c.units.filter (fun v => v.seq ≠ u.seq),
    tok := match u.tok with
      | none => c.tok
      | some k => NMap.set 0 c.tok k (tokCount c k - 1) }

/-- Applying a function to one convoy of the focused cohort. -/
def mapConvoy (s : State) (id : Nat) (f : Convoy → Convoy) : State :=
  if s.cv.id = id then { s with cv := f s.cv }
  else { s with ch := { s.ch with convoys := s.ch.convoys.map (fun v => if v.id = id then f v else v) } }

/-- A convoy of the focused cohort. -/
def getConvoy (s : State) (id : Nat) : Convoy :=
  if s.cv.id = id then s.cv else (s.ch.convoys.find? (fun v => v.id = id)).getD s.cv

/-- Room in a die's completion ring (28 R431). -/
def ringRoom (s : State) (die : Nat) : Bool :=
  decide ((s.ring.filter (fun e => e.1 = die)).length < 4096)

/-- A completion entry (28 R431). -/
def ringEntry (gen : Word) (cohort core slot reason : Nat) (detail : Word) : BitVec 128 :=
  gen ++ BitVec.ofNat 32 cohort ++ 0#16 ++ BitVec.ofNat 9 core ++ BitVec.ofNat 4 slot ++ BitVec.ofNat 3 reason ++ detail

/-- Posting a completion entry (28 R431). -/
def post (s : State) (die : Nat) (e : BitVec 128) : State := { s with ring := s.ring ++ [(die, e)] }

/-- The outcome of a translation (30 R461, R464). -/
inductive TrOut
  | ok (pte : DWord) (level : Nat) (ptePa : Nat)
  | retry
  | fail
  | poison (line : Nat)
  deriving DecidableEq, Repr

/-- Whether a key slot holds a key (30 R471). -/
def keyLoaded (s : State) (k : Nat) : Bool := decide ((NMap.get {} s.keys k).st = .loaded)

/-- Checks of a leaf entry at a level (30 R460, R461); the entry is valid and not in migration, and its frame lies outside the
fabric area (32 R493). -/
def leafOk (s : State) (e : DWord) (level : Nat) : Bool :=
  !(e.getLsbD 63) && decide (e.extractLsb' 9 3 = 0#3) && decide ((e.extractLsb' 32 10).toNat ≠ 0x7F) &&
  (match level with
    | 0 => true
    | 1 => !(e.getLsbD 7) && decide (e.extractLsb' 12 9 = 0#9)
    | _ => !(e.getLsbD 7) && decide (e.extractLsb' 12 18 = 0#18)) &&
  keyLoaded s (e.extractLsb' 52 11).toNat

/-- The package that a line's memory belongs to (30 R463). -/
def homeOf (line : Nat) : Nat := line / 2 ^ 35

/-- The state of an FC line that the package holds (32 R494); 0 for a line that it does not track. -/
def fcState (s : State) (line : Nat) : Nat := NMap.get 0 s.fab.lines line

/-- Where the out bit of a line of this package lies: byte and bit (32 R493). -/
def outPlace (s : State) (line : Nat) : Nat × Nat :=
  let o := line % 2 ^ 35 * 128
  let base := s.pkg * 2 ^ 42
  if o < 0x20000000000 then (base + 0x7F01000000 + o / 1024, line % 8) else (base + 0x7F21000000 + (o - 0x20000000000) / 1024, line % 8)

/-- The out bit of a line of this package (32 R499). -/
def outBit (s : State) (line : Nat) : Bool :=
  let p := outPlace s line
  (memByte s p.1).getLsbD p.2

/-- Whether an access to a line has to wait for coherence messages (32 R494, R497): the line is homed elsewhere, or another package
may hold it, and it is not held here in a state that allows the access. -/
def fcWaits (s : State) (line : Nat) (write : Bool) : Bool :=
  let st := fcState s line
  let ok := if write then decide (st = 2 ∨ st = 4) else decide (1 ≤ st ∧ st ≤ 4)
  if homeOf line ≠ s.pkg || st ≠ 0 then !ok else outBit s line

/-- A store in E makes the line M without a message (32 R494). -/
def fcDirty (s : State) (line : Nat) : State :=
  if fcState s line = 2 then { s with fab := { s.fab with lines := NMap.set 0 s.fab.lines line 4 } } else s

/-- Checks of a table entry (30 R460). -/
def tableOk (e : DWord) : Bool :=
  decide (e.extractLsb' 52 12 = 0#12) && decide (e.extractLsb' 2 10 = 0#10)

/-- The walk from a table at `level` (30 R459, R461); an entry whose line is to be fetched from another package waits (32 R501). -/
def walkFrom (s : State) (va : Nat) : Nat → Nat → TrOut
  | 0, _ => .fail
  | level + 1, table =>
    let pa := table + 8 * ((va >>> (12 + 9 * level)) % 512)
    let e : DWord := BitVec.ofNat 64 (memNat s pa 8)
    if fcWaits s (lineOf pa) false then .retry
    else if poisoned s (lineOf pa) then .poison (lineOf pa)
    else if e.getLsbD 8 && (e.getLsbD 1 || !(e.getLsbD 0)) then .retry
    else if !(e.getLsbD 0) then .fail
    else if e.getLsbD 1 then
      if level ≤ 2 && leafOk s e level then .ok e level pa else .fail
    else if level = 0 then .fail
    else if tableOk e then walkFrom s va level ((e.extractLsb' 12 40).toNat * 4096)
    else .fail

/-- The walk of a virtual address from a root (30 R459, R461). -/
def walk (s : State) (root : DWord) (va : Nat) : TrOut :=
  if root.extractLsb' 52 12 ≠ 0#12 || root.extractLsb' 0 12 ≠ 0#12 then .fail
  else walkFrom s va 5 root.toNat

/-- Bytes a leaf maps, as a power of two (30 R459, R461). -/
def leafShift (pte : DWord) (level : Nat) : Nat :=
  match level with
  | 0 => if pte.getLsbD 7 then 16 else 12
  | 1 => 21
  | _ => 30

/-- The physical address a leaf gives a virtual address (30 R459, R461). -/
def leafPa (pte : DWord) (level va : Nat) : Nat :=
  let k := leafShift pte level
  ((pte.extractLsb' 12 40).toNat * 4096) / 2 ^ k * 2 ^ k + va % 2 ^ k

/-- Key slot of a leaf (30 R460). -/
def pteKey (pte : DWord) : Nat := (pte.extractLsb' 52 11).toNat

/-- Whether a cached translation covers an address (30 R464). -/
def TlbEntry.covers (t : TlbEntry) (root : DWord) (va : Nat) : Bool :=
  decide (t.root = root) && decide (t.vpage = va / 2 ^ leafShift t.pte t.level)

/-- The cached translation an access of a core may use: its own first, then its die's (30 R464). -/
def tlbLookup (s : State) (core : Nat) (root : DWord) (va : Nat) : Option TlbEntry :=
  match s.tlb.find? (fun t => t.core = some core && t.covers root va) with
  | some t => some t
  | none => s.tlb.find? (fun t => t.core = none && t.die = dieOf core && t.covers root va)

/-- Keeping at most the newest n entries that pass a test. -/
def capTlb (n : Nat) (p : TlbEntry → Bool) (ts : List TlbEntry) : List TlbEntry :=
  let k := (ts.filter p).length
  if k ≤ n then ts else ts.filter (fun t => !(p t) || (ts.filter p).getLast? ≠ some t)

/-- Caching a translation in the core's and the die's TLB (30 R464). -/
def tlbFill (s : State) (core : Nat) (root : DWord) (va : Nat) (pte : DWord) (level ptePa : Nat) : State :=
  let e (c : Option Nat) : TlbEntry :=
    { core := c, die := dieOf core, root := root, vpage := va / 2 ^ leafShift pte level, pte := pte,
      level := level, ptePa := ptePa }
  let old := s.tlb.filter (fun t => !((t.core = some core || (t.core = none && t.die = dieOf core)) && t.covers root va))
  { s with
    tlb := capTlb 4096 (fun t => t.core = none && t.die = dieOf core)
      (capTlb 256 (fun t => t.core = some core) (e (some core) :: e none :: old)) }

/-- Translating for a core: a cached entry, or a walk that caches (30 R459, R464). -/
def translate (s : State) (core : Nat) (root : DWord) (va : Nat) : TrOut × State :=
  match tlbLookup s core root va with
  | some t => (.ok t.pte t.level t.ptePa, s)
  | none =>
    match walk s root va with
    | .ok pte level ptePa => (.ok pte level ptePa, tlbFill s core root va pte level ptePa)
    | r => (r, s)

/-- The core number under which the firmware's own translations are made; it names no physical core (28 R426). -/
def fwCore : Nat := 352

/-- Whether a write to a page has to wait for the write-set capture of a replay session (35 R528): the first write of pass 1 by the
session or by the firmware to a page of the region, outside the session's own buffers. -/
def captureDue (s : State) (core : Nat) (root : DWord) (va : Nat) : Bool :=
  match s.session with
  | none => false
  | some x =>
    let page := va / 4096
    let inside (base n : Nat) : Bool := decide (base / 4096 ≤ page) && decide (page ≤ (base + n - 1) / 4096)
    decide (x.pass = 1) && x.running.isSome && !x.full && decide (x.root = root) &&
      (decide (core = fwCore) || !s.focus || s.ch.session) && !(x.pages.any (fun p => p = page)) &&
      !(inside x.wsbuf.toNat (4096 * x.wspages)) && !(inside x.result.toNat 832)

/-- Setting D before the first write through a translation (30 R462): the entry in memory and the cached
copies, where the entry still is as walked; otherwise the access walks again. -/
def setDirty (s : State) (core : Nat) (root : DWord) (va : Nat) : TrOut × State :=
  match translate s core root va with
  | (.ok pte level ptePa, s1) =>
    if captureDue s1 core root va then (.retry, s1)
    else if pte.getLsbD 4 then (.ok pte level ptePa, s1)
    else
      let again : TrOut := if BitVec.ofNat 64 (memNat s1 ptePa 8) = pte then .ok pte level ptePa else walk s1 root va
      match again with
      | .ok p l a =>
        if fcWaits s1 (lineOf a) true then (.retry, s1)
        else
          let p' := p ||| 0x10#64
          let s2 := memPutNat (fcDirty s1 (lineOf a)) a 8 p'.toNat
          (.ok p' l a, tlbFill s2 core root va p' l a)
      | r => (r, { s1 with tlb := s1.tlb.filter (fun t => !(t.covers root va)) })
  | r => r

/-- Where a physical address lies (30 R463). -/
inductive PhysKind | hbm | tier2 | remote | hole
  deriving DecidableEq, Repr

/-- The physical map (30 R463). -/
def physKind (s : State) (pa : Nat) : PhysKind :=
  let off := pa % 2 ^ 42
  if pa / 2 ^ 42 ≠ s.pkg then .remote
  else if off < 0x8000000000 then .hbm
  else if 0x20000000000 ≤ off ∧ off < 0x20000000000 + Config.tier2Size then .tier2
  else .hole

end Sys2Proof.Machine
end

