-- ==== Sys2Proof/Machine/L1.lean ====
section
/-! DEFINITION. The caches as a program sees them (03 R66 to R68, 04 R78 to R85, R541, R542; 30 R469):
a core reads its own stores at once, other cores' stores once they are registered, and may read copies
that its L1 has kept. -/

namespace Sys2Proof.Machine

/-- Byte i of a line's data. -/
def lineByte (data : BitVec 1024) (i : Nat) : Byte := data.extractLsb' (8 * i) 8

/-- The 1,024 bits of a line in memory. -/
def memLine (s : State) (line : Nat) : BitVec 1024 := BitVec.ofNat 1024 (memNat s (128 * line) 128)

/-- A line's bytes under another key: the stored bytes are the encryption under the old key (30 R469). A line of another package is
encrypted there. -/
def rekey (s : State) (line k : Nat) : State :=
  let k0 := NMap.get 0 s.ltag line
  if k0 = k || homeOf line ≠ s.pkg then s
  else
    let x := Config.xtsDecrypt (NMap.get {} s.keys k).key line
      (Config.xtsEncrypt (NMap.get {} s.keys k0).key line (memLine s line))
    { memPutNat s (128 * line) 128 x.toNat with ltag := NMap.set 0 s.ltag line k }

/-- The line of an access under its page's key (30 R469). -/
def rekeyAt (s : State) (a n key : Nat) : State := rekey (rekey s (lineOf a) key) (lineOf (a + n - 1)) key

/-- The newest unregistered store of a core to a byte (04 R82). -/
def pstoreByte (s : State) (core a : Nat) : Option Byte :=
  (s.pstores.filter (fun p => p.core = core && decide (p.addr ≤ a ∧ a < p.addr + p.bytes.length))).getLast?.map
    (fun p => p.bytes.getD (a - p.addr) 0#8)

/-- The copy of a byte that a core's L1 holds and does not own (04 R81). -/
def copyByte (s : State) (core a : Nat) : Option Byte :=
  match s.l1.find? (fun l => l.core = core && l.line = lineOf a && !l.priv && l.valid.getLsbD (a % 128)) with
  | some l => some (lineByte l.data (a % 128))
  | none => none

/-- The byte a plain load of a core reads: its own newest store, the copy when the L1 serves one, or the
coherent value (04 R79 to R82). -/
def loadByte (s : State) (core : Nat) (stale : Bool) (a : Nat) : Byte :=
  match pstoreByte s core a with
  | some b => b
  | none => if stale then (copyByte s core a).getD (memByte s a) else memByte s a

/-- The bytes a plain load of a core reads. -/
def loadBytes (s : State) (core : Nat) (stale : Bool) (a n : Nat) : List Byte :=
  (List.range n).map (fun i => loadByte s core stale (a + i))

/-- Filling a line of a core's L1 with the coherent contents (03 R67). -/
def fillLine (s : State) (core line : Nat) : State :=
  { s with
    l1 := { core := core, line := line, valid := BitVec.allOnes 128, data := memLine s line, fill := s.ns } ::
      s.l1.filter (fun l => !(l.core = core && l.line = line && !l.priv)) }

/-- Dropping the valid bytes of a core's copy of a range. -/
def dropCopy (s : State) (core a n : Nat) : State :=
  { s with
    l1 := s.l1.map (fun l =>
      if l.core = core && !l.priv then
        { l with valid := (List.range n).foldl (fun v i =>
            if (a + i) / 128 = l.line then v &&& ~~~(1#128 <<< ((a + i) % 128)) else v) l.valid }
      else l) }

/-- Invalidation by an acquire: every word of the L1 that the core does not own (04 R84). -/
def invalidateL1 (s : State) (core : Nat) : State :=
  { s with l1 := s.l1.filter (fun l => !(l.core = core && !l.priv)) }

/-- The words, by address ÷ 4, that a range touches. -/
def wordsOfRange (a n : Nat) : List Nat :=
  (List.range ((a + n - 1) / 4 - a / 4 + 1)).map (fun i => a / 4 + i)

/-- A copy left with a core whose ownership of a line passes: its owned words as they stand (04 R82). -/
def leaveCopy (s : State) (core line : Nat) : State :=
  let own := (List.range 32).filter (fun i => NMap.get 0 s.owner (32 * line + i) = core + 1)
  if own.isEmpty then s
  else
    let mask := own.foldl (fun (m : BitVec 128) i => m ||| (0xF#128 <<< (4 * i))) 0#128
    { s with
      l1 := { core := core, line := line, valid := mask, data := memLine s line, fill := s.ns } :: s.l1,
      owner := own.foldl (fun o i => NMap.set 0 o (32 * line + i) 0) s.owner }

/-- The core that owns words of a line. -/
def lineOwner (s : State) (line : Nat) : Option Nat :=
  match (List.range 32).find? (fun i => NMap.get 0 s.owner (32 * line + i) ≠ 0) with
  | some i => some (NMap.get 0 s.owner (32 * line + i) - 1)
  | none => none

/-- A write performed at the point of coherence: the bytes are stored, poison of a line wholly written is
cleared, and other owners of the line give it up (04 R82, 29 R458). `owner` is none for a write with
no owning core. -/
def writeCoherent (s : State) (own : Option Nat) (a key : Nat) (bs : List Byte) : State :=
  let s1 := rekeyAt s a bs.length key
  let s2 := match lineOwner s1 (lineOf a) with
    | some c => if own = some c then s1 else leaveCopy s1 c (lineOf a)
    | none => s1
  let s3 := memPut (fcDirty s2 (lineOf a)) a bs
  let s4 := if a % 128 = 0 ∧ bs.length = 128 then setPoison s3 (lineOf a) false else s3
  match own with
  | none => { s4 with owner := (wordsOfRange a bs.length).foldl (fun o w => NMap.set 0 o w 0) s4.owner }
  | some c =>
    dropCopy { s4 with owner := (wordsOfRange a bs.length).foldl (fun o w => NMap.set 0 o w (c + 1)) s4.owner }
      c a bs.length

/-- Whether a store is of the same unit as another and in the same line. -/
def sameLineStore (p q : PStore) : Bool :=
  decide (q.core = p.core) && decide (q.uid = p.uid) && decide (q.convoy = p.convoy) && decide (q.unit = p.unit) &&
    decide (lineOf q.addr = lineOf p.addr) && q.whole

/-- Registering one unregistered store (04 R82). The last store of a unit that wrote its whole line clears the line's poison
(29 R458). -/
def registerStore (s : State) (p : PStore) : State :=
  let s1 :=
    writeCoherent { s with pstores := s.pstores.erase p } (if p.cg then none else some p.core) p.addr p.key p.bytes
  if p.whole && !(s1.pstores.any (sameLineStore p)) then setPoison s1 (lineOf p.addr) false else s1

/-- Whether a store may be registered: no earlier store of the core touches a byte of it (04 R79). -/
def storeFirst (s : State) (p : PStore) : Bool :=
  match (s.pstores.filter (fun q => q.core = p.core &&
      decide (q.addr < p.addr + p.bytes.length ∧ p.addr < q.addr + q.bytes.length))).head? with
  | some q => decide (q = p)
  | none => false

/-- Registering every store of a core that passes a test, in order. -/
def registerAll (s : State) (p : PStore → Bool) : State := (s.pstores.filter p).foldl registerStore s

/-- The private line a convoy's core holds, dirty bytes valid (03 R66). -/
def privByte (s : State) (core a : Nat) : Byte :=
  match s.l1.find? (fun l => l.core = core && l.line = lineOf a && l.priv && l.valid.getLsbD (a % 128)) with
  | some l => lineByte l.data (a % 128)
  | none => memByte s a

/-- A private store: the bytes become dirty in the private line; a full line is not fetched (03 R66,
21 R393). -/
def privPut (s : State) (core uid a : Nat) (bs : List Byte) : State :=
  (List.range bs.length).foldl (fun s i =>
    let b := bs.getD i 0#8
    let ln := lineOf (a + i)
    let j := (a + i) % 128
    let hit := s.l1.find? (fun l => l.core = core && l.line = ln && l.priv)
    let l : L1Line := hit.getD { core := core, line := ln, valid := 0#128, data := 0#1024, fill := s.ns, priv := true, uid := uid }
    let m : BitVec 1024 := 0xFF#1024 <<< (8 * j)
    let l' := { l with valid := l.valid ||| (1#128 <<< j), data := (l.data &&& ~~~m) ||| (b.setWidth 1024 <<< (8 * j)) }
    { s with l1 := l' :: s.l1.filter (fun k => !(k.core = core && k.line = ln && k.priv)) }) s

/-- Writing back one private line (03 R66, 21 R394); a line wholly dirty is wholly written (29 R458). -/
def writeBackLine (s : State) (l : L1Line) : State :=
  let s1 := (List.range 128).foldl (fun s j =>
    if l.valid.getLsbD j then memPut s (128 * l.line + j) [lineByte l.data j] else s)
    { s with l1 := s.l1.erase l }
  if l.valid = BitVec.allOnes 128 then setPoison s1 l.line false else s1

/-- Writing back every private line of a cohort (03 R66, 21 R394). -/
def writeBackPrivate (s : State) (uid : Nat) : State :=
  (s.l1.filter (fun l => l.priv && l.uid = uid)).foldl writeBackLine s

end Sys2Proof.Machine
end

