-- ==== Sys2Proof/Machine/Fc.lean ====
section
/-! DEFINITION. Planes, directory slices, and the requests that an access to an FC line sends (32 R491, R492, R494 to R497). -/

namespace Sys2Proof.Machine

/-- The directory slice of a line (32 R492). -/
def dirSlice (line : Nat) : Nat :=
  let f (k : Nat) : Nat := (line / 2 ^ k) % 64
  f 0 ^^^ f 6 ^^^ f 12 ^^^ f 18 ^^^ f 24 ^^^ f 30 ^^^ f 36 ^^^ ((line / 2 ^ 42) % 8)

/-- Number of planes (32 R491). -/
def planes : Nat := Config.planesLess + 1

/-- Planes that are in service when a list of them has failed. -/
def planesLeft (failed : List Nat) : List Nat := (List.range planes).filter (fun p => !(failed.any (· = p)))

/-- The slices of a plane given to others in turn (32 R492). -/
def reassign (table left : List Nat) (f : Nat) : List Nat :=
  let mine := (List.range table.length).filter (fun i => table.getD i 0 = f)
  (table.zipIdx).map (fun e =>
    if e.1 = f && !left.isEmpty then left.getD (mine.idxOf e.2 % left.length) 0 else e.1)

/-- The slice table after planes have failed, in their order (32 R492). -/
def sliceTable : List Nat → List Nat → List Nat → List Nat
  | [], _, table => table
  | f :: fs, gone, table => sliceTable fs (gone ++ [f]) (reassign table (planesLeft (gone ++ [f])) f)

/-- The plane of each of the 64 slices (32 R492). -/
def slicePlanes (s : State) : List Nat := sliceTable s.fab.failed [] ((List.range 64).map (fun i => i % planes))

/-- The plane of a slice. -/
def planeOf (s : State) (slice : Nat) : Nat := (slicePlanes s).getD slice 0

/-- Sending messages. -/
def sendMsgs (s : State) (ms : List FabMsg) : State := { s with fab := { s.fab with out := s.fab.out ++ ms } }

/-- A coherence message about a line (32 R495), on the plane of the line's slice. -/
def fcMsg (s : State) (kind : Nat) (sw : Bool) (dst : Nat) (tag : Word) (line state : Nat) (data : Option (List Byte)) : FabMsg :=
  { kind := kind, sw := sw, data := data, via := planeOf s (dirSlice line)
    h := { src := s.pkg, dst := dst, tag := tag, line := line, state := state, poison := data.isSome && poisoned s line, plane := 0 } }

/-- The data of a line. -/
def fcData (s : State) (line : Nat) : Option (List Byte) := some (memGet s (128 * line) 128)

/-- A request is sent, and awaits its reply (32 R496, R500). -/
def sendRequest (s : State) (kind line : Nat) : State :=
  let q : FabReq := { tag := s.fab.tag, kind := kind, line := line, plane := planeOf s (dirSlice line), ns := s.ns }
  sendMsgs { s with fab := { s.fab with reqs := s.fab.reqs ++ [q], tag := s.fab.tag + 1#32 } }
    [fcMsg s kind true 0 s.fab.tag line 0 none]

/-- Asking for a line in the state that an access needs: READS, READO, or UPGR of a holder in S or O; nothing while a request for the
line is outstanding or its slice recovers (32 R496, R501). The home asks with READO. -/
def fcAsk (s : State) (line : Nat) (write : Bool) : State :=
  if !(fcWaits s line write) || (s.fab.reqs ++ s.fab.pend).any (fun q => q.line = line) || s.fab.recov.any (· = dirSlice line) then s
  else
    let held := decide (fcState s line = 1 ∨ fcState s line = 3)
    sendRequest s (if !write then 1 else if held && decide (homeOf line ≠ s.pkg) then 3 else 2) line

/-- The lines of a range of addresses. -/
def linesOf (a n : Nat) : List Nat := (List.range (lineOf (a + n - 1) - lineOf a + 1)).map (fun i => lineOf a + i)

/-- What goes on once every line of a list is held as the access needs; until then the lines are asked for. -/
def fcGate (s : State) (ls : List (Nat × Bool)) (go : Host.Outcome State Fault Refusal) : Host.Outcome State Fault Refusal :=
  if ls.any (fun x => fcWaits s x.1 x.2) then .next (ls.foldl (fun s x => fcAsk s x.1 x.2) s) else go

/-- The lines that the pieces of a unit touch in memory. -/
def pieceLines (write : Bool) (ps : List Piece) : List (Nat × Bool) :=
  (ps.filter (fun p => !p.scr && !p.priv && decide (0 < p.n))).flatMap (fun p => (linesOf p.addr p.n).map (fun l => (l, write)))

/-- The owned words of a line are recalled from the cores: their stores to it are registered (32 R494, 04 R82, R94). -/
def recallLine (s : State) (line : Nat) : State :=
  let s1 := registerAll s (fun p => lineOf p.addr = line)
  match lineOwner s1 line with
  | some c => leaveCopy s1 c line
  | none => s1

/-- The state of a line that the package holds set; 5 stands for a line of this package that is not held here and may be elsewhere. -/
def setFc (s : State) (line st : Nat) : State :=
  let x := if st = 0 && homeOf line = s.pkg then 5 else st
  { s with fab := { s.fab with lines := NMap.set 0 s.fab.lines line x } }

/-- Setting or clearing the out bit of a line of this package (32 R499). -/
def setOut (s : State) (line : Nat) (b : Bool) : State :=
  let p := outPlace s line
  let m : Byte := 1#8 <<< p.2
  memPut s p.1 [if b then memByte s p.1 ||| m else memByte s p.1 &&& ~~~m]

end Sys2Proof.Machine
end

