-- ==== Sys2Proof/Machine/Region.lean ====
section
/-! DEFINITION. Region control blocks as the firmware and the device read them (27 R409 to R413, R538): fields, inheritance,
effective values. -/

namespace Sys2Proof.Machine

/-- A field of a region control block, bits hi to lo (27 R410). -/
def rcbFld (s : State) (rcb hi lo : Nat) : Nat := memNat s (rcb + lo / 8) (hi / 8 + 1 - lo / 8) / 2 ^ (lo % 8) % 2 ^ (hi + 1 - lo)

/-- A bit of a region control block. -/
def rcbBit (s : State) (rcb k : Nat) : Bool := decide (rcbFld s rcb k k = 1)

/-- Writing whole bytes of a region control block at the point of coherence under key slot 0 (27 R538). -/
def rcbPut (s : State) (rcb hi lo x : Nat) : State := writeCoherent s none (rcb + lo / 8) 0 (bytesOf x ((hi + 1 - lo) / 8))

/-- Setting a bit of a region control block. -/
def rcbSetBit (s : State) (rcb k : Nat) : State :=
  writeCoherent s none (rcb + k / 8) 0 [BitVec.ofNat 8 (memNat s (rcb + k / 8) 1) ||| (1#8 <<< (k % 8))]

/-- The region that the firmware holds under an address. -/
def regionOf (s : State) (rcb : Nat) : Option Region := s.regions.find? (fun r => r.rcb = rcb)

/-- Replacing what the firmware holds of a region. -/
def putRegion (s : State) (r : Region) : State := { s with regions := r :: s.regions.filter (fun x => x.rcb ≠ r.rcb) }

/-- The parent that the firmware holds for a region; 0 for a root. -/
def parentOf (s : State) (rcb : Nat) : Nat := ((regionOf s rcb).map (·.parent)).getD 0

/-- The most parent links that are followed; a longer chain breaks 27 R409. -/
def treeFuel : Nat := 64

/-- The nearest region, from a region upward, whose override bit is set (27 R411). -/
def groupOwner (s : State) (bit : Nat) : Nat → Nat → Nat
  | 0, rcb => rcb
  | fuel + 1, rcb =>
    if rcbBit s rcb (816 + bit) || parentOf s rcb = 0 then rcb else groupOwner s bit fuel (parentOf s rcb)

/-- The region whose fields of a group are effective for a region (27 R411). -/
def effOwner (s : State) (bit rcb : Nat) : Nat := groupOwner s bit treeFuel rcb

/-- A field of a group as it is effective for a region (27 R411). -/
def effFld (s : State) (bit rcb hi lo : Nat) : Nat := rcbFld s (effOwner s bit rcb) hi lo

/-- Effective key id (27 R412). -/
def effKey (s : State) (rcb : Nat) : Nat := effFld s 6 rcb 807 797

/-- The region that holds the effective pools (27 R411, R423). -/
def poolRegion (s : State) (rcb : Nat) : Region :=
  (regionOf s (effOwner s 1 rcb)).getD { rcb := effOwner s 1 rcb }

/-- Effective page table root: a field of 0 takes the parent's (27 R410). -/
def rootFrom (s : State) : Nat → Nat → DWord
  | 0, _ => 0#64
  | fuel + 1, rcb =>
    match regionOf s rcb with
    | none => 0#64
    | some r => if r.ptroot = 0#64 && r.parent ≠ 0 then rootFrom s fuel r.parent else r.ptroot

/-- Effective page table root of a region. -/
def effRoot (s : State) (rcb : Nat) : DWord := rootFrom s treeFuel rcb

/-- Whether a region lies in the subtree of another, by what the firmware holds (27 R409). -/
def below (s : State) (top : Nat) : Nat → Nat → Bool
  | 0, _ => false
  | fuel + 1, rcb => if rcb = top then true else if parentOf s rcb = 0 then false else below s top fuel (parentOf s rcb)

/-- Whether a region or an ancestor has HALT set (28 R434). -/
def haltedFrom (s : State) : Nat → Nat → Bool
  | 0, _ => false
  | fuel + 1, rcb => rcbBit s rcb 768 || (parentOf s rcb ≠ 0 && haltedFrom s fuel (parentOf s rcb))

end Sys2Proof.Machine
end

