-- ==== Sys2Proof/Machine/Ops.lean ====
section
/-! DEFINITION. The named operations: scratch and barriers, junctions, mileposts, engine errors, the
spawn queues, killing a cohort, and taking an exception: charging a fault with the domain action, and the
resume that returns from one (29 R443 to R451). -/

namespace Sys2Proof.Machine

/-- A byte of the cohort's scratch, by physical location (03 R57, R61). -/
def scrByte (c : Cohort) (a : Nat) : Byte := NMap.get 0#8 c.scratch a

/-- Bytes of scratch. -/
def scrGet (c : Cohort) (a n : Nat) : List Byte := NMap.getAll 0#8 c.scratch a n

/-- Writing bytes of scratch; a word wholly written loses its poison (29 R458). -/
def scrPut (c : Cohort) (a : Nat) (bs : List Byte) : Cohort :=
  let full := (List.range (bs.length / 4)).filter (fun _ => a % 4 = 0)
  { c with
    scratch := NMap.setAll 0#8 c.scratch a bs
    spoison := full.foldl (fun m i => NMap.set false m (a / 4 + i) false) c.spoison }

/-- The digest slots of a region (09 R180). -/
def digestOf (s : State) (rcb : Nat) : Digest := (s.digests.find? (fun d => d.rcb = rcb)).getD { rcb := rcb }

/-- Replacing the digest slots of a region. -/
def putDigest (s : State) (d : Digest) : State := { s with digests := d :: s.digests.filter (fun x => x.rcb ≠ d.rcb) }

/-- The partner of a region as the firmware holds it (09 R180, 27 R412). -/
def partnerOf (s : State) (rcb : Nat) : Nat := ((regionOf s rcb).map (·.partner)).getD 0

/-- Whether a waiting DIGEST.step has something to do: no partner, a result for the step, or the partner's slots (09 R180). -/
def digestDue (s : State) (rcb : Nat) (n : DWord) : Bool :=
  let p := partnerOf s rcb
  decide (p = 0) || decide ((digestOf s rcb).done = some n) || decide ((digestOf s p).pub = some n)

/-- Size of the cohort's scratch in bytes (03 R57). -/
def scrSize (c : Cohort) : Nat := c.desc.scratch * 32768

/-- The full-empty bit of a granule (03 R62). -/
def feBit (c : Cohort) (g : Nat) : Bool := NMap.get false c.fe g

/-- Setting or clearing a full-empty bit (03 R62). -/
def setFe (c : Cohort) (g : Nat) (b : Bool) : Cohort := { c with fe := NMap.set false c.fe g b }

/-- The physical scratch byte of an offset under a layout (03 R61). -/
def scrMap (l : Layout) (off : Nat) : Nat :=
  let w := off / 4
  let row := w / 32
  let col := w % 32
  let bank := match l with
    | .lin => col
    | .xor16 => 4 * ((col / 4) ^^^ (row % 8)) + col % 4
    | .xor32 => 8 * ((col / 8) ^^^ (row % 4)) + col % 8
  4 * (32 * row + bank) + off % 4

/-- A phase barrier (05 R98). -/
structure Barrier where
  rest     : Word
  bytes    : Word
  hi       : BitVec 14
  poisoned : Bool
  faulted  : Bool
  pending  : BitVec 16
  expected : BitVec 16
  phase    : BitVec 16
  deriving DecidableEq, Repr

/-- Fields of a barrier (05 R98). -/
def Barrier.unpack (x : BitVec 128) : Barrier :=
  { rest := x.extractLsb' 96 32, bytes := x.extractLsb' 64 32, hi := x.extractLsb' 50 14, poisoned := x.getLsbD 49,
    faulted := x.getLsbD 48, pending := x.extractLsb' 32 16, expected := x.extractLsb' 16 16,
    phase := x.extractLsb' 0 16 }

/-- A barrier's 16 bytes (05 R98). -/
def Barrier.pack (b : Barrier) : BitVec 128 :=
  b.rest ++ b.bytes ++ b.hi ++ BitVec.ofBool b.poisoned ++ BitVec.ofBool b.faulted ++ b.pending ++ b.expected ++ b.phase

/-- The barrier at a scratch offset (05 R98). -/
def getBarrier (c : Cohort) (off : Nat) : Barrier := .unpack (BitVec.ofNat 128 (natOfBytes (scrGet c off 16)))

/-- Writing the barrier at a scratch offset (05 R99). -/
def putBarrier (c : Cohort) (off : Nat) (b : Barrier) : Cohort :=
  { scrPut c off (bytesOf b.pack.toNat 16) with phases := if b.phase = (getBarrier c off).phase then c.phases else c.phases + 1 }

/-- The test after an update (05 R101). -/
def Barrier.test (b : Barrier) : Barrier :=
  if b.faulted || b.poisoned then b
  else if b.pending = 0#16 ∧ b.bytes = 0#32 then { b with phase := b.phase + 1#16, pending := b.expected }
  else if b.pending = 0#16 ∧ b.bytes.toInt < 0 then { b with poisoned := true }
  else b

/-- BINIT, barrier form (05 R100); a count above 65,535 acts as 0 (16 R311). -/
def Barrier.init (b : Barrier) (n : Nat) : Barrier :=
  let z := { b with rest := 0#32, bytes := 0#32, hi := 0#14, faulted := false }
  if n = 0 || 65535 < n then { z with poisoned := true }
  else { z with poisoned := false, expected := BitVec.ofNat 16 n, pending := BitVec.ofNat 16 n }

/-- BARV and BARV.tx (05 R100, R101). -/
def Barrier.arrive (b : Barrier) (k : Nat) : Barrier :=
  if b.faulted || b.poisoned then b
  else if b.pending = 0#16 || 2147483647 < b.bytes.toInt + k then { b with poisoned := true }
  else Barrier.test { b with bytes := b.bytes + BitVec.ofNat 32 k, pending := b.pending - 1#16 }

/-- An engine's subtraction of landed bytes (05 R100, R101). -/
def Barrier.land (b : Barrier) (n : Nat) : Barrier := Barrier.test { b with bytes := b.bytes - BitVec.ofNat 32 n }

/-- What BWAIT finds (05 R102): complete and clear, complete and set, or wait. -/
def Barrier.await (b : Barrier) (target : BitVec 16) : Option Bool :=
  if 0 ≤ (b.phase - target).toInt then some false
  else if b.faulted || b.poisoned then some true else none

/-- Setting the faulted bit (05 R103). -/
def barrierFault (c : Cohort) (off : Nat) : Cohort := putBarrier c off { getBarrier c off with faulted := true }

/-- Whether the access rights of a leaf allow a read or a write (30 R462). -/
def rightsOk (pte : DWord) (write : Bool) : Bool := !write || pte.getLsbD 2

/-- An engine's access to global memory: its physical address and key, or the engine error code of 18 R350;
none when the translation is retryable or the line waits for coherence messages (18 R351, 30 R462, R463, 32 R501). -/
def engAddr (s : State) (core : Nat) (root : DWord) (va : DWord) (write fcOk : Bool) :
    Option (Except Nat (Nat × Nat)) × State :=
  if va.extractLsb' 57 7 ≠ 0#7 then (some (.error 5), s)
  else
    match (if write then setDirty s core root va.toNat else translate s core root va.toNat) with
    | (.retry, s1) => (none, s1)
    | (.fail, s1) => (some (.error 6), s1)
    | (.poison _, s1) => (some (.error 6), s1)
    | (.ok pte level _, s1) =>
      let pa := leafPa pte level va.toNat
      let bad := !(rightsOk pte write) ||
        (match physKind s1 pa with
          | .hole => true
          | .remote => !(pte.getLsbD 5) && !fcOk
          | .tier2 => pte.getLsbD 6
          | .hbm => false)
      if bad then (some (.error 5), s1)
      else if fcWaits s1 (lineOf pa) write then (none, s1) else (some (.ok (pa, pteKey pte)), s1)

/-- Whether a milepost address names a milepost (18 R351). -/
def hasMile (va : DWord) : Bool :=
  decide (va ≠ 0#64) && decide (va.extractLsb' 0 3 = 0#3) && decide (va.extractLsb' 57 7 = 0#7)

/-- The milepost word after a command (06 R112). -/
def mileWord (old : DWord) (failed : Bool) (seq : Nat) : DWord :=
  let q : BitVec 63 := BitVec.ofNat 63 (max (old.extractLsb' 0 63).toNat seq)
  BitVec.ofBool (old.getLsbD 63 || failed) ++ q

/-- Writing a milepost (06 R112): the error code of a write that cannot be made (18 R351). A retryable
translation is taken as not made now; the caller retries it. -/
def writeMile (s : State) (core : Nat) (root va : DWord) (failed : Bool) (seq : Nat) : Option Nat × Bool × State :=
  if !(hasMile va) then (none, true, s)
  else
    match engAddr s core root va true false with
    | (none, s1) => (none, false, s1)
    | (some (.error e), s1) => (some e, true, s1)
    | (some (.ok (pa, key)), s1) =>
      if poisoned s1 (lineOf pa) then (some 7, true, s1)
      else
        let old : DWord := BitVec.ofNat 64 (memNat s1 pa 8)
        (none, true, writeCoherent s1 none pa key (bytesOf (mileWord old failed seq).toNat 8))

/-- Recording an engine error in the slot's engine fault record (18 R351, R352; 29 R447). -/
def recordEngine (c : Cohort) (code source convoy seq chain vaddr done : Nat) : Cohort :=
  if c.efault.code = 0#8 then
    { c with
      efault :=
        { vaddr := BitVec.ofNat 64 vaddr, chain := BitVec.ofNat 64 chain, seq := BitVec.ofNat 64 seq,
          done := BitVec.ofNat 64 done, code := BitVec.ofNat 8 code, source := BitVec.ofNat 8 source, convoy := convoy } }
  else { c with efault := { c.efault with later := BitVec.ofNat 32 (min (c.efault.later.toNat + 1) 4294967295) } }

/-- An Engine fault pending for a convoy (29 R446). -/
def enginePending (vaddr seq code : Nat) : FaultRec := { kind := 0x14, sub := code, addr := vaddr, aux := seq, ord := seq }

/-- A command of the focused cohort ends with an engine error (18 R351): record, barrier, milepost, and the
Engine fault of a command that has neither or whose cohort has EFTRAP set. -/
def engineError (s : State) (code source convoy seq chain vaddr done : Nat) (bind : Option Nat) (mile : DWord) : State :=
  let s1 := { s with ch := recordEngine s.ch code source convoy seq chain vaddr done }
  let s2 := match bind with
    | some off => { s1 with ch := barrierFault s1.ch off }
    | none => s1
  let r := writeMile s2 s2.ch.core s2.ch.root mile true seq
  let s3 := match r.1 with
    | some e => { r.2.2 with ch := recordEngine r.2.2.ch e source convoy seq chain mile.toNat done }
    | none => r.2.2
  if (!(hasMile mile) && bind.isNone) || r.1.isSome || s3.ch.eftrap then
    mapConvoy s3 convoy (fun c => { c with bfaults := c.bfaults ++ [enginePending vaddr seq code] })
  else s3

/-- A SPAWN completion entry (28 R431). -/
def spawnEntry (core q buf : Nat) : BitVec 128 :=
  ringEntry Config.spawnGen 0 core 0 5 (BitVec.ofNat 32 (q + 8 * buf))

/-- The next number of a region's spawn grid (07 R132). -/
def takeSpawnNo (s : State) (rcb : Nat) : Nat × State :=
  match regionOf s rcb with
  | some r => (r.spawnNo, putRegion s { r with spawnNo := r.spawnNo + 1 })
  | none => (0, s)

/-- A spawn queue dispatches: its record addresses go into a free list buffer and a SPAWN entry is posted; with no
buffer or no room in the ring the dispatch waits (07 R132, 28 R432, R433). -/
def dispatchQ (s : State) (core q : Nat) : State :=
  match s.spawnqs.find? (fun x => x.core = core && x.q = q) with
  | none => s
  | some x =>
    let put (s : State) (y : SpawnQ) : State :=
      { s with spawnqs := s.spawnqs.map (fun z => if z.core = core && z.q = q then y else z) }
    if x.recs.isEmpty then put s { x with want := false }
    else if !(ringRoom s (dieOf core)) || (x.bufA.isSome && x.bufB.isSome) then put s { x with want := true }
    else
      let n := takeSpawnNo s x.rcb
      let b : SpawnBuf := { desc := x.desc, rcb := x.rcb, recs := x.recs.map (·.1), no := n.1 }
      let y := { x with recs := [], want := false }
      if x.bufA.isNone then post (put n.2 { y with bufA := some b }) (dieOf core) (spawnEntry core q 0)
      else post (put n.2 { y with bufB := some b }) (dieOf core) (spawnEntry core q 1)

/-- Whether a queue can dispatch now (28 R433). -/
def canDispatch (s : State) (x : SpawnQ) : Bool := (x.bufA.isNone || x.bufB.isNone) && ringRoom s (dieOf x.core)

/-- Flushing the queues that hold a cohort's records (07 R132). -/
def flushSpawns (s : State) (uid : Nat) : State :=
  (s.spawnqs.filter (fun x => x.recs.any (fun r => r.2 = uid))).foldl (fun s x => dispatchQ s x.core x.q) s

/-- The translation of a global address for an atomic of the device on a cohort's behalf: its physical address and
key, where it can be made. -/
def atomicAddr (s : State) (core : Nat) (root : DWord) (va : Nat) : Option (Nat × Nat) × State :=
  match engAddr s core root (BitVec.ofNat 64 va) true true with
  | (some (.ok x), s1) => (some x, s1)
  | (_, s1) => (none, s1)

/-- ORing a bit into the 8 bytes at a physical address. -/
def orBit (s : State) (pa key k : Nat) : State :=
  let x : DWord := BitVec.ofNat 64 (memNat s pa 8) ||| (1#64 <<< k)
  writeCoherent s none pa key (bytesOf x.toNat 8)

/-- Poisoning the junctions of a child convoy (07 R135). -/
def poisonJunctions (s : State) (core : Nat) (root : DWord) (c : Convoy) : State :=
  c.junc.foldl (fun s e =>
    match atomicAddr s core root e.2 with
    | (some (pa, key), s1) => orBit s1 pa key 63
    | (none, s1) => s1) s

/-- Serving field of a ticket counter (05 R105). -/
def serving (x : DWord) : Nat := (x.extractLsb' 0 33).toNat

/-- Poisoning the held ticket counter of a faulting cohort; pending passes on it are dropped (05 R108). -/
def poisonTicket (s : State) (c : Cohort) : State :=
  match c.ticket with
  | some (pa, key) =>
    if serving (BitVec.ofNat 64 (memNat s pa 8)) ≤ c.linear then
      orBit { s with passes := s.passes.filter (fun p => p.pa ≠ pa) } pa key 63
    else s
  | none => s

/-- The bind record of a slot set to a state (28 R427, R429). -/
def slotState (s : State) (core slot : Nat) (st : BitVec 2) : State :=
  let k := 16 * core + slot
  let r := NMap.get 0#256 s.slotTab k
  { s with slotTab := NMap.set 0#256 s.slotTab k ((r &&& ~~~3#256) ||| st.setWidth 256) }

/-- What the machine holds of the cohort with a number: bound or parked. -/
def cohortOf (s : State) (uid : Nat) : Option Cohort :=
  if s.focus && s.ch.uid = uid then some s.ch
  else (s.others.find? (fun d => d.uid = uid)).or ((s.parked.find? (fun p => p.co.uid = uid)).map (·.co))

/-- Changing what the machine holds of the cohort with a number, wherever it is. -/
def mapUid (s : State) (uid : Nat) (f : Cohort → Cohort) : State :=
  if s.focus && s.ch.uid = uid then { s with ch := f s.ch }
  else
    { s with
      others := s.others.map (fun d => if d.uid = uid then f d else d)
      parked := s.parked.map (fun p => if p.co.uid = uid then { p with co := f p.co } else p) }

/-- A launch by its number. -/
def launchOf (s : State) (no : Nat) : Option Launch := s.launches.find? (fun l => l.no = no)

/-- Changing a launch. -/
def mapLaunch (s : State) (no : Nat) (f : Launch → Launch) : State :=
  { s with launches := s.launches.map (fun l => if l.no = no then f l else l) }

/-- The commands of a cohort that have not written their milepost, by number: copies, collectives and batches (06 R111). -/
def openCmds (s : State) (c : Cohort) : List (Nat × DWord) :=
  c.cq.map (fun m => (m.seq, m.mile)) ++ (s.colls.filter (fun x => x.uid = c.uid)).map (fun x => (x.seq, x.mile)) ++
    (s.batches.filter (fun x => x.uid = c.uid)).map (fun x => (x.seq, x.mile))

/-- The entry with the least number of a list. -/
def leastCmd : List (Nat × DWord) → Option (Nat × DWord)
  | [] => none
  | x :: xs =>
    match leastCmd xs with
    | none => some x
    | some y => if x.1 ≤ y.1 then some x else some y

/-- Failed mileposts written in ascending number (18 R352). -/
def failMiles (s : State) (core : Nat) (root : DWord) : Nat → List (Nat × DWord) → State
  | 0, _ => s
  | n + 1, xs =>
    match leastCmd xs with
    | none => s
    | some x => failMiles (writeMile s core root x.2 true x.1).2.2 core root n (xs.erase x)

/-- The commands of a killed cohort are dropped: what has landed stays, the rest is not moved, and each milepost is written
with failed set (18 R352). -/
def dropCmds (s : State) (c : Cohort) : State :=
  let land (s : State) (w : EWrite) : State :=
    match w.place with
    | .mem pa key => if w.landed then writeCoherent s none pa key w.bytes else s
    | _ => s
  let s1 := c.writes.foldl land s
  let xs := openCmds s1 c
  let s2 := failMiles s1 c.core c.root xs.length xs
  let gone := (s2.batches.filter (fun x => x.uid = c.uid)).map (·.no)
  { s2 with
    colls := s2.colls.filter (fun x => x.uid ≠ c.uid), batches := s2.batches.filter (fun x => x.uid ≠ c.uid)
    frags := s2.frags.filter (fun f => !(gone.any (· = f.batch))), texq := s2.texq.filter (fun t => t.uid ≠ c.uid)
    scalls := s2.scalls.filter (fun r => r.uid ≠ c.uid) }

/-- A cohort of a launch has ended without retiring (27 R424, R425). -/
def loseCohort (s : State) (no : Nat) : State :=
  mapLaunch s no (fun l => { l with ended := l.ended + 1, lost := l.lost + 1, killed := true })

/-- Steps 1 to 6 of a kill (29 R449), without the slot. -/
def killSteps (s : State) (c : Cohort) : State :=
  let s1 := writeBackPrivate (flushSpawns (dropCmds s c) c.uid) c.uid
  loseCohort { s1 with allocs := s1.allocs.filter (fun a => a.uid ≠ c.uid) } c.launch

/-- A parked cohort is killed (29 R449, R450). -/
def killParked (s : State) (uid : Nat) : State :=
  match s.parked.find? (fun p => p.co.uid = uid) with
  | none => s
  | some p => killSteps { s with parked := s.parked.filter (fun q => q.co.uid ≠ uid) } p.co

/-- Where a handler cohort has been killed, the cohort that it handles acts as told to be killed (29 R451). -/
def handlerLost (s : State) (no : Nat) : State :=
  match (launchOf s no).bind (·.handles) with
  | some uid => killParked s uid
  | none => s

/-- Killing a bound cohort that is not focused (29 R449). While the ring has no room the slot keeps its state and nothing of the
cohort issues (28 R431). -/
def killCohort (s : State) (c : Cohort) : State :=
  if !(ringRoom s (dieOf c.core)) then
    { s with others := s.others.map (fun d => if d.uid = c.uid then { d with dying := true } else d) }
  else
    let s1 := killSteps s c
    let s2 := { s1 with others := s1.others.filter (fun d => d.uid ≠ c.uid) }
    handlerLost (post (slotState s2 c.core c.slot 0#2) (dieOf c.core) (ringEntry c.gen c.linear c.core c.slot 3 0#32)) c.launch

/-- Killing every bound cohort that passes a test. -/
def killWhere (s : State) (p : Cohort → Bool) : State :=
  let s1 := unfocus s
  (s1.others.filter p).foldl killCohort s1

/-- The cohorts of a launch that have not been bound count as never bound (27 R424). -/
def abortLaunch (s : State) (no : Nat) : State :=
  let pend := s.binds.filter (fun b => b.co.launch = no)
  let s1 := pend.foldl (fun s b => slotState s b.core b.slot 0#2) { s with binds := s.binds.filter (fun b => b.co.launch ≠ no) }
  let fresh := (pend.filter (fun b => match b.src with
    | .launch _ _ => true
    | _ => false)).length
  mapLaunch s1 no (fun l =>
    let n := l.count - (l.base + l.taken.length) + fresh
    { l with aborted := true, base := l.count, taken := [], ended := l.ended + n, lost := l.lost + n })

/-- The kill of a grid: action 2 (29 R448). -/
def killGrid (s : State) (no : Nat) : State :=
  let s1 := killWhere s (fun d => d.launch = no)
  abortLaunch ((s1.parked.filter (fun p => p.co.launch = no)).foldl (fun s p => killParked s p.co.uid) s1) no

/-- The kill of a region's subtree: action 3 (29 R448). -/
def killSubtree (s : State) (top : Nat) : State :=
  let s1 := killWhere s (fun d => below s top treeFuel d.rcb)
  let s2 := (s1.parked.filter (fun p => below s top treeFuel p.co.rcb)).foldl (fun s p => killParked s p.co.uid) s1
  let s3 := (s2.launches.filter (fun l => below s top treeFuel l.rcb)).foldl (fun s l => abortLaunch s l.no) s2
  let keep (b : Option SpawnBuf) : Option SpawnBuf := b.filter (fun x => !(below s top treeFuel x.rcb))
  let drop := s3.binds.filter (fun b => below s top treeFuel b.co.rcb)
  let s4 := drop.foldl (fun s b => slotState s b.core b.slot 0#2)
    { s3 with binds := s3.binds.filter (fun b => !(below s top treeFuel b.co.rcb)) }
  { s4 with
    spawnqs := s4.spawnqs.map (fun x =>
      { x with bufA := keep x.bufA, bufB := keep x.bufB, recs := if below s top treeFuel x.rcb then [] else x.recs }) }

/-- A clause none of whose instructions has issued (10 R185). -/
def Clause.fresh (c : Clause) : Bool := decide (c.cur = 0) && decide (c.nxt = 0)

/-- A convoy counts as stopped (29 R443, 28 R430): at its instruction or at a boundary, with nothing left to run, in a
retryable translation (30 R464), or waiting in DONATE or ACCEPT (16 R318). -/
def stopped (c : Convoy) : Bool :=
  c.xfer.isNone &&
  (decide (c.halt ≠ .run) || decide (c.live = 0#32) || c.stalled || c.donate.isSome || c.accept.isSome ||
  (match c.clause with
    | none => true
    | some k => k.fresh))

/-- The domain action (29 R448); codes 5 to 7 act as 1. A fault in a handler kills the handler (29 R451). -/
def domainAction (s : State) : State :=
  let c := s.ch
  if ((launchOf s c.launch).bind (·.handles)).isSome then killWhere s (fun d => d.uid = c.uid)
  else
    match c.action with
    | 0 => { s with ch := { c with stopping := true } }
    | 4 => { s with ch := { c with stopping := true } }
    | 2 =>
      if c.launch = 0 then killWhere s (fun d => d.launch = 0 && d.rcb = c.rcb) else killGrid s c.launch
    | 3 => killSubtree s c.rcb
    | _ => killWhere s (fun d => d.uid = c.uid)

/-- Once every convoy of a faulted cohort has stopped: the poisoning steps and the domain action (29 R443). -/
def settleFault (s : State) : State :=
  if s.ch.faulting && !s.ch.stopping && (convoysOf s).all stopped && ringRoom s (dieOf s.ch.core) then
    let s1 := poisonTicket s s.ch
    let s2 := (convoysOf s1).foldl (fun s v => poisonJunctions s s.ch.core s.ch.root v) s1
    pickFocus (domainAction s2)
  else s

/-- Address of the current instruction word of a clause. -/
def clausePc (c : Clause) : Nat := c.pc + 4 * (1 + c.cur)

/-- The fault record (29 R445). -/
def faultWord (s : State) (f : FaultRec) (pc : Nat) (iword : Word) : BitVec 512 :=
  BitVec.ofNat 64 pc ++ BitVec.ofNat 64 f.addr ++ BitVec.ofNat 64 f.aux ++ f.mask ++ iword ++ BitVec.ofNat 64 s.ns ++
    s.ch.handoffs ++ BitVec.ofNat 8 f.kind ++ BitVec.ofNat 8 f.sub ++ BitVec.ofNat 5 s.cv.id ++ BitVec.ofNat 4 s.cv.track ++
    0#103 ++ 0#8 ++ 0#24

/-- Physical address of the cohort's fault record (29 R444). -/
def recordPa (c : Cohort) : Nat := c.ctx + 256

/-- The kind a fault record holds; 0 holds no fault (29 R444, R445). -/
def recordKind (s : State) (c : Cohort) : Nat := memNat s (recordPa c + 19) 1

/-- Writing into the cohort's context block (29 R444). -/
def ctxPut (s : State) (off : Nat) (bs : List Byte) : State := writeCoherent s none (s.ch.ctx + off) s.ch.ckey bs

/-- Writing the fault record, or counting the fault in its overflow field and keeping it pending (29 R443). -/
def recordFault (s : State) (f : FaultRec) (pc : Nat) (iword : Word) : State :=
  if recordKind s s.ch = 0 then ctxPut s 256 (bytesOf (faultWord s f pc iword).toNat 64)
  else
    let o := min (memNat s (recordPa s.ch) 3 + 1) 16777215
    { ctxPut s 256 (bytesOf o 3) with cv := { s.cv with bfaults := s.cv.bfaults ++ [f] } }

/-- A ray that has ended (08 R161). -/
def Ray.endWith (r : Ray) (status : Nat) : Ray := { r with status := some status, cur := none, stack := [], kids := [], inst := none }

/-- The rays of a cohort that have not ended are dropped (08 R162). -/
def dropRays (c : Cohort) : Cohort := { c with rays := c.rays.map (fun r => if r.status.isNone then r.endWith 3 else r) }

/-- Taking an exception: the fault is charged to the focused convoy at its current instruction (29 R443 to
R448). The convoy stops there, its clause kept for the resume. A fault in a uniform clause concerns the instruction as a whole
(01 R20, 29 R445). -/
def takeFault (s : State) (f : FaultRec) : State :=
  let pc := match s.cv.clause with
    | some cl => clausePc cl
    | none => 0
  let iword := match s.cv.clause with
    | some cl => cl.words.getD cl.cur 0#32
    | none => 0#32
  let mask := match s.cv.clause with
    | some cl => if (Header.unpack cl.hdr).uni then cl.mask else f.mask
    | none => f.mask
  let s1 := recordFault s { f with mask := mask } (f.pc.getD pc) (if f.pc.isSome then 0#32 else iword)
  settleFault { s1 with cv := { s1.cv with halt := .atInstr }, ch := { dropRays s1.ch with faulting := true, charged := s1.ch.charged + 1 } }

/-- Taking an exception at a clause boundary or at a header (29 R442, R443). -/
def takeBoundaryFault (s : State) (f : FaultRec) (pc : Nat) : State :=
  let s1 := recordFault s f (f.pc.getD pc) 0#32
  settleFault
    { s1 with
      cv := { s1.cv with halt := .atBoundary, clause := none }
      ch := { dropRays s1.ch with faulting := true, charged := s1.ch.charged + 1 } }

/-- The outcome of an instruction that faults. -/
def faultOut (s : State) (f : FaultRec) : Host.Outcome State Fault Refusal := .next (takeFault s f)

/-- The resume of a stopped convoy under its disposition (29 R450): 1 at the instruction, 2 after it. A boundary
fault resumes at the next clause. -/
def resumeConvoy (after : Bool) (c : Convoy) : Convoy :=
  match c.halt, c.clause with
  | .atInstr, some cl =>
    { c with halt := .run, clause := some (if after then { cl with cur := cl.nxt } else { cl with nxt := cl.cur }) }
  | _, _ => { c with halt := .run }

end Sys2Proof.Machine
end

