-- ==== Sys2Proof/Machine/Operands.lean ====
section
/-! DEFINITION. Operands (02 R39 to R47, 10 R192, R193, R201): the checks made at issue, reading and writing every
operand form, the scoreboard of results that are not ready (10 R196 to R200), and the ends of an instruction. -/

namespace Sys2Proof.Machine

/-- The header of the clause being issued (10 R181). -/
def header (s : State) : Header :=
  match s.cv.clause with
  | some c => .unpack c.hdr
  | none => .unpack 0#32

/-- The clause RM (10 R182). -/
def clauseRm (s : State) : RMode := (header s).mode

/-- Whether the clause is uniform (01 R20). -/
def uniform (s : State) : Bool := (header s).uni

/-- Threads of the entry being issued (10 R201, Active). -/
def activeMask (s : State) : Word :=
  match s.cv.clause with
  | some c => c.mask
  | none => 0#32

/-- The lowest active thread (10 R201, Lowest). -/
def lowest (s : State) : Nat := lowestLane (activeMask s)

/-- The threads an instruction acts for: the active ones, or once for the convoy in a uniform clause (01 R20). -/
def actLanes (s : State) : List Nat := if uniform s then [lowest s] else lanes (activeMask s)

/-- Registers of the convoy's window (02 R39). -/
def window (s : State) : Nat := 8 * s.cv.budget

/-- What a location holds. -/
def getLoc (c : Convoy) (l : Loc) : DWord :=
  match l with
  | .main n t => (NMap.get 0#32 c.main (32 * n + t)).setWidth 64
  | .opf j t => (NMap.get 0#32 c.opf (32 * j + t)).setWidth 64
  | .uni j => (NMap.get 0#32 c.uni j).setWidth 64
  | .pred k t => BitVec.ofNat 64 (b2n (decide (k = 7) || NMap.get false c.preds (32 * k + t)))
  | .latch k t => (NMap.get {} c.latch (32 * k + t)).val
  | .idx i t => (NMap.get 0#32 c.idx (32 * i + t)).setWidth 64
  | .lim i => (NMap.get 0#32 c.xlim i).setWidth 64

/-- What an instruction reads at a location: an early value where one was taken, otherwise what it holds. -/
def readLoc (s : State) (l : Loc) : DWord :=
  match s.cv.peek.find? (fun e => e.1 = l) with
  | some e => e.2
  | none => getLoc s.cv l

/-- Base of an index register as an instruction reads it (02 R44). -/
def xBase (s : State) (i : Nat) : Nat := (readLoc s (.lim i)).toNat % 256

/-- Limit of an index register as an instruction reads it (02 R44). -/
def xLimit (s : State) (i : Nat) : Nat := ((readLoc s (.lim i)).toNat / 256) % 256

/-- Index of an index register in a thread as an instruction reads it (02 R44). -/
def xIndex (s : State) (i t : Nat) : Nat := (readLoc s (.idx i t)).lo.toNat

/-- A latch of a thread (02 R42). -/
def latchOf (s : State) (k t : Nat) : Latch := NMap.get {} s.cv.latch (32 * k + t)

/-- Writing a location; p7 is not written (02 R47). -/
def setLoc (c : Convoy) (l : Loc) (v : DWord) : Convoy :=
  match l with
  | .main n t => { c with main := NMap.set 0#32 c.main (32 * n + t) v.lo }
  | .opf j t => { c with opf := NMap.set 0#32 c.opf (32 * j + t) v.lo }
  | .uni j => { c with uni := NMap.set 0#32 c.uni j v.lo }
  | .pred k t => if k = 7 then c else { c with preds := NMap.set false c.preds (32 * k + t) (v.getLsbD 0) }
  | .latch k t => { c with latch := NMap.set {} c.latch (32 * k + t) { NMap.get {} c.latch (32 * k + t) with val := v } }
  | .idx i t => { c with idx := NMap.set 0#32 c.idx (32 * i + t) v.lo }
  | .lim i => { c with xlim := NMap.set 0#32 c.xlim i v.lo }

/-- The location of word k of a source operand in a thread, where it is a register (10 R201). -/
def srcLoc (s : State) (a : Src) (t k : Nat) : Option Loc :=
  match a with
  | .main n => some (.main (n.val + k) t)
  | .opf n => some (.opf (n.val + k) t)
  | .latch n => some (.latch n.val t)
  | .idx i => some (.main (xBase s i.val + xIndex s i.val t + k) t)
  | .uni n => some (.uni (n.val + k))
  | .zero => none
  | .lit _ => none

/-- The location of word k of a destination in a thread; a uniform register is written from the lowest thread
(10 R201, 02 R45). -/
def dstLoc (s : State) (d : Dst) (t k : Nat) : Option Loc :=
  match d with
  | .main n => some (.main (n.val + k) t)
  | .opf n => some (.opf (n.val + k) t)
  | .idx i => some (.main (xBase s i.val + xIndex s i.val t + k) t)
  | .uni n => if t = lowest s then some (.uni (n.val + k)) else none
  | .zero => none

/-- Word k of a source operand (10 R201, ReadOperand). -/
def readWord (s : State) (a : Src) (t k : Nat) : Word :=
  match a with
  | .zero => 0#32
  | .lit w => if k = 0 then w.lo else if k = 1 then w.hi else 0#32
  | .latch _ =>
    match srcLoc s a t 0 with
    | some l => if k = 0 then (readLoc s l).lo else (readLoc s l).hi
    | none => 0#32
  | _ =>
    match srcLoc s a t k with
    | some l => (readLoc s l).lo
    | none => 0#32

/-- A 32-bit source operand. -/
def rd32 (s : State) (a : Src) (t : Nat) : Word := readWord s a t 0

/-- A 64-bit source operand, low word first (02 R40). -/
def rd64 (s : State) (a : Src) (t : Nat) : DWord := DWord.ofWords (readWord s a t 0) (readWord s a t 1)

/-- The four words of a 128-bit operand (18 R338). -/
def rdQuad (s : State) (a : Src) (t : Nat) : List Word := (List.range 4).map (readWord s a t)

/-- Predicate pk of a thread as an instruction reads it (10 R201, Pred). -/
def pred (s : State) (k t : Nat) : Bool := decide (k = 7) || (readLoc s (.pred k t)).getLsbD 0

/-- An operand an instruction uses: position (0 A, 1 B, 2 C, 3 D), code and words. -/
structure Use where
  pos : Nat
  src : Src
  n   : Nat
  deriving DecidableEq, Repr

/-- A Register Bounds fault (29 R446). -/
def boundsFault (pos reg : Nat) (mask : Word) : FaultRec := { kind := 0x06, sub := pos, aux := reg, mask := mask }

/-- An Operand Level fault (29 R446). -/
def levelFault (pos reg : Nat) (mask : Word) : FaultRec := { kind := 0x05, sub := pos, aux := reg, mask := mask }

/-- Whether a group of registers starts where its size allows (02 R40, 15 R279). -/
def groupOk (first n : Nat) : Bool := if n = 2 then decide (first % 2 = 0) else if n = 4 then decide (first % 4 = 0) else true

/-- Whether a thread's use of an index register is in bounds (02 R44, R40). -/
def idxOk (s : State) (i t n : Nat) : Bool :=
  let r := xBase s i + xIndex s i t
  decide (xIndex s i t < xLimit s i) && decide (r + n - 1 ≤ 191) && decide (r + n - 1 < window s) && groupOk r n

/-- The check of an indexed operand over the active threads (02 R44). -/
def checkIdx (s : State) (pos i n : Nat) : Option FaultRec :=
  let badTs := (actLanes s).filter (fun t => !(idxOk s i t n))
  match badTs with
  | [] => none
  | t :: _ => some (boundsFault pos (xBase s i + xIndex s i t) (maskOf badTs))

/-- The check of a source operand (02 R39, R40, R43, R44). -/
def checkSrc (s : State) (u : Use) : Option FaultRec :=
  match u.src with
  | .main r =>
    if groupOk r.val u.n && decide (r.val + u.n ≤ window s) then none else some (boundsFault u.pos r.val (activeMask s))
  | .opf r => if groupOk r.val u.n then none else some (boundsFault u.pos r.val (activeMask s))
  | .uni r => if groupOk r.val u.n then none else some (boundsFault u.pos r.val (activeMask s))
  | .idx i => checkIdx s u.pos i.val u.n
  | .latch k =>
    let t := lowest s
    let ok := (latchOf s k.val t).valid && decide (u.n ≤ 2) &&
      (decide (u.n = 1) || ((latchOf s k.val t).wide && !(decide (k.val = 1) && (latchOf s 0 t).valid)))
    if ok then none else some (levelFault u.pos (104 + k.val) (activeMask s))
  | .zero => none
  | .lit _ => none

/-- The check of a destination of n words (02 R39, R40, R44). -/
def checkDst (s : State) (d : Dst) (n : Nat) : Option FaultRec :=
  match d with
  | .main r =>
    if groupOk r.val n && decide (r.val + n ≤ window s) then none else some (boundsFault 3 r.val (activeMask s))
  | .opf r => if groupOk r.val n then none else some (boundsFault 3 r.val (activeMask s))
  | .uni r => if groupOk r.val n then none else some (boundsFault 3 r.val (activeMask s))
  | .idx i => checkIdx s 3 i.val n
  | .zero => none

/-- The first failing operand check, in the order A, B, C, D (13 R236, 14 R257, 15 R283). -/
def checkUses (s : State) (us : List Use) (d : Option (Dst × Nat)) : Option FaultRec :=
  match us.findSome? (checkSrc s) with
  | some f => some f
  | none => match d with
    | some (d, n) => checkDst s d n
    | none => none

/-- Index registers that a list of operands and a destination resolve through, over the acting threads (13 R253). -/
def idxLocs (s : State) (us : List Use) (d : Option Dst) : List Loc :=
  let of (i : Fin 4) : List Loc := .lim i.val :: (actLanes s).map (fun t => .idx i.val t)
  us.flatMap (fun u => match u.src with
    | .idx i => of i
    | _ => []) ++
  (match d with
    | some (.idx i) => of i
    | _ => [])

/-- Locations that a list of operands reads, over the acting threads. -/
def useLocs (s : State) (us : List Use) : List Loc :=
  idxLocs s us none ++
  us.flatMap (fun u => (actLanes s).flatMap (fun t =>
    match u.src with
    | .latch _ => (srcLoc s u.src t 0).toList
    | _ => (List.range u.n).flatMap (fun k => (srcLoc s u.src t k).toList)))

/-- Locations that a destination of n words resolves through and writes, over the acting threads. -/
def dstLocs (s : State) (d : Dst) (n : Nat) : List Loc :=
  idxLocs s [] (some d) ++ (actLanes s).flatMap (fun t => (List.range n).flatMap (fun k => (dstLoc s d t k).toList))

/-- The location of predicate pk over the acting threads. -/
def predLocs (s : State) (k : Nat) : List Loc := if k = 7 then [] else (actLanes s).map (fun t => .pred k t)

/-- A fixed-latency result at a location that is not ready at the current opportunity (10 R196). -/
def pendAt (c : Convoy) (l : Loc) : Option Pend :=
  c.pend.find? (fun p => decide (c.opp < p.ready) && p.olds.any (fun e => e.1 = l))

/-- An outstanding unit that is to write a location (03 R60). -/
def unitAt (c : Convoy) (l : Loc) : Option Pending :=
  c.units.find? (fun u => u.writes.any (fun e => e.1 = l) || u.pieces.any (fun p => p.dst.any (· = l)))

/-- The Stall Underrun check over the locations an instruction reads or writes (10 R200). -/
def checkReady (s : State) (ls : List Loc) : Option FaultRec :=
  if s.ch.check then
    ls.findSome? (fun l =>
      match pendAt s.cv l with
      | some p => some { kind := 0x07, aux := p.pc, mask := activeMask s }
      | none => match unitAt s.cv l with
        | some u => some { kind := 0x07, aux := u.pc, mask := activeMask s }
        | none => none)
  else none

/-- The word that a load piece would deliver to one of its destinations now (15 R286). -/
def pieceWord (bs : List Byte) (p : Piece) (i : Nat) : Word :=
  let x := natOfBytes ((bs.drop (4 * i)).take 4)
  if p.n < 4 then (if p.sgn then wordOfInt (sextN (8 * p.n) x) else BitVec.ofNat 32 x) else BitVec.ofNat 32 x

/-- The bytes a load piece reads now, from scratch, a private line, a memory-side page or the cached views. -/
def pieceBytes (s : State) (stale : Bool) (p : Piece) : List Byte :=
  if p.scr then scrGet s.ch p.addr p.n
  else if p.priv then (List.range p.n).map (fun i => privByte s s.ch.core (p.addr + i))
  else if p.ms then memGet s p.addr p.n
  else loadBytes s s.ch.core stale p.addr p.n

/-- An early read of a location: by a free choice the instruction reads the value before the producer or the one
the producer writes (10 R198). A load's word that is taken early is delivered then; of a unit whose value is formed when it completes,
a free value is read. -/
def earlyLoc (s : State) (l : Loc) : State :=
  match pendAt s.cv l with
  | some p =>
    let r := pickBit s
    if r.1 then r.2
    else match p.olds.find? (fun e => e.1 = l) with
      | some e => { r.2 with cv := { r.2.cv with peek := e :: r.2.cv.peek } }
      | none => r.2
  | none =>
    match unitAt s.cv l with
    | none => s
    | some u =>
      let r := pickBit s
      if !r.1 then r.2
      else match u.writes.find? (fun e => e.1 = l) with
        | some e =>
          if u.kind = .value || u.kind = .store then { r.2 with cv := { r.2.cv with peek := e :: r.2.cv.peek } }
          else
            { r.2 with
              free := r.2.free + 1,
              cv := { r.2.cv with peek := (l, (Config.freeWord r.2.free).setWidth 64) :: r.2.cv.peek } }
        | none =>
          if u.kind = .load || u.kind = .scrLoad false false then
            match u.pieces.find? (fun p => p.dst.any (· = l)) with
            | none => r.2
            | some p =>
              let w := pieceWord (pieceBytes r.2 false p) p (p.dst.idxOf l)
              let cut (q : Piece) : Piece := if q = p then { q with dst := q.dst.filter (· ≠ l) } else q
              let mark (v : Pending) : Pending := if v.seq = u.seq then { v with pieces := v.pieces.map cut } else v
              let c := setLoc r.2.cv l (w.setWidth 64)
              { r.2 with cv := { c with units := c.units.map mark } }
          else r.2

/-- Early values chosen at a list of locations (10 R198). -/
def settleLocs (s : State) (ls : List Loc) : State :=
  if s.cv.pend.isEmpty && s.cv.units.isEmpty then s else ls.foldl earlyLoc s

/-- The index registers of an instruction read (13 R253). -/
def settleIdx (s : State) (us : List Use) (d : Option Dst) : State := settleLocs s (idxLocs s us d)

/-- Threads with a poisoned register among an instruction's sources (29 R458). -/
def poisonedLanes (s : State) (us : List Use) : Word :=
  if s.cv.rpoison.isEmpty then 0#32
  else maskOf ((actLanes s).filter (fun t => us.any (fun u => (List.range u.n).any (fun k =>
    match srcLoc s u.src t k with
    | some l => s.cv.rpoison.any (· = l)
    | none => false))))

/-- The reads of an instruction settled: early values chosen, and threads with a poisoned source noted (10 R198,
29 R458). -/
def settleReads (s : State) (us : List Use) (ps : List Loc) : State :=
  let s1 := settleLocs s (useLocs s us ++ ps)
  { s1 with cv := { s1.cv with bad := poisonedLanes s us } }

/-- Whether a thread's results are written: not when its sources are poisoned (29 R458). -/
def clean (s : State) (t : Nat) : Bool := !(s.cv.bad.getLsbD t)

/-- Writing a location. Where an earlier result is still to land, the location ends with one of the two values
by a free choice (10 R198). -/
def writeLoc (s : State) (l : Loc) (v : DWord) : State :=
  let s0 := { s with cv := { s.cv with rpoison := s.cv.rpoison.filter (· ≠ l) } }
  match pendAt s0.cv l with
  | some _ =>
    let r := pickBit s0
    if r.1 then { r.2 with cv := setLoc r.2.cv l v } else r.2
  | none =>
    match unitAt s0.cv l with
    | none => { s0 with cv := setLoc s0.cv l v }
    | some u =>
      let r := pickBit s0
      let c := setLoc r.2.cv l v
      if r.1 then
        { r.2 with
          cv := { c with units := c.units.map (fun w => if w.seq = u.seq then
            { w with writes := w.writes.filter (fun e => e.1 ≠ l),
                     pieces := w.pieces.map (fun p => { p with dst := p.dst.map (fun m => if m = l then .uni 16 else m) }) }
            else w) } }
      else { r.2 with cv := c }

/-- The writes of one value of n words to a destination in a thread. -/
def dstWrites (s : State) (d : Dst) (n t : Nat) (v : DWord) : List (Loc × DWord) :=
  (List.range n).flatMap (fun k =>
    match dstLoc s d t k with
    | some l => [(l, ((v >>> (32 * k)).setWidth 32 : Word).setWidth 64)]
    | none => [])

/-- The writes of four words to a destination in a thread. -/
def dstWritesW (s : State) (d : Dst) (t : Nat) (ws : List Word) : List (Loc × DWord) :=
  (ws.zipIdx).flatMap (fun e =>
    match dstLoc s d t e.2 with
    | some l => [(l, e.1.setWidth 64)]
    | none => [])

/-- The address of the current instruction. -/
def curPc (s : State) : Nat :=
  match s.cv.clause with
  | some c => clausePc c
  | none => 0

/-- Fixed-latency writes: made now, ready after the latency (10 R196). -/
def writeFixed (s : State) (lat : Nat) (ws : List (Loc × DWord)) : State :=
  let olds := ws.map (fun e => (e.1, getLoc s.cv e.1))
  let s1 := ws.foldl (fun s e => writeLoc s e.1 e.2) s
  { s1 with cv := { s1.cv with pend := s1.cv.pend ++ [{ olds := olds, ready := s.cv.opp + lat + 1, pc := curPc s }] } }

/-- The latches take a fixed-latency data result in each thread, outside uniform clauses (02 R42). -/
def writeLatches (s : State) (lat n : Nat) (vs : List (Nat × DWord)) : State :=
  if uniform s then s
  else
    let olds := vs.flatMap (fun e => [(Loc.latch 0 e.1, getLoc s.cv (.latch 0 e.1)), (Loc.latch 1 e.1, getLoc s.cv (.latch 1 e.1))])
    let c := vs.foldl (fun (c : Convoy) e =>
      let l0 : Latch := NMap.get {} c.latch e.1
      let l1 : Latch := { val := if n = 1 then e.2.lo.setWidth 64 else e.2, wide := decide (n = 2), valid := true }
      { c with latch := NMap.set {} (NMap.set {} c.latch (32 + e.1) l0) e.1 l1 }) s.cv
    { s with cv := { c with pend := c.pend ++ [{ olds := olds, ready := s.cv.opp + lat + 1, pc := curPc s }] } }

/-- Beats of an instruction (01 R18). -/
def beats (s : State) : Nat :=
  if uniform s then 1
  else ((List.range 4).filter (fun b => (activeMask s).extractLsb' (8 * b) 8 ≠ 0#8)).length

/-- The opportunities that pass on a track are counted by every convoy on it (01 R19). -/
def passOn (n : Nat) (c : Convoy) : Convoy :=
  { c with opp := c.opp + n, stall := c.stall - n, pend := c.pend.filter (fun p => decide (c.opp + n < p.ready)) }

/-- Opportunities passing on the focused convoy's track. -/
def passTrack (s : State) (n : Nat) : State :=
  let tr := s.cv.track
  { s with
    cv := passOn n s.cv,
    ch := { s.ch with convoys := s.ch.convoys.map (fun c => if c.track = tr then passOn n c else c) },
    others := s.others.map (fun d => if d.core = s.ch.core then
      { d with convoys := d.convoys.map (fun c => if c.track = tr then passOn n c else c) } else d) }

/-- Poison met in a source: the fault waits for the next boundary (29 R442, R458). -/
def notePoison (s : State) : State :=
  if s.cv.bad = 0#32 then s
  else
    { s with cv :=
      { noteConsumed s.cv { kind := 0x15, sub := 2, mask := s.cv.bad, pc := some (curPc s), ord := s.cv.useq } with bad := 0#32 } }

/-- The end of an instruction that issued: its opportunity is counted, its STALL is set, and its beats pass
(01 R18, R19; 10 R196). -/
def retire (st : Stall) (s : State) : State :=
  let b := beats s
  let s1 := notePoison s
  let s2 := passTrack { s1 with cyc := NMap.set 0 s1.cyc s1.ch.core (cycles s1 s1.ch.core + b) } 1
  { s2 with
    cv := { s2.cv with stall := st.toNat, peek := [], clause := s2.cv.clause.map (fun c => { c with cur := c.nxt }) },
    lastIssue := NMap.set 0 s2.lastIssue (16 * s2.ch.core + s2.cv.track) (32 * s2.ch.slot + s2.cv.id + 1) }

/-- The end of an instruction that waits at issue: nothing has happened, and it is issued again (05 R109, 06 R111). -/
def waitIssue (s : State) : State :=
  { s with cv := { s.cv with peek := [], clause := s.cv.clause.map (fun c => { c with nxt := c.cur }) } }

/-- An outcome that goes on. -/
abbrev Out := Host.Outcome State Fault Refusal

/-- A fixed-latency instruction with a data result of n words (13 R234, 14 R254): the checks in order, then one
value per thread, the destination and the latches. -/
def fixedOp (st : Stall) (lat : Nat) (us : List Use) (ps : List Nat) (d : Dst) (n : Nat) (f : State → Nat → DWord)
    (s0 : State) : Out :=
  let s := settleIdx s0 us (some d)
  match checkUses s us (some (d, n)) with
  | some e => faultOut s e
  | none =>
    match checkReady s (useLocs s us ++ ps.flatMap (predLocs s) ++ dstLocs s d n) with
    | some e => faultOut s e
    | none =>
      let s1 := settleReads s us (ps.flatMap (predLocs s))
      let vs := ((actLanes s1).filter (clean s1)).map (fun t => (t, f s1 t))
      let s2 := writeFixed s1 lat (vs.flatMap (fun e => dstWrites s1 d n e.1 e.2))
      .next (retire st (writeLatches s2 lat n vs))

/-- A fixed-latency instruction that writes predicates (13 R234). -/
def predOp (st : Stall) (lat : Nat) (us : List Use) (ps : List Nat) (k : Nat) (f : State → Nat → Bool) (s0 : State) : Out :=
  let s := settleIdx s0 us none
  match checkUses s us none with
  | some e => faultOut s e
  | none =>
    match checkReady s (useLocs s us ++ ps.flatMap (predLocs s) ++ predLocs s k) with
    | some e => faultOut s e
    | none =>
      let s1 := settleReads s us (ps.flatMap (predLocs s))
      let vs := ((actLanes s1).filter (clean s1)).map (fun t => (Loc.pred k t, BitVec.ofNat 64 (b2n (f s1 t))))
      .next (retire st (writeFixed s1 lat (if k = 7 then [] else vs)))

/-- A variable-latency instruction whose results are known at issue: one unit on its token writes them when it
completes (10 R199, 05 R109). -/
def valueOp (st : Stall) (t : Tok) (us : List Use) (d : Dst) (n : Nat) (f : State → Nat → DWord) (s0 : State) : Out :=
  let s := settleIdx s0 us (some d)
  match checkUses s us (some (d, n)) with
  | some e => faultOut s e
  | none =>
    match checkReady s (useLocs s us ++ dstLocs s d n) with
    | some e => faultOut s e
    | none =>
      if !(tokRoom s.cv t.toNat 1) then .next (waitIssue s)
      else
        let s1 := settleReads s us []
        let ws := ((actLanes s1).filter (clean s1)).flatMap (fun k => dstWrites s1 d n k (f s1 k))
        let u : Pending :=
          { seq := 0, tok := some t.toNat, kind := .value, mask := activeMask s1, pc := curPc s1, writes := ws }
        .next (retire st { s1 with cv := addUnits s1.cv [u] })

/-- A hold instruction with a data result of n words, ready for the next instruction (16 R297). -/
def holdOp (st : Stall) (us : List Use) (ps : List Nat) (d : Dst) (n : Nat) (f : State → Nat → DWord) (s0 : State) : Out :=
  let s := settleIdx s0 us (some d)
  match checkUses s us (some (d, n)) with
  | some e => faultOut s e
  | none =>
    match checkReady s (useLocs s us ++ ps.flatMap (predLocs s) ++ dstLocs s d n) with
    | some e => faultOut s e
    | none =>
      let s1 := settleReads s us (ps.flatMap (predLocs s))
      let ws := ((actLanes s1).filter (clean s1)).flatMap (fun t => dstWrites s1 d n t (f s1 t))
      .next (retire st (ws.foldl (fun s e => writeLoc s e.1 e.2) s1))

/-- A predicate written in every thread of the entry, ready for the next instruction (16 R297). -/
def setPreds (s : State) (k : Nat) (f : Nat → Bool) : State :=
  if k = 7 then s
  else ((actLanes s)).foldl (fun s t => writeLoc s (.pred k t) (BitVec.ofNat 64 (b2n (f t)))) s

end Sys2Proof.Machine
end

