-- ==== Sys2Proof/Machine/Flags.lean ====
section
/-! DEFINITION. Predicates as flags: what a branch predicate selects (16 R300), predicates as masks, and
the writing of predicate results (02 R47, 16 R297). -/

namespace Sys2Proof.Machine

/-- The threads a predicate lets act: each active thread by its own predicate; in a uniform clause every thread of
the entry, or none, by the predicate of the lowest (16 R300). -/
def takeMask (s : State) (k : Nat) (neg : Bool) : Word :=
  if uniform s then (if pred s k (lowest s) ^^ neg then activeMask s else 0#32)
  else maskOf ((lanes (activeMask s)).filter (fun t => pred s k t ^^ neg))

/-- The active threads whose predicate, after inversion, is set (16 R306). -/
def predMask (s : State) (k : Nat) (inv : Bool) : Word :=
  maskOf ((lanes (activeMask s)).filter (fun t => pred s k t ^^ inv))

/-- VOTE.all over the active threads (16 R306). -/
def voteAll (s : State) (k : Nat) (inv : Bool) : Bool := decide (predMask s k inv = activeMask s)

/-- VOTE.any over the active threads (16 R306). -/
def voteAny (s : State) (k : Nat) (inv : Bool) : Bool := decide (predMask s k inv ≠ 0#32)

/-- A predicate written in threads of a mask, ready at once (16 R297); p7 takes no value (02 R47). -/
def setPredMask (s : State) (k : Nat) (m : Word) (b : Bool) : State :=
  if k = 7 then s
  else (lanes m).foldl (fun s t => writeLoc s (.pred k t) (BitVec.ofNat 64 (b2n b))) s

/-- The eight predicates of a thread as a number, p7 as 1 (13 R250). -/
def predByte (s : State) (t : Nat) : Nat :=
  ((List.range 8).map (fun k => b2n (pred s k t) * 2 ^ k)).sum

/-- The locations of p0 to p6 over the acting threads. -/
def allPredLocs (s : State) : List Loc := (List.range 7).flatMap (predLocs s)

end Sys2Proof.Machine
end

