-- ==== Sys2Proof/Machine/Frontier.lean ====
section
/-! DEFINITION. The frontier of a convoy (01 R27 to R33, R539), branches (10 R194, R195; 16 R300), the reading of
code (10 R185), and what a convoy does at a clause boundary. -/

namespace Sys2Proof.Machine

/-- Whether an entry comes before another (01 R28). -/
def entryBefore (e f : Entry) : Bool := decide (f.prio < e.prio) || (decide (e.prio = f.prio) && decide (e.pc < f.pc))

/-- The first entry of a list (01 R28). -/
def firstOf : List Entry → Option Entry
  | [] => none
  | e :: es =>
    match firstOf es with
    | none => some e
    | some f => if entryBefore f e then some f else some e

/-- The last entry of a list (01 R28). -/
def lastOf : List Entry → Option Entry
  | [] => none
  | e :: es =>
    match lastOf es with
    | none => some e
    | some f => if entryBefore e f then some f else some e

/-- Resident entries, the one whose clause is being issued among them (01 R27, R30). -/
def residents (c : Convoy) : Nat :=
  c.fr.length + (match c.clause with
    | some k => if k.spilled then 0 else 1
    | none => 0)

/-- Entries in the overflow area (01 R30, R539). -/
def spillCount (c : Convoy) : Nat :=
  c.spill.length + (match c.clause with
    | some k => if k.spilled then 1 else 0
    | none => 0)

/-- A wait that its deadline has ended: threads that arrive then begin a new wait (01 R34). -/
def lateWait : Option Wait → Bool
  | some (.join _ true) => true
  | _ => false

/-- Adding threads to an entry at a PC, making it where there is none; none when a 65th entry would spill
(01 R29 to R31). -/
def joinEntry (c : Convoy) (pc prio : Nat) (m : Word) : Option Convoy :=
  match c.fr.find? (fun e => decide (e.pc = pc) && !(lateWait e.wait)) with
  | some e => some { c with fr := c.fr.map (fun f => if f = e then { f with mask := f.mask ||| m } else f) }
  | none =>
    let fr := c.fr ++ [{ pc := pc, prio := prio, mask := m }]
    if residents c < 8 then some { c with fr := fr }
    else
      match lastOf (fr.filter (fun e => e.wait.isNone)) with
      | none => none
      | some v => if 64 ≤ spillCount c then none else some { c with fr := fr.erase v, spill := c.spill ++ [v] }

/-- A resident place has become free: the first spilled entry returns (01 R30). -/
def returnSpill (c : Convoy) : Convoy :=
  match firstOf c.spill with
  | none => c
  | some v =>
    let c1 := { c with spill := c.spill.erase v }
    match c1.fr.find? (fun e => decide (e.pc = v.pc) && !(lateWait e.wait)) with
    | some e => { c1 with fr := c1.fr.map (fun f => if f = e then { f with mask := f.mask ||| v.mask } else f) }
    | none => { c1 with fr := c1.fr ++ [v] }

/-- Every other entry that does not wait ages by the opportunities of the clause (01 R32). -/
def ageOthers (c : Convoy) : Convoy :=
  match c.clause with
  | none => c
  | some k =>
    let age (e : Entry) : Entry := if e.wait.isNone then { e with age := min (e.age + (c.opp - k.age0)) 65535 } else e
    { c with fr := c.fr.map age, spill := c.spill.map age }

/-- The clause ends with no thread left in its entry (01 R27, R29, R30). -/
def dropClause (c : Convoy) : Convoy :=
  match c.clause with
  | none => c
  | some k =>
    let c1 := { ageOthers c with clause := none }
    if k.spilled then c1 else returnSpill c1

/-- The clause ends and its entry stands at a header (01 R29, R33, R539). -/
def moveClause (c : Convoy) (pc prio : Nat) (w : Option Wait) : Convoy :=
  match c.clause with
  | none => c
  | some k =>
    let c1 := { ageOthers c with clause := none, yielded := if k.yld then some pc else c.yielded }
    match (if w.isSome then none else c1.fr.find? (fun e => decide (e.pc = pc) && !(lateWait e.wait))) with
    | some e =>
      let c2 := { c1 with fr := c1.fr.map (fun f => if f = e then { f with mask := f.mask ||| k.mask } else f) }
      if k.spilled then c2 else returnSpill c2
    | none =>
      let e : Entry := { pc := pc, prio := prio, mask := k.mask, wait := w }
      if k.spilled then { c1 with spill := c1.spill ++ [e] } else { c1 with fr := c1.fr ++ [e] }

/-- Giving back a clause that has been selected and has not begun. -/
def unselect (c : Convoy) : Convoy :=
  match c.clause with
  | none => c
  | some k =>
    if !k.fresh then c
    else
      let e : Entry :=
        { pc := k.pc, prio := k.prio, mask := k.mask, age := k.age, wait := k.wait }
      let c1 := { c with clause := none }
      if k.spilled then { c1 with spill := c1.spill ++ [e] } else { c1 with fr := c1.fr ++ [e] }

/-- What reading a word of code gives (10 R185, R194). -/
inductive CodeRead
  | word (w : Word)
  | retry
  | fault (f : FaultRec)
  | poison (line : Nat)
  deriving DecidableEq, Repr

/-- A word of code, each as it stood at the launch or as a later store wrote it, by a free choice (10 R185). -/
def codeWord (s : State) (pa : Nat) : Word × State :=
  let now := memNat s pa 4
  let then_ := natOfBytes (NMap.getAll 0#8 s.ch.code pa 4)
  if now = then_ then (BitVec.ofNat 32 now, s)
  else
    let r := pickBit s
    (BitVec.ofNat 32 (if r.1 then now else then_), r.2)

/-- Reading a word of code at a virtual address; a fetch needs the X right (10 R185, 30 R462, R463). -/
def readCode (s : State) (va : Nat) (fetch : Bool) : CodeRead × State :=
  let f (kind sub : Nat) : FaultRec := { kind := kind, sub := sub, addr := va }
  if 2 ^ 57 ≤ va then (.fault (f 0x0E 1), s)
  else
    match translate s s.ch.core s.ch.root va with
    | (.retry, s1) => (.retry, s1)
    | (.fail, s1) => (.fault (f 0x0D 0), s1)
    | (.poison l, s1) => (.poison l, s1)
    | (.ok pte level _, s1) =>
      let pa := leafPa pte level va
      if fetch && !(pte.getLsbD 3) then (.fault (f 0x0E 3), s1)
      else
        match physKind s1 pa with
        | .hole => (.fault (f 0x0E 2), s1)
        | .tier2 => if pte.getLsbD 6 then (.fault (f 0x0E 5), s1) else
            let r := codeWord (rekeyAt s1 pa 4 (pteKey pte)) pa
            (.word r.1, r.2)
        | .remote => if !(pte.getLsbD 5) then (.fault (f 0x0E 4), s1) else
            let r := codeWord s1 pa
            (.word r.1, r.2)
        | .hbm =>
          if poisoned s1 (lineOf pa) then (.poison (lineOf pa), s1)
          else
            let r := codeWord (rekeyAt s1 pa 4 (pteKey pte)) pa
            (.word r.1, r.2)

/-- A translation that is retried: the convoy stalls and issues the instruction again (30 R464). -/
def stallRetry (s : State) : State := waitIssue { s with cv := { s.cv with stalled := true } }

/-- Distinct values in order of first appearance. -/
def distinct : List Nat → List Nat
  | [] => []
  | x :: xs => x :: (distinct xs).filter (· ≠ x)

/-- What the check of one target gives (10 R194): its priority, or why it fails. -/
inductive TargetCheck
  | ok (prio : Nat)
  | bad
  | retry
  | fault (f : FaultRec)
  | poison (line : Nat)
  deriving DecidableEq, Repr

/-- The check of one target (10 R194, 16 R300). -/
def checkTarget (s : State) (pc : Nat) : TargetCheck × State :=
  if 2 ^ 57 ≤ pc || pc % 4 ≠ 0 then (.bad, s)
  else
    match readCode s pc false with
    | (.word w, s1) => if isHeader w then (.ok (w.toNat % 256), s1) else (.bad, s1)
    | (.retry, s1) => (.retry, s1)
    | (.fault f, s1) => (.fault f, s1)
    | (.poison l, s1) => (.poison l, s1)

/-- The checks of a list of targets. -/
def checkTargets (s : State) : List Nat → List (Nat × TargetCheck) × State
  | [] => ([], s)
  | pc :: pcs =>
    let r := checkTarget s pc
    let q := checkTargets r.2 pcs
    ((pc, r.1) :: q.1, q.2)

/-- Moving the taking threads to their targets, in the order of the lowest thread of each (01 R29); the target
whose entry would be a 65th spilled one otherwise (01 R31). -/
def moveTargets (c : Convoy) : List (Nat × Nat × Word) → Except Nat Convoy
  | [] => .ok c
  | (pc, prio, m) :: ts =>
    match joinEntry c pc prio m with
    | some c1 => moveTargets c1 ts
    | none => .error pc

/-- Threads leave the entry being issued; its clause ends where none is left (01 R29). -/
def leaveEntry (c : Convoy) (m : Word) : Convoy :=
  match c.clause with
  | none => c
  | some k =>
    let c1 := { c with clause := some { k with mask := k.mask &&& ~~~m } }
    if k.mask &&& ~~~m = 0#32 then dropClause c1 else c1

/-- The move of threads to targets with its checks, in the order Translation, Clause Target, Frontier Overflow
(16 R299); `f` goes on where it is made. -/
def branchTo (s : State) (tgt : List (Nat × Nat)) (f : State → Out) : Out :=
  let pcs := distinct (tgt.map (·.2))
  let mask (pc : Nat) : Word := maskOf ((tgt.filter (fun e => e.2 = pc)).map (·.1))
  let r := checkTargets s pcs
  let s1 := r.2
  let where_ (p : TargetCheck → Bool) : List Nat := (r.1.filter (fun e => p e.2)).map (·.1)
  let threads (qs : List Nat) : Word := maskOf ((tgt.filter (fun e => qs.any (· = e.2))).map (·.1))
  match r.1.findSome? (fun e => match e.2 with
      | .fault g => some g
      | _ => none) with
  | some g =>
    let bad := where_ (fun x => match x with
      | .fault _ => true
      | _ => false)
    faultOut s1 { g with mask := threads bad }
  | none =>
    if (where_ (· = .retry)).isEmpty = false then .next (stallRetry s1)
    else
      match r.1.findSome? (fun e => match e.2 with
          | .poison l => some l
          | _ => none) with
      | some l =>
        .next { s1 with cv :=
          { noteConsumed s1.cv { kind := 0x15, addr := 128 * l, mask := activeMask s1, pc := some (curPc s1), ord := s1.cv.useq } with
            clause := s1.cv.clause.map (fun k => { k with cur := k.nxt }) } }
      | none =>
        match where_ (· = .bad) with
        | b :: bs =>
          faultOut s1 { kind := 0x03, addr := b, mask := threads (b :: bs) }
        | [] =>
          let moves := r.1.map (fun e => (e.1, (match e.2 with
            | .ok p => p
            | _ => 0), mask e.1))
          match moveTargets s1.cv moves with
          | .error pc => faultOut s1 { kind := 0x0A, addr := pc, mask := mask pc }
          | .ok c => f { s1 with cv := c }

/-- Units that access memory. -/
def accessUnit (u : Pending) : Bool :=
  match u.kind with
  | .load => true | .store => true | .scrLoad _ _ => true | .scrStore _ => true | .atom _ _ => true | .scrAtom _ _ => true
  | .scadd => true | .fence _ => true | .pref => true | .binit _ _ _ => true | .barv _ _ => true | .spawn _ _ _ _ => true
  | .texture _ _ _ _ => true | .texGrad _ _ _ _ _ => true | .radj _ _ => true | .trava _ _ _ _ => true
  | .matrix _ => u.pieces.any (fun p => decide (0 < p.n))
  | _ => false

/-- Units that load. -/
def loadUnit (u : Pending) : Bool :=
  match u.kind with
  | .load => true | .scrLoad _ _ => true | .atom _ _ => true | .scrAtom _ _ => true
  | .texture _ _ _ _ => true | .texGrad _ _ _ _ _ => true | .radj _ _ => true
  | _ => false

/-- Whether two units have a thread in common. -/
def sharedLanes (u v : Pending) : Bool := decide (u.mask &&& v.mask ≠ 0#32)

/-- Whether accesses of threads of a mask are outstanding (04 R83). -/
def accessPending (c : Convoy) (m : Word) : Bool :=
  c.units.any (fun u => decide (u.mask &&& m ≠ 0#32) && accessUnit u && !(decide (u.kind = .pref)))

/-- The junction word of an address is done (07 R135). -/
def junctionDone (s : State) (pa : Nat) : Bool :=
  let x := memNat s pa 8
  x.testBit 63 || x % 4294967296 = 0

/-- Threads of entries in the overflow area. -/
def spilledThreads (c : Convoy) : Word := c.spill.foldl (fun m e => m ||| e.mask) 0#32

/-- Whether a mask holds every live thread of the convoy; threads spilled elsewhere do not count (01 R34). -/
def joined (c : Convoy) (m : Word) : Bool := decide (c.live &&& ~~~(spilledThreads c) &&& ~~~m = 0#32)

/-- Whether a wait may have ended, so that its instruction is tried again (01 R34; 05 R97, R102, R107; 07 R135). A
HANDOFF waits for its rendezvous. -/
def waitDone (s : State) (e : Entry) : Bool :=
  match e.wait with
  | none => true
  | some (.join _ late) => late || joined s.cv e.mask
  | some (.bwait off target) => ((getBarrier s.ch off).await target).isSome
  | some .tkwait =>
    match s.ch.ticket with
    | some (pa, _) => let x := memNat s pa 8; x.testBit 63 || s.ch.linear ≤ serving (BitVec.ofNat 64 x)
    | none => true
  | some .tkdone =>
    !(accessPending s.cv e.mask) &&
    (match s.ch.ticket with
      | some (pa, _) => let x := memNat s pa 8; x.testBit 63 || s.ch.linear ≤ serving (BitVec.ofNat 64 x)
      | none => true)
  | some (.jwait pa) => junctionDone s pa
  | some (.ewait pa k) => poisoned s (lineOf pa) || decide (k ≤ memNat s pa 8 % 2 ^ 63)
  | some (.handoff _ _) => false
  | some (.digest n) => digestDue s s.ch.rcb n

/-- The entry the convoy issues next, the frontier without it, and whether it is issued from the overflow area
(01 R28, R32, R33, R539). -/
def selectEntry (s : State) : Option (Entry × Bool × Convoy) :=
  let c := s.cv
  let ready := c.fr.filter (waitDone s)
  let late := c.spill.filter (waitDone s)
  match firstOf ((ready ++ late).filter (fun e => e.wait.isNone && decide (4096 ≤ e.age))) with
  | some e =>
    if ready.any (· = e) then some (e, false, { c with fr := c.fr.erase e })
    else
      match lastOf (ready.filter (fun f => f.wait.isNone)) with
      | some v => some (e, false, { c with fr := c.fr.erase v, spill := c.spill.erase e ++ [v] })
      | none => some (e, true, { c with spill := c.spill.erase e })
  | none =>
    let rest := ready.filter (fun e => some e.pc ≠ c.yielded)
    match firstOf (if rest.isEmpty then ready else rest) with
    | some e => some (e, false, { c with fr := c.fr.erase e })
    | none =>
      match firstOf late with
      | some e => some (e, true, { c with spill := c.spill.erase e })
      | none => none

/-- Index of a boundary fault in the order of 29 R442. -/
def boundaryRank (f : FaultRec) : Nat := if f.kind = 0x15 then 0 else if f.kind = 0x10 then 1 else if f.kind = 0x14 then 2 else 3

/-- The first of the pending boundary faults (29 R442). -/
def firstFault : List FaultRec → Option FaultRec
  | [] => none
  | f :: fs =>
    match firstFault fs with
    | none => some f
    | some g =>
      if boundaryRank g < boundaryRank f ∨ boundaryRank g = boundaryRank f ∧ g.ord < f.ord then some g else some f

/-- Taking a pending boundary fault, with the entry that would issue next (29 R442, R443, R445). -/
def takePending (s : State) (f : FaultRec) : State :=
  let next := match selectEntry s with
    | some r => some r.1
    | none => firstOf (s.cv.fr ++ s.cv.spill)
  let s1 := { s with cv := { s.cv with bfaults := s.cv.bfaults.erase f } }
  let m := match next with
    | some e => e.mask
    | none => 0#32
  let pc := match next with
    | some e => e.pc
    | none => 0
  takeBoundaryFault s1 (if f.mask = 0#32 then { f with mask := m } else f) pc

/-- Whether the clause being issued has no instruction left for its entry (10 R184, 01 R29). -/
def clauseOver (c : Convoy) : Bool :=
  match c.clause with
  | none => false
  | some k => decide (k.mask = 0#32) || (!k.words.isEmpty && decide (k.words.length ≤ k.nxt))

/-- The end of a clause (01 R29, R32, R33; 10 R184): its threads move to the next header. Answers whether the
boundary is reached. -/
def endClause (s : State) : Bool × State :=
  match s.cv.clause with
  | none => (true, s)
  | some k =>
    if !(clauseOver s.cv) then (k.fresh, s)
    else if k.mask = 0#32 then (true, { s with cv := dropClause s.cv })
    else
      let next := k.pc + 4 * (1 + k.words.length)
      match readCode s next false with
      | (.word w, s1) =>
        if isHeader w then (true, { s1 with cv := moveClause s1.cv next (w.toNat % 256) none })
        else
          (false, takeBoundaryFault { s1 with cv := moveClause s1.cv next 0 none }
            { kind := 0x02, mask := k.mask } k.pc)
      | (.retry, s1) => (false, { s1 with cv := { s1.cv with stalled := true } })
      | (_, s1) => (true, { s1 with cv := moveClause s1.cv next 0 none })

/-- Whether the cohort's convoys stop at their boundaries: a fault, an eviction (29 R443, 28 R430). -/
def held (c : Cohort) : Bool := c.faulting || c.stopping || c.evict

/-- The selection of the next clause (01 R28), with the convoy's view of the cohort registers (02 R46). Its words are read by the
fetch. -/
def selectClause (s : State) : State :=
  match selectEntry s with
  | none => s
  | some (e, sp, c) =>
    let k : Clause :=
      { pc := e.pc, hdr := 0#32, words := [], mask := e.mask, spilled := sp, prio := e.prio, age := e.age, age0 := c.opp,
        wait := e.wait }
    { s with cv := { c with
        clause := some k, qview := s.ch.q, yielded := if c.yielded = some e.pc then c.yielded else none } }

/-- A clause boundary (01 R28, 29 R442): the ended clause's threads move on, a pending boundary fault is taken, or the
next clause is selected. -/
def clauseBoundaryOp (s : State) : State :=
  if s.cv.halt ≠ .run then s
  else
    let r := endClause { s with cv := { s.cv with stalled := false } }
    if !r.1 then settleFault r.2
    else
      let s1 := { r.2 with cv := unselect r.2.cv }
      match firstFault s1.cv.bfaults with
      | some f => if s1.ch.stopping || s1.ch.evict then s1 else takePending s1 f
      | none => if held s1.ch then settleFault s1 else selectClause s1

/-- Reading n words of a clause. -/
def readWords (s : State) (va : Nat) : Nat → Except CodeRead (List Word) × State
  | 0 => (.ok [], s)
  | n + 1 =>
    match readCode s va true with
    | (.word w, s1) =>
      match readWords s1 (va + 4) n with
      | (.ok ws, s2) => (.ok (w :: ws), s2)
      | r => r
    | (e, s1) => (.error e, s1)

/-- A fault at the header of a selected clause (10 R184, 30 R462). -/
def headerFault (s : State) (f : FaultRec) : State :=
  match s.cv.clause with
  | none => s
  | some k => takeBoundaryFault { s with cv := unselect s.cv } { f with mask := k.mask } k.pc

/-- Latches are empty at the start of a clause (02 R42). -/
def clearLatches (c : Convoy) : Convoy := { c with latch := [] }

/-- The fetch of the selected clause (10 R181, R184, R185; 02 R46). -/
def clauseFetchOp (s : State) : State :=
  match s.cv.clause with
  | none => s
  | some k =>
    if s.cv.halt ≠ .run || !k.words.isEmpty then s
    else
      let s0 := { s with cv := { s.cv with stalled := false } }
      let stop (e : CodeRead) (s1 : State) : State :=
        match e with
        | .fault f => headerFault s1 f
        | .poison l =>
          { s1 with cv :=
            noteConsumed (unselect s1.cv) { kind := 0x15, addr := 128 * l, mask := k.mask, pc := some k.pc, ord := s1.cv.useq } }
        | _ => { s1 with cv := { s1.cv with stalled := true } }
      match readCode s0 k.pc true with
      | (.word w, s1) =>
        let h := Header.unpack w
        if !(isHeader w) || h.count.toNat = 0 then headerFault s1 { kind := 0x02 }
        else
          match readWords s1 (k.pc + 4) h.count.toNat with
          | (.ok ws, s2) =>
            let c := if k.fresh then clearLatches s2.cv else s2.cv
            { s2 with cv := { c with
                clause := some { k with hdr := w, words := ws, yld := h.yld || k.yld } } }
          | (.error e, s2) => stop e s2
      | (e, s1) => stop e s1

/-- Whether the next instruction of the focused convoy may issue (01 R19, 05 R110). -/
def eligible (s : State) : Bool :=
  match s.cv.clause with
  | none => false
  | some k =>
    s.focus && !s.ch.dying && decide (s.cv.halt = .run) && decide (k.mask ≠ 0#32) && decide (k.nxt < k.words.length) &&
      (!k.fresh || (tokensClear s.cv (Header.unpack k.hdr).wait && s.cv.bfaults.isEmpty && !(held s.ch)))

/-- A waiting instruction puts its entry into the waiting state at its header (01 R34, 05 R97). -/
def waitEntry (w : Wait) (s : State) : State :=
  match s.cv.clause with
  | none => s
  | some k =>
    { s with cv := { moveClause { s.cv with clause := some { k with yld := false } } k.pc k.prio (some w) with peek := [] } }

/-- The wait an instruction at the head of its clause comes back from. -/
def waitOf (s : State) : Option Wait :=
  match s.cv.clause with
  | some k => k.wait
  | none => none

end Sys2Proof.Machine
end

