-- ==== Sys2Proof/Machine/Mem.lean ====
section
/-! DEFINITION. Memory accesses (15 R278 to R295): effective addresses and windows (03 R54), the checks in their order
(15 R283), the units an instruction adds (15 R284), the order in which units may complete (04 R77, R79, R83 to R85,
R294), and what a completing unit does. -/

namespace Sys2Proof.Machine

/-- Bytes of a width code (15 R278). -/
def widthBytes : MWidth → Nat
  | .n8 => 1 | .i8 => 1 | .n16 => 2 | .i16 => 2 | .b32 => 4 | .b64 => 8 | .b128 => 16

/-- Registers of a width code (15 R286). -/
def widthWords (w : MWidth) : Nat := (widthBytes w + 3) / 4

/-- Whether a load of the width extends the sign (15 R286). -/
def widthSigned : MWidth → Bool
  | .i8 => true | .i16 => true | _ => false

/-- The window a generic pointer selects, with the address in it (03 R54). -/
inductive Win
  | glob (va : Nat) | scr (off : Nat) | priv (off : Nat) | bad
  deriving DecidableEq, Repr

/-- Resolving a generic pointer (03 R54). -/
def resolve (p : DWord) : Win :=
  let w := (p.extractLsb' 57 7).toNat
  let off := (p.extractLsb' 0 32).toNat
  let zeros := decide (p.extractLsb' 32 25 = 0#25)
  if w = 0 then .glob p.toNat
  else if w = 64 && zeros then .scr off
  else if w = 65 && zeros then .priv off
  else .bad

/-- One thread's access: the address as the instruction names it, and where it resolves. -/
structure Acc where
  lane : Nat
  ea   : Nat
  win  : Win
  n    : Nat
  deriving DecidableEq, Repr

/-- A fault that lists the threads of failing accesses, with the address of the lowest (29 R446). -/
def accFault (kind sub : Nat) (bad : List Acc) : Option FaultRec :=
  match bad with
  | [] => none
  | a :: _ => some { kind := kind, sub := sub, addr := a.ea, mask := maskOf (bad.map (·.lane)) }

/-- The Protection subcode of the window check of an access (15 R283 check 7, 29 R446). -/
def windowSub (s : State) (noPriv noScr : Bool) (a : Acc) : Option Nat :=
  match a.win with
  | .glob _ => none
  | .scr off => if noScr then some 1 else if off + a.n ≤ scrSize s.ch then none else some 2
  | .priv _ => if noPriv then some 1 else none
  | .bad => some 1

/-- Check 7 of 15 R283. -/
def windowCheck (s : State) (noPriv noScr : Bool) (as : List Acc) : Option FaultRec :=
  let bad := as.filter (fun a => (windowSub s noPriv noScr a).isSome)
  match bad with
  | [] => none
  | a :: _ => accFault 0x0E ((windowSub s noPriv noScr a).getD 0) bad

/-- Check 8 of 15 R283 (03 R55). -/
def alignCheck (as : List Acc) : Option FaultRec := accFault 0x0C 0 (as.filter (fun a => a.ea % a.n ≠ 0))

/-- The first private word that a thread may not reach (03 R65). -/
def privBound (s : State) (lane : Nat) : Nat := s.ch.desc.priv - 8 - 2 * NMap.get 0 s.cv.depth lane

/-- The word of a private access that is out of bounds, if one is (03 R65). -/
def privBad (s : State) (a : Acc) : Option Nat :=
  match a.win with
  | .priv off =>
    let b := privBound s a.lane
    if b ≤ (off + a.n - 1) / 4 then some (max (off / 4) b) else none
  | _ => none

/-- Check 9 of 15 R283 (03 R65, 29 R446). -/
def privCheck (s : State) (as : List Acc) : Option FaultRec :=
  let bad := as.filter (fun a => (privBad s a).isSome)
  match bad with
  | [] => none
  | a :: _ =>
    some { kind := 0x09, aux := (privBad s a).getD 0 + 2 ^ 32 * privBound s a.lane, mask := maskOf (bad.map (·.lane)) }

/-- Check 10 of 15 R283: threads of one atomic that name the same address (03 R71). -/
def sameCheck (as : List Acc) : Option FaultRec :=
  accFault 0x0B 0 (as.filter (fun a => as.any (fun b => decide (b.lane ≠ a.lane) && decide (b.win = a.win))))

/-- A part of an access that lies in one line, before translation. -/
structure Span where
  lane : Nat
  off  : Nat
  n    : Nat
  va   : Nat
  root : DWord
  priv : Bool
  deriving DecidableEq, Repr

/-- The address of a private byte of a thread (03 R64). -/
def privVa (s : State) (lane off : Nat) : Nat := s.cv.pbase + ((off / 4) * 32 + lane) * 4 + off % 4

/-- The parts of an access that are translated (03 R54, R64). -/
def spansOf (s : State) (a : Acc) : List Span :=
  match a.win with
  | .glob va => [{ lane := a.lane, off := 0, n := a.n, va := va, root := s.ch.root, priv := false }]
  | .priv off =>
    (List.range ((a.n + 3) / 4)).map (fun k =>
      { lane := a.lane, off := 4 * k, n := min a.n 4, va := privVa s a.lane (off + 4 * k), root := s.ch.proot, priv := true })
  | _ => []

/-- Translating every part (30 R464). -/
def translateAll (s : State) : List Span → List (Span × TrOut) × State
  | [] => ([], s)
  | p :: ps =>
    let r := translate s s.ch.core p.root p.va
    let q := translateAll r.2 ps
    ((p, r.1) :: q.1, q.2)

/-- Setting D for every part that is written (30 R462). -/
def dirtyAll (s : State) : List Span → List (Span × TrOut) × State
  | [] => ([], s)
  | p :: ps =>
    let r := setDirty s s.ch.core p.root p.va
    let q := dirtyAll r.2 ps
    ((p, r.1) :: q.1, q.2)

/-- The Protection subcode of the page check (15 R283 check 12; 30 R462, R463). -/
def pageSub (s : State) (write scadd : Bool) (va : Nat) (pte : DWord) (level : Nat) : Option Nat :=
  if write && !(pte.getLsbD 2) then some 3
  else
    match physKind s (leafPa pte level va) with
    | .hole => some 2
    | .tier2 => if pte.getLsbD 6 then some 5 else none
    | .remote => if !(pte.getLsbD 5) then some 4 else if scadd && pte.getLsbD 6 then some 12 else none
    | .hbm => if scadd && pte.getLsbD 6 then some 12 else none

/-- A part of an access at its physical address. -/
structure PSpan where
  lane : Nat
  off  : Nat
  n    : Nat
  va   : Nat
  pa   : Nat
  key  : Nat
  ms   : Bool
  priv : Bool
  deriving DecidableEq, Repr

/-- The physical part of a translated one. -/
def physSpan (p : Span) (pte : DWord) (level : Nat) : PSpan :=
  { lane := p.lane, off := p.off, n := p.n, va := p.va, pa := leafPa pte level p.va, key := pteKey pte,
    ms := pte.getLsbD 6, priv := p.priv }

/-- What the checks of an access give. -/
inductive Checked
  | fault (s : State) (f : FaultRec)
  | stall (s : State)
  | go (s : State) (ps : List PSpan)

/-- The spans whose translation has a given outcome. -/
def spansWith (p : TrOut → Bool) (rs : List (Span × TrOut)) : List Span := (rs.filter (fun r => p r.2)).map (·.1)

/-- Threads whose walk met a poisoned line perform nothing; the fault waits for the boundary (30 R459). -/
def notePoisonWalk (s : State) (rs : List (Span × TrOut)) : State :=
  match rs.findSome? (fun r => match r.2 with
      | .poison l => some l
      | _ => none) with
  | none => s
  | some l =>
    let m := maskOf ((spansWith (fun x => match x with
      | .poison _ => true
      | _ => false) rs).map (·.lane))
    { s with cv := noteConsumed s.cv { kind := 0x15, addr := 128 * l, mask := if uniform s then activeMask s else m, pc := some (curPc s), ord := s.cv.useq } }

/-- An access that the convoy makes once concerns every active thread (29 R445). -/
def widenNoted (s : State) : State :=
  { s with cv := { s.cv with
      bfaults := s.cv.bfaults.map (fun f =>
        if f.kind = 0x15 ∧ f.pc = some (curPc s) then { f with mask := f.mask ||| activeMask s } else f) } }

/-- The physical parts of the accesses whose translation succeeded for every part of the thread. -/
def goSpans (rs : List (Span × TrOut)) : List PSpan :=
  let lost := (spansWith (fun x => match x with
    | .poison _ => true
    | _ => false) rs).map (·.lane)
  rs.filterMap (fun r => match r.2 with
    | .ok pte level _ => if lost.any (· = r.1.lane) then none else some (physSpan r.1 pte level)
    | _ => none)

/-- The address that a thread names, for a fault about one of its parts. -/
def eaOf (as : List Acc) (lane : Nat) : Nat := ((as.find? (fun a => a.lane = lane)).map (·.ea)).getD 0

/-- Checks 11 and 12 of 15 R283, then the dirty state of written pages (30 R462, R464). -/
def pageChecks (s : State) (write scadd : Bool) (as : List Acc) : Checked :=
  let r := translateAll s (as.flatMap (spansOf s))
  let s1 := r.2
  match spansWith (· = .fail) r.1 with
  | p :: ps => .fault s1 { kind := 0x0D, addr := eaOf as p.lane, mask := maskOf ((p :: ps).map (·.lane)) }
  | [] =>
    if r.1.any (fun x => x.2 = .retry) then .stall s1
    else
      let sub (x : Span × TrOut) : Option Nat := match x.2 with
        | .ok pte level _ => pageSub s1 write scadd x.1.va pte level
        | _ => none
      match r.1.filter (fun x => (sub x).isSome) with
      | x :: xs =>
        .fault s1 { kind := 0x0E, sub := (sub x).getD 0, addr := eaOf as x.1.lane, mask := maskOf ((x :: xs).map (·.1.lane)) }
      | [] =>
        if !write then .go (notePoisonWalk s1 r.1) (goSpans r.1)
        else
          let q := dirtyAll s1 (r.1.map (·.1))
          match spansWith (· = .fail) q.1 with
          | p :: ps => .fault q.2 { kind := 0x0D, addr := eaOf as p.lane, mask := maskOf ((p :: ps).map (·.lane)) }
          | [] =>
            if q.1.any (fun x => x.2 = .retry) then .stall q.2
            else .go (notePoisonWalk q.2 q.1) (goSpans q.1)

/-- The first of a list of check results. -/
def firstCheck (cs : List (Option FaultRec)) : Option FaultRec := cs.findSome? id

/-- Checks 7 to 12 of 15 R283 for an access of every acting thread. -/
def accessChecks (s : State) (write noPriv noScr atom scadd : Bool) (as : List Acc) : Checked :=
  match firstCheck [windowCheck s noPriv noScr as, alignCheck as, privCheck s as, if atom then sameCheck as else none] with
  | some f => .fault s f
  | none => pageChecks s write scadd as

/-- The threads that a unit for some threads concerns: those, or every active one where it acts once for the convoy (15 R280). -/
def unitMask (u : Pending) (ts : List Nat) : Word := if u.once then u.mask else maskOf ts

/-- The unit keys of pieces in order, and the units they make: pieces of one key share a unit (15 R284). -/
def groupUnits (key : Piece → Nat) (u : Pending) (ps : List Piece) : List Pending :=
  (distinct (ps.map key)).map (fun k =>
    let mine := ps.filter (fun p => key p = k)
    { u with pieces := mine, mask := unitMask u (mine.map (·.lane)) })

/-- The line of a piece: one unit for each distinct line (15 R284, 03 R66). -/
def lineKey (p : Piece) : Nat := 4 * (if p.scr then p.addr / 128 else p.va / 128) + (if p.scr then 2 else if p.priv then 1 else 0)

/-- The bank word of a scratch piece: one unit for each request (03 R58, 15 R284). -/
def wordKey (p : Piece) : Nat := p.addr / 4

/-- The destination words that a part supplies. -/
def spanDst (s : State) (d : Dst) (lane off n : Nat) : List Loc :=
  (List.range ((n + 3) / 4)).flatMap (fun k => (dstLoc s d lane (off / 4 + k)).toList)

/-- The pieces of a load: one for each translated part, and one for each scratch access (15 R286). -/
def loadPieces (s : State) (d : Dst) (sgn : Bool) (l : Layout) (as : List Acc) (ps : List PSpan) : List Piece :=
  let scr := as.filterMap (fun a => match a.win with
    | .scr off => some { lane := a.lane, scr := true, addr := scrMap l off, va := off, n := a.n, sgn := sgn,
                         dst := spanDst s d a.lane 0 a.n : Piece }
    | _ => none)
  scr ++ ps.map (fun p =>
    { lane := p.lane, scr := false, addr := p.pa, va := p.va, n := p.n, sgn := sgn, dst := spanDst s d p.lane p.off p.n,
      priv := p.priv, ms := p.ms, key := p.key })

/-- The bytes of a thread's store data (15 R287). -/
def dataBytes (s : State) (c : Src) (lane n : Nat) : List Byte :=
  let ws := (rdQuad s c lane).map (fun w => bytesOf w.toNat 4)
  ws.flatten.take n

/-- The pieces of a store (15 R287). -/
def storePieces (s : State) (c : Src) (l : Layout) (as : List Acc) (ps : List PSpan) : List Piece :=
  let scr := as.filterMap (fun a => match a.win with
    | .scr off => some { lane := a.lane, scr := true, addr := scrMap l off, va := off, n := a.n,
                         data := dataBytes s c a.lane a.n : Piece }
    | _ => none)
  scr ++ ps.map (fun p =>
    { lane := p.lane, scr := false, addr := p.pa, va := p.va, n := p.n,
      data := ((dataBytes s c p.lane 16).drop p.off).take p.n, priv := p.priv, ms := p.ms, key := p.key })

/-- A scratch piece cut into its bank words (03 R58). -/
def bankWords (p : Piece) : List Piece :=
  if p.n ≤ 4 then [p]
  else (List.range (p.n / 4)).map (fun k =>
    { p with addr := p.addr + 4 * k, va := p.va + 4 * k, n := 4, data := (p.data.drop (4 * k)).take 4,
             dst := (p.dst.drop k).take 1 })

/-- Threads that perform their access: those with no poisoned source (29 R458). -/
def cleanPieces (s : State) (ps : List Piece) : List Piece := ps.filter (fun p => clean s p.lane)

/-- A memory instruction: the operand checks, the Stall Underrun check, further checks, the address checks, and then
its units (15 R283, R284). -/
def memOp (st : Stall) (t : Tok) (us : List Use) (d : Option (Dst × Nat)) (write noPriv noScr atom scadd : Bool)
    (early : State → Option FaultRec) (accs : State → List Acc) (units : State → List Acc → List PSpan → List Pending)
    (s0 : State) : Out :=
  let s := settleIdx s0 us (d.map (·.1))
  match checkUses s us d with
  | some e => faultOut s e
  | none =>
    match checkReady s (useLocs s us ++ (match d with
        | some (x, n) => dstLocs s x n
        | none => [])) with
    | some e => faultOut s e
    | none =>
      let s1 := settleReads s us []
      match early s1 with
      | some e => faultOut s1 e
      | none =>
        match accessChecks s1 write noPriv noScr atom scadd (accs s1) with
        | .fault s2 f => faultOut s2 f
        | .stall s2 => .next (stallRetry s2)
        | .go s2 ps =>
          let new := units s2 (accs s1) ps
          if tokRoom s2.cv t.toNat new.length then .next (retire st { s2 with cv := addUnits s2.cv new })
          else .next (waitIssue s2)

/-- The accesses of the acting threads through a generic pointer (15 R282). -/
def genAccs (n : Nat) (a : Src) (b : Option Src) (s : State) : List Acc :=
  (actLanes s).map (fun t =>
    let ea : DWord := rd64 s a t + (match b with
      | some x => (rd32 s x t).signExtend 64
      | none => 0#64)
    { lane := t, ea := ea.toNat, win := resolve ea, n := n })

/-- A 32-bit offset (15 R282). -/
def offset32 (s : State) (a : Src) (b : Option Src) (t : Nat) : Nat :=
  (rd32 s a t + (match b with
    | some x => rd32 s x t
    | none => 0#32)).toNat

/-- The accesses of the acting threads at scratch offsets (15 R282). -/
def scrAccs (n : Nat) (a : Src) (b : Option Src) (s : State) : List Acc :=
  (actLanes s).map (fun t => { lane := t, ea := offset32 s a b t, win := .scr (offset32 s a b t), n := n })

/-- The accesses of the acting threads at private offsets (15 R282). -/
def privAccs (n : Nat) (a b : Src) (s : State) : List Acc :=
  (actLanes s).map (fun t => { lane := t, ea := offset32 s a (some b) t, win := .priv (offset32 s a (some b) t), n := n })

/-- The accesses of the acting threads to the constant bank (03 R56, 15 R282). -/
def constAccs (n : Nat) (a b : Src) (s : State) : List Acc :=
  (actLanes s).map (fun t =>
    let off := offset32 s a (some b) t
    { lane := t, ea := off, win := .glob ((s.ch.cbank + off) % 2 ^ 57), n := n })

/-- The bound of the constant bank (03 R56). -/
def constCheck (s : State) (as : List Acc) : Option FaultRec :=
  accFault 0x0E 2 (as.filter (fun a => decide (s.ch.cbank = 0) || decide (65536 < a.ea + a.n)))

/-- A new unit of an instruction. -/
def newUnit (s : State) (t : Tok) (k : UKind) : Pending :=
  { seq := 0, tok := some t.toNat, kind := k, mask := activeMask s, pc := curPc s, once := uniform s }

/-- Whether two pieces are accesses of one thread to a common location (04 R79). -/
def pieceOverlap (p q : Piece) : Bool :=
  decide (p.lane = q.lane) && decide (p.scr = q.scr) && decide (p.addr < q.addr + q.n) && decide (q.addr < p.addr + p.n)

/-- Ordered operations (04 R73). -/
def orderedUnit (u : Pending) : Bool :=
  u.acq || u.rel ||
  (match u.kind with
    | .atom _ _ => true
    | .scrAtom _ _ => true
    | .scrLoad fe _ => fe
    | .scrStore full => full
    | .fence _ => true
    | _ => false)

/-- Whether a unit that a release waits for is still outstanding before it (04 R83). -/
def releaseBlocked (earlier : List Pending) (u : Pending) : Bool :=
  earlier.any (fun v => sharedLanes u v && accessUnit v && !(decide (v.kind = .pref)))

/-- Whether a unit may take effect now, by the program order its threads keep (04 R77, R79, R83 to R85; 15 R294). -/
def mayComplete (c : Convoy) (u : Pending) : Bool :=
  let earlier := c.units.takeWhile (fun v => v.seq ≠ u.seq)
  !(earlier.any (fun v => match v.kind with
    | .fence _ => true
    | _ => false)) &&
  !(earlier.any (fun v => sharedLanes u v && v.acq)) &&
  !(earlier.any (fun v => u.pieces.any (fun p => v.pieces.any (fun q => pieceOverlap p q)))) &&
  !(orderedUnit u && earlier.any (fun v => sharedLanes u v && orderedUnit v)) &&
  !(u.rel && releaseBlocked earlier u) &&
  (match u.kind with
    | .fence .rel => !(releaseBlocked earlier u)
    | .fence .acqrel => !(releaseBlocked earlier u)
    | .fence _ => !(earlier.any (fun v => sharedLanes u v && loadUnit v))
    | _ => true)

/-- Registering every store of a core up to the last that passes a test, in their order (04 R82, R83). -/
def registerThrough (s : State) (core : Nat) (p : PStore → Bool) : State :=
  let mine := s.pstores.filter (fun x => x.core = core)
  let n := mine.length - (mine.reverse.takeWhile (fun x => !(p x))).length
  (mine.take n).foldl registerStore s

/-- The stores of the focused convoy's threads are registered, as a release needs (04 R83). -/
def releaseStores (s : State) (m : Word) : State :=
  registerThrough s s.ch.core (fun x => decide (x.uid = s.ch.uid) && decide (x.convoy = s.cv.id) && m.getLsbD x.lane)

/-- The stores of a core that touch a range are registered, as an atomic at the L2 needs (03 R70, 04 R79). -/
def registerRange (s : State) (core a n : Nat) : State :=
  registerThrough s core (fun x => decide (x.addr < a + n) && decide (a < x.addr + x.bytes.length))

/-- Whether the bytes of a piece are poisoned (29 R458). -/
def piecePoison (s : State) (p : Piece) : Bool :=
  if p.scr then (List.range ((p.addr + p.n - 1) / 4 - p.addr / 4 + 1)).any (fun i => NMap.get false s.ch.spoison (p.addr / 4 + i))
  else poisonedRange s p.addr p.n

/-- The pending Poison Consumed fault of a unit whose pieces met poison (15 R285). -/
def unitPoison (s : State) (u : Pending) : State :=
  match u.pieces.filter (piecePoison s) with
  | [] => s
  | p :: ps =>
    { s with cv :=
        noteConsumed s.cv {
          kind := 0x15, sub := if p.scr then 1 else 0, addr := if p.scr then 0 else p.addr / 128 * 128,
          mask := unitMask u ((p :: ps).map (·.lane)), pc := some u.pc, ord := u.seq } }

/-- Writing the words of a list of bytes to a piece's destinations (15 R286). -/
def deliver (p : Piece) (bs : List Byte) (c : Convoy) : Convoy :=
  (p.dst.zipIdx).foldl (fun c e => setLoc c e.1 ((pieceWord bs p e.2).setWidth 64)) c

/-- A load unit reads and writes its destinations (15 R284 to R286, R289). `stale` lets it take copies that the L1 holds. -/
def performLoad (s : State) (u : Pending) (stale : Bool) : State :=
  let keep := stale && !u.acq && decide (u.cache ≠ .cg)
  let s1 := u.pieces.foldl (fun s p =>
    let sk := if p.scr || p.priv then s else rekeyAt s p.addr p.n p.key
    if piecePoison sk p then sk
    else { sk with cv := deliver p (pieceBytes sk (keep && !p.ms) p) sk.cv }) s
  let s2 := unitPoison s1 u
  let s3 := u.pieces.foldl (fun s p =>
    if p.scr || p.priv || p.ms || keep then s
    else if u.cache = .cg then dropCopy s s.ch.core p.addr p.n else fillLine s s.ch.core (lineOf p.addr)) s2
  let s4 := if u.acq then invalidateL1 s3 s3.ch.core else s3
  { s4 with cv := dropUnit s4.cv u }

/-- Whether the pieces of a store unit write every byte of a piece's line (29 R458). -/
def wholeLine (u : Pending) (p : Piece) : Bool :=
  (List.range 128).all (fun i =>
    u.pieces.any (fun q => decide (q.addr ≤ p.addr / 128 * 128 + i) && decide (p.addr / 128 * 128 + i < q.addr + q.n)))

/-- A store piece takes effect: in scratch, in a private line, at a memory-side page, or in the L1 until it is
registered (15 R284, R287; 04 R78, R82). -/
def performStorePiece (u : Pending) (s : State) (p : Piece) : State :=
  if p.scr then { s with ch := scrPut s.ch p.addr p.data }
  else if p.priv then privPut s s.ch.core s.ch.uid p.addr p.data
  else if p.ms then writeCoherent s none p.addr p.key p.data
  else
    let one (off n : Nat) : PStore :=
      { core := s.ch.core, uid := s.ch.uid, convoy := s.cv.id, lane := p.lane, addr := p.addr + off,
        bytes := (p.data.drop off).take n, key := p.key, cg := decide (u.cache = .cg), unit := u.seq, whole := wholeLine u p }
    { s with pstores := s.pstores ++ (if p.n = 16 then [one 0 8, one 8 8] else [one 0 p.n]) }

/-- A store unit takes effect, in ascending thread number (15 R287, R288). A release has its threads' earlier stores
registered first, and is registered itself (04 R83). -/
def performStore (s : State) (u : Pending) : State :=
  let s1 := if u.rel then releaseStores s u.mask else s
  let sw := u.pieces.foldl (performStorePiece u) s1
  let s2 := u.pieces.foldl (fun s p => if p.ms && wholeLine u p then setPoison s (lineOf p.addr) false else s) sw
  let s3 : State := match u.kind with
    | .scrStore true => u.pieces.foldl (fun s p => { s with ch := setFe s.ch (p.addr / 16) true }) s2
    | _ => s2
  let s4 := if u.rel then releaseStores s3 u.mask else s3
  { s4 with cv := dropUnit (u.writes.foldl (fun c e => setLoc c e.1 e.2) s4.cv) u }

/-- A full-empty load may be served: its granule is full (03 R63). -/
def feReady (s : State) (u : Pending) : Bool := u.pieces.all (fun p => feBit s.ch (p.addr / 16))

/-- A full-empty load is served: it reads, clears with clr, and is an acquire (03 R62, R63). -/
def performFe (s : State) (u : Pending) (clr : Bool) : State :=
  let s1 := performLoad s { u with acq := false } false
  let s2 := if clr then u.pieces.foldl (fun s p => { s with ch := setFe s.ch (p.addr / 16) false }) s1 else s1
  { s2 with ch := { s2.ch with feWait := s2.ch.feWait.filter (· ≠ (s2.cv.id, u.seq)) } }

/-- Whether two units reach one granule of scratch (03 R62). -/
def sameGranule (u v : Pending) : Bool := v.pieces.any (fun p => u.pieces.any (fun q => p.addr / 16 = q.addr / 16))

/-- Whether another full-empty load waits on the unit's granule (03 R63). -/
def feBehind (s : State) (u : Pending) : Bool :=
  s.ch.feWait.any (fun w => (getConvoy s w.1).units.any (fun v => v.seq = w.2 && sameGranule u v))

/-- Whether a full-empty load of the unit's convoy is to arrive at the granule before it (03 R63): a lower thread of its instruction,
or an earlier instruction. -/
def feEarly (s : State) (u : Pending) : Bool :=
  (s.cv.units.takeWhile (fun v => v.seq ≠ u.seq)).any (fun v => match v.kind with
    | .scrLoad true _ => sameGranule u v && !(s.ch.feWait.any (· = (s.cv.id, v.seq)))
    | _ => false)

/-- The new value of an atomic operation (15 R291). -/
def atomNew (op : AtomOp) (wide : Bool) (old b c : Nat) : Nat :=
  let w := if wide then 64 else 32
  let fm : Fmt := if wide then .f64 else .f32
  match op with
  | .add => (old + b) % 2 ^ w
  | .min => if sextN w old ≤ sextN w b then old else b
  | .max => if sextN w old ≤ sextN w b then b else old
  | .minn => min old b
  | .maxn => max old b
  | .and => old &&& b
  | .or => old ||| b
  | .xor => old ^^^ b
  | .exch => b
  | .cas => if old = b then c else old
  | .fadd => enc fm (fresult fm .rne false false (fsum .rne (fval fm old) (fval fm b)))
  | .fmin => enc fm (fminmax false (fval fm old) (fval fm b))
  | .fmax => enc fm (fminmax true (fval fm old) (fval fm b))

/-- One thread's atomic, in one indivisible step at its place (03 R70, R542; 15 R292). -/
def performAtomPiece (op : AtomOp) (wide : Bool) (s0 : State) (p : Piece) : State :=
  if p.scr then
    if piecePoison s0 p then s0
    else
      let old := natOfBytes (scrGet s0.ch p.addr p.n)
      let new := atomNew op wide old (natOfBytes p.data) p.cmp.toNat
      { s0 with ch := scrPut s0.ch p.addr (bytesOf new p.n), cv := deliver p (bytesOf old p.n) s0.cv }
  else
    let s1 := rekeyAt (registerRange s0 s0.ch.core p.addr p.n) p.addr p.n p.key
    if piecePoison s1 p then s1
    else
      let old := memNat s1 p.addr p.n
      let new := atomNew op wide old (natOfBytes p.data) p.cmp.toNat
      let s2 := dropCopy (writeCoherent s1 none p.addr p.key (bytesOf new p.n)) s1.ch.core p.addr p.n
      { s2 with cv := deliver p (bytesOf old p.n) s2.cv }

/-- An atomic unit is performed (15 R292; 04 R76, R77). -/
def performAtom (s : State) (u : Pending) (op : AtomOp) (wide : Bool) : State :=
  let s1 := if u.rel then releaseStores s u.mask else s
  let s2 := unitPoison s1 u
  let s3 := u.pieces.foldl (performAtomPiece op wide) s2
  let s4 := if u.acq then invalidateL1 s3 s3.ch.core else s3
  { s4 with cv := dropUnit s4.cv u }

/-- A fence completes (04 R85, 15 R294). -/
def performFence (s : State) (u : Pending) (o : MOrder) : State :=
  let s1 := match o with
    | .rel => releaseStores s u.mask
    | .acqrel => releaseStores s u.mask
    | _ => s
  let s2 := match o with
    | .acq => invalidateL1 s1 s1.ch.core
    | .acqrel => invalidateL1 s1 s1.ch.core
    | _ => s1
  { s2 with cv := dropUnit s2.cv u }

/-- A prefetched line is filled (15 R295). -/
def performPref (s : State) (u : Pending) : State :=
  let s1 := u.pieces.foldl (fun s p => if u.cache = .cg then s else fillLine s s.ch.core (lineOf p.addr)) s
  { s1 with cv := dropUnit s1.cv u }

/-- The prefetches that are made: global pages that are cached, with a translation at hand and nothing to refuse
(15 R295). -/
def prefPieces (s : State) (as : List Acc) : List Piece :=
  as.filterMap (fun a => match a.win with
    | .glob va =>
      match tlbLookup s s.ch.core s.ch.root va with
      | none => none
      | some e =>
        let pa := leafPa e.pte e.level va
        if e.pte.getLsbD 6 || (pageSub s false false va e.pte e.level).isSome then none
        else some { lane := a.lane, scr := false, addr := pa / 128 * 128, va := va, n := 1, key := pteKey e.pte }
    | _ => none)

end Sys2Proof.Machine
end

