-- ==== Sys2Proof/Machine/Spawn.lean ====
section
/-! DEFINITION. Kernel descriptors (12 R231), the spawn queues and the records of spawned threads (07 R128 to R136,
28 R432, R433), and whole-instruction addresses. -/

namespace Sys2Proof.Machine

/-- A field of a record read as one number. -/
def fld (x : Nat) (hi lo : Nat) : Nat := slice x hi lo

/-- A kernel descriptor from its 64 bytes (12 R231). -/
def descOf (x : Nat) : KDesc :=
  { entry := fld x 511 448, roles := fld x 447 384, shapex := fld x 383 368, shapey := fld x 367 352,
    shapez := fld x 351 336, convoys := fld x 335 328, gengr := fld x 327 320, feedgr := fld x 319 312,
    compgr := fld x 311 304, draingr := fld x 303 296, scratch := fld x 295 288, priv := fld x 287 256,
    spawnb := fld x 255 240, tape := fld x 239 232, spawn := x.testBit 231 }

/-- Role of a convoy (12 R231). -/
def roleOf (d : KDesc) (i : Nat) : Role :=
  match (d.roles >>> (2 * i)) % 4 with
  | 0 => .general | 1 => .feed | 2 => .compute | _ => .drain

/-- Initial granules of a convoy (02 R50). -/
def granulesOf (d : KDesc) (i : Nat) : Nat :=
  match roleOf d i with
  | .general => d.gengr | .feed => d.feedgr | .compute => d.compgr | .drain => d.draingr

/-- Tape share of a thread in bytes (09 R166). -/
def tapeBytes (d : KDesc) : Nat := if d.tape = 0 then 0 else 2 ^ d.tape

/-- Whether the tape shares fit the scratch (09 R166). -/
def tapeFits (d : KDesc) : Bool := decide (32 * d.convoys * tapeBytes d ≤ d.scratch * 32768)

/-- Whether a descriptor keeps 12 R231, the tape fit apart. -/
def descOk (x : Nat) : Bool :=
  let d := descOf x
  let sh (n : Nat) : Bool := decide (1 ≤ n ∧ n ≤ 1024)
  decide (d.entry % 4 = 0) && sh d.shapex && sh d.shapey && sh d.shapez && decide (1 ≤ d.convoys ∧ d.convoys ≤ 32) &&
    decide (d.shapex * d.shapey * d.shapez = 32 * d.convoys) &&
    (List.range d.convoys).all (fun i => decide (2 ≤ granulesOf d i ∧ granulesOf d i ≤ 24)) &&
    decide (d.scratch ≤ 14) && decide (8 ≤ d.priv ∧ d.priv ≤ 2 ^ 20) && decide (d.spawnb ≤ 16384) &&
    decide (d.tape = 0 ∨ (6 ≤ d.tape ∧ d.tape ≤ 12)) && decide (x % 2 ^ 231 = 0)

/-- What an address that an instruction names as a whole gives. -/
inductive Whole
  | fault (s : State) (f : FaultRec)
  | stall (s : State)
  | lost (s : State)
  | ok (s : State) (pa key : Nat)

/-- Reading a record of n bytes, aligned to its size, through a root, as an engine read at the point of coherence:
its number, none where it cannot be read without retry; the flag is a retry. -/
def readRec (s : State) (core : Nat) (root : DWord) (va n : Nat) : Option Nat × Bool × State :=
  if 2 ^ 57 ≤ va || va % n ≠ 0 then (none, false, s)
  else
    match engAddr s core root (BitVec.ofNat 64 va) false false with
    | (none, s1) => (none, true, s1)
    | (some (.error _), s1) => (none, false, s1)
    | (some (.ok (pa, key)), s1) =>
      let s2 := rekeyAt s1 pa n key
      if poisonedRange s2 pa n then (none, false, s2) else (some (memNat s2 pa n), false, s2)

/-- An address that the instruction as a whole names: alignment, the global window, translation and page rights, in
the order of 16 R299. -/
def wholeAddr (s : State) (va : DWord) (align : Nat) (write : Bool) : Whole :=
  let m := activeMask s
  if va.toNat % align ≠ 0 then .fault s { kind := 0x0C, addr := va.toNat, mask := m }
  else
    match resolve va with
    | .glob a =>
      match pageChecks s write false [{ lane := lowest s, ea := a, win := .glob a, n := align }] with
      | .fault s1 f => .fault s1 { f with mask := m }
      | .stall s1 => .stall s1
      | .go s0 ps =>
        let s1 := widenNoted s0
        match ps with
        | p :: _ => if fcWaits s1 (lineOf p.pa) write then .stall (fcAsk s1 (lineOf p.pa) write) else .ok (rekeyAt s1 p.pa align p.key) p.pa p.key
        | [] => .lost s1
    | _ => .fault s { kind := 0x0E, sub := 1, addr := va.toNat, mask := m }

/-- The spawn queue of a core under a number. -/
def getQ (s : State) (core q : Nat) : SpawnQ :=
  (s.spawnqs.find? (fun x => x.core = core && x.q = q)).getD { core := core, q := q }

/-- Putting a spawn queue in its place. -/
def putQ (s : State) (x : SpawnQ) : State :=
  { s with spawnqs := x :: s.spawnqs.filter (fun y => !(y.core = x.core && y.q = x.q)) }

/-- The least-recently fed of a list of queues (07 R132). -/
def oldestQ : List SpawnQ → Option SpawnQ
  | [] => none
  | x :: xs =>
    match oldestQ xs with
    | none => some x
    | some y => if y.last < x.last then some y else some x

/-- The queue that a SPAWN of a descriptor and region takes: the one that serves it, a free one, or the one that can
dispatch and has gone longest without a new record (07 R132, 28 R433). -/
def chooseQ (s : State) (core desc rcb : Nat) : Option SpawnQ :=
  let qs := (List.range 8).map (getQ s core)
  match qs.find? (fun x => x.used && x.desc = desc && x.rcb = rcb) with
  | some x => some x
  | none =>
    match qs.find? (fun x => !x.used) with
    | some x => some x
    | none => oldestQ (qs.filter (canDispatch s))

/-- Whether a records can join now (28 R433). -/
def canSpawn (s : State) (core desc rcb a : Nat) : Bool :=
  match chooseQ s core desc rcb with
  | none => false
  | some x =>
    if x.used && x.desc = desc && x.rcb = rcb then decide (x.recs.length + a ≤ 32) || canDispatch s x else true

/-- The chosen queue made to serve a descriptor and region; a queue taken from another dispatches first (07 R132). -/
def assignQ (s : State) (core desc rcb : Nat) : Option (Nat × State) :=
  match chooseQ s core desc rcb with
  | none => none
  | some x =>
    if x.used && x.desc = desc && x.rcb = rcb then some (x.q, s)
    else
      let s1 := if x.used then dispatchQ s core x.q else s
      some (x.q, putQ s1 { getQ s1 core x.q with desc := desc, rcb := rcb, used := true })

/-- One record joins a queue; a full queue dispatches (07 R132). -/
def joinRec (s : State) (core q : Nat) (r : Nat × Nat) : State :=
  let s1 := if (getQ s core q).recs.length = 32 then dispatchQ s core q else s
  let x := getQ s1 core q
  let s2 := putQ s1 { x with recs := x.recs ++ [r], last := cycles s1 core }
  if x.recs.length = 31 then dispatchQ s2 core q else s2

/-- A payload record (07 R131). -/
def spawnRecord (junction desc : DWord) (parent : Nat) (ws : List Word) : BitVec 512 :=
  junction ++ desc ++ BitVec.ofNat 32 parent ++ 0#28 ++ BitVec.ofNat 4 ws.length ++ 0#64 ++
    BitVec.ofNat 256 (natOfBytes (ws.flatMap (fun w => bytesOf w.toNat 4)))

/-- Adding children to a junction (07 R135). -/
def junctionAdd (s : State) (pa key n : Nat) : State :=
  let x : DWord := BitVec.ofNat 64 (memNat s pa 8)
  let p := (x.extractLsb' 0 32).toNat + n
  let y : DWord := if 2 ^ 32 ≤ p then x ||| (1#64 <<< 63) else x.extractLsb' 32 32 ++ BitVec.ofNat 32 p
  writeCoherent s none pa key (bytesOf y.toNat 8)

/-- One child's exit counted down (07 R135, 16 R316). -/
def junctionDrop (s : State) (pa key : Nat) : State :=
  let x : DWord := BitVec.ofNat 64 (memNat s pa 8)
  let y : DWord := if x.extractLsb' 0 32 = 0#32 then x ||| (1#64 <<< 63) else x.extractLsb' 32 32 ++ (x.extractLsb' 0 32 - 1#32)
  writeCoherent s none pa key (bytesOf y.toNat 8)

/-- Creating the children of a SPAWN: the junction first, then the records in ascending thread number (07 R131, R132,
R135). -/
def makeChildren (s : State) (desc junction : DWord) (at_ : Option (Nat × Nat)) (cs : List (Nat × List Word)) : State :=
  match assignQ s s.ch.core desc.toNat s.ch.rcb with
  | none => s
  | some (q, s0) =>
    let s1 := match at_ with
      | some (pa, key) => if cs.isEmpty then s0 else junctionAdd s0 pa key cs.length
      | none => s0
    cs.foldl (fun s c =>
      match s.ch.recs with
      | [] => s
      | r :: rs =>
        let s2 := memPutNat { s with ch := { s.ch with recs := rs } } r 64 (spawnRecord junction desc s.ch.linear c.2).toNat
        joinRec s2 s2.ch.core q (r, s2.ch.uid)) s1

/-- The descriptor checks of SPAWN and SPAWNT (07 R128, 12 R232): none where the descriptor may be named. -/
def spawnDesc (s : State) (va : DWord) : Option Bool × State :=
  match readRec s s.ch.core s.ch.root va.toNat 64 with
  | (none, true, s1) => (none, s1)
  | (none, false, s1) => (some false, s1)
  | (some x, _, s1) =>
    let d := descOf x
    (some (descOk x && tapeFits d && d.spawn && decide (d.convoys = 1)), s1)

/-- Whether a cohort's records are still in a queue (07 R132). -/
def recordsQueued (s : State) (uid : Nat) : Bool := s.spawnqs.any (fun x => x.recs.any (fun r => r.2 = uid))

end Sys2Proof.Machine
end

