-- ==== Sys2Proof/Machine/Mtx.lean ====
section
/-! DEFINITION. The matrix unit (06 R117 to R124; 17 R320 to R334): the hold and the claim set, the matrix queue and its
order, the tiles and slots, the passes through the array, and the array's ramps. -/

namespace Sys2Proof.Machine

/-- Code of a role (12 R231). -/
def roleNum : Role → Nat
  | .general => 0 | .feed => 1 | .compute => 2 | .drain => 3

/-- A Role fault (02 R49). -/
def roleFault (s : State) : FaultRec := { kind := 0x08, aux := roleNum s.cv.role, mask := activeMask s }

/-- Roles that MST and the other MTX instructions are granted to (02 R48). -/
def mtxRole (mst : Bool) (r : Role) : Bool := decide (r = .general ∨ r = .compute) || (mst && decide (r = .drain))

/-- The Protection fault of a missing hold or claim (17 R323). -/
def holdFault (s : State) : FaultRec := { kind := 0x0E, sub := 8, mask := activeMask s }

/-- The checks 4 to 7 of 17 R323 as far as operands, role, hold and claims go. `f` goes on. -/
def mtxStart (us : List Use) (d : Option (Dst × Nat)) (mst hold : Bool) (slots : Word) (s0 : State) (f : State → Out) : Out :=
  let s := settleIdx s0 us (d.map (·.1))
  match checkUses s us d with
  | some e => faultOut s e
  | none =>
    match checkReady s (useLocs s us ++ (match d with
        | some (x, n) => dstLocs s x n
        | none => [])) with
    | some e => faultOut s e
    | none =>
      if !(mtxRole mst s.cv.role) then faultOut s (roleFault s)
      else
        let s1 := settleReads s us []
        if hold && (!s1.ch.hold || decide (slots &&& ~~~s1.ch.claim ≠ 0#32)) then faultOut s1 (holdFault s1)
        else f s1

/-- The mask of one slot. -/
def slotBit (m : Nat) : Word := 1#32 <<< m

/-- Whether a bound cohort of a core holds the matrix unit (06 R117). -/
def unitHeld (s : State) (core : Nat) : Bool := (allCohorts s).any (fun c => c.core = core && c.hold)

/-- The cohort takes the hold: no plane is latched and the redundant mode is off (17 R326, R333). -/
def takeHold (c : Cohort) : Cohort :=
  if c.hold then c
  else { c with hold := true, claim := 0#32, planes := [], lastLdw := none, redn := false, burst := 0 }

/-- A token unit of an instruction whose effect is made at issue (05 R109). -/
def doneUnit (s : State) (t : Tok) (ws : List (Loc × DWord)) : Pending := { newUnit s t .value with writes := ws }

/-- An instruction whose effect is made at issue ends with its unit on its token. -/
def withUnit (st : Stall) (t : Tok) (ws : List (Loc × DWord)) (s : State) (f : State → State) : Out :=
  if tokRoom s.cv t.toNat 1 then
    let s1 := f s
    .next (retire st { s1 with cv := addUnits s1.cv [doneUnit s1 t ws] })
  else .next (waitIssue s)

/-- An entry joins the matrix queue with the unit of its instruction (17 R322). -/
def enterQueue (st : Stall) (t : Tok) (op : MOp) (ps : List Piece) (s : State) (f : MEntry → MEntry) (g : Cohort → Cohort) :
    Out :=
  if tokRoom s.cv t.toNat 1 then
    let e : MEntry := f { op := op, convoy := s.cv.id, unit := some s.cv.useq, redn := s.ch.redn, pc := curPc s }
    let u := { newUnit s t (.matrix s.cv.useq) with pieces := ps }
    let c := g s.ch
    .next (retire st { s with ch := { c with mq := c.mq ++ [e] }, cv := addUnits s.cv [u] })
  else .next (waitIssue s)

/-- Bytes of a slot (06 R113). -/
def slotGet (c : Cohort) (m off n : Nat) : List Byte := NMap.getAll 0#8 c.slots (16384 * m + off) n

/-- Key of a slot word's poison. -/
def slotWord (m off : Nat) : Nat := 4096 * m + off / 4

/-- Key of an accumulator word's poison. -/
def accWordKey (tile i : Nat) : Nat := 131072 + 1024 * tile + i

/-- Whether a range of a slot has a poisoned word (29 R458). -/
def slotPoison (c : Cohort) (m off n : Nat) : Bool :=
  !c.mpoison.isEmpty && (List.range ((off + n - 1) / 4 - off / 4 + 1)).any (fun k => NMap.get false c.mpoison (slotWord m off + k))

/-- Writing bytes of a slot; words wholly written lose their poison (29 R458). -/
def slotPut (c : Cohort) (m off : Nat) (bs : List Byte) : Cohort :=
  let full := if off % 4 = 0 then List.range (bs.length / 4) else []
  { c with
    slots := NMap.setAll 0#8 c.slots (16384 * m + off) bs
    mpoison := full.foldl (fun p k => NMap.set false p (slotWord m off + k) false) c.mpoison }

/-- A word of an accumulator tile. -/
def accWord (c : Cohort) (tile i : Nat) : Word := NMap.get 0#32 c.acc (1024 * tile + i)

/-- An element of a tile or of a tile pair (17 R327). -/
def accEl (c : Cohort) (tile : Nat) (wide : Bool) (i : Nat) : Nat :=
  (accWord c tile i).toNat + (if wide then 2 ^ 32 * (accWord c (tile + 1) i).toNat else 0)

/-- Whether an element of a tile is poisoned. -/
def accPoison (c : Cohort) (tile : Nat) (wide : Bool) (i : Nat) : Bool :=
  NMap.get false c.mpoison (accWordKey tile i) || (wide && NMap.get false c.mpoison (accWordKey (tile + 1) i))

/-- Writing a word of a tile. -/
def setAccWord (c : Cohort) (tile i : Nat) (w : Word) : Cohort :=
  { c with acc := NMap.set 0#32 c.acc (1024 * tile + i) w, mpoison := NMap.set false c.mpoison (accWordKey tile i) false }

/-- Writing an element of a tile or of a tile pair. -/
def setAccEl (c : Cohort) (tile : Nat) (wide : Bool) (i x : Nat) : Cohort :=
  let c1 := setAccWord c tile i (BitVec.ofNat 32 x)
  if wide then setAccWord c1 (tile + 1) i (BitVec.ofNat 32 (x / 2 ^ 32)) else c1

/-- Cell depth of an element format (06 R119). -/
def cellDepth (f : Fmt) : Nat :=
  match f with
  | .f64 | .f32 => 1
  | .bf16 | .f16 => 8
  | .f8e4 | .f8e5 | .i8 | .n8 => 16
  | _ => 32

/-- Columns of an A tile (06 R119). -/
def tileK (f : Fmt) : Nat := 32 * cellDepth f

/-- Bytes of an operand tile (06 R119). -/
def tileSize (f : Fmt) : Nat := 32 * tileK f * f.width / 8

/-- Cycles of a pass (06 R119); a redundant pass takes twice as long (06 R123). -/
def passCycles (f : Fmt) (redn : Bool) : Nat := (if f = .f64 then 128 else 32) * (if redn then 2 else 1)

/-- Element i of packed data, by its bytes (11 R206). -/
def packedEl (get : Nat → Byte) (w i : Nat) : Nat :=
  if w = 4 then ((get (i / 2)).toNat >>> (4 * (i % 2))) % 16
  else natOfBytes ((List.range (w / 8)).map (fun k => get (i * (w / 8) + k)))

/-- The tiles an accumulator operand takes: a pair for FP64 (06 R121). -/
def accTiles (wide : Bool) (acc : Nat) : List Nat := if wide then [acc, acc + 1] else [acc]

/-- Tiles that an entry names. -/
def MOp.tiles : MOp → List Nat
  | .mma fmt _ acc _ _ _ _ => accTiles (decide (fmt = .f64)) acc
  | .zero mask => (List.range 8).filter (fun k => mask.getLsbD k)
  | .rd acc wide => accTiles wide acc
  | .wr acc wide _ => accTiles wide acc
  | .st acc kind _ _ _ => accTiles (decide (kind = .f64)) acc
  | .ld acc kind _ _ _ => accTiles (decide (kind = .f64)) acc
  | _ => []

/-- The slot that an entry reads for the array or accesses, and whether it is an access of MSLOTW or MSLOTR (17 R332). -/
def MOp.slot : MOp → Option (Nat × Bool)
  | .ldw _ m => some (m, false)
  | .mma _ m _ _ _ _ _ => some (m, false)
  | .slotw m _ => some (m, true)
  | .slotr m _ => some (m, true)
  | _ => none

/-- Whether the entry is an MMA. -/
def MOp.isMma : MOp → Bool
  | .mma _ _ _ _ _ _ _ => true
  | _ => false

/-- Whether the entry is an MLDW. -/
def MOp.isLdw : MOp → Bool
  | .ldw _ _ => true
  | _ => false

/-- Whether a later entry waits for an earlier one (06 R120, R122; 17 R324, R331, R332). -/
def waitsFor (later earlier : MEntry) : Bool :=
  later.op.tiles.any (fun k => earlier.op.tiles.any (· = k)) ||
  (match later.op.slot, earlier.op.slot with
    | some (m, x), some (n, y) => decide (m = n) && (x || y)
    | _, _ => false) ||
  (later.op.isMma && earlier.op.isMma) ||
  (later.op.isLdw && earlier.op.isLdw) ||
  (later.op.isMma && earlier.op.isLdw && decide (earlier.plane = later.plane)) ||
  (later.op.isLdw && earlier.op.isMma && decide (earlier.plane + 2 ≤ later.plane)) ||
  (match later.op with
    | .sync => true
    | .free mask =>
      match earlier.op.slot with
      | some (m, _) => mask.getLsbD m
      | none => false
    | _ => false)

/-- Whether a place or pointer of a copy command names a slot of a mask. -/
def slotPtrIn (mask : Word) (p : DWord) : Bool := decide (p.extractLsb' 57 7 = 66#7) && mask.getLsbD (p.extractLsb' 14 5).toNat

/-- Whether a copy command uses a slot of a mask (06 R117): the record of one that has not started is not known yet. -/
def cmdUses (mask : Word) (c : Cmd) : Bool :=
  (decide (c.kind = .tensor) && !c.started && c.err.isNone) || slotPtrIn mask c.src || slotPtrIn mask c.dst

/-- Whether an entry of the matrix queue may take effect. -/
def entryReady (c : Cohort) (e : MEntry) : Bool :=
  !((c.mq.takeWhile (· ≠ e)).any (waitsFor e)) &&
  (match e.op with
    | .free mask => !(c.cq.any (cmdUses mask))
    | _ => true)

/-- Bringing a core's cycle count up to n. -/
def reachCycle (s : State) (core n : Nat) : State := { s with cyc := NMap.set 0 s.cyc core (max (cycles s core) n) }

/-- The array of a core. -/
def arrayOf (s : State) (core : Nat) : ArrayRec := NMap.get {} s.arrays core

/-- Setting the array of a core. -/
def setArray (s : State) (core : Nat) (a : ArrayRec) : State := { s with arrays := NMap.set {} s.arrays core a }

/-- An MMA reaches the array of the focused core in cycle `now` (06 R124). -/
def arrayArrive (s : State) (now : Nat) : State :=
  let a := arrayOf s s.ch.core
  match a.mode with
  | .rest => setArray s s.ch.core { a with mode := if 256 ≤ now - a.idle then .up else .run, start := now }
  | .down => setArray s s.ch.core { a with mode := .run, start := now }
  | _ => s

/-- MBURST starts a needed ramp-up and holds the array without ramp-down (06 R124). -/
def burstArrive (s : State) : State :=
  let a := arrayOf s s.ch.core
  let now := cycles s s.ch.core
  match a.mode with
  | .rest => if 256 ≤ now - a.idle then setArray s s.ch.core { a with mode := .up, start := now } else s
  | .down => setArray s s.ch.core { a with mode := .rest }
  | _ => s

/-- Removing an entry from the queue and completing its unit. -/
def finishEntry (s : State) (e : MEntry) : State :=
  let s1 := { s with ch := { s.ch with mq := s.ch.mq.erase e } }
  match e.unit with
  | none => s1
  | some q => mapConvoy s1 e.convoy (fun c =>
      match c.units.find? (fun u => u.seq = q) with
      | some u => dropUnit c u
      | none => c)

/-- The pieces of an entry's unit. -/
def entryPieces (s : State) (e : MEntry) : List Piece :=
  match e.unit with
  | none => []
  | some q => match (getConvoy s e.convoy).units.find? (fun u => u.seq = q) with
    | some u => u.pieces
    | none => []

/-- The threads of an entry's instruction, when it acts once for the convoy (29 R445); a follow-on MMA has none. -/
def entryThreads (s : State) (e : MEntry) : Word :=
  match e.unit with
  | none => 0#32
  | some q => match (getConvoy s e.convoy).units.find? (fun u => u.seq = q) with
    | some u => u.mask
    | none => 0#32

/-- The threads that a fault of an entry's pieces concerns (29 R445). -/
def entryMask (s : State) (e : MEntry) (ts : List Nat) : Word :=
  match e.unit with
  | none => maskOf ts
  | some q => match (getConvoy s e.convoy).units.find? (fun u => u.seq = q) with
    | some u => unitMask u ts
    | none => maskOf ts

/-- The pending Poison Consumed fault of a matrix entry (29 R446, R458). -/
def matrixPoison (s : State) (e : MEntry) (sub addr : Nat) (mask : Word) : State :=
  mapConvoy s e.convoy (fun c =>
    noteConsumed c { kind := 0x15, sub := sub, addr := addr, mask := mask, pc := some e.pc, ord := e.unit.getD 0 })

/-- The tile an MLDW latches: poisoned words keep what the plane held (29 R458). -/
def latchTile (c : Cohort) (m n : Nat) (old : NMap Byte) : NMap Byte :=
  if slotPoison c m 0 n then
    (List.range n).foldl (fun t i =>
      NMap.set 0#8 t i (if slotPoison c m i 1 then NMap.get 0#8 old i else NMap.get 0#8 c.slots (16384 * m + i))) []
  else ((NMap.keep (fun k => decide (16384 * m ≤ k) && decide (k < 16384 * m + n)) c.slots).map (fun e => (e.1 - 16384 * m, e.2)))

/-- An MLDW latches its plane in place of the older one (06 R120, 17 R325). -/
def performLdw (s : State) (e : MEntry) (fmt : Fmt) (m : Nat) : State :=
  let old := if s.ch.planes.length < 2 then [] else (s.ch.planes.headD { fmt := fmt, tile := [], seq := 0 }).tile
  let bad := slotPoison s.ch m 0 (tileSize fmt)
  let p : Plane := { fmt := fmt, tile := latchTile s.ch m (tileSize fmt) old, seq := e.plane }
  let keep := if s.ch.planes.length < 2 then s.ch.planes else s.ch.planes.drop 1
  let s1 := { s with ch := { s.ch with planes := keep ++ [p] } }
  finishEntry (if bad then matrixPoison s1 e 3 0 (entryThreads s1 e) else s1) e

/-- An output element of an MMA (17 R327). -/
def mmaElement (fa fb : Fmt) (rm : RMode) (ftzi ftzo : Bool) (as bs : List Nat) (c0 : Nat) : Nat :=
  if fmtMmaInt fa then
    wrapN 32 ((List.zipWith (fun a b => ival fa a * ival fb b) as bs).foldl (· + ·) (sextN 32 c0))
  else
    let acf : Fmt := if fa = .f64 then .f64 else .f32
    let ps := List.zipWith (fun a b => fprod (flush fa ftzi (fval fa a)) (flush fb ftzi (fval fb b))) as bs
    enc acf (alignedSum ps (fval acf c0) (guardWidth fa) acf rm ftzi ftzo)

/-- The tile after an MMA; elements with a poisoned input keep their value (17 R327, 29 R458). -/
def mmaTile (c : Cohort) (fmt : Fmt) (m acc : Nat) (ftzi ftzo : Bool) (rm : RMode) (p : Plane) : Cohort × Bool :=
  let k := tileK fmt
  let wide := decide (fmt = .f64)
  let rowBytes := k * fmt.width / 8
  (List.range 1024).foldl (fun (r : Cohort × Bool) i =>
    let row := i / 32
    let col := i % 32
    if slotPoison c m (row * rowBytes) rowBytes || accPoison c acc wide i then (r.1, true)
    else
      let as := (List.range k).map (fun j => packedEl (fun b => NMap.get 0#8 c.slots (16384 * m + b)) fmt.width (row * k + j))
      let bs := (List.range k).map (fun j => packedEl (NMap.get 0#8 p.tile) p.fmt.width (j * 32 + col))
      (setAccEl r.1 acc wide i (mmaElement fmt p.fmt rm ftzi ftzo as bs (accEl c acc wide i)), r.2)) (c, false)

/-- A command of the copy queue changed. -/
def mapCmd (c : Cohort) (seq : Nat) (f : Cmd → Cmd) : Cohort :=
  { c with cq := c.cq.map (fun m => if m.seq = seq then f m else m) }

/-- The pass of an MMA completes: direct ones end their unit, follow-on ones let their command go on (06 R116). -/
def mmaEnd (s : State) (e : MEntry) (err : Bool) : State :=
  let s1 := finishEntry s e
  match e.op with
  | .mma _ _ _ _ _ _ (some q) =>
    { s1 with ch := mapCmd s1.ch q (fun m =>
        if err then { m with mmaDone := true, err := some (8, 0) } else { m with mmaDone := true }) }
  | _ => s1

/-- A Matrix Redundancy mismatch (06 R123): the tile keeps its value, later queued MMAs on it are discarded, and the
fault waits for the convoy's boundary. -/
def mmaMismatch (s : State) (e : MEntry) (m acc : Nat) : State :=
  let f : FaultRec := { kind := 0x10, addr := e.num, aux := m + 32 * e.bslot + 1024 * acc, ord := e.num }
  let s1 := mapConvoy s e.convoy (fun c => { c with bfaults := c.bfaults ++ [f] })
  let later := (s1.ch.mq.filter (· ≠ e)).filter (fun x => x.op.isMma && x.op.tiles.any (fun k => e.op.tiles.any (· = k)))
  later.foldl (fun s x => mmaEnd s x true) (mmaEnd s1 e true)

/-- The array after a pass that ended at a cycle (06 R124). -/
def arrayAfter (s : State) (t : Nat) : State :=
  let more := s.ch.mq.any (fun e => e.op.isMma)
  let left := s.ch.burst - 1
  let s1 := { s with ch := { s.ch with burst := left } }
  setArray s1 s1.ch.core { mode := if more then .run else if 0 < left then .rest else .down, start := t, idle := t }

/-- An MMA pass completes (06 R121, R123, R124; 17 R327). -/
def performMma (s : State) (e : MEntry) (differ : Bool) : State :=
  match e.op with
  | .mma fmt m acc ftzi ftzo rm _ =>
    match s.ch.planes.find? (fun p => p.seq = e.plane) with
    | none => s
    | some p =>
      let a := arrayOf s s.ch.core
      let s1 := reachCycle s s.ch.core (a.start + passCycles fmt e.redn)
      let t := cycles s1 s1.ch.core
      if differ && e.redn then arrayAfter (mmaMismatch s1 e m acc) t
      else
        let r := mmaTile s1.ch fmt m acc ftzi ftzo rm p
        let s2 := { s1 with ch := r.1 }
        let s3 := if r.2 then matrixPoison s2 e 3 0 (entryThreads s2 e) else s2
        arrayAfter (mmaEnd s3 e false) t
  | _ => s

/-- The format of an accumulator kind (17 R320). -/
def kindFmt : AccKind → Fmt
  | .f32 => .f32 | .f64 => .f64 | .i32 => .i32

/-- The bytes of an element stream of width w, and none where an element is missing (17 R329). -/
def packStream (w : Nat) (xs : List (Option Nat)) : List (Option Byte) :=
  if w = 4 then
    (List.range (xs.length / 2)).map (fun k =>
      match xs.getD (2 * k) none, xs.getD (2 * k + 1) none with
      | some a, some b => some (BitVec.ofNat 8 (a % 16 + 16 * (b % 16)))
      | _, _ => none)
  else xs.flatMap (fun x => match x with
    | some v => (bytesOf v (w / 8)).map some
    | none => List.replicate (w / 8) none)

/-- Bytes of a row in memory (17 R329). -/
def rowBytes (fmt : Fmt) : Nat := 4 * fmt.width

/-- The row of a tile as MST writes it (17 R329). -/
def storeRow (c : Cohort) (acc : Nat) (kind : AccKind) (fmt : Fmt) (f : FFlags) (rm : RMode) (row : Nat) : List (Option Byte) :=
  let wide := decide (kind = .f64)
  packStream fmt.width ((List.range 32).map (fun col =>
    if accPoison c acc wide (32 * row + col) then none
    else some (convert (kindFmt kind) fmt rm f (accEl c acc wide (32 * row + col)))))

/-- Runs of present bytes, each with its offset. -/
def byteRuns (bs : List (Option Byte)) : List (Nat × List Byte) :=
  if bs.all (·.isSome) then [(0, bs.filterMap id)]
  else (bs.zipIdx).filterMap (fun e => e.1.map (fun b => (e.2, [b])))

/-- MST takes effect: every row is written, in ascending row, and registered under the core (17 R329, R330). Piece `va` is
the number of its 16-byte part of the tile. -/
def performMst (s : State) (e : MEntry) (acc : Nat) (kind : AccKind) (fmt : Fmt) (f : FFlags) (rm : RMode) : State :=
  let per := rowBytes fmt / 16
  let c0 := s.ch
  let bad := (List.range 1024).any (accPoison c0 acc (decide (kind = .f64)))
  let s1 := (entryPieces s e).foldl (fun s p =>
    let bytes := ((storeRow c0 acc kind fmt f rm (p.va / per)).drop (16 * (p.va % per))).take 16
    (byteRuns bytes).foldl (fun s r =>
      if p.scr then { s with ch := scrPut s.ch (p.addr + r.1) r.2 }
      else writeCoherent (registerRange s s.ch.core (p.addr + r.1) r.2.length)
        (if p.ms then none else some s.ch.core) (p.addr + r.1) p.key r.2) s) s
  finishEntry (if bad then matrixPoison s1 e 3 0 (entryThreads s1 e) else s1) e

/-- The bytes an MLD reads at a piece, none where a word is poisoned (17 R323, R330). -/
def pieceOrNone (s : State) (p : Piece) : List (Option Byte) :=
  let bs := pieceBytes s false p
  (bs.zipIdx).map (fun e => if piecePoison s { p with addr := p.addr + e.2 / 4 * 4, n := 4 } then none else some e.1)

/-- MLD takes effect (17 R329, R330). -/
def performMld (s0 : State) (e : MEntry) (acc : Nat) (kind : AccKind) (fmt : Fmt) (f : FFlags) (rm : RMode) : State :=
  let per := rowBytes fmt / 16
  let wide := decide (kind = .f64)
  let ps := entryPieces s0 e
  let s := ps.foldl (fun s p => if p.scr then s else rekeyAt s p.addr p.n p.key) s0
  let rows (row : Nat) : List (Option Byte) := (List.range per).flatMap (fun j =>
    match ps.find? (fun p => p.va = row * per + j) with
    | some p => pieceOrNone s p
    | none => List.replicate 16 none)
  let c := (List.range 32).foldl (fun c row =>
    let bs := rows row
    (List.range 32).foldl (fun c col =>
      let lo := col * fmt.width / 8
      let hi := (col * fmt.width + fmt.width - 1) / 8
      if ((bs.drop lo).take (hi + 1 - lo)).all (·.isSome) then
        let x := packedEl (fun k => (bs.getD k none).getD 0#8) fmt.width col
        setAccEl c acc wide (32 * row + col) (convert fmt (kindFmt kind) rm f x)
      else c) c) s.ch
  let s1 := { s with ch := c }
  match ps.find? (piecePoison s) with
  | some p => finishEntry (matrixPoison s1 e (if p.scr then 1 else 0) (if p.scr then 0 else p.addr / 128 * 128) (entryThreads s1 e)) e
  | none => finishEntry s1 e

/-- Delivering to the destinations of MRD and MSLOTR: each piece names its element or offset in `va` (17 R328, R332). -/
def deliverAll (s : State) (e : MEntry) (bytes : Nat → Option (List Byte)) : State :=
  let ps := entryPieces s e
  let s1 := mapConvoy s e.convoy (fun c => ps.foldl (fun c p =>
    match bytes p.va with
    | some bs => deliver p bs c
    | none => c) c)
  match ps.filter (fun p => (bytes p.va).isNone) with
  | [] => finishEntry s1 e
  | bad => finishEntry (matrixPoison s1 e 3 0 (entryMask s1 e (bad.map (·.lane)))) e

/-- An entry that is neither an MLDW nor an MMA takes effect (17 R324, R328 to R332). -/
def performEntry (s : State) (e : MEntry) : State :=
  match e.op with
  | .zero mask =>
    let c := { s.ch with
      acc := NMap.keep (fun k => !(mask.getLsbD (k / 1024))) s.ch.acc
      mpoison := NMap.keep (fun k => decide (k < 131072) || !(mask.getLsbD ((k - 131072) / 1024))) s.ch.mpoison }
    finishEntry { s with ch := c } e
  | .rd acc wide =>
    deliverAll s e (fun i => if accPoison s.ch acc wide i then none
      else some (bytesOf (accEl s.ch acc wide i) (if wide then 8 else 4)))
  | .wr acc wide els => finishEntry { s with ch := els.foldl (fun c x => setAccEl c acc wide x.1 x.2.toNat) s.ch } e
  | .st acc kind fmt f rm => performMst s e acc kind fmt f rm
  | .ld acc kind fmt f rm => performMld s e acc kind fmt f rm
  | .slotw m ws => finishEntry { s with ch := ws.foldl (fun c w => slotPut c m w.1 w.2) s.ch } e
  | .slotr m wide =>
    let n := if wide then 8 else 4
    deliverAll s e (fun off => if slotPoison s.ch m off n then none else some (slotGet s.ch m off n))
  | .sync => finishEntry s e
  | .free _ => finishEntry s e
  | _ => s

/-- The accesses of a tile: 16 bytes at a time, as the lowest thread's (17 R329, R330). -/
def tileAccs (s : State) (a pitch : Nat) (fmt : Fmt) : List Acc :=
  (List.range 32).flatMap (fun row => (List.range (rowBytes fmt / 16)).map (fun j =>
    let ea := (a + row * pitch + 16 * j) % 2 ^ 64
    { lane := lowest s, ea := ea, win := resolve (BitVec.ofNat 64 ea), n := 16 : Acc }))

/-- The Protection faults of the page checks alone (17 R323). -/
def pageProtect (s : State) (write : Bool) (as : List Acc) : Option FaultRec × State :=
  let r := translateAll s (as.flatMap (spansOf s))
  let sub (x : Span × TrOut) : Option Nat := match x.2 with
    | .ok pte level _ => pageSub r.2 write false x.1.va pte level
    | _ => none
  match r.1.filter (fun x => (sub x).isSome) with
  | x :: _ => (some { kind := 0x0E, sub := (sub x).getD 0, addr := x.1.va, mask := activeMask s }, r.2)
  | [] => (none, r.2)

/-- The pieces of a tile access, numbered in their order. -/
def tilePieces (l : Layout) (as : List Acc) (ps : List PSpan) : List Piece :=
  (as.zipIdx).filterMap (fun e => match e.1.win with
    | .scr off => some { lane := e.1.lane, scr := true, addr := scrMap l off, va := e.2, n := 16 : Piece }
    | _ => (ps.find? (fun p => p.va = e.1.ea)).map (fun p =>
        { lane := e.1.lane, scr := false, addr := p.pa, va := e.2, n := 16, ms := p.ms, key := p.key : Piece }))

/-- A Matrix Format fault: the A format and the latched B format (29 R446). -/
def formatFault (s : State) (a : Nat) : FaultRec :=
  let b := match s.ch.lastLdw with
    | some (f, _) => (fmtCode f).toNat
    | none => 0
  { kind := 0x0F, aux := a + 32 * b, mask := activeMask s }

/-- Whether an MMA of a format meets the Matrix Format conditions (17 R326). -/
def mmaFormatOk (c : Cohort) (fmt : Fmt) (acc : Nat) : Bool :=
  match c.lastLdw with
  | none => false
  | some (b, _) =>
    decide (fmt.width = b.width) && decide (fmtMmaInt fmt = fmtMmaInt b) && !(decide (fmt = .f64) && decide (acc % 2 = 1))

/-- An entry of an MMA with its number, its plane and the MLDW it uses (06 R120, R123). -/
def mmaEntry (c : Cohort) (e : MEntry) : MEntry :=
  { e with
    num := c.mnum + 1, plane := c.nldw,
    bfmt := (c.lastLdw.map (·.1)).getD .f32, bslot := (c.lastLdw.map (·.2)).getD 0 }

end Sys2Proof.Machine
end

