-- ==== Sys2Proof/Machine/MtxIns.lean ====
section
/-! DEFINITION. The MTX class (17 R320 to R333) and the events of the matrix unit (06 R116, R120 to R124). -/

namespace Sys2Proof.Machine

/-- A 32-bit operand of the lowest thread (17 R322). -/
def low32 (s : State) (a : Src) : Word := rd32 s a (lowest s)

/-- MCLAIM (06 R117, 17 R324). -/
def execMclaim (st : Stall) (p : Option Pn) (a : Src) (t : Tok) (s0 : State) : Out :=
  mtxStart [⟨0, a, 1⟩] none false false 0#32 s0 (fun s =>
    let m := low32 s a
    let free := !(unitHeld s s.ch.core)
    let locs := match p with
      | some k => predLocs s k.toNat
      | none => []
    match checkReady s locs with
    | some e => faultOut s e
    | none =>
      if !s.ch.hold && !free then .next (waitIssue s)
      else
        let taken := (takeHold s.ch).claim &&& m
        let set := p.isSome && decide (taken ≠ 0#32)
        let ws := locs.map (fun l => (l, BitVec.ofNat 64 (b2n set)))
        withUnit st t ws s (fun s =>
          let c := takeHold s.ch
          { s with ch := if set then c else { c with claim := c.claim ||| m } }))

/-- MFREE (06 R117, 17 R324). -/
def execMfree (st : Stall) (a : Src) (t : Tok) (s0 : State) : Out :=
  mtxStart [⟨0, a, 1⟩] none false true 0#32 s0 (fun s =>
    let m := low32 s a
    enterQueue st t (.free m) [] s id (fun c => { c with claim := c.claim &&& ~~~m }))

/-- MLDW (06 R120, 17 R325). -/
def execMldw (st : Stall) (fmt : Fmt) (slot : Fin 32) (t : Tok) (s0 : State) : Out :=
  mtxStart [] none false true (slotBit slot.val) s0 (fun s =>
    enterQueue st t (.ldw fmt slot.val) [] s (fun e => { e with plane := s.ch.nldw + 1 })
      (fun c => { c with lastLdw := some (fmt, slot.val), nldw := c.nldw + 1 }))

/-- MMA (06 R121, 17 R326, R327). -/
def execMma (st : Stall) (fmt : Fmt) (slot : Fin 32) (acc : Fin 8) (ftzi ftzo : Bool) (t : Tok) (s0 : State) : Out :=
  mtxStart [] none false true (slotBit slot.val) s0 (fun s =>
    if !(mmaFormatOk s.ch fmt acc.val) then faultOut s (formatFault s (fmtCode fmt).toNat)
    else
      match enterQueue st t (.mma fmt slot.val acc.val ftzi ftzo (clauseRm s) none) [] s (mmaEntry s.ch)
          (fun c => { c with mnum := c.mnum + 1 }) with
      | .next s1 => .next (if s1.ch.mq.length = s.ch.mq.length then s1 else arrayArrive s1 (cycles s s.ch.core))
      | o => o)

/-- MZERO (17 R328). -/
def execMzero (st : Stall) (mask : BitVec 8) (t : Tok) (s0 : State) : Out :=
  mtxStart [] none false true 0#32 s0 (fun s => enterQueue st t (.zero mask) [] s id id)

/-- The element that an index operand names: row b[9:5], column b[4:0] (17 R328). -/
def elementOf (s : State) (b : Src) (t : Nat) : Nat := (rd32 s b t).toNat % 1024

/-- MRD (17 R328). -/
def execMrd (st : Stall) (d : Dst) (b : Src) (acc : Fin 8) (wide : Bool) (t : Tok) (s0 : State) : Out :=
  let n := if wide then 2 else 1
  mtxStart [⟨1, b, 1⟩] (some (d, n)) false true 0#32 s0 (fun s =>
    if wide && decide (acc.val % 2 = 1) then faultOut s (formatFault s 0)
    else
      let ps := ((actLanes s).filter (clean s)).map (fun l =>
        { lane := l, scr := false, addr := 0, va := elementOf s b l, n := 0, dst := spanDst s d l 0 (4 * n) : Piece })
      enterQueue st t (.rd acc.val wide) ps s id id)

/-- MWR (17 R328). -/
def execMwr (st : Stall) (a b : Src) (acc : Fin 8) (wide : Bool) (t : Tok) (s0 : State) : Out :=
  mtxStart [⟨0, a, if wide then 2 else 1⟩, ⟨1, b, 1⟩] none false true 0#32 s0 (fun s =>
    if wide && decide (acc.val % 2 = 1) then faultOut s (formatFault s 0)
    else
      let els := ((actLanes s).filter (clean s)).map (fun l =>
        (elementOf s b l, if wide then rd64 s a l else (rd32 s a l).setWidth 64))
      enterQueue st t (.wr acc.val wide els) [] s id id)

/-- MST and MLD (17 R323, R329, R330): Protection, Matrix Format, Misaligned, Translation, and then the entry. -/
def tileOp (st : Stall) (a b : Src) (fmt : Fmt) (l : Layout) (acc : Fin 8) (kind : AccKind) (t : Tok) (mst : Bool) (op : MOp)
    (s0 : State) : Out :=
  mtxStart [⟨0, a, 2⟩, ⟨1, b, 1⟩] none mst true 0#32 s0 (fun s =>
    let base := (rd64 s a (lowest s)).toNat
    let pitch := (low32 s b).toNat
    let as := tileAccs s base pitch fmt
    match windowCheck s true false as with
    | some f => faultOut s { f with mask := activeMask s }
    | none =>
      match pageProtect s mst as with
      | (some f, s1) => faultOut s1 f
      | (none, s1) =>
        if decide (kind = .f64) && decide (acc.val % 2 = 1) then faultOut s1 (formatFault s1 0)
        else if base % 16 ≠ 0 || pitch % 16 ≠ 0 then faultOut s1 { kind := 0x0C, addr := base, mask := activeMask s1 }
        else
          match pageChecks s1 mst false as with
          | .fault s2 f => faultOut s2 { f with mask := activeMask s2 }
          | .stall s2 => .next (stallRetry s2)
          | .go s2 ps => enterQueue st t op (tilePieces l as ps) s2 id id)

/-- MST (17 R329, R330). -/
def execMst (st : Stall) (a b : Src) (fmt : Fmt) (l : Layout) (f : FFlags) (acc : Fin 8) (kind : AccKind) (t : Tok) (s : State) :
    Out :=
  tileOp st a b fmt l acc kind t true (.st acc.val kind fmt f (clauseRm s)) s

/-- MLD (17 R329, R330). -/
def execMld (st : Stall) (a b : Src) (fmt : Fmt) (l : Layout) (f : FFlags) (acc : Fin 8) (kind : AccKind) (t : Tok) (s : State) :
    Out :=
  tileOp st a b fmt l acc kind t false (.ld acc.val kind fmt f (clauseRm s)) s

/-- MBURST (06 R124, 17 R331). -/
def execMburst (st : Stall) (n : BitVec 16) (t : Tok) (s0 : State) : Out :=
  mtxStart [] none false true 0#32 s0 (fun s =>
    withUnit st t [] s (fun s => burstArrive { s with ch := { s.ch with burst := n.toNat } }))

/-- MSYNC (17 R331). -/
def execMsync (st : Stall) (t : Tok) (s0 : State) : Out :=
  mtxStart [] none false true 0#32 s0 (fun s => enterQueue st t .sync [] s id id)

/-- The offsets of MSLOTW and MSLOTR: inside the slot, and aligned (17 R323, R332). -/
def slotCheck (s : State) (b : Src) (n : Nat) : Option FaultRec :=
  let off (t : Nat) : Nat := (rd32 s b t).toNat
  match (actLanes s).filter (fun t => decide (16384 ≤ off t)) with
  | x :: xs => some { kind := 0x0E, sub := 8, addr := off x, mask := maskOf (x :: xs) }
  | [] =>
    match (actLanes s).filter (fun t => off t % n ≠ 0) with
    | x :: xs => some { kind := 0x0C, addr := off x, mask := maskOf (x :: xs) }
    | [] => none

/-- MSLOTW (17 R332). -/
def execMslotw (st : Stall) (a b : Src) (slot : Fin 32) (wide : Bool) (t : Tok) (s0 : State) : Out :=
  let n := if wide then 8 else 4
  mtxStart [⟨0, a, n / 4⟩, ⟨1, b, 1⟩] none false true (slotBit slot.val) s0 (fun s =>
    match slotCheck s b n with
    | some f => faultOut s f
    | none =>
      let ws := ((actLanes s).filter (clean s)).map (fun l => ((rd32 s b l).toNat, bytesOf (rd64 s a l).toNat n))
      enterQueue st t (.slotw slot.val ws) [] s id id)

/-- MSLOTR (17 R332). -/
def execMslotr (st : Stall) (d : Dst) (b : Src) (slot : Fin 32) (wide : Bool) (t : Tok) (s0 : State) : Out :=
  let n := if wide then 8 else 4
  mtxStart [⟨1, b, 1⟩] (some (d, n / 4)) false true (slotBit slot.val) s0 (fun s =>
    match slotCheck s b n with
    | some f => faultOut s f
    | none =>
      let ps := ((actLanes s).filter (clean s)).map (fun l =>
        { lane := l, scr := false, addr := 0, va := (rd32 s b l).toNat, n := 0, dst := spanDst s d l 0 n : Piece })
      enterQueue st t (.slotr slot.val wide) ps s id id)

/-- MREDN (17 R333). -/
def execMredn (st : Stall) (on : Bool) (t : Tok) (s0 : State) : Out :=
  mtxStart [] none false true 0#32 s0 (fun s => withUnit st t [] s (fun s => { s with ch := { s.ch with redn := on } }))

/-- The focus on some convoy of a slot's cohort, where one is bound there. -/
def focusSlot (s : State) (core slot : Nat) : Option State :=
  if s.focus && s.ch.core = core && s.ch.slot = slot then some s
  else
    match s.others.find? (fun c => c.core = core && c.slot = slot) with
    | some c =>
      match c.convoys with
      | v :: _ => some (focusOn s core slot v.id)
      | [] => none
    | none => none

/-- A step at a slot's cohort; nothing where none is bound. -/
def atSlot (s : State) (r : SlotRef) (f : State → State) : Out :=
  match focusSlot s r.core r.slot with
  | some s1 => .next (f s1)
  | none => .next s

/-- The first entry of the matrix queue that passes a test, where it may take effect. -/
def firstReady (c : Cohort) (p : MEntry → Bool) : Option MEntry :=
  match c.mq.find? p with
  | some e => if entryReady c e then some e else none
  | none => none

/-- MLDW_LATCH_COMPLETE (06 R120, 17 R325). -/
def execMldwLatchComplete (at_ : SlotRef) (s : State) : Out :=
  atSlot s at_ (fun s =>
    match firstReady s.ch (fun e => e.op.isLdw) with
    | some e =>
      match e.op with
      | .ldw fmt m => performLdw s e fmt m
      | _ => s
    | none => s)

/-- MMA_PASS_COMPLETE (06 R121 to R124, 17 R327); `differ` says that two redundant passes disagreed. -/
def execMmaPassComplete (at_ : SlotRef) (differ : Bool) (s : State) : Out :=
  atSlot s at_ (fun s =>
    match firstReady s.ch (fun e => e.op.isMma) with
    | some e => if (arrayOf s s.ch.core).mode = .run then performMma s e differ else s
    | none => s)

/-- The cohort that holds a core's matrix unit, in focus. -/
def focusHolder (s : State) (core : Nat) : Option State :=
  match (allCohorts s).find? (fun c => c.core = core && c.hold) with
  | some c => focusSlot s core c.slot
  | none => none

/-- MATRIX_RAMP_UP_END (06 R124): 64 cycles after the ramp-up began. -/
def execMatrixRampUpEnd (core : Nat) (s : State) : Out :=
  let a := arrayOf s core
  if a.mode ≠ .up then .next s
  else
    let s1 := reachCycle s core (a.start + 64)
    let waiting := (allCohorts s).any (fun c => c.core = core && c.mq.any (fun e => e.op.isMma))
    .next (setArray s1 core
      { mode := if waiting then .run else .rest, start := cycles s1 core, idle := if waiting then a.idle else a.start })

/-- MATRIX_RAMP_DOWN_END (06 R124): 64 cycles after the ramp-down began. -/
def execMatrixRampDownEnd (core : Nat) (s : State) : Out :=
  let a := arrayOf s core
  if a.mode ≠ .down then .next s
  else .next (setArray (reachCycle s core (a.start + 64)) core { a with mode := .rest })

/-- MBURST_IDLE_EXPIRY (06 R124): after 256 idle cycles the array is held no longer. -/
def execMburstIdleExpiry (core : Nat) (s : State) : Out :=
  let a := arrayOf s core
  match focusHolder s core with
  | none => .next s
  | some s1 =>
    if s1.ch.burst = 0 || a.mode ≠ .rest then .next s
    else
      let s2 := reachCycle s1 core (a.idle + 256)
      .next (setArray { s2 with ch := { s2.ch with burst := 0 } } core { a with mode := .down, start := cycles s2 core })

/-- A matrix unit that is neither an MLDW nor an MMA completes, where its entry may take effect. -/
def completeMatrix (s : State) (u : Pending) : State :=
  match s.ch.mq.find? (fun e => e.convoy = s.cv.id && e.unit = some u.seq) with
  | none => s
  | some e =>
    if e.op.isMma || e.op.isLdw || !(entryReady s.ch e) then s
    else if accessUnit u && !(mayComplete s.cv u) then s
    else performEntry s e

end Sys2Proof.Machine
end

