-- ==== Sys2Proof/Machine/Copy.lean ====
section
/-! DEFINITION. The copy engine (06 R111 to R116; 18 R340 to R344, R350 to R352; 04 R87 to R90): commands, their elements and
writes, chains, follow-on MMAs and mileposts. -/

namespace Sys2Proof.Machine

/-- A pointer of an engine command (06 R113, 03 R54). -/
inductive EPtr | glob (va : Nat) | scr (off : Nat) | slot (m off : Nat)
  deriving DecidableEq, Repr

/-- The window of an engine pointer, or the engine error code (06 R113, 18 R350). -/
def ePtr (p : DWord) : Except Nat EPtr :=
  match (p.extractLsb' 57 7).toNat with
  | 0 => .ok (.glob p.toNat)
  | 64 => if p.extractLsb' 32 25 = 0#25 then .ok (.scr (p.extractLsb' 0 32).toNat) else .error 5
  | 66 => if p.extractLsb' 19 38 = 0#38 then .ok (.slot (p.extractLsb' 14 5).toNat (p.extractLsb' 0 14).toNat) else .error 4
  | _ => .error 5

/-- Elements of a command (06 R114, 18 R340). -/
def cmdTotal (c : Cmd) : Nat :=
  match c.kind with
  | .linear => c.len / 4
  | .tensor => c.ext.foldl (· * ·) 1

/-- The offset of an element in strides (06 R114). -/
def strideOff : Nat → List Nat → List Int → Int
  | i, e :: es, x :: xs => (i % e : Nat) * x + strideOff (i / e) es xs
  | _, _, _ => 0

/-- Source and destination offsets of an element (06 R114, 18 R340). -/
def elemOff (c : Cmd) (i : Nat) : Int × Int :=
  match c.kind with
  | .linear => (4 * i, 4 * i)
  | .tensor => (strideOff i c.ext c.sstr, strideOff i c.ext c.dstr)

/-- Where an element lies: an engine error code with the failing address; none when the translation is retried (18 R342, R350). -/
def elemPlace (s : State) (p : DWord) (l : Layout) (off : Int) (n : Nat) (write : Bool) :
    Option (Except (Nat × Nat) Place) × State :=
  let va := ((p.toNat + off) % (2 ^ 64 : Int)).toNat
  match ePtr p with
  | .error e => (some (.error (e, va)), s)
  | .ok (.glob _) =>
    match engAddr s s.ch.core s.ch.root (BitVec.ofNat 64 va) write false with
    | (none, s1) => (none, s1)
    | (some (.error e), s1) => (some (.error (e, va)), s1)
    | (some (.ok (pa, key)), s1) => (some (.ok (.mem pa key)), s1)
  | .ok (.scr o) =>
    let a : Int := o + off
    if a < 0 || scrSize s.ch < a + n then (some (.error (5, va)), s) else (some (.ok (.scr (scrMap l a.toNat))), s)
  | .ok (.slot m o) =>
    let a : Int := o + off
    if a < 0 || 16384 < a + n then (some (.error (4, va)), s) else (some (.ok (.slot m a.toNat)), s)

/-- Bytes at a place, whether they are poisoned, and the state after the read. -/
def readPlace (s : State) (p : Place) (n : Nat) : List Byte × Bool × State :=
  match p with
  | .mem pa key =>
    let s1 := rekeyAt s pa n key
    (memGet s1 pa n, poisonedRange s1 pa n, s1)
  | .scr off =>
    (scrGet s.ch off n, (List.range ((off + n - 1) / 4 - off / 4 + 1)).any (fun i => NMap.get false s.ch.spoison (off / 4 + i)), s)
  | .slot m off => (slotGet s.ch m off n, slotPoison s.ch m off n, s)

/-- A 64-byte record read by the engine (18 R342, R350): its number, or the error code; none when retried. -/
def engRecord (s : State) (va : Nat) : Option (Except Nat Nat) × State :=
  if va % 64 ≠ 0 then (some (.error 3), s)
  else
    match engAddr s s.ch.core s.ch.root (BitVec.ofNat 64 va) false false with
    | (none, s1) => (none, s1)
    | (some (.error e), s1) => (some (.error e), s1)
    | (some (.ok (pa, key)), s1) =>
      let s2 := rekeyAt s1 pa 64 key
      if poisoned s2 (lineOf pa) then (some (.error 7), s2) else (some (.ok (memNat s2 pa 64)), s2)

/-- Whether the stores that a command must see are performed (04 R87). -/
def afterDone (s : State) (xs : List (Nat × Nat × Nat)) : Bool :=
  xs.all (fun x => !((getConvoy s x.1).units.any (fun u =>
    decide (u.seq < x.2.2) && u.mask.getLsbD x.2.1 && accessUnit u && !(decide (u.kind = .pref)))))

/-- The stores of the issuing threads are registered (04 R83, R87). -/
def afterRelease (s : State) (xs : List (Nat × Nat × Nat)) : State :=
  xs.foldl (fun s x =>
    registerThrough s s.ch.core (fun p => decide (p.uid = s.ch.uid) && decide (p.convoy = x.1) && decide (p.lane = x.2.1))) s

/-- A layout by its code (15 R278); code 3 answers none. -/
def layoutNum : Nat → Option Layout
  | 0 => some .lin | 1 => some .xor16 | 2 => some .xor32 | _ => none

/-- The fields of a tensor layout record put into its command, or the error code (06 R114). -/
def tensorFields (c : Cmd) (x : Nat) : Except Nat Cmd :=
  let dims := slice x 463 456
  let es := slice x 455 448
  if slice x 511 468 ≠ 0 then .error 1
  else
    match layoutNum (slice x 467 466), layoutNum (slice x 465 464) with
    | some dl, some sl =>
      if dims = 0 || 4 < dims || 4 < es then .error 2
      else
        let n : Nat := 2 ^ es
        let used (k : Nat) : Bool := decide (k < dims)
        let stride (lo k : Nat) : Int := sextN 32 (slice x (lo + 32 * (k - 1) + 31) (lo + 32 * (k - 1)))
        .ok { c with
          src := BitVec.ofNat 64 (slice x 63 0), dst := BitVec.ofNat 64 (slice x 127 64), slayout := sl, dlayout := dl, esize := n,
          ext := (List.range 4).map (fun k => if used k then slice x (128 + 32 * k + 31) (128 + 32 * k) else 1),
          sstr := (n : Int) :: (List.range 3).map (fun k => stride 256 (k + 1)),
          dstr := (n : Int) :: (List.range 3).map (fun k => stride 352 (k + 1)) }
    | _, _ => .error 2

/-- Whether the elements of a box are aligned on one side (06 R114). -/
def boxAligned (p : DWord) (n : Nat) (ext : List Nat) (str : List Int) : Bool :=
  decide (p.toNat % n = 0) && (List.zip ext str).all (fun e => decide (e.1 ≤ 1) || decide (e.2 % (n : Int) = 0))

/-- The slot of an engine pointer, if it names one. -/
def ptrSlot (p : DWord) : Option Nat :=
  match ePtr p with
  | .ok (.slot m _) => some m
  | _ => none

/-- The checks of a command before its first read (06 R113, R114; 18 R340, R341): the error code and address, if one fails. -/
def startChecks (s : State) (c : Cmd) : Option (Nat × Nat) :=
  let badPtr (p : DWord) : Option (Nat × Nat) := match ePtr p with
    | .error e => some (e, p.toNat)
    | .ok _ => none
  let unclaimed (p : DWord) : Option (Nat × Nat) := match ptrSlot p with
    | some m => if s.ch.hold && s.ch.claim.getLsbD m then none else some (4, p.toNat)
    | none => none
  let aligned := match c.kind with
    | .linear => c.len = 0 || (decide (c.src.toNat % 4 = 0) && decide (c.dst.toNat % 4 = 0))
    | .tensor => cmdTotal c = 0 || (boxAligned c.src c.esize c.ext c.sstr && boxAligned c.dst c.esize c.ext c.dstr)
  [ (match c.bind with
      | some off => if scrSize s.ch ≤ off then some (5, off) else none
      | none => none),
    (if c.kind = .linear && c.len % 4 ≠ 0 then some (3, 0) else none),
    (if c.follow.isSome && (ptrSlot c.dst).isNone then some (2, c.dst.toNat) else none),
    badPtr c.src, badPtr c.dst,
    (if aligned then none else some (3, c.src.toNat)),
    unclaimed c.src, unclaimed c.dst ].findSome? id

/-- The command with an error before its first read; a barrier outside the scratch is not touched. -/
def failStart (s : State) (c : Cmd) (e : Nat × Nat) : Cmd :=
  { c with started := true, err := some e, bind := c.bind.filter (fun off => off < scrSize s.ch) }

/-- COPY_COMMAND_START: the first command of the queue that has not started (06 R111; 04 R87, R88). -/
def startCmd (s : State) : State :=
  match s.ch.cq.find? (fun c => !c.started) with
  | none => s
  | some c =>
    if !(afterDone s c.after) || (c.acq && s.ch.cq.any (fun d => d.seq < c.seq)) then s
    else
      let s1 := afterRelease s c.after
      let put (s : State) (d : Cmd) : State := { s with ch := mapCmd s.ch c.seq (fun _ => d) }
      let finish (s : State) (d : Cmd) : State :=
        match startChecks s d with
        | some e => put s (failStart s d e)
        | none => put s { d with started := true }
      if c.err.isSome then put s1 (failStart s1 c (c.err.getD (0, 0)))
      else
        match c.kind with
        | .linear => finish s1 c
        | .tensor =>
          match engRecord s1 c.src.toNat with
          | (none, _) => s
          | (some (.error e), s2) => put s2 (failStart s2 c (e, c.src.toNat))
          | (some (.ok x), s2) =>
            match tensorFields c x with
            | .error e => put s2 (failStart s2 c (e, c.src.toNat))
            | .ok d => finish s2 d

/-- COPY_ELEMENT_READ: the next element of a command is read and its write set out (18 R342). -/
def readElem (s : State) (c : Cmd) : State :=
  let n := if c.kind = .linear then 4 else c.esize
  let o := elemOff c c.next
  let fail (s : State) (e : Nat × Nat) : State := { s with ch := mapCmd s.ch c.seq (fun d => { d with err := some e }) }
  if !c.started || c.err.isSome || cmdTotal c ≤ c.next then s
  else
    match elemPlace s c.src c.slayout o.1 n false with
    | (none, _) => s
    | (some (.error e), s1) => fail s1 e
    | (some (.ok from_), s1) =>
      match elemPlace s1 c.dst c.dlayout o.2 n true with
      | (none, _) => s
      | (some (.error e), s2) => fail s2 e
      | (some (.ok to_), s2) =>
        let r := readPlace s2 from_ n
        let s3 := r.2.2
        let va := ((c.src.toNat + o.1) % (2 ^ 64 : Int)).toNat
        let isMem := match to_ with
          | .mem _ _ => true
          | _ => false
        if r.2.1 && !isMem then fail s3 (7, va)
        else
          let w : EWrite := { cmd := c.seq, place := to_, bytes := r.1, poison := r.2.1 }
          let ch := mapCmd s3.ch c.seq (fun d => { d with next := d.next + 1 })
          { s3 with ch := { ch with writes := ch.writes ++ [w] } }

/-- Whether two places of n and m bytes share a byte. -/
def placeOverlap (p : Place) (n : Nat) (q : Place) (m : Nat) : Bool :=
  match p, q with
  | .mem a _, .mem b _ => decide (a < b + m) && decide (b < a + n)
  | .scr a, .scr b => decide (a < b + m) && decide (b < a + n)
  | .slot i a, .slot j b => decide (i = j) && decide (a < b + m) && decide (b < a + n)
  | _, _ => false

/-- The scratch granule of an element's destination. -/
def elemGranule (s : State) (c : Cmd) (i : Nat) : Option Nat :=
  match ePtr c.dst with
  | .ok (.scr o) => some (scrMap c.dlayout ((o : Int) + (elemOff c i).2).toNat / 16)
  | _ => let _ := s; none

/-- The full-empty bit of a granule after a write of a command landed there (03 R62, 04 R90). -/
def landGranule (s : State) (c : Cmd) (g : Nat) : State :=
  let flying := s.ch.writes.any (fun w => w.cmd = c.seq && (match w.place with
    | .scr off => decide (off / 16 = g)
    | _ => false))
  let unread := (List.range (cmdTotal c - c.next)).any (fun i => elemGranule s c (c.next + i) = some g)
  if flying || unread then s else { s with ch := setFe s.ch g true }

/-- Bytes of a command landed: counted, and subtracted from its barrier (05 R100, 18 R341). -/
def countLanded (s : State) (seq n : Nat) : State :=
  let ch := mapCmd s.ch seq (fun c => { c with done := c.done + n })
  match (ch.cq.find? (fun c => c.seq = seq)).bind (·.bind) with
  | some off => { s with ch := putBarrier ch off ((getBarrier ch off).land n) }
  | none => { s with ch := ch }

/-- A copy's write to memory is registered; poison travels with it (04 R87, 18 R342). -/
def registerWrite_ (s : State) (w : EWrite) : State :=
  match w.place with
  | .mem pa key =>
    let s1 := writeCoherent s none pa key w.bytes
    if w.poison then setPoison s1 (lineOf pa) true else s1
  | _ => s

/-- ENGINE_WRITE_LAND: write k of the focused cohort lands; a write to memory that has landed is registered (04 R87 to R90,
R541; 06 R114). A bound command's writes are registered as they land. -/
def landWrite (s : State) (k : Nat) : State :=
  match s.ch.writes[k]? with
  | none => s
  | some w =>
    let before := (s.ch.writes.take k).any (fun v => v.cmd = w.cmd && placeOverlap v.place v.bytes.length w.place w.bytes.length)
    let cmd := s.ch.cq.find? (fun c => c.seq = w.cmd)
    let bound := (cmd.bind (·.bind)).isSome
    let drop (s : State) : State := { s with ch := { s.ch with writes := s.ch.writes.eraseIdx k } }
    if before then s
    else
      match w.place with
      | .scr off =>
        let s1 := drop { s with ch := scrPut s.ch off w.bytes }
        let s2 := countLanded s1 w.cmd w.bytes.length
        match cmd with
        | some c => landGranule s2 c (off / 16)
        | none => s2
      | .slot m off => countLanded (drop { s with ch := slotPut s.ch m off w.bytes }) w.cmd w.bytes.length
      | .mem pa _ =>
        if (w.landed || bound) && fcWaits s (lineOf pa) true then fcAsk s (lineOf pa) true
        else if w.landed then drop (registerWrite_ s w)
        else if bound then countLanded (drop (registerWrite_ s w)) w.cmd w.bytes.length
        else
          countLanded { s with ch := { s.ch with writes := s.ch.writes.set k { w with landed := true } } } w.cmd w.bytes.length

/-- Whether every byte of a command has landed. -/
def allLanded (c : Cohort) (m : Cmd) : Bool :=
  m.started && (m.err.isSome || decide (cmdTotal m ≤ m.next)) && !(c.writes.any (fun w => w.cmd = m.seq && !w.landed))

/-- Rounding mode of a code (10 R181). -/
def rmNum : Nat → RMode
  | 0 => .rne | 1 => .rtz | 2 => .rdn | _ => .rup

/-- The MMA that a follow-on word names, with its rounding mode (17 R334). -/
def followMma (w x : Word) : Option (Fmt × Nat × Nat × Bool × Bool × RMode) :=
  if x.extractLsb' 0 3 ≠ 0#3 then none
  else
    match Sys2Proof.decode .mtx false true [w, x &&& ~~~0x18#32] with
    | .ok (.mma _ fmt slot acc ftzi ftzo _, _) =>
      some (fmt, slot.val, acc.val, ftzi, ftzo, rmNum (x.extractLsb' 3 2).toNat)
    | _ => none

/-- The accumulator a follow-on names. -/
def followAcc (c : Cmd) : Option Nat := c.follow.map (fun f => (f.2.extractLsb' 7 3).toNat)

/-- FOLLOW_ON_MMA_HANDOVER (06 R116, 17 R334). -/
def handOver (s : State) (c : Cmd) : State :=
  match c.follow with
  | none => s
  | some (w, x) =>
    let held := s.ch.det && s.ch.cq.any (fun d => d.seq < c.seq && d.follow.isSome && followAcc d = followAcc c &&
      !d.mmaOut && d.err.isNone)
    if c.mmaOut || c.err.isSome || !(allLanded s.ch c) || held then s
    else
      let fail : State := { s with ch := mapCmd s.ch c.seq (fun d => { d with mmaOut := true, err := some (8, 0) }) }
      match followMma w x with
      | none => fail
      | some (fmt, m, acc, ftzi, ftzo, rm) =>
        if !s.ch.hold || !(s.ch.claim.getLsbD m) || !(mmaFormatOk s.ch fmt acc) then fail
        else
          let e : MEntry :=
            { op := .mma fmt m acc ftzi ftzo rm (some c.seq), convoy := c.convoy, unit := none, redn := s.ch.redn }
          let ch := mapCmd s.ch c.seq (fun d => { d with mmaOut := true })
          arrayArrive { s with ch := { ch with mq := ch.mq ++ [mmaEntry ch e], mnum := ch.mnum + 1 } } (cycles s s.ch.core)

/-- The chain that a command came from ends with its error (18 R343). -/
def endChainOf (c : Cohort) (m : Cmd) : Cohort :=
  match c.chain with
  | some x => if m.source = 2 && x.no = m.chainNo then { c with chain := c.pchain, pchain := none } else c
  | none => c

/-- Whether a command may write its milepost (06 R116, 04 R89). -/
def mayFinish (c : Cohort) (m : Cmd) : Bool :=
  allLanded c m && (!m.rel || !(c.writes.any (fun w => w.cmd = m.seq))) &&
  (m.follow.isNone || m.mmaDone || (m.err.isSome && (!m.mmaOut || decide (m.err = some (8, 0)))))

/-- MILEPOST_WRITE (06 R112, 18 R351): the command ends. A retryable translation of the milepost is retried. -/
def finishCmd (s : State) (m : Cmd) : State :=
  if !(mayFinish s.ch m) then s
  else if hasMile m.mile && (engAddr s s.ch.core s.ch.root m.mile true false).1.isNone then s
  else
    let drop (s : State) : State := { s with ch := { s.ch with cq := s.ch.cq.filter (fun c => c.seq ≠ m.seq) } }
    match m.err with
    | some (code, va) =>
      let s1 := engineError s code m.source m.convoy m.seq m.chain va m.done m.bind m.mile
      drop { s1 with ch := endChainOf s1.ch m }
    | none =>
      match writeMile s s.ch.core s.ch.root m.mile false m.seq with
      | (some e, _, s1) =>
        let c1 := recordEngine s1.ch e m.source m.convoy m.seq m.chain m.mile.toNat m.done
        let c2 := match m.bind with
          | some off => barrierFault c1 off
          | none => c1
        drop (mapConvoy { s1 with ch := c2 } m.convoy (fun c =>
          { c with bfaults := c.bfaults ++ [enginePending m.mile.toNat m.seq e] }))
      | (none, _, s1) => drop s1

/-- A chain record as a command (06 R115). -/
def chainCmd (x : Chain) (seq addr r : Nat) (err : Option (Nat × Nat)) : Cmd :=
  let kind := slice r 311 304
  let lay := layoutNum (slice r 317 316)
  let e : Option (Nat × Nat) := err.or
    (if slice r 511 384 ≠ 0 || slice r 319 318 ≠ 0 then some (1, addr)
     else if 1 < kind || (kind = 0 && lay.isNone) then some (2, addr) else none)
  { seq := seq, kind := if kind = 1 then .tensor else .linear, src := BitVec.ofNat 64 (slice r 191 128),
    dst := BitVec.ofNat 64 (slice r 255 192), mile := BitVec.ofNat 64 (slice r 127 64), len := slice r 287 256,
    slayout := lay.getD .lin, dlayout := lay.getD .lin, bind := if r.testBit 314 then some (16 * slice r 303 288) else none,
    follow := if r.testBit 315 then some (BitVec.ofNat 32 (slice r 351 320), BitVec.ofNat 32 (slice r 383 352)) else none,
    rel := r.testBit 313, acq := r.testBit 312, convoy := x.convoy, chain := addr, chainNo := x.no, source := 2,
    after := x.after, err := e }

/-- The running chain ends; a pending one becomes running (18 R343). -/
def endChain (c : Cohort) : Cohort := { c with chain := c.pchain, pchain := none }

/-- CHAIN_RECORD_TAKE (06 R115, 18 R343). -/
def takeRecord (s : State) : State :=
  match s.ch.chain with
  | none => s
  | some x =>
    if x.last.isNone && (x.head % 64 ≠ 0 || x.tail % 64 ≠ 0) then
      let s1 := engineError s 3 2 x.convoy 0 x.head x.head 0 none 0#64
      { s1 with ch := endChain s1.ch }
    else if x.last = some x.tail || 64 ≤ s.ch.cq.length || !(afterDone s x.after) then s
    else
      let s1 := afterRelease s x.after
      match engRecord s1 x.resume with
      | (none, _) => s
      | (some r, s2) =>
        let n := match r with
          | .ok n => n
          | .error _ => 0
        let err : Option (Nat × Nat) := match r with
          | .ok _ => none
          | .error e => some (e, x.resume)
        let m := chainCmd x s2.ch.nextCmd x.resume n err
        let next := slice n 63 0
        let ch := { s2.ch with cq := s2.ch.cq ++ [m], nextCmd := s2.ch.nextCmd + 1 }
        { s2 with
          ch := if m.err.isSome || next = 0 then endChain ch
            else { ch with chain := some { x with last := some x.resume, resume := next } } }

end Sys2Proof.Machine
end

