-- ==== Sys2Proof/Machine/Ctl.lean ====
section
/-! DEFINITION. The CTL class, first part (16 R296 to R310, R319): branches, calls, exits, the exchange of values among threads,
and the instructions that stop or hold a convoy. -/

namespace Sys2Proof.Machine

/-- The header address of the clause being issued (10 R189). -/
def headerPc (s : State) : Nat :=
  match s.cv.clause with
  | some k => k.pc
  | none => 0

/-- The target of a B-form branch (10 R189); a target outside the address space fails its check. -/
def relTarget (s : State) (off : BitVec 20) : Nat := (((headerPc s : Int) + 4 * off.toInt) % (2 ^ 64 : Int)).toNat

/-- The threads have moved: the instruction ends, and they leave the entry being issued (01 R29). -/
def leaveAfter (st : Stall) (m : Word) (s : State) : State :=
  let s1 := retire st s
  { s1 with cv := leaveEntry s1.cv m }

/-- The threads that branch, each to its target (16 R300). -/
def branchOp (st : Stall) (tgt : List (Nat × Nat)) (s : State) : Out :=
  branchTo s tgt (fun s1 => .next (leaveAfter st (maskOf (tgt.map (·.1))) s1))

/-- The check and the early read of a predicate (10 R198, R200); `f` goes on. -/
def withPred (k : Nat) (s : State) (f : State → Out) : Out :=
  match checkReady s (predLocs s k) with
  | some e => faultOut s e
  | none => f (settleLocs s (predLocs s k))

/-- The operand checks and the early reads of an instruction that reads operands and a predicate. -/
def withUses (us : List Use) (k : Nat) (s0 : State) (f : State → Out) : Out :=
  let s := settleIdx s0 us none
  match checkUses s us none with
  | some e => faultOut s e
  | none =>
    match checkReady s (useLocs s us ++ predLocs s k) with
    | some e => faultOut s e
    | none => f (settleReads s us (predLocs s k))

/-- BRA (16 R300). -/
def execBra (st : Stall) (p : Pn) (neg : Bool) (off : BitVec 20) (s : State) : Out :=
  withPred p.toNat s (fun s => branchOp st ((lanes (takeMask s p.toNat neg)).map (fun t => (t, relTarget s off))) s)

/-- The targets that registers supply; in a uniform clause one for every thread of the entry (16 R300). -/
def regTargets (s : State) (a : Src) (m : Word) : List (Nat × Nat) :=
  (lanes m).map (fun t => (t, (rd64 s a (if uniform s then lowest s else t)).toNat))

/-- BRX (16 R300). -/
def execBrx (st : Stall) (a : Src) (p : Pn) (s : State) : Out :=
  withUses [⟨0, a, 2⟩] p.toNat s (fun s => branchOp st (regTargets s a (takeMask s p.toNat false)) s)

/-- A word of a thread's call stack: the thread, the private byte offset of its low word, and the frame. -/
structure FrameRef where
  lane : Nat
  off  : Nat
  deriving DecidableEq, Repr

/-- The accesses of call frames, two words for each thread (16 R301, R302). -/
def frameAccs (fs : List FrameRef) : List Acc :=
  fs.map (fun f => { lane := f.lane, ea := f.off, win := .priv f.off, n := 8 })

/-- The return point of a call (16 R301). -/
def returnPoint (s : State) : Nat :=
  match s.cv.clause with
  | some k => k.pc + 4 * (k.words.length + 1)
  | none => 0

/-- Depth of a thread's call stack (03 R65). -/
def depthOf (s : State) (t : Nat) : Nat := NMap.get 0 s.cv.depth t

/-- CALL and CALLX with their taking threads: the frames are checked, the targets are checked and taken, and the frames are
written as private writes (16 R299, R301). -/
def callOp (st : Stall) (tgt : List (Nat × Nat)) (s : State) : Out :=
  let lim := s.ch.desc.priv
  match tgt.filter (fun e => decide (lim < 10 + 2 * depthOf s e.1)) with
  | e :: _ =>
    let b := lim - 8 - 2 * depthOf s e.1
    faultOut s { kind := 0x09, aux := (lim + 2 ^ 32 - 10 - 2 * depthOf s e.1) % 2 ^ 32 + 2 ^ 32 * b, mask := activeMask s }
  | [] =>
    let fs : List FrameRef := tgt.map (fun e => { lane := e.1, off := 4 * (lim - 10 - 2 * depthOf s e.1) })
    match pageChecks s true false (frameAccs fs) with
    | .fault s1 f => faultOut s1 f
    | .stall s1 => .next (stallRetry s1)
    | .go s1 ps =>
      let ret := bytesOf (returnPoint s1) 8
      branchTo s1 tgt (fun s2 =>
        let s3 := ps.foldl (fun s p => privPut s s.ch.core s.ch.uid p.pa ((ret.drop p.off).take p.n)) s2
        let s4 := { s3 with cv := { s3.cv with
          depth := tgt.foldl (fun m e => NMap.set 0 m e.1 (NMap.get 0 m e.1 + 1)) s3.cv.depth } }
        .next (leaveAfter st (maskOf (tgt.map (·.1))) s4))

/-- CALL (16 R301). -/
def execCall (st : Stall) (p : Pn) (neg : Bool) (off : BitVec 20) (s : State) : Out :=
  withPred p.toNat s (fun s => callOp st ((lanes (takeMask s p.toNat neg)).map (fun t => (t, relTarget s off))) s)

/-- CALLX (16 R301). -/
def execCallx (st : Stall) (a : Src) (p : Pn) (s : State) : Out :=
  withUses [⟨0, a, 2⟩] p.toNat s (fun s => callOp st (regTargets s a (takeMask s p.toNat false)) s)

/-- The address in a frame that was read (16 R302). -/
def frameTarget (s : State) (ps : List PSpan) (t : Nat) : Nat :=
  let w (off : Nat) : Nat :=
    match ps.find? (fun p => p.lane = t && p.off = off) with
    | some p => natOfBytes ((List.range 4).map (fun i => privByte s s.ch.core (p.pa + i)))
    | none => 0
  w 0 + 2 ^ 32 * w 4

/-- RET (16 R302). -/
def execRet (st : Stall) (s : State) : Out :=
  let ts := lanes (activeMask s)
  let fs : List FrameRef := (ts.filter (fun t => decide (0 < depthOf s t))).map (fun t =>
    { lane := t, off := 4 * (s.ch.desc.priv - 8 - 2 * depthOf s t) })
  match pageChecks s false false (frameAccs fs) with
  | .fault s1 f => faultOut s1 f
  | .stall s1 => .next (stallRetry s1)
  | .go s1 ps =>
    match ts.filter (fun t => depthOf s1 t = 0) with
    | t :: rest => faultOut s1 { kind := 0x03, sub := 1, mask := maskOf (t :: rest) }
    | [] =>
      branchTo s1 (ts.map (fun t => (t, frameTarget s1 ps t))) (fun s2 =>
        let s3 := { s2 with cv := { s2.cv with
          depth := ts.foldl (fun m t => NMap.set 0 m t (NMap.get 0 m t - 1)) s2.cv.depth } }
        .next (leaveAfter st (maskOf ts) s3))

/-- A child lane's first exit counted down at its junction (07 R135, R142). -/
def childExit (s : State) (t : Nat) : State :=
  let j := NMap.get 0 s.cv.junc t
  let s1 := { s with cv := { s.cv with junc := NMap.set 0 s.cv.junc t 0, juncDone := s.cv.juncDone ||| (1#32 <<< t) } }
  if j = 0 || s.cv.juncDone.getLsbD t then s
  else
    match atomicAddr s1 s1.ch.core s1.ch.root j with
    | (some (pa, key), s2) => junctionDrop s2 pa key
    | (none, s2) => s2

/-- EXIT (16 R303). The exit of a child lane is a release, so it waits for the lane's earlier accesses (07 R135). -/
def execExit (st : Stall) (s : State) : Out :=
  let m := activeMask s
  let kids := (lanes m).filter (fun t => NMap.get 0 s.cv.junc t ≠ 0 && !(s.cv.juncDone.getLsbD t))
  if kids.isEmpty then
    let s1 := leaveAfter st m s
    .next { s1 with cv := { s1.cv with live := s1.cv.live &&& ~~~m } }
  else if accessPending s.cv (maskOf kids) then .next (waitIssue s)
  else
    let s1 := leaveAfter st m (kids.foldl childExit (releaseStores s (maskOf kids)))
    .next { s1 with cv := { s1.cv with live := s1.cv.live &&& ~~~m } }

/-- YIELD (01 R33, 16 R305). -/
def execYield (st : Stall) (s : State) : Out :=
  .next (retire st { s with cv := { s.cv with clause := s.cv.clause.map (fun k => { k with yld := true }) } })

/-- JOINW completes: pd is written in the threads of the entry (01 R34). -/
def joinDone (st : Stall) (p : Pn) (late : Bool) (s : State) : Out := .next (retire st (setPredMask s p.toNat (activeMask s) late))

/-- JOINW (01 R34, R35; 16 R305). -/
def execJoinw (st : Stall) (p : Pn) (a : Src) (s : State) : Out :=
  withUses [⟨0, a, 1⟩] 7 s (fun s =>
    let n := (rd32 s a (lowest s)).toNat
    match waitOf s with
    | some (.join _ true) => joinDone st p true s
    | some (.join d false) => if joined s.cv (activeMask s) then joinDone st p false s else .next (waitEntry (.join d false) s)
    | _ =>
      if joined s.cv (activeMask s) then joinDone st p false s
      else if n = 0 then joinDone st p true s
      else .next (waitEntry (.join (cycles s s.ch.core + n) false) s))

/-- VOTE (16 R306). -/
def execVote (st : Stall) (d : VoteDst) (inv : Bool) (pa : Pn) (s : State) : Out :=
  match d with
  | .all p =>
    withPred pa.toNat s (fun s =>
      match checkReady s (predLocs s p.toNat) with
      | some e => faultOut s e
      | none => .next (retire st (setPredMask s p.toNat (activeMask s) (voteAll s pa.toNat inv))))
  | .any p =>
    withPred pa.toNat s (fun s =>
      match checkReady s (predLocs s p.toNat) with
      | some e => faultOut s e
      | none => .next (retire st (setPredMask s p.toNat (activeMask s) (voteAny s pa.toNat inv))))
  | .ballot d => holdOp st [] [pa.toNat] d 1 (fun s _ => (predMask s pa.toNat inv).setWidth 64) s

/-- The value SHFL writes in a thread (16 R307). -/
def shflValue (op : ShflOp) (a b : Src) (s : State) (t : Nat) : Word :=
  match shflLane op t (rd32 s b t) with
  | some l => if (activeMask s).getLsbD l then rd32 s a l else rd32 s a t
  | none => rd32 s a t

/-- SHFL (16 R307). -/
def execShfl (st : Stall) (d : Dst) (a b : Src) (op : ShflOp) (s : State) : Out :=
  holdOp st [⟨0, a, 1⟩, ⟨1, b, 1⟩] [] d 1 (fun s t => (shflValue op a b s t).setWidth 64) s

/-- The threads whose key equals a thread's (16 R308). -/
def matchMask (a b : Src) (s : State) (t : Nat) : Word :=
  maskOf ((lanes (activeMask s)).filter (fun u => rd32 s a u = rd32 s a t && rd32 s b u = rd32 s b t))

/-- MATCH (16 R308). -/
def execMatchl (st : Stall) (d : Dst) (a b : Src) (s : State) : Out :=
  holdOp st [⟨0, a, 1⟩, ⟨1, b, 1⟩] [] d 1 (fun s t => (matchMask a b s t).setWidth 64) s

/-- REDU on a float format (16 R310, 11 R216, R217). -/
def reduFloat (op : ReduOp) (fm : Fmt) (rm : RMode) (ftzi ftzo : Bool) (xs : List Nat) : Nat :=
  let vs := xs.map (fun x => flush fm ftzi (fval fm x))
  let r : FV := match op with
    | .add =>
      match pairTree (fun u v => fresult fm rm false ftzo (fsum rm (flush fm ftzi u) (flush fm ftzi v))) vs with
      | v :: _ => fresult fm rm false ftzo v
      | [] => .zero false
    | _ =>
      match vs with
      | v :: rest => flush fm ftzo (rest.foldl (fminmax (op = .max)) v)
      | [] => .zero false
  enc fm r

/-- REDU on an integer format (16 R310). -/
def reduInt (op : ReduOp) (fm : Fmt) (xs : List Nat) : Nat :=
  let w := fm.width
  let le (x y : Nat) : Bool := if fm.signed then decide (sextN w x ≤ sextN w y) else decide (x ≤ y)
  let f (x y : Nat) : Nat := match op with
    | .add => (x + y) % 2 ^ w
    | .min => if le x y then x else y
    | .max => if le x y then y else x
    | .and => x &&& y
    | .or => x ||| y
    | .xor => x ^^^ y
  match xs with
  | x :: rest => rest.foldl f x
  | [] => 0

/-- The result of REDU over the active threads (16 R310). -/
def reduValue (op : ReduOp) (fm : Fmt) (ftzi ftzo : Bool) (a : Src) (s : State) : DWord :=
  let xs := (lanes (activeMask s)).map (fun t => if fmtW64 fm then (rd64 s a t).toNat else (rd32 s a t).toNat)
  BitVec.ofNat 64 (if fm.isFloat then reduFloat op fm (clauseRm s) ftzi ftzo xs else reduInt op fm xs)
where
  /-- Formats in pairs. -/
  fmtW64 (f : Fmt) : Bool := decide (f.width = 64)

/-- REDU (16 R309, R310). -/
def execRedu (st : Stall) (d : Dst) (a : Src) (op : ReduOp) (fmt : Fmt) (ftzi ftzo : Bool) (t : Tok) (s : State) : Out :=
  let n := if fmt.width = 64 then 2 else 1
  valueOp st t [⟨0, a, n⟩] d n (fun s _ => reduValue op fmt ftzi ftzo a s) s

/-- TRAP (16 R319). -/
def execTrap (st : Stall) (code : BitVec 8) (s : State) : Out :=
  let _ := st
  faultOut s { kind := 0x16, aux := code.toNat, mask := activeMask s }

/-- BPT (16 R319). -/
def execBpt (st : Stall) (code : BitVec 8) (s : State) : Out :=
  let _ := st
  faultOut s { kind := 0x17, aux := code.toNat, mask := activeMask s }

/-- NOP (16 R319). -/
def execNop (st : Stall) (s : State) : Out := .next (retire st s)

/-- WAITT (05 R110, 16 R319). -/
def execWaitt (st : Stall) (mask : BitVec 8) (s : State) : Out :=
  if tokensClear s.cv mask then .next (retire st s) else .next (waitIssue s)

end Sys2Proof.Machine
end

