-- ==== Sys2Proof/Machine/Tape.lean ====
section
/-! DEFINITION. The tape (09 R166 to R173; 18 R353 to R358): records, spans, overflow into the spill area, popping and
refill. -/

namespace Sys2Proof.Machine

/-- The tape and the spill entries of one thread, with the cohort whose scratch holds the share. -/
structure TapeView where
  c     : Cohort
  base  : Nat
  share : Nat
  per   : Nat
  t     : Tape
  spill : List TapeSpill
  deriving DecidableEq, Repr

/-- Offset in scratch of a thread's share (09 R166). -/
def shareBase (s : State) (lane : Nat) : Nat :=
  scrSize s.ch - (32 * s.ch.desc.convoys - (32 * s.cv.id + lane)) * tapeBytes s.ch.desc

/-- The tape of a thread of the focused convoy. -/
def viewTape (s : State) (lane : Nat) : TapeView :=
  { c := s.ch, base := shareBase s lane, share := tapeBytes s.ch.desc, per := 256 * s.ch.tper,
    t := NMap.get {} s.cv.tapes lane, spill := s.cv.tspill.filter (fun e => e.thread = lane) }

/-- Putting a thread's tape back. -/
def putTape (s : State) (lane : Nat) (v : TapeView) : State :=
  { s with
    ch := v.c
    cv := { s.cv with
      tapes := NMap.set {} s.cv.tapes lane v.t
      tspill := s.cv.tspill.filter (fun e => e.thread ≠ lane) ++ v.spill.map (fun e => { e with thread := lane }) } }

/-- Bytes at a logical offset (09 R167). -/
def TapeView.read (v : TapeView) (o n : Nat) : List Byte := (List.range n).map (fun i => scrByte v.c (v.base + (o + i) % v.share))

/-- Writing bytes at a logical offset. -/
def TapeView.write (v : TapeView) (o : Nat) (bs : List Byte) : TapeView :=
  { v with c := (bs.zipIdx).foldl (fun c e => scrPut c (v.base + (o + e.2) % v.share) [e.1]) v.c }

/-- A span descriptor at a logical offset (09 R169). -/
def TapeView.desc (v : TapeView) (o : Nat) : Word := BitVec.ofNat 32 (natOfBytes (v.read o 4))

/-- Bytes from the previous span's descriptor (09 R169). -/
def spanPrev (d : Word) : Nat := (d.extractLsb' 0 24).toNat

/-- Length of the waypoint (09 R169). -/
def spanLen (d : Word) : Nat := (d.extractLsb' 24 5).toNat

/-- Whether the span is dropped on overflow: DETOUR and not refilled (09 R171). -/
def spanDetour (d : Word) : Bool := d.getLsbD 31 && !(d.getLsbD 29)

/-- The code of a slot's value (09 R168). -/
def slotCode (v : Word) : Nat :=
  if v = 0#32 then 0 else if v.extractLsb' 0 16 = 0#16 then 1 else if v = (v.extractLsb' 0 16).signExtend 32 then 2 else 3

/-- The bytes stored for a value under its code (09 R168). -/
def slotBytes (v : Word) : List Byte :=
  match slotCode v with
  | 0 => []
  | 1 => bytesOf (v.toNat / 65536) 2
  | 2 => bytesOf (v.toNat % 65536) 2
  | _ => bytesOf v.toNat 4

/-- A record of four values under a mask (09 R168). -/
def tapeRecord (vs : List Word) (mask : BitVec 4) : List Byte :=
  let w (j : Nat) : Word := if mask.getLsbD j then vs.getD j 0#32 else 0#32
  let trailer := (List.range 4).foldl (fun x j => x + slotCode (w j) * 2 ^ (2 * j)) 0
  (List.range 4).flatMap (fun j => slotBytes (w j)) ++ [BitVec.ofNat 8 trailer]

/-- Bytes a code stores. -/
def codeLen (k : Nat) : Nat := match k with
  | 0 => 0 | 1 => 2 | 2 => 2 | _ => 4

/-- Codes of a trailer. -/
def trailerCodes (b : Byte) : List Nat := (List.range 4).map (fun j => (b.toNat / 2 ^ (2 * j)) % 4)

/-- The values of a record whose trailer is given (09 R168). -/
def decodeSlots : List Nat → List Byte → List Word
  | [], _ => []
  | k :: ks, bs =>
    let x := natOfBytes (bs.take (codeLen k))
    let v : Word := match k with
      | 0 => 0#32
      | 1 => BitVec.ofNat 32 (x * 65536)
      | 2 => (BitVec.ofNat 16 x).signExtend 32
      | _ => BitVec.ofNat 32 x
    v :: decodeSlots ks (bs.drop (codeLen k))

/-- Bytes that a spill entry takes in the spill area (09 R171). -/
def spillSize (e : TapeSpill) : Nat := if e.stub then 32 else (e.bytes.length + 255) / 256 * 256

/-- Bytes of the spill area that a thread's entries take. -/
def spillUsed (es : List TapeSpill) : Nat := (es.map spillSize).sum

/-- The span that holds `low` (09 R171): its descriptor and the next span's, found from the current descriptor back. -/
def spanAt (v : TapeView) : Nat → Nat → Option Nat → Nat × Option Nat
  | 0, d, next => (d, next)
  | fuel + 1, d, next =>
    if d ≤ v.t.low then (d, next)
    else
      let p := spanPrev (v.desc d)
      if p = 0 || d < p then (d, next) else spanAt v fuel (d - p) (some d)

/-- Bytes appended to a span's spill entry (09 R171). -/
def appendSpill (es : List TapeSpill) (start : Nat) (bs : List Byte) : List TapeSpill :=
  if es.any (fun e => e.start = start && !e.stub) then
    es.map (fun e => if e.start = start && !e.stub then { e with bytes := e.bytes ++ bs } else e)
  else es ++ [{ thread := 0, start := start, bytes := bs, stub := false }]

/-- The stub of a span: its descriptor with dropped set, and its waypoint (09 R171). -/
def stubOf (v : TapeView) (d : Nat) : TapeSpill :=
  let x := v.desc d
  { thread := 0, start := d, stub := true,
    bytes := bytesOf (x ||| (1#32 <<< (30 : Nat))).toNat 4 ++ v.read (d + 4) (spanLen x) }

/-- One step of the overflow (09 R171). -/
def spillStep (v : TapeView) : TapeView :=
  let q := spanAt v v.share v.t.cs none
  let d := q.1
  let detour := decide (d = v.t.low) && spanDetour (v.desc d)
  match q.2 with
  | some next =>
    if detour then { v with spill := v.spill ++ [stubOf v d], t := { v.t with low := next } }
    else { v with spill := appendSpill v.spill d (v.read v.t.low (next - v.t.low)), t := { v.t with low := next } }
  | none =>
    if detour then { v with spill := v.spill ++ [stubOf v d], t := { v.t with low := v.t.top, dropped := true } }
    else
      let k := min (min 256 v.share) (v.t.top - v.t.low)
      { v with spill := appendSpill v.spill d (v.read v.t.low k), t := { v.t with low := v.t.low + k } }

/-- Making room for n bytes; none where the spill area lacks it (09 R170, R171). -/
def makeRoom (n : Nat) : Nat → TapeView → Option TapeView
  | 0, _ => none
  | fuel + 1, v =>
    if v.t.top + n - v.t.low ≤ v.share then some v
    else
      let w := spillStep v
      if w.t.low ≤ v.t.low || v.per < spillUsed w.spill then none else makeRoom n fuel w

/-- TREC in one thread (09 R168, R170, R171; 18 R354): the tape after it, or its error code. -/
def trecOn (v : TapeView) (bs : List Byte) : Except Nat TapeView :=
  let n := bs.length
  if v.share = 0 then .error 0x10
  else if !v.t.span then .error 0x11
  else if v.t.dropped then .ok v
  else if 2 ^ 24 - 1 < v.t.top + n - v.t.cs then .error 0x12
  else if 2 ^ 32 - 1 < v.t.top + n then .error 0x13
  else
    match makeRoom n (v.share + 1) v with
    | none => .error 0x13
    | some w =>
      if w.t.dropped then .ok w
      else
        let x := w.write w.t.top bs
        .ok { x with t := { x.t with top := x.t.top + n } }

/-- TSPAN in one thread (09 R169 to R171; 18 R355). -/
def tspanOn (v : TapeView) (detour : Bool) (bs : List Byte) : Except Nat TapeView :=
  let n := 4 + bs.length
  if v.share = 0 then .error 0x10
  else if v.t.refill then .error 0x14
  else if 2 ^ 32 - 1 < v.t.top + n then .error 0x13
  else
    match makeRoom n (v.share + 1) v with
    | none => .error 0x13
    | some w =>
      let prev := if w.t.span then w.t.top - w.t.cs else 0
      let d := prev + 2 ^ 24 * bs.length + (if detour then 2 ^ 31 else 0)
      let x := w.write w.t.top (bytesOf d 4 ++ bs)
      .ok { x with t := { x.t with cs := w.t.top, top := w.t.top + n, span := true, dropped := false } }

/-- Whether the current span stands dropped in the spill area (09 R173). -/
def TapeView.stub? (v : TapeView) : Option TapeSpill := v.spill.find? (fun e => e.start = v.t.cs && e.stub)

/-- Bringing back a part of the current span's spill entry (09 R172, 25 R404). -/
def bringBack (v : TapeView) : TapeView :=
  match v.spill.find? (fun e => !e.stub && e.start + e.bytes.length = v.t.low && !e.bytes.isEmpty) with
  | none => v
  | some e =>
    let room := v.share - (v.t.top - v.t.low)
    let k := min room e.bytes.length
    let left := e.bytes.length - k
    let w := v.write (v.t.low - k) (e.bytes.drop left)
    let rest := v.spill.erase e
    { w with
      spill := if left = 0 then rest else rest ++ [{ e with bytes := e.bytes.take left }]
      t := { w.t with low := v.t.low - k } }

/-- Bringing back parts until an offset is resident (09 R172). -/
def resident (o : Nat) : Nat → TapeView → TapeView
  | 0, v => v
  | fuel + 1, v => if v.t.low ≤ o then v else
      let w := bringBack v
      if w.t.low < v.t.low then resident o fuel w else v

/-- The result of a TPOP in one thread: the tape, the four values, pd, and whether a byte was poisoned. -/
structure Popped where
  v   : TapeView
  ws  : List Word
  pd  : Bool
  bad : Bool
  deriving DecidableEq, Repr

/-- Whether a range of the share has a poisoned scratch word. -/
def TapeView.poisoned (v : TapeView) (o n : Nat) : Bool :=
  !v.c.spoison.isEmpty && (List.range n).any (fun i => NMap.get false v.c.spoison ((v.base + (o + i) % v.share) / 4))

/-- TPOP of a span that was dropped: the waypoint comes back and refill mode begins (09 R173). -/
def popStub (v : TapeView) (e : TapeSpill) : Popped :=
  let d := BitVec.ofNat 32 (natOfBytes (e.bytes.take 4))
  let fresh : Word := (d &&& ~~~(1#32 <<< (30 : Nat))) ||| (1#32 <<< (29 : Nat))
  let wp := e.bytes.drop 4
  let v1 := { v with spill := v.spill.erase e }
  let v2 := v1.write e.start (bytesOf fresh.toNat 4 ++ wp)
  let ws := decodeSlots (trailerCodes (wp.getLastD 0#8)) wp
  { v := { v2 with t := { v2.t with low := e.start, top := e.start + 4 + spanLen d, dropped := false, refill := true } },
    ws := ws, pd := true, bad := false }

/-- TPOP in one thread (09 R172, R173; 18 R356). -/
def tpopOn (v0 : TapeView) : Except Nat Popped :=
  if v0.share = 0 then .error 0x10
  else if !v0.t.span then .error 0x15
  else
    match v0.stub? with
    | some e => .ok (popStub v0 e)
    | none =>
      let v1 := resident (v0.t.top - 1) 64 v0
      let codes := trailerCodes ((v1.read (v1.t.top - 1) 1).headD 0#8)
      let n := (codes.map codeLen).sum + 1
      let r := v1.t.top - n
      let way := decide (r ≤ v1.t.cs + 4)
      let v2 := resident (if way then v1.t.cs else r) 64 v1
      let ws := decodeSlots codes (v2.read r n)
      let bad := v2.poisoned r n
      if !way then
        .ok { v := { v2 with t := { v2.t with top := r, refill := false } }, ws := ws, pd := false, bad := bad }
      else
        let d := v2.desc v2.t.cs
        let p := spanPrev d
        if spanLen d = 0 || 17 < spanLen d || v2.t.cs < p then .error 0x16
        else
          let cs := v2.t.cs - p
          let t : Tape := { v2.t with top := v2.t.cs, cs := cs, span := decide (p ≠ 0), refill := false, low := min v2.t.low v2.t.cs }
          let w := { v2 with t := t }
          .ok { v := { w with t := { t with dropped := t.span && w.stub?.isSome } }, ws := ws, pd := false, bad := bad }

/-- TSEEK.clr in one thread (18 R357). -/
def tclrOn (v : TapeView) : TapeView := { v with t := {}, spill := [] }

/-- A tape instruction over the acting threads: the failing threads' fault, or every thread's result (18 R358). -/
def tapeAll {α : Type} (s : State) (ls : List Nat) (f : State → Nat → Except Nat (State × α)) :
    Except FaultRec (State × List (Nat × α)) :=
  let bad := ls.filterMap (fun l => match f s l with
    | .error e => some (l, e)
    | .ok _ => none)
  match bad with
  | (_, e) :: _ => .error { kind := 0x14, sub := e, mask := maskOf (bad.map (·.1)) }
  | [] =>
    .ok (ls.foldl (fun (r : State × List (Nat × α)) l =>
      match f r.1 l with
      | .ok (s1, x) => (s1, r.2 ++ [(l, x)])
      | .error _ => r) (s, []))

end Sys2Proof.Machine
end

