-- ==== Sys2Proof/Machine/EngIns.lean ====
section
/-! DEFINITION. ENG majors 0 to 9 (18 R335 to R358) and the events of the copy engine (06 R111 to R116; 04 R87 to R90). -/

namespace Sys2Proof.Machine

/-- The roles that the engine instructions are granted to (02 R48, 18 R339). -/
def engRole (r : Role) : Bool := decide (r = .general ∨ r = .feed)

/-- The checks 4 to 6 of 18 R339; `f` goes on. -/
def engStart (us : List Use) (s0 : State) (f : State → Out) : Out :=
  let s := settleIdx s0 us none
  match checkUses s us none with
  | some e => faultOut s e
  | none =>
    match checkReady s (useLocs s us) with
    | some e => faultOut s e
    | none => if engRole s.cv.role then f (settleReads s us []) else faultOut s (roleFault s)

/-- The threads of the entry with the units issued so far, for the order of a command after their stores (04 R87). -/
def issuers (s : State) : List (Nat × Nat × Nat) := (lanes (activeMask s)).map (fun t => (s.cv.id, t, s.cv.useq))

/-- A command enters the copy queue, which it waits for when it is full (06 R111, 18 R337). -/
def enterCopy (st : Stall) (t : Tok) (c : Cmd) (s : State) : Out :=
  if 64 ≤ s.ch.cq.length then .next (waitIssue s)
  else
    withUnit st t [] s (fun s =>
      let m := { c with seq := s.ch.nextCmd, convoy := s.cv.id, after := issuers s }
      { s with ch := { s.ch with cq := s.ch.cq ++ [m], nextCmd := s.ch.nextCmd + 1 } })

/-- The barrier that a quad word names, and whether the word is one the entry refuses (18 R340). -/
def bindWord (bind : Bool) (w : Word) : Option Nat × Bool :=
  (if bind then some (16 * (w.toNat % 65536)) else none, decide (w.extractLsb' 16 16 ≠ 0#16) || (!bind && decide (w.extractLsb' 0 16 ≠ 0#16)))

/-- ECOPY (18 R340, R341). -/
def execEcopy (st : Stall) (a b c : Src) (follow bind rel acq : Bool) (t : Tok) (s0 : State) : Out :=
  engStart [⟨0, a, 2⟩, ⟨1, b, 2⟩, ⟨2, c, 4⟩] s0 (fun s =>
    let l := lowest s
    let q := rdQuad s c l
    let w := bindWord bind (q.getD 2 0#32)
    let bad := w.2 || decide (q.getD 3 0#32 ≠ 0#32)
    enterCopy st t
      { seq := 0, kind := .tensor, src := rd64 s a l, dst := 0#64, mile := rd64 s b l, bind := w.1,
        follow := if follow then some (q.getD 0 0#32, q.getD 1 0#32) else none, acq := acq, rel := rel,
        err := if bad then some (1, 0) else none } s)

/-- ECOPYS (18 R340, R341). -/
def execEcopys (st : Stall) (a b c : Src) (l : Layout) (bind rel acq : Bool) (t : Tok) (s0 : State) : Out :=
  engStart [⟨0, a, 2⟩, ⟨1, b, 2⟩, ⟨2, c, 4⟩] s0 (fun s =>
    let k := lowest s
    let q := rdQuad s c k
    let w := bindWord bind (q.getD 3 0#32)
    enterCopy st t
      { seq := 0, kind := .linear, source := 1, src := rd64 s a k, dst := rd64 s b k,
        mile := DWord.ofWords (q.getD 0 0#32) (q.getD 1 0#32), len := (q.getD 2 0#32).toNat, slayout := l, dlayout := l,
        bind := w.1, acq := acq, rel := rel, err := if w.2 then some (1, 0) else none } s)

/-- ECHAIN (18 R343). -/
def execEchain (st : Stall) (a b : Src) (t : Tok) (s0 : State) : Out :=
  engStart [⟨0, a, 2⟩, ⟨1, b, 2⟩] s0 (fun s =>
    let k := lowest s
    if s.ch.pchain.isSome then .next (waitIssue s)
    else
      withUnit st t [] s (fun s =>
        let x : Chain :=
          { no := s.ch.nchain + 1, head := (rd64 s a k).toNat, resume := (rd64 s a k).toNat, tail := (rd64 s b k).toNat,
            convoy := s.cv.id, after := issuers s }
        let c := { s.ch with nchain := s.ch.nchain + 1 }
        { s with ch := if c.chain.isNone then { c with chain := some x } else { c with pchain := some x } }))

/-- EADV (18 R344). -/
def execEadv (st : Stall) (a : Src) (t : Tok) (s0 : State) : Out :=
  engStart [⟨0, a, 2⟩] s0 (fun s =>
    let va := (rd64 s a (lowest s)).toNat
    withUnit st t [] s (fun s =>
      match s.ch.chain with
      | none => s
      | some x =>
        if x.last = some va then s
        else { s with ch := { s.ch with chain := some { x with tail := va, after := x.after ++ issuers s } } }))

/-- EWAIT (06 R112, 18 R345). -/
def execEwait (st : Stall) (p : Pn) (a b : Src) (s : State) : Out :=
  withUses [⟨0, a, 2⟩, ⟨1, b, 2⟩] 7 s (fun s =>
    let k := (rd64 s b (lowest s)).toNat % 2 ^ 63
    match wholeAddr s (rd64 s a (lowest s)) 8 false with
    | .fault s1 f => faultOut s1 f
    | .stall s1 => .next (stallRetry s1)
    | .lost s1 => .next (retire st s1)
    | .ok s1 pa _ =>
      let m : DWord := BitVec.ofNat 64 (memNat s1 pa 8)
      if poisoned s1 (lineOf pa) then
        let f : FaultRec :=
          { kind := 0x15, addr := 128 * lineOf pa, mask := activeMask s1, pc := some (curPc s1), ord := s1.cv.useq }
        let s2 := setPredMask s1 p.toNat (activeMask s1) true
        .next (retire st { s2 with cv := noteConsumed s2.cv f })
      else if k ≤ m.toNat % 2 ^ 63 then
        .next (retire st (setPredMask (invalidateL1 s1 s1.ch.core) p.toNat (activeMask s1) (m.getLsbD 63)))
      else .next (waitEntry (.ewait pa k) s1))

/-- COLL (06 R126, 18 R346): the command joins the package's collective engine; one of a session cohort sets the external flag (35
R528). -/
def execColl (st : Stall) (a b : Src) (rel acq : Bool) (t : Tok) (s0 : State) : Out :=
  engStart [⟨0, a, 2⟩, ⟨1, b, 2⟩] s0 (fun s =>
    let k := lowest s
    let va := rd64 s a k
    let mile := rd64 s b k
    withUnit st t [] s (fun s =>
      let x : Coll :=
        { core := s.ch.core, slot := s.ch.slot, uid := s.ch.uid, convoy := s.cv.id, seq := s.ch.nextCmd, recVa := va, mile := mile,
          acq := acq, rel := rel, after := issuers s }
      { s with
        colls := s.colls ++ [x], ch := { s.ch with nextCmd := s.ch.nextCmd + 1 }
        session := s.session.map (fun y => { y with external := y.external || s.ch.session }) }))

/-- The units of a tape instruction, one for each acting thread, with the writes each is to make (18 R337). -/
def tapeUnits (st : Stall) (t : Tok) (s : State) (ws : List (Nat × List (Loc × DWord))) : Out :=
  .next (retire st { s with cv := addUnits s.cv (ws.map (fun e => { newUnit s t .value with mask := unitMask (newUnit s t .value) [e.1], writes := e.2 })) })

/-- The checks of a tape instruction (18 R339), its effect on the tapes, and its units. The place of a poisoned pop is
noted as Poison Consumed in the scratch (29 R458). -/
def tapeOp {α : Type} (st : Stall) (t : Tok) (us : List Use) (d : Option (Dst × Nat)) (ps : List Loc) (s0 : State)
    (f : State → Nat → Except Nat (State × α)) (out : State → Nat → α → List (Loc × DWord)) (poison : α → Bool) : Out :=
  let s := settleIdx s0 us (d.map (·.1))
  match checkUses s us d with
  | some e => faultOut s e
  | none =>
    match checkReady s (useLocs s us ++ ps ++ (match d with
        | some (x, n) => dstLocs s x n
        | none => [])) with
    | some e => faultOut s e
    | none =>
      let s1 := settleReads s us []
      if !(tokRoom s1.cv t.toNat (actLanes s1).length) then .next (waitIssue s1)
      else
        match tapeAll s1 ((actLanes s1).filter (clean s1)) f with
        | .error e => faultOut s1 e
        | .ok (s2, rs) =>
          let bad := maskOf ((rs.filter (fun r => poison r.2)).map (·.1))
          let s3 := if bad = 0#32 then s2 else
            { s2 with cv := noteConsumed s2.cv {
                kind := 0x15, sub := 1, mask := bad, pc := some (curPc s2), ord := s2.cv.useq } }
          let of (l : Nat) : List (Loc × DWord) := match rs.find? (fun r => r.1 = l) with
            | some r => if poison r.2 then [] else out s3 l r.2
            | none => []
          tapeUnits st t s3 ((actLanes s3).map (fun l => (l, of l)))

/-- The masked values of TREC and TSPAN (18 R353). -/
def slotUses (v : Fin 93) (mask : BitVec 4) : List Use :=
  ((List.finRange 4).filter (fun j => mask.getLsbD j.val)).map (fun j => ⟨0, .main ⟨v.val + j.val, by omega⟩, 1⟩)

/-- The bounds of the four registers of a tape instruction, whatever the mask (18 R338). -/
def groupCheck (s : State) (pos : Nat) (v : Fin 93) : Option FaultRec :=
  if v.val + 4 ≤ window s then none else some (boundsFault pos v.val (activeMask s))

/-- The four values of a thread (18 R353). -/
def slotVals (s : State) (v : Fin 93) (l : Nat) : List Word := (List.range 4).map (fun j => (readLoc s (.main (v.val + j) l)).lo)

/-- TREC (18 R354). -/
def execTrec (st : Stall) (v : Fin 93) (mask : BitVec 4) (t : Tok) (s : State) : Out :=
  match groupCheck s 0 v with
  | some e => faultOut s e
  | none =>
    tapeOp st t (slotUses v mask) none [] s
      (fun s l => (trecOn (viewTape s l) (tapeRecord (slotVals s v l) mask)).map (fun x => (putTape s l x, ())))
      (fun _ _ _ => []) (fun _ => false)

/-- TSPAN (18 R355). -/
def execTspan (st : Stall) (v : Fin 93) (detour : Bool) (mask : BitVec 4) (t : Tok) (s : State) : Out :=
  match groupCheck s 0 v with
  | some e => faultOut s e
  | none =>
    tapeOp st t (slotUses v mask) none [] s
      (fun s l => (tspanOn (viewTape s l) detour (tapeRecord (slotVals s v l) mask)).map (fun x => (putTape s l x, ())))
      (fun _ _ _ => []) (fun _ => false)

/-- TPOP (09 R172, R173; 18 R356). -/
def execTpop (st : Stall) (v : Fin 93) (p : Pn) (t : Tok) (s : State) : Out :=
  match groupCheck s 3 v with
  | some e => faultOut s e
  | none =>
    let dst (l : Nat) : List Loc := (List.range 4).map (fun j => .main (v.val + j) l)
    tapeOp st t [] none (predLocs s p.toNat ++ (actLanes s).flatMap dst) s
      (fun s l => (tpopOn (viewTape s l)).map (fun x => (putTape s l x.v, x)))
      (fun _ l x => (List.zip (dst l) (x.ws.map (fun w => w.setWidth 64))) ++
        (if p = 7#3 then [] else [(Loc.pred p.toNat l, BitVec.ofNat 64 (b2n x.pd))])) (fun x => x.bad)

/-- TSEEK (18 R357): .pos with a destination, else .clr. A share of 0 has no tape (18 R358). -/
def execTseek (st : Stall) (d : Option Dst) (t : Tok) (s : State) : Out :=
  let noTape (s : State) : Bool := decide (tapeBytes s.ch.desc = 0)
  match d with
  | none =>
    tapeOp st t [] none [] s
      (fun s l => if noTape s then .error 0x10 else .ok (putTape s l (tclrOn (viewTape s l)), ()))
      (fun _ _ _ => []) (fun _ => false)
  | some d =>
    tapeOp st t [] (some (d, 1)) [] s
      (fun s l => if noTape s then .error 0x10 else .ok (s, (viewTape s l).t.top))
      (fun s l x => dstWrites s d 1 l (BitVec.ofNat 64 x)) (fun _ => false)

/-- A step at a slot's copy queue for one of its commands. -/
def atCmd (s : State) (r : SlotRef) (seq : Nat) (f : State → Cmd → State) : Out :=
  atSlot s r (fun s =>
    match s.ch.cq.find? (fun c => c.seq = seq) with
    | some c => f s c
    | none => s)

/-- COPY_COMMAND_START (06 R111; 04 R87, R88). -/
def execCopyCommandStart (at_ : SlotRef) (s : State) : Out := atSlot s at_ startCmd

/-- COPY_ELEMENT_READ (18 R342). -/
def execCopyElementRead (at_ : SlotRef) (seq : Nat) (s : State) : Out := atCmd s at_ seq readElem

/-- ENGINE_WRITE_LAND (04 R87 to R90, R541): write k of the focused cohort. -/
def execEngineWriteLand (k : Nat) (s : State) : Out := .next (landWrite s k)

/-- FOLLOW_ON_MMA_HANDOVER (06 R116, 17 R334). -/
def execFollowOnMmaHandover (at_ : SlotRef) (seq : Nat) (s : State) : Out := atCmd s at_ seq handOver

/-- CHAIN_RECORD_TAKE (06 R115, 18 R343). -/
def execChainRecordTake (at_ : SlotRef) (s : State) : Out := atSlot s at_ takeRecord

end Sys2Proof.Machine
end

