-- ==== Sys2Proof/Machine/Sync.lean ====
section
/-! DEFINITION. The CTL class, second part (16 R311 to R318): barriers, tickets, spawning, junctions, handoff and register donation;
and the completion of the units that they add. -/

namespace Sys2Proof.Machine

/-- The checks of a barrier offset (16 R299, R312): alignment, then the bounds of scratch. -/
def barrierCheck (s : State) (off : Nat) : Option FaultRec :=
  if off % 16 ≠ 0 then some { kind := 0x0C, addr := off, mask := activeMask s }
  else if scrSize s.ch < off + 16 then some { kind := 0x0E, sub := 2, addr := off, mask := activeMask s }
  else none

/-- The check of a range of full-empty bits (16 R311). -/
def rangeCheck (s : State) (off n : Nat) : Option FaultRec :=
  if scrSize s.ch < off + n then some { kind := 0x0E, sub := 2, addr := off, mask := activeMask s } else none

/-- One scratch piece of each acting thread, for the order its threads keep (04 R79). -/
def wholePieces (s : State) (off n : Nat) (d : Option Dst) : List Piece :=
  (actLanes s).map (fun t =>
    { lane := t, scr := true, addr := off, va := off, n := n,
      dst := match d with
        | some d => (dstLoc s d t 0).toList
        | none => [] })

/-- An instruction that adds one unit of its own kind, after its checks (16 R299). -/
def unitOp (st : Stall) (t : Tok) (us : List Use) (d : Option Dst) (check : State → Option FaultRec)
    (u : State → Pending) (s0 : State) : Out :=
  let s := settleIdx s0 us d
  match checkUses s us (d.map (fun x => (x, 1))) with
  | some e => faultOut s e
  | none =>
    match checkReady s (useLocs s us ++ (match d with
        | some x => dstLocs s x 1
        | none => [])) with
    | some e => faultOut s e
    | none =>
      let s1 := settleReads s us []
      match check s1 with
      | some e => faultOut s1 e
      | none =>
        if tokRoom s1.cv t.toNat 1 then .next (retire st { s1 with cv := addUnits s1.cv [u s1] })
        else .next (waitIssue s1)

/-- BINIT (16 R311). -/
def execBinit (st : Stall) (range : Bool) (a b : Src) (t : Tok) (s : State) : Out :=
  unitOp st t [⟨0, a, 1⟩, ⟨1, b, 1⟩] none
    (fun s =>
      let x := (rd32 s a (lowest s)).toNat
      let n := (rd32 s b (lowest s)).toNat
      if range then rangeCheck s x n else barrierCheck s x)
    (fun s =>
      let x := (rd32 s a (lowest s)).toNat
      let n := (rd32 s b (lowest s)).toNat
      { newUnit s t (.binit range x n) with pieces := wholePieces s x (if range then n else 16) none }) s

/-- BARV (16 R312); its release comes before the arrival (04 R74). -/
def execBarv (st : Stall) (d : Dst) (a b : Src) (t : Tok) (s : State) : Out :=
  unitOp st t [⟨0, a, 1⟩, ⟨1, b, 1⟩] (some d) (fun s => barrierCheck s (rd32 s a (lowest s)).toNat)
    (fun s =>
      let x := (rd32 s a (lowest s)).toNat
      { newUnit s t (.barv x (rd32 s b (lowest s)).toNat) with pieces := wholePieces s x 16 (some d), rel := true }) s

/-- BWAIT (05 R102, 16 R312). -/
def execBwait (st : Stall) (p : Pn) (a b : Src) (s : State) : Out :=
  withUses [⟨0, a, 1⟩, ⟨1, b, 1⟩] 7 s (fun s =>
    let x := (rd32 s a (lowest s)).toNat
    let target : BitVec 16 := (rd32 s b (lowest s)).extractLsb' 0 16
    match barrierCheck s x with
    | some e => faultOut s e
    | none =>
      match (getBarrier s.ch x).await target with
      | some bad => .next (retire st (setPredMask (invalidateL1 s s.ch.core) p.toNat (activeMask s) bad))
      | none => .next (waitEntry (.bwait x target) s))

/-- TICKET (05 R106, 16 R313). -/
def execTicket (st : Stall) (d : Dst) (a : Src) (t : Tok) (s0 : State) : Out :=
  let us : List Use := [⟨0, a, 2⟩]
  let s := settleIdx s0 us (some d)
  match checkUses s us (some (d, 1)) with
  | some e => faultOut s e
  | none =>
    match checkReady s (useLocs s us ++ dstLocs s d 1) with
    | some e => faultOut s e
    | none =>
      let s1 := settleReads s us []
      match wholeAddr s1 (rd64 s1 a (lowest s1)) 8 true with
      | .fault s2 f => faultOut s2 f
      | .stall s2 => .next (stallRetry s2)
      | .lost s2 => .next (retire st s2)
      | .ok s2 pa key =>
        if s2.ch.ticket.isSome && s2.ch.ticket ≠ some (pa, key) then
          faultOut s2 { kind := 0x0E, sub := 6, addr := (rd64 s1 a (lowest s1)).toNat, mask := activeMask s2 }
        else if !(tokRoom s2.cv t.toNat 1) then .next (waitIssue s2)
        else
          let v : DWord := BitVec.ofNat 64 (s2.ch.linear % 2 ^ 32)
          let u := { newUnit s2 t .value with
            writes := ((actLanes s2).filter (clean s2)).flatMap (fun k => dstWrites s2 d 1 k v) }
          .next (retire st { s2 with ch := { s2.ch with ticket := some (pa, key) }, cv := addUnits s2.cv [u] })

/-- The fault of TKWAIT and TKDONE with no counter held (05 R106). -/
def noTicket (s : State) : FaultRec := { kind := 0x0E, sub := 6, mask := activeMask s }

/-- The held counter's word. -/
def ticketWord (s : State) (pa : Nat) : DWord := BitVec.ofNat 64 (memNat s pa 8)

/-- TKWAIT (05 R107, 16 R313). -/
def execTkwait (st : Stall) (p : Pn) (s : State) : Out :=
  match s.ch.ticket with
  | none => faultOut s (noTicket s)
  | some (pa, _) =>
    let x := ticketWord s pa
    if x.getLsbD 63 then .next (retire st (setPredMask s p.toNat (activeMask s) true))
    else if s.ch.linear ≤ serving x then
      .next (retire st (setPredMask (invalidateL1 s s.ch.core) p.toNat (activeMask s) false))
    else .next (waitEntry .tkwait s)

/-- The counter with its serving field set (05 R105). -/
def withServing (x : DWord) (k : Nat) : DWord := x.extractLsb' 33 31 ++ BitVec.ofNat 33 k

/-- TKDONE (05 R107, 16 R313). The pass is a release, so it waits for the entry's earlier accesses. -/
def execTkdone (st : Stall) (p : Pn) (s : State) : Out :=
  match s.ch.ticket with
  | none => faultOut s (noTicket s)
  | some (pa, key) =>
    let x := ticketWord s pa
    let done (b : Bool) (s : State) : Out := .next (retire st (setPredMask s p.toNat (activeMask s) b))
    if x.getLsbD 63 then done true s
    else if s.ch.linear < serving x then done false { s with ch := { s.ch with passed := true } }
    else if serving x < s.ch.linear || accessPending s.cv (activeMask s) then .next (waitEntry .tkdone s)
    else
      let s1 := releaseStores s (activeMask s)
      let s2 := writeCoherent s1 none pa key (bytesOf (withServing x (s.ch.linear + 1)).toNat 8)
      done false { s2 with ch := { s2.ch with passed := true } }

/-- The payload of a thread (07 R128). -/
def payload (s : State) (first : BitVec 8) (count : Fin 9) (t : Nat) : List Word :=
  (List.range count.val).map (fun j => (readLoc s (.main (first.toNat + j) t)).lo)

/-- The payload's registers, for the scoreboard. -/
def payloadLocs (s : State) (first : BitVec 8) (count : Fin 9) : List Loc :=
  (actLanes s).flatMap (fun t => (List.range count.val).map (fun j => Loc.main (first.toNat + j) t))

/-- The bounds check of the payload (16 R314). -/
def payloadCheck (s : State) (first : BitVec 8) (count : Fin 9) : Option FaultRec :=
  if count.val = 0 || decide (first.toNat + count.val ≤ window s ∧ first.toNat + count.val ≤ 192) then none
  else some (boundsFault 2 first.toNat (activeMask s))

/-- SPAWN and SPAWNT: `pd` is the predicate of SPAWNT (07 R128, R129; 16 R314, R315). -/
def spawnOp (st : Stall) (pd : Option Nat) (a b : Src) (first : BitVec 8) (count : Fin 9) (t : Tok) (s0 : State) : Out :=
  let us : List Use := [⟨0, a, 2⟩, ⟨1, b, 2⟩]
  let s := settleIdx s0 us none
  match (checkUses s us none).or (payloadCheck s first count) with
  | some e => faultOut s e
  | none =>
    let pls := match pd with
      | some k => predLocs s k
      | none => []
    match checkReady s (useLocs s us ++ payloadLocs s first count ++ pls) with
    | some e => faultOut s e
    | none =>
      let s1 := settleReads s us (payloadLocs s first count)
      let desc := rd64 s1 a (lowest s1)
      let j := rd64 s1 b (lowest s1)
      if j.toNat % 16 ≠ 0 then faultOut s1 { kind := 0x0C, addr := j.toNat, mask := activeMask s1 }
      else
        match spawnDesc s1 desc with
        | (none, s2) => .next (stallRetry s2)
        | (some false, s2) => faultOut s2 { kind := 0x0E, sub := 7, addr := desc.toNat, mask := activeMask s2 }
        | (some true, s2) =>
          let go (s : State) (at_ : Option (Nat × Nat)) : Out :=
            let k := s.ch.spawnk
            let budget := s.ch.desc.spawnb
            let act := actLanes s
            if pd.isNone && budget < k + act.length then
              faultOut s { kind := 0x12, aux := k + 2 ^ 32 * budget, mask := activeMask s }
            else
              let mine := act.take (budget - k)
              if !(tokRoom s.cv t.toNat 1) || (!mine.isEmpty && !(canSpawn s s.ch.core desc.toNat s.ch.rcb mine.length)) then
                .next (waitIssue s)
              else
                let ws : List (Loc × DWord) := match pd with
                  | some p => if p = 7 then [] else
                      act.map (fun l => (Loc.pred p l, BitVec.ofNat 64 (b2n (mine.any (· = l)))))
                  | none => []
                let u := { newUnit s t (.spawn desc j at_ (mine.map (fun l => (l, payload s first count l)))) with
                  writes := ws, rel := true }
                .next (retire st { s with ch := { s.ch with spawnk := k + mine.length }, cv := addUnits s.cv [u] })
          if j = 0#64 then go s2 none
          else
            match wholeAddr s2 j 16 true with
            | .fault s3 f => faultOut s3 f
            | .stall s3 => .next (stallRetry s3)
            | .lost s3 => .next (retire st s3)
            | .ok s3 pa key => go s3 (some (pa, key))

/-- SPAWN (16 R314, R315). -/
def execSpawn (st : Stall) (a b : Src) (first : BitVec 8) (count : Fin 9) (t : Tok) (s : State) : Out :=
  spawnOp st none a b first count t s

/-- SPAWNT (16 R314, R315). -/
def execSpawnt (st : Stall) (p : Pn) (a b : Src) (first : BitVec 8) (count : Fin 9) (t : Tok) (s : State) : Out :=
  spawnOp st (some p.toNat) a b first count t s

/-- JUNC (16 R316). -/
def execJunc (st : Stall) (d : Dst) (a : Src) (s0 : State) : Out :=
  let us : List Use := [⟨0, a, 2⟩]
  let s := settleIdx s0 us (some d)
  match checkUses s us (some (d, 2)) with
  | some e => faultOut s e
  | none =>
    match checkReady s (useLocs s us ++ dstLocs s d 2) with
    | some e => faultOut s e
    | none =>
      let s1 := settleReads s us []
      match wholeAddr s1 (rd64 s1 a (lowest s1)) 16 true with
      | .fault s2 f => faultOut s2 f
      | .stall s2 => .next (stallRetry s2)
      | .lost s2 => .next (retire st s2)
      | .ok s2 pa key =>
        let old : DWord := BitVec.ofNat 64 (memNat s2 pa 8)
        let new : DWord := 0#1 ++ old.extractLsb' 32 31 ++ 0#32
        let s3 := writeCoherent (registerRange s2 s2.ch.core pa 8) none pa key (bytesOf new.toNat 8)
        let ws := ((actLanes s3).filter (clean s3)).flatMap (fun t => dstWrites s3 d 2 t old)
        .next (retire st (ws.foldl (fun s e => writeLoc s e.1 e.2) s3))

/-- JWAIT (07 R132, R135, R136; 16 R316): the queues with the cohort's records are flushed first. -/
def execJwait (st : Stall) (p : Pn) (a : Src) (s : State) : Out :=
  withUses [⟨0, a, 2⟩] 7 s (fun s =>
    match wholeAddr s (rd64 s a (lowest s)) 16 false with
    | .fault s1 f => faultOut s1 f
    | .stall s1 => .next (stallRetry s1)
    | .lost s1 => .next (retire st s1)
    | .ok s1 pa _ =>
      let s2 := flushSpawns s1 s1.ch.uid
      let x : DWord := BitVec.ofNat 64 (memNat s2 pa 8)
      if x.getLsbD 63 then .next (retire st (setPredMask s2 p.toNat (activeMask s2) true))
      else if x.extractLsb' 0 32 = 0#32 then
        .next (retire st (setPredMask (invalidateL1 s2 s2.ch.core) p.toNat (activeMask s2) false))
      else .next (waitEntry (.jwait pa) s2))

/-- HANDOFF arrives (07 R138, R139; 16 R317); the rendezvous is an event. -/
def execHandoff (st : Stall) (a b : Fin 8) (s : State) : Out :=
  let _ := st
  let ua : Src := .uni ⟨2 * a.val, by omega⟩
  let ub : Src := .uni ⟨2 * b.val, by omega⟩
  match checkReady s (useLocs s [⟨0, ua, 2⟩, ⟨1, ub, 2⟩]) with
  | some e => faultOut s e
  | none =>
    let s1 := settleReads s [⟨0, ua, 2⟩, ⟨1, ub, 2⟩] []
    let desc := rd64 s1 ua (lowest s1)
    let inh := rd64 s1 ub (lowest s1)
    if inh.extractLsb' 54 10 ≠ 0#10 || inh.getLsbD 5 then faultOut s1 { kind := 0x04, mask := activeMask s1 }
    else .next (waitEntry (.handoff desc inh) s1)

/-- Granules in use on a track of a core, per lane position (02 R21). -/
def trackGranules (s : State) (core track : Nat) : Nat :=
  (((allCohorts s).filter (fun d => d.core = core)).flatMap (fun d =>
    (d.convoys.filter (fun c => c.track = track)).map (·.budget))).sum

/-- Moving the top n granules of a donor's window to a receiver's (02 R53). -/
def moveGranules (n : Nat) (donor recv : Convoy) : Convoy × Convoy :=
  let src := 8 * (donor.budget - n) * 32
  let dst := 8 * recv.budget * 32
  let k := 8 * n * 32
  let vals := NMap.getAll 0#32 donor.main src k
  let moved := donor.rpoison.filterMap (fun l => match l with
    | .main r t => if 8 * (donor.budget - n) ≤ r && r < 8 * donor.budget
        then some (Loc.main (r - 8 * (donor.budget - n) + 8 * recv.budget) t) else none
    | _ => none)
  ({ donor with budget := donor.budget - n, main := NMap.setAll 0#32 donor.main src (List.replicate k 0#32) },
   { recv with budget := recv.budget + n, main := NMap.setAll 0#32 recv.main dst vals, rpoison := recv.rpoison ++ moved })

/-- The rendezvous of a donor and a receiver of the focused cohort (02 R53): whether the transfer took place. -/
def rendezvous (s : State) (d r n : Nat) : Bool × State :=
  let donor := getConvoy s d
  let recv := getConvoy s r
  let ok := decide (recv.budget + n ≤ 24) &&
    (decide (donor.track = recv.track) || decide (trackGranules s s.ch.core recv.track + n ≤ 64))
  if ok then
    let m := moveGranules n donor recv
    (true, mapConvoy (mapConvoy s d (fun _ => m.1)) r (fun _ => m.2))
  else (false, s)

/-- Whether every other convoy of the cohort has exited (02 R53). -/
def aloneLeft (s : State) : Bool := s.ch.convoys.all (fun c => decide (c.live = 0#32))

/-- The lowest waiting convoy that passes a test, other than the focused one (02 R51). -/
def lowestWaiting (s : State) (p : Convoy → Bool) : Option Convoy :=
  (sortConvoys s.ch.convoys).find? (fun c => p c && c.xfer.isNone && decide (c.live ≠ 0#32))

/-- A convoy of the cohort is given the result of its rendezvous. -/
def giveResult (s : State) (id : Nat) (b : Bool) : State :=
  mapConvoy s id (fun c => { c with xfer := some b, donate := none, accept := none })

/-- The end of a DONATE or ACCEPT with its result (02 R53, 16 R318). -/
def transferDone (st : Stall) (p : Pn) (b : Bool) (s : State) : Out :=
  .next (retire st (setPredMask { s with cv := { s.cv with xfer := none } } p.toNat (activeMask s) b))

/-- Whether an outstanding unit of the convoy writes a register at or above a bound (02 R52). -/
def writesAbove (c : Convoy) (r : Nat) : Bool :=
  let high (l : Loc) : Bool := match l with
    | .main n _ => decide (r ≤ n)
    | _ => false
  c.units.any (fun u => u.writes.any (fun e => high e.1) || u.pieces.any (fun q => q.dst.any high))

/-- DONATE (02 R51 to R53; 16 R318). -/
def execDonate (st : Stall) (p : Pn) (n : Fin 25) (tag : BitVec 4) (s : State) : Out :=
  match s.cv.xfer with
  | some b => transferDone st p b s
  | none =>
    if n.val = 0 || s.cv.budget < n.val + 2 then faultOut s (boundsFault 1 n.val (activeMask s))
    else if aloneLeft s then transferDone st p false s
    else
      let wait : Out := .next (waitIssue { s with cv := { s.cv with donate := some (tag.toNat, n.val) } })
      if writesAbove s.cv (8 * (s.cv.budget - n.val)) then .next (waitIssue s)
      else
        match lowestWaiting s (fun c => decide (c.accept = some tag.toNat)) with
        | none => wait
        | some r =>
          match lowestWaiting s (fun c => match c.donate with
              | some d => decide (d.1 = tag.toNat) && decide (c.id < s.cv.id)
              | none => false) with
          | some _ => wait
          | none =>
            let q := rendezvous s s.cv.id r.id n.val
            transferDone st p q.1 (giveResult q.2 r.id q.1)

/-- ACCEPT (02 R51, R53; 16 R318). -/
def execAccept (st : Stall) (p : Pn) (tag : BitVec 4) (s : State) : Out :=
  match s.cv.xfer with
  | some b => transferDone st p b s
  | none =>
    if aloneLeft s then transferDone st p false s
    else
      let wait : Out := .next (waitIssue { s with cv := { s.cv with accept := some tag.toNat } })
      match lowestWaiting s (fun c => match c.donate with
          | some d => decide (d.1 = tag.toNat)
          | none => false) with
      | none => wait
      | some d =>
        match lowestWaiting s (fun c => decide (c.accept = some tag.toNat) && decide (c.id < s.cv.id)) with
        | some _ => wait
        | none =>
          match d.donate with
          | none => wait
          | some (_, n) =>
            let q := rendezvous s d.id s.cv.id n
            transferDone st p q.1 (giveResult q.2 d.id q.1)

/-- A BINIT is performed (05 R100, 16 R311). -/
def performBinit (c : Cohort) (range : Bool) (off n : Nat) : Cohort :=
  if range then
    if n = 0 then c
    else (List.range ((off + n - 1) / 16 - off / 16 + 1)).foldl (fun c i => setFe c (off / 16 + i) false) c
  else setFe (putBarrier c off ((getBarrier c off).init n)) (off / 16) false

/-- A unit whose results were known at issue completes: its writes land (05 R109). -/
def landWrites (s : State) (u : Pending) : State :=
  let c := u.writes.foldl (fun c e => setLoc c e.1 e.2) s.cv
  { s with cv := dropUnit c u }

/-- A BARV is performed: the phase, the release and the arrival (05 R100, R101; 16 R312). -/
def performBarv (s : State) (u : Pending) (off k : Nat) : State :=
  let s1 := releaseStores s u.mask
  let b := getBarrier s1.ch off
  let c := u.pieces.foldl (fun c p => deliver p (bytesOf b.phase.toNat 4) c) s1.cv
  { s1 with ch := putBarrier s1.ch off (b.arrive k), cv := dropUnit c u }

/-- A SPAWN is performed, unless its queue cannot take the records now (16 R315, 28 R433). -/
def performSpawn (s : State) (u : Pending) (desc j : DWord) (at_ : Option (Nat × Nat)) (cs : List (Nat × List Word)) : State :=
  if !cs.isEmpty && !(canSpawn s s.ch.core desc.toNat s.ch.rcb cs.length) then s
  else landWrites (makeChildren (releaseStores s u.mask) desc j at_ cs) u

end Sys2Proof.Machine
end

