-- ==== Sys2Proof/Machine/Gsu.lean ====
section
/-! DEFINITION. The gradient scatter units (09 R175 to R177; 11 R214, R215; 04 R91, R92; 19 R378). -/

namespace Sys2Proof.Machine

/-- The L2 slice of a physical address (03, The L2). -/
def sliceOf (pa : Nat) : Nat :=
  slice pa 14 7 ^^^ slice pa 22 15 ^^^ slice pa 30 23 ^^^ slice pa 38 31 ^^^ slice pa 46 39 ^^^ slice pa 51 47

/-- The GSU of a word: its home package and slice (09 R175). -/
def gsuOf (word : Nat) : Nat × Nat := (4 * word / 2 ^ 42, sliceOf (4 * word))

/-- GsuAdd (11 R214). -/
def GsuEntry.add (e : GsuEntry) (v : Nat) : GsuEntry :=
  match fval .f32 v with
  | .nan => { e with nan := true }
  | .inf true => { e with ninf := true }
  | .inf false => { e with pinf := true }
  | .zero _ => e
  | .fin x =>
    let n := toFixed x (-149)
    if e.acc + n < -(2 ^ 319 : Int) || (2 ^ 319 : Int) - 1 < e.acc + n then { e with nan := true } else { e with acc := e.acc + n }

/-- Whether a value fits 256 bits. -/
def fits256 (x : Int) : Bool := decide (-(2 ^ 255 : Int) ≤ x) && decide (x < (2 ^ 255 : Int))

/-- The values and shifts of an entry's spill records (09 R176). -/
def spillParts (acc : Int) : List (Int × Nat) :=
  if fits256 acc then [(acc, 0)]
  else if acc % (2 ^ 32 : Int) = 0 && fits256 (acc / (2 ^ 32 : Int)) then [(acc / (2 ^ 32 : Int), 1)]
  else if acc % (2 ^ 64 : Int) = 0 && fits256 (acc / (2 ^ 64 : Int)) then [(acc / (2 ^ 64 : Int), 2)]
  else [(acc % (2 ^ 64 : Int), 0), (acc / (2 ^ 64 : Int), 2)]

/-- A 40-byte spill record (09 R176). -/
def spillRecord (e : GsuEntry) (p : Int × Nat) : BitVec 320 :=
  BitVec.ofInt 256 p.1 ++ BitVec.ofBool e.nan ++ BitVec.ofBool e.ninf ++ BitVec.ofBool e.pinf ++ BitVec.ofNat 3 p.2 ++ 0#8 ++
    BitVec.ofNat 50 e.word

/-- The lowest n free places of a spill area of a size. -/
def freePlaces (used : List Nat) (size n : Nat) : List Nat := ((List.range (min size (used.length + n))).filter (fun i => !(used.any (· = i)))).take n

/-- Writing the spill records of an entry; none where the area has no room (09 R176). -/
def spillEntry (s : State) (e : GsuEntry) : Option State :=
  let r := poolRegion s e.rcb
  let parts := spillParts e.acc
  let at_ := freePlaces ((s.gspills.filter (fun g => g.owner = r.rcb)).map (·.idx)) r.gsize parts.length
  if at_.length < parts.length then none
  else
    some ((List.zip at_ parts).foldl (fun (s : State) x =>
      let s1 := writeCoherent s none (r.gspill + 40 * x.1) (effKey s e.rcb) (bytesOf (spillRecord e x.2).toNat 40)
      { s1 with
        gspills := s1.gspills ++ [{ rcb := e.rcb, owner := r.rcb, idx := x.1, word := e.word, key := e.key }] }) s)

/-- A GSU takes in an addend for a region's word (09 R176); GSUFULL is charged to the focused convoy. -/
def gsuTake (s : State) (rcb pa key va : Nat) (v : Nat) : State :=
  let word := pa / 4
  match s.gsu.find? (fun e => e.rcb = rcb && e.word = word) with
  | some e => { s with gsu := s.gsu.erase e ++ [e.add v] }
  | none =>
    let new : GsuEntry := { rcb := rcb, word := word, key := key }
    let mine := s.gsu.filter (fun e => gsuOf e.word = gsuOf word)
    if mine.length < 2048 then { s with gsu := s.gsu ++ [new.add v] }
    else
      match mine with
      | [] => s
      | e :: _ =>
        match spillEntry s e with
        | some s1 => { s1 with gsu := s1.gsu.erase e ++ [new.add v] }
        | none =>
          let f : FaultRec := { kind := 0x14, sub := 0x18, addr := va, aux := 4 * e.word }
          { s with
            gsu := s.gsu.map (fun g => if g = e then { g with nan := true } else g)
            cv := { s.cv with bfaults := s.cv.bfaults ++ [f] } }

/-- The value and flags of a spill record as read back. -/
def readSpill (s : State) (g : GSpill) : GsuEntry :=
  let r := poolRegion s g.rcb
  let x := memNat s (r.gspill + 40 * g.idx) 40
  { rcb := g.rcb, word := g.word, key := g.key, acc := sextN 256 (slice x 319 64) * 2 ^ (32 * slice x 60 58), nan := x.testBit 63,
    ninf := x.testBit 62, pinf := x.testBit 61 }

/-- Two sums of one word joined, without a limit of width (09 R177). -/
def GsuEntry.join (e f : GsuEntry) : GsuEntry :=
  { e with acc := e.acc + f.acc, nan := e.nan || f.nan, ninf := e.ninf || f.ninf, pinf := e.pinf || f.pinf }

/-- GsuCommit (11 R215). -/
def GsuEntry.value (e : GsuEntry) : Nat :=
  if e.nan || (e.pinf && e.ninf) then 0x7FC00000
  else if e.pinf then 0x7F800000
  else if e.ninf then 0xFF800000
  else if e.acc = 0 then 0
  else enc .f32 (fresult .f32 .rne false false (.fin (Q.scaled e.acc (-149))))

/-- The commit of one word (09 R177). -/
def commitWord (s : State) (rcb word : Nat) : State :=
  let parts := s.gsu.filter (fun e => e.rcb = rcb && e.word = word) ++
    (s.gspills.filter (fun g => g.rcb = rcb && g.word = word)).map (readSpill s)
  match parts with
  | [] => s
  | e :: es =>
    let s1 := rekeyAt s (4 * word) 4 e.key
    let prior := (({ rcb := rcb, word := word, key := e.key } : GsuEntry)).add (memNat s1 (4 * word) 4)
    let total := (e :: es).foldl GsuEntry.join prior
    let s2 := writeCoherent s1 none (4 * word) e.key (bytesOf total.value 4)
    { s2 with
      gsu := s2.gsu.filter (fun g => !(g.rcb = rcb && g.word = word))
      gspills := s2.gspills.filter (fun g => !(g.rcb = rcb && g.word = word)) }

/-- The words that a region has touched since its last commit (09 R177). -/
def touched (s : State) (rcb : Nat) : List Nat :=
  distinct ((s.gsu.filter (fun e => e.rcb = rcb)).map (·.word) ++ (s.gspills.filter (fun g => g.rcb = rcb)).map (·.word))

/-- The commit of a region (04 R92, 09 R177). -/
def commitRegion (s : State) (rcb : Nat) : State := (touched s rcb).foldl (fun s w => commitWord s rcb w) s

/-- The lines that the commit of a region writes. -/
def commitLines (s : State) (rcb : Nat) : List (Nat × Bool) := (touched s rcb).map (fun w => (lineOf (4 * w), true))

/-- GSU_ADDEND (09 R176, 15 R293): the addend of unit k of the focused convoy is taken in. -/
def execGsuAddend (k : Nat) (s : State) : Out :=
  match s.cv.units[k]? with
  | none => .next s
  | some u =>
    if u.kind ≠ .scadd || !(mayComplete s.cv u) then .next s
    else
      let s1 := u.pieces.foldl (fun s p => gsuTake s s.ch.rcb p.addr p.key p.va (natOfBytes p.data)) s
      .next { s1 with cv := dropUnit s1.cv u }

/-- GSCOM (19 R378): one unit, a release and an acquire of the entry's threads (04 R92). -/
def execGscom (st : Stall) (t : Tok) (s : State) : Out :=
  if tokRoom s.cv t.toNat 1 then
    .next (retire st { s with cv := addUnits s.cv [{ newUnit s t .gscom with acq := true, rel := true }] })
  else .next (waitIssue s)

/-- GSU_COMMIT (04 R92, 09 R177): unit k of the focused convoy. -/
def execGsuCommit (k : Nat) (s : State) : Out :=
  match s.cv.units[k]? with
  | none => .next s
  | some u =>
    if u.kind ≠ .gscom || !(mayComplete s.cv u) then .next s
    else
      let s1 := commitRegion (releaseStores s u.mask) s.ch.rcb
      let s2 := invalidateL1 s1 s1.ch.core
      fcGate s (commitLines s s.ch.rcb) (.next { s2 with cv := dropUnit s2.cv u })

end Sys2Proof.Machine
end

