-- ==== Sys2Proof/Machine/Image.lean ====
section
/-! DEFINITION. The context block (28 R430; 29 R444, R447, R454, R456): its size, the image of a saved cohort and what a restore
takes from it. -/

namespace Sys2Proof.Machine

/-- A write cut at its lines: the address and bytes of each part. -/
def lineParts (pa : Nat) (bs : List Byte) : List (Nat × List Byte) :=
  (linesOf pa bs.length).map (fun l =>
    let a := max pa (128 * l)
    (a, (bs.drop (a - pa)).take (128 * l + 128 - a)))

/-- Writing bytes over any number of lines at the point of coherence, line by line. -/
def writeLong (s : State) (a key : Nat) (bs : List Byte) : State :=
  if bs.isEmpty then s else (lineParts a bs).foldl (fun s e => writeCoherent s none e.1 key e.2) s

/-- Granules of a descriptor's convoys at their start (29 R454). -/
def sumGranules (d : KDesc) : Nat := ((List.range d.convoys).map (granulesOf d)).sum

/-- Whether a descriptor has a convoy that may issue MTX instructions (29 R454, 07 R141). -/
def hasMatrix (d : KDesc) : Bool :=
  (List.range d.convoys).any (fun i => match roleOf d i with
    | .general => true
    | .compute => true
    | _ => false)

/-- Size of the saved state of a descriptor (29 R454). -/
def savedSize (d : KDesc) : Nat :=
  0x200 + 4096 * d.convoys + 1024 * sumGranules d + 32768 * d.scratch + 256 * d.scratch + 4096 +
    (if hasMatrix d then 557056 else 0) + 524288

/-- The saved state in 4 KiB pages (29 R454). -/
def savedPages (d : KDesc) : Nat := (savedSize d + 4095) / 4096

/-- Pages of one convoy's private area (27 R423, 28 R430). -/
def privPages (d : KDesc) : Nat := (d.priv * 128 + 4095) / 4096

/-- A number as little-endian bytes. -/
def le (n x : Nat) : List Byte := bytesOf x n

/-- Words as bytes. -/
def leWords (ws : List Word) : List Byte := ws.flatMap (fun w => bytesOf w.toNat 4)

/-- The header of a context block (28 R430), lowest byte first. -/
def ctxHeader (c : Cohort) (pbase rlist spawnlist : Nat) (launch : Nat) : List Byte :=
  List.replicate 192 0#8 ++ le 8 spawnlist ++ le 4 c.ccount ++ le 4 c.cfirst ++ le 8 c.tbase ++ le 8 rlist ++ le 8 pbase ++
    le 8 c.rcb ++ le 8 launch ++ le 8 c.descPtr

/-- The engine fault record (29 R447). -/
def EngFault.pack (f : EngFault) : BitVec 512 :=
  f.vaddr ++ f.chain ++ f.seq ++ f.done ++ f.later ++ f.code ++ f.source ++ BitVec.ofNat 5 f.convoy ++ 0#203

/-- The engine fault record from its 64 bytes (29 R447). -/
def EngFault.unpack (x : Nat) : EngFault :=
  { vaddr := BitVec.ofNat 64 (slice x 511 448), chain := BitVec.ofNat 64 (slice x 447 384), seq := BitVec.ofNat 64 (slice x 383 320),
    done := BitVec.ofNat 64 (slice x 319 256), later := BitVec.ofNat 32 (slice x 255 224), code := BitVec.ofNat 8 (slice x 223 216),
    source := BitVec.ofNat 8 (slice x 215 208), convoy := slice x 207 203 }

/-- The cohort block (29 R454): the order of its fields is the table's, each in 4 or 8 bytes. -/
def cohortBlock (c : Cohort) : List Byte :=
  let t := c.ticket.getD (0, 0)
  let chain (x : Option Chain) : List Byte := match x with
    | some x => le 8 x.resume ++ le 8 x.tail
    | none => le 16 0
  let bs := (List.range 8).flatMap (fun i => le 4 (NMap.get 0#32 c.q i).toNat) ++ le 4 c.claim.toNat ++
    [BitVec.ofNat 8 (b2n c.hold), BitVec.ofNat 8 (b2n c.redn), BitVec.ofNat 8 (b2n c.eftrap), c.pwrh.setWidth 8] ++
    le 8 c.travtab.toNat ++ le 4 c.handoffs.toNat ++ le 4 c.spawnk ++ le 8 c.nextCmd ++ le 8 t.1 ++ le 4 c.burst ++ le 4 0 ++
    chain c.chain ++ chain c.pchain
  bs ++ List.replicate (128 - bs.length) 0#8

/-- Taking the cohort block of an image (29 R454). -/
def takeCohortBlock (c : Cohort) (x : Nat) : Cohort :=
  let f (off n : Nat) : Nat := slice x (8 * (off + n) - 1) (8 * off)
  let chain (y : Option Chain) (off : Nat) : Option Chain := y.map (fun y => { y with resume := f off 8, tail := f (off + 8) 8 })
  { c with
    q := (List.range 8).foldl (fun m i => NMap.set 0#32 m i (BitVec.ofNat 32 (f (4 * i) 4))) c.q
    claim := BitVec.ofNat 32 (f 32 4), hold := f 36 1 % 2 = 1, redn := f 37 1 % 2 = 1, eftrap := f 38 1 % 2 = 1
    pwrh := BitVec.ofNat 2 (f 39 1), travtab := BitVec.ofNat 64 (f 40 8), handoffs := BitVec.ofNat 32 (f 48 4), spawnk := f 52 4
    nextCmd := f 56 8, ticket := c.ticket.map (fun t => (f 64 8, t.2)), burst := f 72 4
    chain := chain c.chain 80, pchain := chain c.pchain 96 }

/-- The waiting state of an entry as a number (29 R456). -/
def waitCode : Option Wait → Nat
  | none => 0
  | some (.join _ late) => if late then 2 else 1
  | some (.bwait _ _) => 3
  | some .tkwait => 4
  | some .tkdone => 5
  | some (.jwait _) => 6
  | some (.ewait _ _) => 7
  | some (.handoff _ _) => 8
  | some (.digest _) => 9

/-- The remaining time of a join (01 R35). -/
def joinLeft : Option Wait → Nat
  | some (.join d _) => d
  | _ => 0

/-- The resident entries of a stopped convoy: the clause in which it stopped stands first (29 R452). -/
def savedEntries (c : Convoy) : List Entry :=
  (match c.clause with
    | some k => [{ pc := k.pc, prio := k.prio, mask := k.mask, age := k.age, wait := k.wait : Entry }]
    | none => []) ++ c.fr

/-- An image of an entry (29 R456). -/
def entryBytes (e : Entry) (valid : Nat) : List Byte :=
  le 8 e.pc ++ le 4 e.mask.toNat ++ le 1 e.prio ++ le 1 (waitCode e.wait) ++ le 2 e.age ++ le 8 (joinLeft e.wait) ++ le 8 valid

/-- A pending record (29 R456). -/
def pendingBytes (u : Pending) : List Byte :=
  let rec_ (kind lane dst op : Nat) : List Byte :=
    le 8 (kind * 2 ^ 60 + lane * 2 ^ 55 + dst * 2 ^ 47 + (u.tok.getD 0) * 2 ^ 44 + op % 2 ^ 44)
  let reg (ls : List Loc) : Nat := match ls with
    | .main n _ :: _ => n
    | _ => 0
  match u.kind with
  | .scrLoad true clr =>
    match u.pieces with
    | p :: _ => rec_ (if clr then 2 else 1) p.lane (reg p.dst) p.va
    | [] => []
  | .travr ray gen _ => rec_ 3 (lowestLane u.mask) (reg (u.writes.map (·.1))) (gen * 2048 + ray)
  | .scall req => rec_ 4 (lowestLane u.mask) (reg (u.writes.map (·.1))) req
  | _ => []

/-- Bytes padded with zeros to a length. -/
def padTo (n : Nat) (bs : List Byte) : List Byte := (bs ++ List.replicate (n - bs.length) 0#8).take n

/-- The convoy block (29 R456). -/
def convoyBlock (c : Convoy) : List Byte :=
  let words (m : NMap Word) (n : Nat) : List Byte := leWords (NMap.getAll 0#32 m 0 n)
  let kinds := c.bfaults.foldl (fun (x : Nat) f => x ||| (if f.kind = 0x15 then 1 else if f.kind = 0x10 then 2 else 4)) 0
  let role : Nat := match c.role with
    | .general => 0 | .feed => 1 | .compute => 2 | .drain => 3
  let resume : Nat := match c.halt, c.clause with
    | .run, some k => k.nxt
    | .atInstr, some k => k.cur + 1
    | _, _ => 0
  let valid : Nat := (List.range 32).foldl (fun x t => x +
    2 ^ t * b2n (NMap.get {} c.latch t).valid + 2 ^ (32 + t) * b2n (NMap.get {} c.latch (32 + t)).valid) 0
  let tape (t : Nat) : List Byte :=
    let x := NMap.get {} c.tapes t
    le 4 x.low ++ le 4 x.top ++ le 4 x.cs
  let refill := maskOf ((List.range 32).filter (fun t => (NMap.get {} c.tapes t).refill))
  let es := (savedEntries c).map (fun e => entryBytes e (if c.clause.isSome then valid else 0))
  padTo 64 (words c.uni 16) ++ (List.range 8).flatMap (fun k => le 2 (tokCount c k)) ++
    (List.range 4).flatMap (fun i => le 2 (NMap.get 0#32 c.xlim i).toNat) ++ [BitVec.ofNat 8 c.budget, BitVec.ofNat 8 role,
      BitVec.ofNat 8 c.stall, BitVec.ofNat 8 kinds] ++ le 4 resume ++
    (List.range 32).map (fun t => BitVec.ofNat 8 ((List.range 8).foldl (fun x k =>
      x + 2 ^ k * b2n (decide (k = 7) || NMap.get false c.preds (32 * k + t))) 0)) ++
    padTo 256 es.flatten ++ padTo 640 ((List.range 32).flatMap tape ++ le 4 refill.toNat) ++ words c.opf 256 ++ words c.idx 128 ++
    padTo 512 ((List.range 64).flatMap (fun i => le 8 (NMap.get {} c.latch i).val.toNat)) ++
    padTo 1024 (c.units.flatMap pendingBytes)

/-- Taking a convoy block of an image into the convoy that was saved (29 R450, R456, R457). Entries are taken where they stand;
what waits they hold is the convoy's own. -/
def takeConvoyBlock (c : Convoy) (x : Nat) : Convoy :=
  let f (off n : Nat) : Nat := slice x (8 * (off + n) - 1) (8 * off)
  let words (m : NMap Word) (off n : Nat) : NMap Word :=
    (List.range n).foldl (fun m i => NMap.set 0#32 m i (BitVec.ofNat 32 (f (off + 4 * i) 4))) m
  let e (i : Nat) (y : Entry) : Entry :=
    { y with pc := f (0x80 + 32 * i) 8, mask := BitVec.ofNat 32 (f (0x88 + 32 * i) 4), prio := f (0x8C + 32 * i) 1,
             age := f (0x8E + 32 * i) 2 }
  let k := if c.clause.isSome then 1 else 0
  { c with
    uni := words c.uni 0 16, budget := f 0x58 1, stall := f 0x5A 1
    xlim := (List.range 4).foldl (fun m i => NMap.set 0#32 m i (BitVec.ofNat 32 (f (0x50 + 2 * i) 2))) c.xlim
    preds := (List.range 7).foldl (fun m k => (List.range 32).foldl (fun m t =>
      NMap.set false m (32 * k + t) (Nat.testBit (f (0x60 + t) 1) k)) m) c.preds
    fr := c.fr.mapIdx (fun i y => e (k + i) y)
    clause := c.clause.map (fun y => { y with mask := BitVec.ofNat 32 (f 0x88 4) })
    tapes := (List.range 32).foldl (fun m t =>
      NMap.set {} m t { NMap.get {} m t with low := f (0x180 + 12 * t) 4, top := f (0x184 + 12 * t) 4, cs := f (0x188 + 12 * t) 4,
                                             refill := Nat.testBit (f 0x300 4) t }) c.tapes
    opf := words c.opf 0x400 256, idx := words c.idx 0x800 128
    latch := (List.range 64).foldl (fun m i => NMap.set {} m i { NMap.get {} m i with val := BitVec.ofNat 64 (f (0xA00 + 8 * i) 8) })
      c.latch }

/-- The image of a queued copy: a chain record with the restart element and the number in its reserved bits (29 R454). -/
def cmdBytes (c : Cmd) : List Byte :=
  let kind : Nat := match c.kind with
    | .tensor => 1
    | .linear => 0
  let lay : Nat := match c.slayout with
    | .lin => 0 | .xor16 => 1 | .xor32 => 2
  let flags := kind + 256 * (b2n c.acq + 2 * b2n c.rel + 4 * b2n c.bind.isSome + 8 * b2n c.follow.isSome + 16 * lay)
  let w := c.follow.getD (0#32, 0#32)
  le 8 0 ++ le 8 c.mile.toNat ++ le 8 c.src.toNat ++ le 8 c.dst.toNat ++ le 4 c.len ++ le 2 ((c.bind.getD 0) / 16) ++
    [BitVec.ofNat 8 kind, BitVec.ofNat 8 (flags / 256)] ++ le 4 w.1.toNat ++ le 4 w.2.toNat ++ le 8 c.seq ++ le 8 c.next

/-- Bits of full-empty granules as bytes (29 R454). -/
def feBytes (c : Cohort) (n : Nat) : List Byte :=
  (List.range n).map (fun i => BitVec.ofNat 8 ((List.range 8).foldl (fun x k => x + 2 ^ k * b2n (feBit c (8 * i + k))) 0))

/-- The places of the parts of the saved state (29 R454): registers, scratch, full-empty bits, copy queue, matrix, rays. -/
structure ImageMap where
  regs  : Nat
  scr   : Nat
  fe    : Nat
  cq    : Nat
  mtx   : Nat
  rays  : Nat

/-- The places for a descriptor (29 R454). -/
def imageMap (d : KDesc) : ImageMap :=
  let r := 0x200 + 4096 * d.convoys
  let s := r + 1024 * sumGranules d
  let f := s + 32768 * d.scratch
  let q := f + 256 * d.scratch
  { regs := r, scr := s, fe := f, cq := q, mtx := q + 4096, rays := q + 4096 + (if hasMatrix d then 557056 else 0) }

/-- The image of a ray (08 R163; the spec gives its contents, not its layout). -/
def rayBytes (r : Ray) : List Byte :=
  padTo 256 (leWords (r.o ++ r.d ++ [r.tmin, r.tmax]) ++ le 8 r.emit_.toNat ++ le 8 r.table ++ le 8 r.trail.toNat ++
    (match r.hit with
      | some h => leWords [h.t, h.u, h.v, h.prim] ++ le 8 h.ref.toNat
      | none => []) ++ r.stack.flatMap (fun v => le 8 v.ref.toNat))

/-- Writing the saved state of a cohort into its context block (29 R454), past the header and the fault record. -/
def saveImage (s : State) (c : Cohort) : State :=
  let put (s : State) (off : Nat) (bs : List Byte) : State := writeLong s (c.ctx + off) c.ckey bs
  let m := imageMap c.desc
  let s1 := put (put s 0x140 (bytesOf c.efault.pack.toNat 64)) 0x180 (cohortBlock c)
  let s2 := (c.convoys.zipIdx).foldl (fun s e => put s (0x200 + 4096 * e.2) (convoyBlock e.1)) s1
  let regs := c.convoys.flatMap (fun v => leWords (NMap.getAll 0#32 v.main 0 (256 * v.budget)))
  let s3 := put (put (put s2 m.regs regs) m.scr (scrGet c 0 (scrSize c))) m.fe (feBytes c (256 * c.desc.scratch))
  let s4 := put s3 m.cq (padTo 4096 (c.cq.flatMap cmdBytes))
  let s5 :=
    if hasMatrix c.desc then
      (lanes c.claim).foldl (fun s i => put s (m.mtx + 32768 + 16384 * i) (NMap.getAll 0#8 c.slots (16384 * i) 16384))
        (put s4 m.mtx (leWords (NMap.getAll 0#32 c.acc 0 8192)))
    else s4
  c.rays.foldl (fun s r => put s (m.rays + 256 * r.num) (rayBytes r)) s5

/-- The cohort with the fields that its image holds now (29 R450, R457): software may have changed them. -/
def loadImage (s : State) (c : Cohort) : Cohort :=
  let m := imageMap c.desc
  let n (off k : Nat) : Nat := memNat s (c.ctx + off) k
  let c1 := takeCohortBlock { c with efault := .unpack (n 0x140 64) } (n 0x180 128)
  let vs := c1.convoys.mapIdx (fun i v => takeConvoyBlock v (n (0x200 + 4096 * i) 4096))
  let start (i : Nat) : Nat := ((vs.take i).map (·.budget)).sum * 1024
  let regs := vs.mapIdx (fun i v =>
    { v with main := (List.range (256 * v.budget)).foldl (fun mm k =>
        NMap.set 0#32 mm k (BitVec.ofNat 32 (n (m.regs + start i + 4 * k) 4))) v.main })
  let c2 := { c1 with convoys := regs, scratch := NMap.setAll 0#8 c1.scratch 0 (memGet s (c.ctx + m.scr) (scrSize c)) }
  let c3 := (List.range (2048 * c.desc.scratch)).foldl (fun c g => setFe c g (Nat.testBit (n (m.fe + g / 8) 1) (g % 8))) c2
  let cmd (i : Nat) (q : Cmd) : Cmd :=
    let x := n (m.cq + 64 * i) 64
    if q.started then q
    else { q with mile := BitVec.ofNat 64 (slice x 127 64), src := BitVec.ofNat 64 (slice x 191 128),
                  dst := BitVec.ofNat 64 (slice x 255 192), len := slice x 287 256 }
  let c4 := { c3 with cq := c3.cq.mapIdx cmd }
  if hasMatrix c.desc && c.hold then
    let acc := (List.range 8192).foldl (fun mm k => NMap.set 0#32 mm k (BitVec.ofNat 32 (n (m.mtx + 4 * k) 4))) c4.acc
    let slots := (lanes c4.claim).foldl (fun mm i =>
      NMap.setAll 0#8 mm (16384 * i) (memGet s (c.ctx + m.mtx + 32768 + 16384 * i) 16384)) ([] : NMap Byte)
    { c4 with acc := acc, slots := slots }
  else c4

end Sys2Proof.Machine
end

