-- ==== Sys2Proof/Machine/Fw.lean ====
section
/-! DEFINITION. What the firmware does with regions (27 R409 to R413, R423, R538), launches (27 R415, R424, R425), the event log
(28 R440, 31 R480), energy and the counted draw (34 R517 to R519). -/

namespace Sys2Proof.Machine

/-- An event of the log (33 R510): its type and the fields below it. -/
def logEvent (s : State) (rcb type cls index spare count : Nat) : BitVec 512 :=
  BitVec.ofNat 64 s.ns ++ BitVec.ofNat 64 rcb ++ BitVec.ofNat 8 type ++ BitVec.ofNat 8 cls ++ 0#16 ++ BitVec.ofNat 32 index ++
    BitVec.ofNat 32 spare ++ BitVec.ofNat 32 count ++ 0#256

/-- An MSI-X vector fires (31 R481). -/
def fire (s : State) (v : Nat) : State := { s with regs := { s.regs with msix := s.regs.msix ++ [v] } }

/-- Appending an event to the event log; a full ring drops it (31 R480). -/
def logPut (s : State) (e : BitVec 512) : State :=
  let g := s.regs
  if g.logSize.toNat ≤ g.logHead.toNat - g.logTail.toNat then
    { s with regs := { g with logLost := g.logLost + 1#64 } }
  else
    let s1 := writeCoherent s none (g.logBase.toNat + 64 * (g.logHead.toNat % g.logSize.toNat)) 0 (bytesOf e.toNat 64)
    let s2 := { s1 with regs := { g with logHead := g.logHead + 1#64 } }
    if g.logHead = g.logTail then fire s2 2 else s2

/-- A REFUSED event with its status (28 R440). -/
def logRefused (s : State) (rcb status : Nat) : State := logPut s (logEvent s rcb 1 status 0 0 0)

/-- Writing a launch's signal word with a release (27 R424, R425): not where the field is 0 or not aligned to 64. -/
def writeSignal (s : State) (root signal : DWord) (status lost : Nat) : State :=
  if signal = 0#64 || signal.extractLsb' 0 6 ≠ 0#6 then s
  else
    match engAddr s fwCore root signal true true with
    | (some (.ok (pa, key)), s1) =>
      writeCoherent s1 none pa key (bytesOf (2 ^ 63 + status * 2 ^ 56 + min lost (2 ^ 32 - 1)) 8)
    | (_, s1) => s1

/-- Whether a signal word's translation is retried (30 R464). -/
def signalRetry (s : State) (root signal : DWord) : Bool :=
  decide (signal ≠ 0#64) && decide (signal.extractLsb' 0 6 = 0#6) && (engAddr s fwCore root signal true true).1.isNone

/-- Units of a pool, by number: 0 record pages, 1 private pages, 2 save pages, 3 tape spill units of 256 bytes (27 R410, R423). -/
def poolSize (r : Region) (pool : Nat) : Nat :=
  match pool with
  | 0 => r.rpages | 1 => r.psize | 2 => r.ssize | _ => 4 * r.tsize

/-- What a cohort of a descriptor takes from the pools of a region (27 R423). -/
def poolNeed (r : Region) (d : KDesc) (pool : Nat) : Nat :=
  match pool with
  | 0 => (d.spawnb + 63) / 64
  | 1 => d.convoys * privPages d
  | 2 => savedPages d
  | _ => if d.tape = 0 then 0 else 32 * d.convoys * r.tper

/-- The allocations from a pool of a region. -/
def allocsOf (s : State) (owner pool : Nat) : List Alloc := s.allocs.filter (fun a => a.owner = owner && a.pool = pool)

/-- The lowest place where n units are free. -/
def findFit (as : List Alloc) (size n : Nat) : Option Nat :=
  let free (x : Nat) : Bool := decide (x + n ≤ size) && as.all (fun a => decide (a.start + a.len ≤ x) || decide (x + n ≤ a.start))
  ((0 :: as.map (fun a => a.start + a.len)).filter free).min?

/-- The lowest n free single units. -/
def findUnits (as : List Alloc) (size : Nat) : Nat → List Nat → Option (List Nat)
  | 0, got => some got
  | n + 1, got =>
    match findFit (as ++ got.map (fun x => { uid := 0, owner := 0, pool := 0, start := x, len := 1 })) size 1 with
    | some x => findUnits as size n (got ++ [x])
    | none => none

/-- The units taken for a cohort: record pages, and the places of its private, save and tape parts (27 R423). -/
structure Taken where
  pages : List Nat
  priv  : Nat
  save  : Nat
  tape  : Nat

/-- Whether and where a cohort's needs are free (27 R423). -/
def findPools (s : State) (r : Region) (d : KDesc) : Option Taken :=
  let at_ (pool : Nat) : Option Nat := findFit (allocsOf s r.rcb pool) (poolSize r pool) (poolNeed r d pool)
  match findUnits (allocsOf s r.rcb 0) r.rpages (poolNeed r d 0) [], at_ 1, at_ 2, at_ 3 with
  | some ps, some p, some v, some t => some ⟨ps, p, v, t⟩
  | _, _, _, _ => none

/-- Taking the units for a cohort (27 R423). -/
def takePools (s : State) (uid : Nat) (r : Region) (d : KDesc) (t : Taken) : State :=
  let one (pool start len : Nat) : List Alloc :=
    if len = 0 then [] else [{ uid := uid, owner := r.rcb, pool := pool, start := start, len := len }]
  { s with
    allocs := s.allocs ++ t.pages.flatMap (fun p => one 0 p 1) ++ one 1 t.priv (poolNeed r d 1) ++ one 2 t.save (poolNeed r d 2) ++
      one 3 t.tape (poolNeed r d 3) }

/-- The whole pools are too small for one cohort (27 R415). -/
def poolShort (r : Region) (d : KDesc) : Bool := (List.range 4).any (fun k => decide (poolSize r k < poolNeed r d k))

/-- Depth of a region by what the firmware holds (27 R409); more than 7 where it has more than 7 ancestors. -/
def regionDepth (s : State) : Nat → Nat → Nat
  | 0, _ => 0
  | fuel + 1, rcb => if parentOf s rcb = 0 then 0 else 1 + regionDepth s fuel (parentOf s rcb)

/-- The root of a region's tree. -/
def topOf (s : State) : Nat → Nat → Nat
  | 0, rcb => rcb
  | fuel + 1, rcb => if parentOf s rcb = 0 then rcb else topOf s fuel (parentOf s rcb)

/-- Whether a region keeps 27 R409. -/
def regionOk (s : State) (rcb : Nat) : Bool :=
  decide (regionDepth s treeFuel rcb ≤ 7) && decide (rcbFld s (topOf s treeFuel rcb) 823 816 = 255) && decide (effFld s 3 rcb 815 813 ≤ 4)

/-- What the firmware reads when it takes a region and at each update (27 R412, R538); what it keeps itself stays. -/
def readRegion (s : State) (rcb : Nat) : Region × State :=
  let f := rcbFld s rcb
  let old := (regionOf s rcb).getD { rcb := rcb, detBase := some 0 }
  let r : Region :=
    { old with
      parent := f 2047 1984, child := f 1983 1920, sibling := f 1919 1856, ptroot := BitVec.ofNat 64 (f 1727 1664)
      partner := f 1599 1536, rpool := f 1407 1344, ppool := f 1343 1280, sva := f 1279 1216, tspill := f 1215 1152
      gspill := f 1151 1088, rpages := f 1087 1056, psize := f 1055 1024, ssize := f 1023 992, tsize := f 991 960
      gsize := f 959 928, tper := f 927 912 }
  (r, s)

/-- The save pool's frames (27 R538): the physical base and the key slot, where every page translates, is writable and follows
the one before. -/
def saveFrames (s : State) (root : DWord) (va : Nat) : Nat → Nat → Option (Nat × Nat) → Option (Nat × Nat) × State
  | 0, _, r => (r, s)
  | n + 1, i, r =>
    match engAddr s fwCore root (BitVec.ofNat 64 (va + 4096 * i)) true false with
    | (some (.ok (pa, key)), s1) =>
      match r with
      | none => saveFrames s1 root va n (i + 1) (some (pa, key))
      | some (p0, k0) => if pa = p0 + 4096 * i && key = k0 then saveFrames s1 root va n (i + 1) r else (none, s1)
    | (_, s1) => (none, s1)

/-- The firmware takes a region or updates it (27 R412, R538): the depth is written when it is first taken. -/
def takeRegion (s : State) (rcb : Nat) : State :=
  let q := readRegion s rcb
  let s1 := putRegion q.2 q.1
  let fr := saveFrames s1 (effRoot s1 rcb) q.1.sva q.1.ssize 0 none
  let r : Region := match fr.1 with
    | some (pa, key) => { q.1 with spool := pa, skey := key }
    | none => { q.1 with ssize := 0 }
  let s2 := putRegion fr.2 r
  if (regionOf s rcb).isSome then s2
  else
    let b := memNat s2 (rcb + 97) 1
    writeCoherent s2 none (rcb + 97) 0 [BitVec.ofNat 8 (b / 16 * 16 + regionDepth s2 treeFuel rcb % 16)]

/-- Milliwatts of a counted level (34 R517). -/
def levelDraw (level : Nat) : Nat :=
  match level with
  | 0 => 50 | 1 => 400 | 2 => 1600 | _ => 3300

/-- Counted level of a cohort (34 R517): at least 2 while it holds the matrix unit. -/
def countedLevel (c : Cohort) : Nat := if c.hold then max 2 c.pwrh.toNat else c.pwrh.toNat

/-- Counted draw of a core in milliwatts (34 R517). -/
def coreDraw (cs : List Cohort) (core : Nat) : Nat :=
  min 3300 (((cs.filter (fun c => c.core = core)).map (fun c => levelDraw (countedLevel c))).sum)

/-- Counted draw of the package in milliwatts (34 R517). -/
def packageDraw (s : State) : Nat :=
  550000 + ((distinct ((allCohorts s).map (·.core))).map (coreDraw (allCohorts s))).sum

/-- Whether a cohort of a level fits the headroom on a core (34 R518). -/
def fitsPower (s : State) (core level : Nat) : Bool :=
  let now := coreDraw (allCohorts s) core
  let raise := min 3300 (now + levelDraw level) - now
  decide (raise + max (packageDraw s) s.power.sample ≤ 1000 * s.power.envelope)

/-- The effective energy field of a region, as i64 (27 R410, R413). -/
def energyOf (s : State) (rcb : Nat) : Int := sextN 64 (effFld s 2 rcb 1535 1472)

/-- An atomic subtraction from the effective energy field (27 R413). -/
def deductEnergy (s : State) (rcb x : Nat) : State :=
  let o := effOwner s 2 rcb
  rcbPut s o 1535 1472 (wrapN 64 (sextN 64 (rcbFld s o 1535 1472) - x))

/-- The charge of a bound cohort since its last one, and what remains of a microjoule (34 R519). -/
def chargeOf (s : State) (c : Cohort) : Nat × Nat :=
  let x := levelDraw (countedLevel c) * (s.ns - c.chargeNs) + c.chargeRem
  (x / 1000000, x % 1000000)

/-- The energy of a bound cohort is deducted (34 R519). -/
def chargeCohort (s : State) (c : Cohort) : State :=
  let q := chargeOf s c
  let s1 := deductEnergy s c.rcb q.1
  mapUid s1 c.uid (fun d => { d with chargeNs := s.ns, chargeRem := q.2 })

/-- A step at the cohort bound to a slot, its convoys whole; the state is as it was where there is none. -/
def atBound (s : State) (core slot : Nat) (f : State → Cohort → State) : State :=
  let s1 := unfocus s
  match s1.others.find? (fun c => c.core = core && c.slot = slot) with
  | none => s
  | some c => pickFocus (f s1 c)

/-- Units that a save leaves pending (29 R452). -/
def savedPending (u : Pending) : Bool :=
  match u.kind with
  | .scrLoad true _ => true
  | .travr _ _ _ => true
  | .scall _ => true
  | _ => false

/-- Every store of a cohort is registered and its private lines are written back (03 R66, 04 R82). -/
def releaseCohort (s : State) (c : Cohort) : State :=
  writeBackPrivate (registerThrough_ s c) c.uid
where
  /-- Stores of the core up to the cohort's last. -/
  registerThrough_ (s : State) (c : Cohort) : State :=
    let mine := s.pstores.filter (fun x => x.core = c.core)
    let n := mine.length - (mine.reverse.takeWhile (fun x => x.uid ≠ c.uid)).length
    (mine.take n).foldl registerStore s

end Sys2Proof.Machine
end

