-- ==== Sys2Proof/Machine/Handoff.lean ====
section
/-! DEFINITION. The successor handoff (07 R138 to R142; 29 R455): the rendezvous, the shape check, what is inherited, and the grant of
a larger context block. -/

namespace Sys2Proof.Machine

/-- The operands of a convoy that has arrived at its HANDOFF with every live thread (07 R139). -/
def arrivedWith (v : Convoy) : Option (DWord × DWord) :=
  v.fr.findSome? (fun e => match e.wait with
    | some (.handoff d w) => if e.mask = v.live && v.clause.isNone then some (d, w) else none
    | _ => none)

/-- Fields of the inheritance word (07 R138). -/
def inhTape (w : DWord) : Bool := w.getLsbD 53
def inhSlots (w : DWord) : Word := w.extractLsb' 21 32
def inhAcc (w : DWord) : BitVec 8 := w.extractLsb' 13 8
def inhScratch (w : DWord) : Nat := (w.extractLsb' 6 7).toNat
def inhGranules (w : DWord) : Nat := (w.extractLsb' 0 5).toNat

/-- Granules that the other cohorts of a core hold on a track (02 R21). -/
def otherGranules (s : State) (c : Cohort) (track : Nat) : Nat :=
  (((allCohorts s).filter (fun d => d.core = c.core && d.uid ≠ c.uid)).flatMap (fun d =>
    (d.convoys.filter (fun v => v.track = track)).map (·.budget))).sum

/-- Whether new budgets of a cohort's convoys fit their tracks (02 R21). -/
def budgetsFit (s : State) (c : Cohort) (d : KDesc) : Bool :=
  (List.range 16).all (fun t =>
    decide (otherGranules s c t + ((c.convoys.filter (fun v => v.track = t)).map (fun v => granulesOf d v.id)).sum ≤ 64))

/-- The first failing item of the shape check (07 R141), 1 to 9. -/
def shapeItem (s : State) (c : Cohort) (d : KDesc) (w : DWord) : Option Nat :=
  let o := c.desc
  let n := inhGranules w
  let pages := ((s.allocs.filter (fun a => a.uid = c.uid && a.pool = 0)).map (·.len)).sum
  let items : List Bool :=
    [ d.convoys ≠ o.convoys || d.shapex ≠ o.shapex || d.shapey ≠ o.shapey || d.shapez ≠ o.shapez,
      c.convoys.any (fun v => roleOf d v.id ≠ v.role && roleOf d v.id ≠ .general),
      c.convoys.any (fun v => granulesOf d v.id < n || v.budget < n),
      !(budgetsFit s c d),
      8 * d.scratch < inhScratch w || 112 < inhScratch w,
      o.priv < d.priv,
      pages * 64 < d.spawnb,
      inhTape w && d.tape ≠ o.tape,
      (inhAcc w ≠ 0#8 || inhSlots w ≠ 0#32) && !(hasMatrix d) ]
  (items.findIdx? id).map (· + 1)

/-- Keeping the entries of sparse contents below a key. -/
def keepBelow {α : Type} (n : Nat) (m : NMap α) : NMap α := NMap.keep (fun k => decide (k < n)) m

/-- Lanes of a convoy that were never live (01 R16, 07 R142). -/
def neverLive (c : Cohort) : Word :=
  if c.payloads.isEmpty then 0#32 else maskOf ((List.range 32).filter (fun t => c.payloads.getD t 0 = 0))

/-- A convoy as the successor finds it (07 R142). -/
def succConvoy (c : Cohort) (d : KDesc) (w : DWord) (prio : Nat) (v : Convoy) : Convoy :=
  let m := ~~~(neverLive c)
  let k := 8 * inhGranules w
  { v with
    role := roleOf d v.id, budget := granulesOf d v.id, main := keepBelow (32 * k) v.main, opf := [], latch := [], uni := [], preds := []
    idx := [], xlim := [], tok := [], live := m, spill := [], yielded := none, depth := [], clause := none, stall := 0, pend := []
    fr := [{ pc := d.entry, prio := prio, mask := m }], peek := [], bad := 0#32, qview := []
    rpoison := v.rpoison.filter (fun l => match l with
      | .main r _ => decide (r < k)
      | _ => false)
    tapes := if inhTape w then v.tapes else [], tspill := if inhTape w then v.tspill else [], halt := .run, stalled := false }

/-- Scratch contents in units of g bytes as the successor finds them: those below a prefix of b bytes and, with n bytes of tape
inherited, the shares at the top of the new scratch (07 R142, 09 R166). -/
def succScratch {α : Type} (g b n old new : Nat) (m : NMap α) : NMap α :=
  keepBelow ((if n = 0 then b else min b (new - n)) / g) m ++
    (if n = 0 then [] else (m.filter (fun e => decide ((old - n) / g ≤ e.1))).map (fun e => (e.1 - (old - n) / g + (new - n) / g, e.2)))

/-- The cohort as the successor finds it (07 R142). -/
def succCohort (c : Cohort) (descPtr : Nat) (d : KDesc) (w : DWord) (prio : Nat) : Cohort :=
  let keepHold := c.hold && (inhSlots w ≠ 0#32 || inhAcc w ≠ 0#8)
  let b := 4096 * inhScratch w
  let n := if inhTape w then 32 * d.convoys * tapeBytes d else 0
  let tile (k : Nat) : Bool := (inhAcc w).getLsbD (k / 1024)
  let slot (k : Nat) : Bool := (inhSlots w &&& c.claim).getLsbD k
  { c with
    desc := d, descPtr := descPtr, convoys := c.convoys.map (succConvoy c d w prio), q := []
    scratch := succScratch 1 b n (scrSize c) (d.scratch * 32768) c.scratch, fe := keepBelow (b / 16) c.fe, feWait := []
    spoison := succScratch 4 b n (scrSize c) (d.scratch * 32768) c.spoison
    acc := if keepHold then NMap.keep tile c.acc else [], slots := if keepHold then NMap.keep (fun k => slot (k / 16384)) c.slots else []
    mpoison := if keepHold then NMap.keep (fun k => if k < 131072 then slot (k / 4096) else tile (k - 131072)) c.mpoison else []
    hold := keepHold, claim := if keepHold then c.claim &&& inhSlots w else 0#32, planes := if keepHold then c.planes else []
    lastLdw := if keepHold then c.lastLdw else none, redn := keepHold && c.redn, burst := if keepHold then c.burst else 0
    handoffs := c.handoffs + 1#32, spawnk := 0, growWant := none, grown := false }

/-- Whether what must end before a handoff has ended (07 R140, steps 1 to 4). -/
def handoffDrained (s : State) (c : Cohort) : Bool :=
  let pages := ((s.allocs.filter (fun a => a.uid = c.uid && a.pool = 0)).map (·.len)).sum
  !(recordsQueued s c.uid) && decide (64 * pages ≤ c.recs.length) && c.convoys.all (fun v => v.units.isEmpty) && c.cq.isEmpty &&
    c.writes.isEmpty && !(s.colls.any (fun x => x.uid = c.uid)) && !(s.batches.any (fun x => x.uid = c.uid)) && c.mq.isEmpty

/-- The outcome of a rendezvous before its steps (07 R139): not complete, a fault's subcode, or the operands. -/
inductive Arrival | wait | bad (sub : Nat) (desc w : DWord) | all (desc w : DWord)

/-- How the convoys of a cohort stand (07 R139). -/
def arrival (c : Cohort) : Arrival :=
  let there := c.convoys.filterMap arrivedWith
  let gone := c.convoys.filter (fun v => decide (v.live = 0#32) && (arrivedWith v).isNone)
  match there with
  | [] => .wait
  | (d, w) :: rest =>
    if there.length + gone.length < c.convoys.length then .wait
    else if !gone.isEmpty then .bad 11 d w
    else if rest.all (fun x => x = (d, w)) then .all d w else .bad 10 d w

/-- A Handoff Shape fault (29 R446): every convoy stays at its HANDOFF; it is charged to the lowest that has arrived, at the
instruction (07 R141). -/
def shapeFault (s : State) (c : Cohort) (sub : Nat) (d w : DWord) : State :=
  match c.convoys.find? (fun v => (arrivedWith v).isSome) with
  | none => s
  | some v =>
    let s1 := focusOn s c.core c.slot v.id
    match s1.cv.fr.find? (fun e => match e.wait with
        | some (.handoff _ _) => true
        | _ => false) with
    | none => s
    | some e =>
      let f : FaultRec := { kind := 0x11, sub := sub, addr := d.toNat, aux := w.toNat, mask := e.mask }
      let k : Clause := { pc := e.pc, hdr := 0#32, words := [], mask := e.mask, prio := e.prio, age := e.age, age0 := s1.cv.opp }
      let s2 := clauseFetchOp { s1 with cv := { s1.cv with fr := s1.cv.fr.erase e, clause := some k } }
      if (match s2.cv.clause with
          | some k => !k.words.isEmpty
          | none => false) then
        takeFault { s2 with cv := { s2.cv with clause := s2.cv.clause.map (fun k => { k with cur := 0, nxt := 1 }) } } f
      else takeBoundaryFault s1 f (e.pc + 4)

/-- Steps 5 to 9 of a handoff whose steps 1 to 4 have ended (07 R140). -/
def handoffSteps (s : State) (c : Cohort) (dp w : DWord) : State :=
  match readRec s c.core c.root dp.toNat 64 with
  | (none, true, _) => s
  | (none, false, s1) => shapeFault s1 c 12 dp w
  | (some x, _, s1) =>
    let d := descOf x
    if !(descOk x) || !(tapeFits d) then shapeFault s1 c 12 dp w
    else
      match shapeItem s1 c d w with
      | some k => shapeFault s1 c k dp w
      | none =>
        let need := savedPages d
        if c.ctxPages < need && !c.grown then
          if poolSize (poolRegion s1 c.rcb) 2 < need then shapeFault s1 c 13 dp w
          else if c.growWant = some need || !(ringRoom s1 (dieOf c.core)) then s1
          else
            mapUid (post s1 (dieOf c.core) (ringEntry c.gen c.linear c.core c.slot 6 (BitVec.ofNat 32 need))) c.uid
              (fun (c : Cohort) => { c with growWant := some need })
        else
          let s2 := releaseCohort s1 c
          let h := focusOn s2 c.core c.slot 0
          let prio : Nat := match (readCode h d.entry false).1 with
            | .word y => y.toNat % 256
            | _ => 0
          mapUid (invalidateL1 s2 c.core) c.uid (fun c => succCohort c dp.toNat d w prio)

/-- Whether a handoff only has to be made: its convoys have arrived, what it waits for has ended, and it waits for no block
(28 R430). -/
def handoffDue (s : State) (c : Cohort) : Bool :=
  match arrival c with
  | .all _ _ => handoffDrained s c && c.growWant.isNone
  | _ => false

/-- HANDOFF_RENDEZVOUS (07 R139 to R142). -/
def execHandoffRendezvous (at_ : SlotRef) (s : State) : Out :=
  .next (atBound s at_.core at_.slot (fun s c =>
    if c.faulting || c.stopping || c.dying then s
    else
      match arrival c with
      | .wait => s
      | .bad k d w => shapeFault s c k d w
      | .all d w =>
        let s1 := flushSpawns s c.uid
        if handoffDrained s1 c then handoffSteps s1 c d w else s1))

/-- SLOT_GROW_GRANT (29 R455): the firmware takes a block at a physical address of the save pool, copies the header and the records,
and rewrites the bind record. -/
def execSlotGrowGrant (at_ : SlotRef) (ctx : Nat) (s : State) : Out :=
  .next (atBound s at_.core at_.slot (fun s c =>
    match c.growWant with
    | none => s
    | some n =>
      let r := poolRegion s c.rcb
      let start := (ctx - r.spool) / 4096
      let others := allocsOf s r.rcb 2
      if ctx < r.spool || (ctx - r.spool) % 4096 ≠ 0 || r.ssize < start + n ||
        others.any (fun a => decide (start < a.start + a.len) && decide (a.start < start + n)) then s
      else
        let s1 := writeLong s ctx r.skey (memGet s c.ctx 0x180)
        let mine (a : Alloc) : Bool := decide (a.uid = c.uid) && decide (a.pool = 2)
        let s2 := { s1 with
          allocs := s1.allocs.filter (fun a => !(mine a)) ++ [({ uid := c.uid, owner := r.rcb, pool := 2, start := start, len := n } : Alloc)] }
        let k := 16 * c.core + c.slot
        let rec_ := NMap.get 0#256 s2.slotTab k
        let rec1 : BitVec 256 := BitVec.ofNat 40 (ctx / 4096) ++ rec_.extractLsb' 0 216
        mapUid { s2 with slotTab := NMap.set 0#256 s2.slotTab k rec1 } c.uid
          (fun (c : Cohort) => { c with ctx := ctx, ctxPages := n, ckey := r.skey, growWant := none, grown := true })))

end Sys2Proof.Machine
end

