-- ==== Sys2Proof/Machine/Retire.lean ====
section
/-! DEFINITION. How a cohort leaves its slot: retirement (16 R304; 05 R108; 27 R421), eviction and stop (28 R429, R430; 29 R450 to
R453), and the dispositions of stopped cohorts. -/

namespace Sys2Proof.Machine

/-- Whether a cohort has nothing outstanding but what a test leaves out. -/
def idleUnits (c : Cohort) (leave : Pending → Bool) : Bool := c.convoys.all (fun v => v.units.all leave)

/-- Whether every command of a cohort has written its milepost (06 R112). -/
def cmdsDone (s : State) (c : Cohort) : Bool :=
  c.cq.isEmpty && c.writes.isEmpty && !(s.colls.any (fun x => x.uid = c.uid)) && !(s.batches.any (fun x => x.uid = c.uid))

/-- Whether no chain of a cohort has a record to take (18 R343). -/
def chainsIdle (c : Cohort) : Bool :=
  c.pchain.isNone && (match c.chain with
    | some x => decide (x.last = some x.tail)
    | none => true)

/-- The parked cohort is ready: it resumes under its disposition, and the record's kind, disposition and overflow are zeroed
(29 R450). -/
def resumeParked (s : State) (p : Parked) (disp : Nat) : State :=
  let c := p.co
  let kind := recordKind s c
  let after := decide (disp = 2) || decide (kind = 0x16) || decide (kind = 0x17)
  let s1 := writeCoherent (writeCoherent s none (c.ctx + 256) c.ckey (bytesOf 0 4)) none (c.ctx + 275) c.ckey [0#8]
  let c1 := { c with faulting := false, stopping := false, convoys := c.convoys.map (resumeConvoy after) }
  { s1 with
    parked := s1.parked.map (fun q => if q.co.uid = c.uid then { co := c1, why := .ready, since := s.ns } else q) }

/-- What the firmware does with the disposition of a stopped cohort (29 R450); at the end of a handler 0 acts as 3 (29 R451). -/
def applyDisp (s : State) (uid : Nat) (handler : Bool) : State :=
  match s.parked.find? (fun p => p.co.uid = uid) with
  | none => s
  | some p =>
    let d := memNat s (p.co.ctx + 259) 1
    if d = 1 || d = 2 then resumeParked s p d
    else if d = 0 && !handler then s
    else killParked s uid

/-- The automatic pass of a retiring cohort's ticket (05 R108). -/
def passTicket (s : State) (c : Cohort) : State :=
  match c.ticket with
  | none => s
  | some (pa, key) =>
    let x : DWord := BitVec.ofNat 64 (memNat s pa 8)
    if c.passed || x.getLsbD 63 || c.linear < serving x then s
    else if serving x = c.linear then
      writeCoherent s none pa key (bytesOf (x.extractLsb' 33 31 ++ BitVec.ofNat 33 (c.linear + 1)).toNat 8)
    else { s with passes := s.passes ++ [{ launch := c.launch, pa := pa, key := key, id := c.linear }] }

/-- A cohort's bit in the completion bitmap of its launch (27 R421). -/
def setBitmap (s : State) (c : Cohort) : State :=
  match launchOf s c.launch with
  | none => s
  | some l =>
    if !l.bitmap || l.signal = 0#64 || l.signal.extractLsb' 0 6 ≠ 0#6 then s
    else
      match engAddr s fwCore (effRoot s l.rcb) (l.signal + BitVec.ofNat 64 (64 + c.linear / 8)) true true with
      | (some (.ok (pa, key)), s1) =>
        let s2 := rekeyAt s1 pa 1 key
        writeCoherent s2 none pa key [memByte s2 pa ||| (1#8 <<< (c.linear % 8))]
      | (_, s1) => s1

/-- Whether the translation of a cohort's bitmap byte is retried (30 R464). -/
def bitmapRetry (s : State) (c : Cohort) : Bool :=
  match launchOf s c.launch with
  | none => false
  | some l =>
    l.bitmap && decide (l.signal ≠ 0#64) && decide (l.signal.extractLsb' 0 6 = 0#6) &&
      (engAddr s fwCore (effRoot s l.rcb) (l.signal + BitVec.ofNat 64 (64 + c.linear / 8)) true true).1.isNone

/-- The slot of a cohort becomes free with an entry of a reason (28 R429, R431). -/
def freeSlot (s : State) (c : Cohort) (reason : Nat) : State :=
  post (slotState { s with others := s.others.filter (fun d => d.uid ≠ c.uid) } c.core c.slot 0#2) (dieOf c.core)
    (ringEntry c.gen c.linear c.core c.slot reason 0#32)

/-- Retirement of an unfocused cohort (16 R304), each of whose conditions holds. -/
def retireCohort (s : State) (c : Cohort) : State :=
  let s1 := setBitmap (passTicket (releaseCohort (chargeCohort s c) c) c) c
  let s2 := freeSlot { s1 with allocs := s1.allocs.filter (fun a => a.uid ≠ c.uid) } c 0
  let s3 := mapLaunch s2 c.launch (fun l => { l with ended := l.ended + 1 })
  match (launchOf s3 c.launch).bind (·.handles) with
  | some uid => applyDisp s3 uid true
  | none => s3

/-- COHORT_RETIRE (16 R304). -/
def execCohortRetire (at_ : SlotRef) (s : State) : Out :=
  .next (atBound s at_.core at_.slot (fun s c =>
    if !(c.convoys.all (fun v => v.live = 0#32)) || c.faulting || c.stopping || c.dying then s
    else if !(idleUnits c (fun _ => false)) || !(cmdsDone s c) || !(chainsIdle c) || !c.mq.isEmpty ||
      !(c.rays.all (fun r => r.status.isSome)) || bitmapRetry s c then s
    else
      let s1 := flushSpawns s c.uid
      if recordsQueued s1 c.uid || !(ringRoom s1 (dieOf c.core)) then s1 else retireCohort s1 c))

/-- TICKET_AUTO_PASS (05 R108): the pass that is due on a counter. -/
def execTicketAutoPass (counter : Nat) (s : State) : Out :=
  let x : DWord := BitVec.ofNat 64 (memNat s counter 8)
  match s.passes.find? (fun p => p.pa = counter && decide (p.id ≤ serving x)) with
  | none => .next s
  | some p =>
    let s1 := { s with passes := s.passes.erase p }
    if x.getLsbD 63 || serving x ≠ p.id then .next s1
    else .next (writeCoherent s1 none counter p.key (bytesOf (x.extractLsb' 33 31 ++ BitVec.ofNat 33 (p.id + 1)).toNat 8))

/-- SPAWN_QUEUE_IDLE_TIMEOUT (07 R132, 28 R433): 512 cycles without a new record. -/
def execSpawnQueueIdleTimeout (core q : Nat) (s : State) : Out :=
  let x := getQ s core q
  if !x.used || x.recs.isEmpty then .next s
  else if !(canDispatch s x) then .next (putQ s { x with want := true })
  else .next (dispatchQ (reachCycle s core (x.last + 512)) core q)

/-- A handler is launched for a stopped cohort (29 R451), the one in effect at its bind (27 R412); none while its descriptor cannot be
read yet. -/
def launchHandler (s : State) (c : Cohort) : Option State :=
  let va := c.handler
  let bad (s : State) : State := logRefused (killParked s c.uid) c.rcb 6
  match readRec s fwCore (effRoot s c.rcb) va 64 with
  | (none, true, _) => none
  | (none, false, s1) => some (bad s1)
  | (some x, _, s1) =>
    if va = 0 || !(descOk x) || !(tapeFits (descOf x)) then some (bad s1)
    else
      let r := poolRegion s1 c.rcb
      let l : Launch :=
        { no := s1.nlaunch + 1, rcb := c.rcb, rec_ := 0, desc := descOf x, descPtr := va, since := s1.ns, code := s1.mem
          arg := BitVec.ofNat 64 (r.sva + (c.ctx - r.spool)), handles := some c.uid }
      some { s1 with launches := s1.launches ++ [l], nlaunch := s1.nlaunch + 1 }

/-- Waits of a saved cohort hold the time that is left (01 R35). -/
def saveWaits (now : Nat) (v : Convoy) : Convoy :=
  let f : Option Wait → Option Wait
    | some (.join d late) => some (.join (d - now) late)
    | w => w
  { v with fr := v.fr.map (fun e => { e with wait := f e.wait }), clause := v.clause.map (fun k => { k with wait := f k.wait }) }

/-- The convoy as it is saved: no latch outside a clause, every fixed-latency result complete (29 R452, R457). -/
def savedConvoy (now : Nat) (v : Convoy) : Convoy :=
  let v1 := match v.clause with
    | some k => if k.fresh then unselect v else v
    | none => v
  saveWaits now { v1 with pend := [], peek := [], latch := if v1.clause.isSome then v1.latch else [], stalled := false }

/-- Whether a stopped cohort can be saved now (29 R452, R453). -/
def canSave (s : State) (c : Cohort) : Bool :=
  c.convoys.all stopped && idleUnits c savedPending && c.writes.isEmpty && c.mq.isEmpty && ringRoom s (dieOf c.core) && !c.dying &&
    c.cq.all (fun m => !m.mmaOut || m.mmaDone || m.err.isSome) && !(handoffDue s c)

/-- The save of an unfocused cohort (29 R452 to R456): it becomes ready, sleeps, or stays stopped. -/
def saveCohort (s : State) (c : Cohort) : State :=
  let s1 := releaseCohort (chargeCohort s c) c
  let c1 : Cohort :=
    { c with convoys := c.convoys.map (savedConvoy (cycles s c.core)), evict := false, growWant := none
             chargeRem := (chargeOf s c).2 }
  let why : Parking := if c.stopping then (if c.action = 4 then .handled else .stopped)
    else match c.sleepTo with
      | some t => .sleeping t
      | none => .ready
  let s2 := saveImage s1 c1
  let s3 := freeSlot s2 c (if c.stopping then 2 else 1)
  { s3 with parked := s3.parked ++ [{ co := { c1 with sleepTo := none }, why := why, since := s.ns }] }

/-- EVICT_COMPLETE (28 R429, R430; 29 R448, R451, R452): the cohort of a slot is saved and the slot becomes free. -/
def execEvictComplete (at_ : SlotRef) (s : State) : Out :=
  .next (atBound s at_.core at_.slot (fun s c =>
    if !(c.evict || c.stopping) || (c.faulting && !c.stopping) || !(canSave s c) then s
    else
      let s1 := saveCohort s c
      if c.stopping && c.action = 4 then (launchHandler s1 c).getD s else s1))

/-- SLOT_EVICT (28 R429): the firmware writes EVICT to a slot in RUN. -/
def execSlotEvict (at_ : SlotRef) (s : State) : Out :=
  let k := 16 * at_.core + at_.slot
  if (NMap.get 0#256 s.slotTab k).extractLsb' 0 2 ≠ 2#2 then .next s
  else
    .next (atBound s at_.core at_.slot (fun s c =>
      mapUid (slotState s c.core c.slot 3#2) c.uid (fun (d : Cohort) => { d with evict := true })))

/-- BIND_RECORD_OTHER_WRITE (28 R429): a state write that no transition names posts REJECTED and changes nothing; one that leaves
the state as it is posts nothing. -/
def execBindRecordOtherWrite (at_ : SlotRef) (state : BitVec 2) (s : State) : Out :=
  let r := NMap.get 0#256 s.slotTab (16 * at_.core + at_.slot)
  let st := r.extractLsb' 0 2
  let moves := (decide (st = 0#2) && decide (state = 1#2)) || (decide (st = 2#2) && decide (state = 3#2))
  if st = state || moves || !(ringRoom s (dieOf at_.core)) then .next s
  else .next (post s (dieOf at_.core)
    (ringEntry (r.extractLsb' 32 32) (r.extractLsb' 184 32).toNat at_.core at_.slot 4 4#32))

/-- Kills that waited for room in a ring are made (28 R431). -/
def reapDying (s : State) : State :=
  let s1 := unfocus s
  pickFocus ((s1.others.filter (·.dying)).foldl killCohort s1)

/-- The dispatches that waited for a buffer or for room (28 R433). -/
def retryDispatch (s : State) (core : Nat → Bool) : State :=
  (s.spawnqs.filter (fun x => x.want && core x.core)).foldl (fun s x => dispatchQ s x.core x.q) s

/-- The firmware reads an entry of a completion ring: a SPAWN entry makes the cohort of its buffer ready (28 R431, R432). -/
def readEntry (s : State) (e : BitVec 128) : State :=
  if e.extractLsb' 32 3 ≠ 5#3 then s
  else
    let core := (e.extractLsb' 39 9).toNat
    let q := (e.extractLsb' 0 3).toNat
    let see (b : Option SpawnBuf) : Option SpawnBuf := b.map (fun x => { x with seen := true })
    { s with
      spawnqs := s.spawnqs.map (fun x =>
        if x.core = core && x.q = q then (if e.getLsbD 3 then { x with bufB := see x.bufB } else { x with bufA := see x.bufA })
        else x) }

/-- The first n entries of a die's ring taken out. -/
def takeEntries (s : State) (die : Nat) : Nat → State
  | 0 => s
  | n + 1 =>
    match s.ring.find? (fun e => e.1 = die) with
    | none => s
    | some e => takeEntries (readEntry { s with ring := s.ring.erase e } e.2) die n

/-- COMPLETION_RING_READ (28 R431): room in the ring lets the events that wait for it go on. -/
def execCompletionRingRead (die n : Nat) (s : State) : Out :=
  let s1 := reapDying (takeEntries s die n)
  .next (settleFault (retryDispatch s1 (fun c => dieOf c = die)))

end Sys2Proof.Machine
end

