-- ==== Sys2Proof/Machine/Launch.lean ====
section
/-! DEFINITION. Launch records: linking and taking (27 R416, R417), the checks (27 R409, R415), dependences (27 R419 to R422), job cards
(07 R143) and the end of a launch (27 R424, R425). -/

namespace Sys2Proof.Machine

/-- A write of 8 bytes at a virtual address by the device on a region's behalf; nothing where it cannot be made. -/
def writeVa8 (s : State) (root : DWord) (va x : Nat) : State :=
  match engAddr s fwCore root (BitVec.ofNat 64 va) true true with
  | (some (.ok (pa, key)), s1) => writeCoherent s1 none pa key (bytesOf x 8)
  | (_, s1) => s1

/-- Link (27 R416). -/
def linkRecord (s : State) (rcb rec_ : Nat) : State :=
  let root := effRoot s rcb
  let s1 := writeVa8 s root (rec_ + 56) 0
  let old := rcbFld s1 rcb 1791 1728
  let s2 := rcbPut s1 rcb 1791 1728 rec_
  if old = 0 then rcbPut s2 rcb 1855 1792 rec_ else writeVa8 s2 root (old + 56) rec_

/-- Chunks of a job card (07 R143): what is left, how many cores, the minimum. -/
def chunkSize (r c m : Nat) : Nat := min r (max m ((r + 2 * c - 1) / (2 * c)))

/-- The number of chunks (07 R143, 01 R540): once the minimum holds, the rest goes in chunks of it. -/
def chunkCount (c m : Nat) : Nat → Nat → Nat
  | 0, _ => 0
  | fuel + 1, r =>
    if r = 0 then 0
    else if (r + 2 * c - 1) / (2 * c) ≤ m then (r + m - 1) / m
    else 1 + chunkCount c m fuel (r - chunkSize r c m)

/-- Fields of a launch record (27 R414). -/
structure LaunchRec where
  next   : Nat
  kdesc  : Nat
  dimx   : Nat
  dimyz  : Nat
  arg    : Nat
  cbank  : Nat
  signal : Nat
  dep    : Nat
  jcount : Nat
  rsv    : Nat
  flags  : Nat
  deriving DecidableEq, Repr

/-- A launch record from its 64 bytes (27 R414). -/
def launchRec (x : Nat) : LaunchRec :=
  { next := slice x 511 448, kdesc := slice x 447 384, dimx := slice x 383 352, dimyz := slice x 351 320, arg := slice x 319 256,
    cbank := slice x 255 192, signal := slice x 191 128, dep := slice x 127 64, jcount := slice x 63 32, rsv := slice x 31 4,
    flags := slice x 3 0 }

/-- Flag bits of a record (27 R414). -/
def LaunchRec.job (r : LaunchRec) : Bool := r.flags.testBit 0
def LaunchRec.commit (r : LaunchRec) : Bool := r.flags.testBit 1
def LaunchRec.serial (r : LaunchRec) : Bool := r.flags.testBit 2
def LaunchRec.bitmap (r : LaunchRec) : Bool := r.flags.testBit 3

/-- The grid of a record that is no job card (27 R414). -/
def LaunchRec.grid (r : LaunchRec) : Nat × Nat × Nat := (r.dimx + 1, r.dimyz / 65536 + 1, r.dimyz % 65536 + 1)

/-- Cohorts of a record's grid, under a core budget for a job card (07 R143). -/
def LaunchRec.count (r : LaunchRec) (cores : Nat) : Nat :=
  if r.job then chunkCount cores r.dimyz (r.jcount + 1) (r.jcount + 1) else r.grid.1 * r.grid.2.1 * r.grid.2.2

/-- The fields of a record that a check can refuse (27 R414, R415). -/
def LaunchRec.ok (r : LaunchRec) : Bool :=
  decide (r.rsv = 0) && decide (r.cbank % 256 = 0) &&
  (if r.job then decide (4 ≤ r.dimx ∧ r.dimx ≤ 65536 ∧ r.dimx % 4 = 0) && decide (1 ≤ r.dimyz)
   else decide (r.jcount = 0) && decide (r.grid.1 * r.grid.2.1 * r.grid.2.2 ≤ 2 ^ 32))

/-- Whether a dependence record keeps 27 R419. -/
def depOk (x : Nat) : Bool :=
  let kind := slice x 383 376
  decide (slice x 511 448 ≠ 0) && decide (kind ≤ 3) && decide (slice x 375 368 = 0) && decide (slice x 175 64 = 0) &&
  (match kind with
    | 2 => true
    | 3 => decide (slice x 239 176 = 0)
    | _ => decide (slice x 367 176 = 0))

/-- What reading a dependence chain gives: its records, a retry, or a record that is refused. -/
inductive DepRead | ok (xs : List Nat) | retry | bad
  deriving DecidableEq, Repr

/-- Reading a dependence chain (27 R419); a chain of more records than the fuel is refused. -/
def readDeps (s : State) (root : DWord) : Nat → Nat → DepRead × State
  | 0, va => if va = 0 then (.ok [], s) else (.bad, s)
  | fuel + 1, va =>
    if va = 0 then (.ok [], s)
    else
      match readRec s fwCore root va 64 with
      | (none, true, s1) => (.retry, s1)
      | (none, false, s1) => (.bad, s1)
      | (some x, _, s1) =>
        if !(depOk x) then (.bad, s1)
        else
          match readDeps s1 root fuel (slice x 63 0) with
          | (.ok xs, s2) => (.ok (x :: xs), s2)
          | r => r

/-- The most dependence records that a chain may hold in the model. -/
def depFuel : Nat := 65536

/-- A refusal: the signal word at once, and a REFUSED event (27 R415, R424; 28 R440). -/
def refuseLaunch (s : State) (rcb : Nat) (r : LaunchRec) (cores status : Nat) : State :=
  logRefused (writeSignal s (effRoot s rcb) (BitVec.ofNat 64 r.signal) status (r.count cores)) rcb status

/-- The checks of a record taken from a queue and, where they pass, the launch (27 R415); none while a read is to be retried. -/
def beginLaunch (s : State) (rcb va : Nat) (rd : Option LaunchRec) (batch : Option Nat) (session : Bool) : Option (State × Bool) :=
  let root := effRoot s rcb
  let cores := effFld s 1 rcb 895 880
  let r := rd.getD (launchRec 0)
  let no (s : State) (k : Nat) : Option (State × Bool) :=
    if rd.isSome && signalRetry s root (BitVec.ofNat 64 r.signal) then none
    else some (if rd.isSome then refuseLaunch s rcb r cores k else logRefused s rcb k, false)
  if !(regionOk s rcb) then no s 4
  else if rd.isNone || !r.ok then no s 5
  else
    match readDeps s root depFuel r.dep with
    | (.retry, _) => none
    | (.bad, s1) => no s1 5
    | (.ok _, s1) =>
      match readRec s1 fwCore root r.kdesc 64 with
      | (none, true, _) => none
      | (none, false, s2) => no s2 6
      | (some x, _, s2) =>
        let d := descOf x
        if !(descOk x) then no s2 6
        else if !(tapeFits d) then no s2 7
        else if poolShort (poolRegion s2 rcb) d then no s2 8
        else
          let n := r.count cores
          let l : Launch :=
            { no := s2.nlaunch + 1, rcb := rcb, rec_ := va, desc := d, descPtr := r.kdesc, job := r.job, commit := r.commit
              bitmap := r.bitmap, grid := if r.job then (n, 1, 1) else r.grid, count := n, arg := BitVec.ofNat 64 r.arg
              cbank := r.cbank, signal := BitVec.ofNat 64 r.signal, dep := BitVec.ofNat 64 r.dep, jn := r.jcount + 1
              jmin := r.dimyz, jcores := cores, batch := batch, session := session, since := s2.ns
              code := s2.mem }
          some ({ s2 with launches := s2.launches ++ [l], nlaunch := l.no }, true)

/-- Whether the launch taken before from a region's queue has not ended (27 R417). -/
def lastRuns (s : State) (rcb : Nat) : Bool :=
  match regionOf s rcb with
  | some r => (launchOf s r.lastLaunch).isSome
  | none => false

/-- Take (27 R417): the queue without its first record; none while a Link is between its two steps. -/
def takeHead (s : State) (rcb rec_ next : Nat) : Option State :=
  if next ≠ 0 then some (rcbPut s rcb 1855 1792 next)
  else if rcbFld s rcb 1791 1728 = rec_ then some (rcbPut (rcbPut s rcb 1855 1792 0) rcb 1791 1728 0)
  else none

/-- Producer ids of one dimension of a RECT record (27 R419, R420). -/
def rectIds (p c : Nat) : List Int :=
  let a := sextN 16 (slice p 63 48)
  let b := sextN 32 (slice p 47 16)
  (List.range (slice p 15 0)).map (fun (i : Nat) => a * (c : Int) + b + (i : Int))

/-- What the bits of producers say: all set, some clear, or one that will never be set (27 R421, R422). -/
inductive DepState | set | clear | never | retry
  deriving DecidableEq, Repr

/-- Linear ids of the producers that a consumer needs of one record (27 R420): none where a list cannot be read, with a flag for a
retry. -/
def producers (s : State) (root : DWord) (x : Nat) (co : Nat × Nat × Nat) (c : Nat) : Option (List Nat) × Bool × State :=
  let px := slice x 447 416 + 1
  let py := slice x 415 400 + 1
  let pz := slice x 399 384 + 1
  let lin (ix iy iz : Int) : Option Nat :=
    if 0 ≤ ix && ix < px && 0 ≤ iy && iy < py && 0 ≤ iz && iz < pz then some (ix + px * (iy + py * iz)).toNat else none
  match slice x 383 376 with
  | 0 => (some (if c < px * py * pz then [c] else []), false, s)
  | 1 => (some ((List.range px).filterMap (fun (i : Nat) => lin (i : Int) co.2.1 co.2.2)), false, s)
  | 2 =>
    let xs := rectIds (slice x 367 304) co.1
    let ys := rectIds (slice x 303 240) co.2.1
    let zs := rectIds (slice x 239 176) co.2.2
    (some (zs.flatMap (fun z => ys.flatMap (fun y => xs.filterMap (fun i => lin i y z)))), false, s)
  | _ =>
    match readRec s fwCore root (slice x 367 304 + 8 * c) 8 with
    | (none, r, s1) => (none, r, s1)
    | (some e, _, s1) =>
      let base := slice x 303 240
      let q := (List.range (e / 2 ^ 32)).foldl
        (fun (a : Option (List Nat) × Bool × State) (j : Nat) =>
          match a.1 with
          | none => a
          | some ids =>
            match readRec a.2.2 fwCore root (base + 4 * (e % 2 ^ 32 + j)) 4 with
            | (none, r, s2) => (none, r, s2)
            | (some i, _, s2) => (some (if i < px * py * pz then ids ++ [i] else ids), false, s2))
        (some [], false, s1)
      q

/-- Whether the bits of a list of producers are set (27 R421, R422). -/
def bitsSet (s : State) (root : DWord) (psignal : Nat) (ids : List Nat) : DepState × State :=
  let q := ids.foldl (fun (a : DepState × State) (i : Nat) =>
    if a.1 ≠ .set then a
    else
      match readRec a.2 fwCore root (psignal + 64 + i / 8) 1 with
      | (none, true, s1) => (.retry, s1)
      | (none, false, s1) => (.never, s1)
      | (some b, _, s1) => (if b.testBit (i % 8) then .set else .clear, s1)) (.set, s)
  if q.1 ≠ .clear then q
  else
    match readRec q.2 fwCore root psignal 8 with
    | (none, true, s1) => (.retry, s1)
    | (none, false, s1) => (.never, s1)
    | (some w, _, s1) => (if w.testBit 63 && slice w 62 56 ≠ 0 then .never else .clear, s1)

/-- How the dependences of a cohort stand (27 R420 to R422). -/
def depState (s : State) (root : DWord) (co : Nat × Nat × Nat) (c : Nat) : List Nat → DepState × State
  | [] => (.set, s)
  | x :: xs =>
    match producers s root x co c with
    | (none, true, s1) => (.retry, s1)
    | (none, false, s1) => (.never, s1)
    | (some ids, _, s1) =>
      match bitsSet s1 root (slice x 511 448) ids with
      | (.set, s2) => depState s2 root co c xs
      | (.clear, s2) =>
        match depState s2 root co c xs with
        | (.never, s3) => (.never, s3)
        | (_, s3) => (.clear, s3)
      | r => r

/-- Coordinates of a cohort of a launch (01 R15; 27 R420). -/
def launchCoord (l : Launch) (c : Nat) : Nat × Nat × Nat :=
  if l.job then (c, 0, 0) else (c % l.grid.1, c / l.grid.1 % l.grid.2.1, c / (l.grid.1 * l.grid.2.1))

/-- A cohort of a launch is taken from those that have not been bound; the ids below the first that is left are forgotten. -/
def Launch.take (l : Launch) (id : Nat) : Launch :=
  let ids := id :: l.taken
  let b := (List.range (ids.length + 1)).find? (fun k => !(ids.any (· = l.base + k)))
  let base := l.base + b.getD 0
  { l with base := base, taken := ids.filter (fun i => decide (base ≤ i)) }

/-- A cohort of a launch goes back among those that have not been bound. -/
def Launch.giveBack (l : Launch) (id : Nat) : Launch :=
  if id < l.base then
    { l with base := id, taken := ((List.range (l.base - id)).map (fun k => id + k)).filter (· ≠ id) ++ l.taken }
  else { l with taken := l.taken.filter (· ≠ id) }

/-- The first cohort of a launch that passes a test and whose dependences are met; cohorts that can never be bound are counted on
the way (27 R420, R422). -/
def firstReadyId (s : State) (root : DWord) (deps : List Nat) (ok : Nat → Bool) : Launch → Nat → Nat → Option Nat × State
  | _, 0, _ => (none, s)
  | l, fuel + 1, id =>
    if l.taken.any (· = id) || id < l.base || !(ok id) then firstReadyId s root deps ok l fuel (id + 1)
    else
      match depState s root (launchCoord l id) id deps with
      | (.set, s1) => (some id, s1)
      | (.never, s1) =>
        let s2 := mapLaunch s1 l.no (fun l => { l.take id with ended := l.ended + 1, lost := l.lost + 1, depfailed := true })
        firstReadyId s2 root deps ok l fuel (id + 1)
      | (_, s1) => firstReadyId s1 root deps ok l fuel (id + 1)

/-- The status of an ended launch (27 R425). -/
def Launch.status (l : Launch) : Nat := if l.aborted then 2 else if l.depfailed then 3 else if l.killed then 1 else 0

/-- A pass that is due and not dropped, on a counter that is not poisoned (05 R108). -/
def passDue (s : State) (no : Nat) : Bool := s.passes.any (fun p => p.launch = no && !(bitAt (memNat s p.pa 8) 63))

/-- Every core's owned words are released (04 R96). -/
def releaseOwned (s : State) : State :=
  let s1 := registerAll s (fun _ => true)
  { s1 with owner := [] }

end Sys2Proof.Machine
end

