-- ==== Sys2Proof/Machine/Bind.lean ====
section
/-! DEFINITION. Binding (28 R427 to R439; 27 R411, R412, R423; 07 R133, R143; 34 R517 to R520): what the firmware chooses, the bind
record, the check and the creation or restore of a cohort, and the quantum. -/

namespace Sys2Proof.Machine

/-- Physical core of a logical core (28 R439). -/
def physOf (s : State) (logical : Nat) : Nat :=
  match NMap.get 0 s.remap logical with
  | 0 => logical
  | p + 1 => p

/-- First record and number of records of a job-card cohort (07 R143). -/
def chunkOf (l : Launch) : Nat → Nat → Nat → Nat × Nat
  | 0, first, rest => (first, chunkSize rest l.jcores l.jmin)
  | id + 1, first, rest =>
    let n := chunkSize rest l.jcores l.jmin
    chunkOf l id (first + n) (rest - n)

/-- The track of a convoy under a track mask (28 R428). -/
def trackFor (tmask : BitVec 16) (i : Nat) : Nat :=
  let ts := (List.range 16).filter (fun t => tmask.getLsbD t)
  ts.getD (i % ts.length) 0

/-- Convoy budgets that a cohort comes with: those in force, or a descriptor's (02 R50, R53). -/
def comingBudgets (c : Cohort) : List (Nat × Nat) :=
  if c.convoys.isEmpty then (List.range c.desc.convoys).map (fun i => (i, granulesOf c.desc i))
  else c.convoys.map (fun v => (v.id, v.budget))

/-- Whether the tracks of a core hold a cohort's convoys (01 R17, R21; 28 R428). -/
def tracksFit (cs : List Cohort) (tmask : BitVec 16) (c : Cohort) : Bool :=
  (List.range 16).all (fun t =>
    let new := (comingBudgets c).filter (fun b => trackFor tmask b.1 = t)
    let old := cs.flatMap (fun d => d.convoys.filter (fun v => v.track = t))
    new.isEmpty || (decide (old.length + new.length ≤ 8) &&
      decide ((old.map (·.budget)).sum + (new.map (·.2)).sum ≤ 64)))

/-- Whether the free scratch of a core holds a cohort's (03 R57, 28 R428). -/
def scratchFits (cs : List Cohort) (c : Cohort) : Bool := decide ((cs.map (fun d => d.desc.scratch)).sum + c.desc.scratch ≤ 14)

/-- The effective fields of a region that every bind takes anew (27 R412, 28 R427). -/
def withRegion (s : State) (c : Cohort) : Cohort :=
  let r := c.rcb
  { c with
    root := effRoot s r, keyid := effKey s r, prio := effFld s 0 r 831 824, action := effFld s 3 r 815 813
    handler := effFld s 3 r 1663 1600, det := decide (effFld s 5 r 811 811 = 1), strict := decide (effFld s 5 r 810 810 = 1)
    check := decide (effFld s 7 r 809 809 = 1), pmacc := decide (effFld s 7 r 808 808 = 1), dclass := decide (effFld s 4 r 812 812 = 1)
    quantum := let q := effFld s 1 r 847 832; if q = 0 then 200 else q }

/-- A cohort of a launch before its first bind. -/
def freshOf (s : State) (l : Launch) (id : Nat) : Cohort :=
  let ch := if l.job then chunkOf l id 0 l.jn else (0, 0)
  withRegion s
    { desc := l.desc, descPtr := l.descPtr, rcb := l.rcb, launch := l.no, linear := id, coord := launchCoord l id, grid := l.grid
      arg := l.arg, cbank := l.cbank, cfirst := ch.1, ccount := ch.2, session := l.session, code := l.code }

/-- A cohort of the spawn grid before its bind (07 R132, R133; 01 R540): nothing while its descriptor cannot be read. -/
def spawnOf (s : State) (b : SpawnBuf) : Option Cohort × State :=
  match readRec s fwCore (effRoot s b.rcb) b.desc 64 with
  | (none, _, s1) => (none, s1)
  | (some x, _, s1) =>
    (some (withRegion s1
      { desc := descOf x, descPtr := b.desc, rcb := b.rcb, linear := b.no, coord := (b.no, 0, 0), grid := (0, 0, 0)
        payloads := (List.range 32).map (fun i => match b.recs[i]? with
          | some r => memNat s1 r 64
          | none => 0)
        code := s1.mem }), s1)

/-- A cohort that could be bound, its source, and its place in the binding order (28 R434): smaller goes first. -/
structure Cand where
  src : BindFrom
  co  : Cohort
  key : List Nat
  deriving DecidableEq, Repr

/-- Lexicographic order of keys. -/
def keyLess : List Nat → List Nat → Bool
  | [], _ => true
  | _ :: _, [] => false
  | x :: xs, y :: ys => x < y || (x = y && keyLess xs ys)

/-- The first of a list of candidates. -/
def firstCand : List Cand → Option Cand
  | [] => none
  | c :: cs =>
    match firstCand cs with
    | none => some c
    | some d => if keyLess c.key d.key then some c else some d

/-- Logical cores that the cohorts under a resource share hold (27 R411, R423; 28 R434). -/
def heldCores (s : State) (p : Cohort → Bool) : Nat := (distinct (((allCohorts s).filter p).map (·.logical))).length

/-- The binding order of a cohort (28 R434, R432; 29 R451; 01 R36). -/
def bindKey (s : State) (c : Cohort) (since rank launch : Nat) : List Nat :=
  let short := c.dclass && decide (heldCores s (fun d => d.rcb = c.rcb) < effFld s 4 c.rcb 863 848)
  let cls := if short then 0 else if 50000000 ≤ s.ns - since then 1 else 2
  let last := ((regionOf s c.rcb).map (·.lastBind)).getD 0
  [cls, 255 - c.prio, last, c.rcb, rank, launch, c.linear]

/-- Whether a bind of a source is under way. -/
def binding (s : State) (src : BindFrom) : Bool := s.binds.any (fun b => b.src = src)

/-- Parked cohorts that are ready. -/
def parkedCands (s : State) : List Cand :=
  (s.parked.filter (fun p => p.why = .ready && !(binding s (.parked p.co.uid)))).map (fun p =>
    let c := withRegion s p.co
    { src := .parked c.uid, co := c, key := bindKey s c p.since (if c.payloads.isEmpty then 2 else 1) c.launch })

/-- Spawn cohorts whose SPAWN entries the firmware has read (28 R432). -/
def spawnCands (s : State) : List Cand :=
  s.spawnqs.flatMap (fun x =>
    [(0, x.bufA), (1, x.bufB)].filterMap (fun e => match e.2 with
      | none => none
      | some b =>
        if !b.seen || binding s (.spawn x.core x.q e.1) then none
        else match (spawnOf s b).1 with
          | none => none
          | some c => some { src := .spawn x.core x.q e.1, co := c, key := bindKey s c s.ns 1 0 }))

/-- Whether a launch has cohorts for a logical core (28 R435). -/
def detAllows (s : State) (l : Launch) (logical id : Nat) : Bool :=
  if effFld s 5 l.rcb 811 811 = 1 then
    let n := effFld s 1 l.rcb 895 880
    let b := ((regionOf s l.rcb).bind (·.detBase)).getD 0
    decide (logical = b + id % n)
  else true

/-- The first ready cohort of each launch for a logical core; cohorts that can never be bound are counted on the way. -/
def launchCands (s : State) (logical : Nat) : List Launch → List Cand × State
  | [] => ([], s)
  | l :: ls =>
    let deps := match readDeps s (effRoot s l.rcb) depFuel l.dep.toNat with
      | (.ok xs, _) => some xs
      | _ => none
    match deps with
    | none => launchCands s logical ls
    | some ds =>
      let ok (id : Nat) : Bool := (!l.job || id = l.base) && detAllows s l logical id && !(binding s (.launch l.no id))
      let r := firstReadyId s (effRoot s l.rcb) ds ok l (l.count - l.base) l.base
      let q := launchCands r.2 logical ls
      match r.1 with
      | none => q
      | some id =>
        let c := freshOf r.2 l id
        ({ src := .launch l.no id, co := c, key := bindKey r.2 c l.since (if l.handles.isSome then 0 else 2) l.no } :: q.1, q.2)

/-- Whether spawn records of a region are outstanding (07 R137). -/
def spawnsOut (s : State) (rcb : Nat) : Bool :=
  s.spawnqs.any (fun x => (x.rcb = rcb && !x.recs.isEmpty) || [x.bufA, x.bufB].any (fun b => match b with
    | some b => decide (b.rcb = rcb)
    | none => false))

/-- What passes a cohort over whatever the core (28 R434, R432; 27 R413; 35 R527). -/
def passable (s : State) (c : Cand) : Bool :=
  let r := c.co.rcb
  let o := effOwner s 1 r
  let share (d : Cohort) : Bool := decide (effOwner s 1 d.rcb = o)
  let cores := effFld s 1 r 895 880
  !(haltedFrom s treeFuel r) && !(s.ras.faulty.any (fun f => f.1 = 8)) && decide (0 < energyOf s r) &&
  (!c.co.convoys.isEmpty || (findPools s (poolRegion s r) c.co.desc).isSome) && decide (heldCores s share < cores) &&
  (!(spawnsOut s r) || !c.co.payloads.isEmpty ||
    decide (heldCores s (fun d => share d && d.payloads.isEmpty) + effFld s 1 r 879 864 < cores)) &&
  (match s.session with
    | some x => decide (x.rcb ≠ r) || c.co.session
    | none => true)

/-- A free slot of a core, by the firmware's table. -/
def freeSlots (s : State) (core : Nat) : List Nat :=
  (List.range 16).filter (fun k => (NMap.get 0#256 s.slotTab (16 * core + k)).extractLsb' 0 2 = 0#2)

/-- Whether a core can take a cohort (28 R434, R439; 06 R118; 34 R518). -/
def coreFits (s : State) (core logical : Nat) (tmask : BitVec 16) (c : Cohort) : Bool :=
  let cs := (allCohorts s).filter (fun d => d.core = core)
  decide (core < 352) && !(s.ras.faulty.any (· = (0, core))) && !(freeSlots s core).isEmpty && tracksFit cs tmask c &&
    scratchFits cs c && cs.all (fun d => d.logical = logical) && !(c.hold && cs.any (·.hold)) &&
    fitsPower s core (countedLevel c)

/-- The preference among cores (28 R435): one that holds the launch, a die below its soft limit, more free slots. -/
def corePref (s : State) (c : Cohort) (core : Nat) : Nat :=
  let same := (allCohorts s).any (fun d => d.core = core && d.launch = c.launch && d.rcb = c.rcb)
  let cool := decide (s.power.temps.getD (dieOf core) 0 < s.power.soft)
  34 * b2n same + 17 * b2n cool + (freeSlots s core).length

/-- Logical cores on which a cohort may run (28 R435): its own in a region with DET. -/
def logicalOk (c : Cohort) (logical : Nat) : Bool := c.convoys.isEmpty || !c.det || c.logical = logical

/-- Whether some other core is preferred for a cohort (28 R435). -/
def betterCore (s : State) (c : Cohort) (at_ : Nat) (tmask : BitVec 16) : Bool :=
  !c.det && (List.range 320).any (fun l =>
    let p := physOf s l
    decide (corePref s c at_ < corePref s c p) && coreFits s p l tmask c)

/-- A bind record (28 R427). -/
def bindRecord (c : Cohort) (tmask : BitVec 16) (fresh : Bool) : BitVec 256 :=
  BitVec.ofNat 40 (c.ctx / 4096) ++ BitVec.ofNat 32 c.linear ++ tmask ++ BitVec.ofNat 8 c.prio ++ BitVec.ofNat 10 c.logical ++
    BitVec.ofNat 11 c.keyid ++ BitVec.ofNat 3 c.action ++ BitVec.ofBool c.det ++ BitVec.ofBool c.strict ++ BitVec.ofBool c.check ++
    BitVec.ofBool c.pmacc ++ BitVec.ofBool c.dclass ++ BitVec.ofBool fresh ++ 0#2 ++ BitVec.ofNat 16 c.quantum ++ 0#48 ++ c.gen ++
    0#30 ++ 1#2

/-- The pool units, the number and the context block of a cohort that is bound for the first time (27 R423, 28 R430), with a fault
record and an engine fault record that hold none (29 R444, R445, R447). -/
def firstBind (s : State) (c : Cohort) : Option (Cohort × State) :=
  let r := poolRegion s c.rcb
  match findPools s r c.desc with
  | none => none
  | some t =>
    let uid := s.uids
    let s1 := takePools { s with uids := uid + 1 } uid r c.desc t
    let pbase := r.ppool + 4096 * t.priv
    let tbase := if poolNeed r c.desc 3 = 0 then 0 else r.tspill + 256 * t.tape
    let pages := t.pages.map (fun p => r.rpool + 4096 * p)
    let c1 : Cohort :=
      { c with
        uid := uid, gen := BitVec.ofNat 32 uid, ctx := r.spool + 4096 * t.save, ctxPages := savedPages c.desc, ckey := r.skey
        proot := effRoot s r.rcb, tbase := tbase, tper := r.tper, recs := pages.flatMap (fun p => (List.range 64).map (fun i => p + 64 * i))
        rlist := if pages.isEmpty then 0 else Config.firmwareList uid
        convoys := [], ticket := none }
    let launch := ((launchOf s c.launch).map (·.rec_)).getD 0
    let list := if c.payloads.isEmpty then 0 else Config.firmwareList 0
    some (c1, writeLong s1 c1.ctx c1.ckey (ctxHeader c1 pbase c1.rlist list launch ++ List.replicate 128 0#8))

/-- BIND_DECISION (28 R434, R435): the firmware chooses the first ready cohort that can be bound and writes a BIND. -/
def execBindDecision (logical : Nat) (at_ : SlotRef) (tmask : BitVec 16) (s : State) : Out :=
  if tmask = 0#16 || 319 < logical || physOf s logical ≠ at_.core || !((freeSlots s at_.core).any (· = at_.slot)) then .next s
  else
    let q := launchCands s logical s.launches
    let all := (parkedCands s ++ spawnCands s ++ q.1).filter (passable s)
    let fits (c : Cand) : Bool := (List.range 320).any (fun l =>
      logicalOk c.co l && (coreFits s (physOf s l) l tmask c.co || coreFits s (physOf s l) l 0xFFFF#16 c.co))
    let tight := all.any (fun c => (List.range 320).all (fun l => !(fitsPower s (physOf s l) (countedLevel c.co))))
    let s0 := if tight then { q.2 with power := { q.2.power with passed := s.ns } } else q.2
    match firstCand (all.filter fits) with
    | none => .next s0
    | some c =>
      if !(logicalOk c.co logical) || !(coreFits s at_.core logical tmask c.co) || betterCore s c.co at_.core tmask then .next s0
      else
        let go (s : State) (co : Cohort) (fresh : Bool) : State :=
          let c1 := { co with core := at_.core, slot := at_.slot, tmask := tmask, logical := logical }
          let s1 := match regionOf s c1.rcb with
            | some r => putRegion s { r with lastBind := s.ns }
            | none => s
          let s2 := match c.src with
            | .launch no id => mapLaunch s1 no (fun l => l.take id)
            | _ => s1
          { s2 with
            slotTab := NMap.set 0#256 s2.slotTab (16 * at_.core + at_.slot) (bindRecord c1 tmask fresh)
            binds := s2.binds ++ [{ core := at_.core, slot := at_.slot, tmask := tmask, src := c.src, co := c1 }] }
        match c.src with
        | .parked _ => .next (go s0 c.co false)
        | _ =>
          match firstBind s0 c.co with
          | some (co, s1) => .next (go s1 co true)
          | none => .next s0

/-- Why a BIND is refused (28 R428, R431; 06 R118): the detail of its entry. -/
def bindFault (s : State) (b : BindReq) : Option Nat :=
  let r := NMap.get 0#256 s.slotTab (16 * b.core + b.slot)
  let cs := (allCohorts s).filter (fun d => d.core = b.core)
  if r.extractLsb' 128 2 ≠ 0#2 || r.extractLsb' 64 48 ≠ 0#48 || r.extractLsb' 2 30 ≠ 0#30 || r.extractLsb' 168 16 = 0#16 ||
    319 < (r.extractLsb' 150 10).toNat || r.extractLsb' 112 16 = 0#16 then some 1
  else if !(tracksFit cs b.tmask b.co) then some 2
  else if !(scratchFits cs b.co) then some 3
  else if b.co.hold && cs.any (·.hold) then some 5
  else none

/-- A convoy of a fresh cohort (02 R38, R50; 07 R132, R133; 28 R430). -/
def freshConvoy (c : Cohort) (pbase prio i : Nat) : Convoy :=
  let present (t : Nat) : Bool := c.payloads.isEmpty || decide (c.payloads.getD t 0 ≠ 0)
  let m := maskOf ((List.range 32).filter present)
  let rec_ (t : Nat) : Nat := c.payloads.getD t 0
  let ws (t : Nat) : List (Nat × Word) :=
    (List.range (slice (rec_ t) 323 320)).map (fun j => (32 * j + t, BitVec.ofNat 32 (slice (rec_ t) (32 * j + 31) (32 * j))))
  let main := (List.range 32).foldl (fun mm t => (ws t).foldl (fun mm e => NMap.set 0#32 mm e.1 e.2) mm) ([] : NMap Word)
  { id := i, track := trackFor c.tmask i, role := roleOf c.desc i, budget := granulesOf c.desc i, live := m
    main := if c.payloads.isEmpty then [] else main, fr := if m = 0#32 then [] else [{ pc := c.desc.entry, prio := prio, mask := m }]
    pbase := pbase + 4096 * privPages c.desc * i
    junc := if c.payloads.isEmpty then [] else (List.range 32).foldl (fun mm t => NMap.set 0 mm t (slice (rec_ t) 511 448)) [] }

/-- A restored convoy: its track, and its deadlines from the cycles of its core (01 R26, R35). -/
def boundConvoy (now : Nat) (c : Cohort) (v : Convoy) : Convoy :=
  let f : Option Wait → Option Wait
    | some (.join d late) => some (.join (d + now) late)
    | w => w
  { v with
    track := trackFor c.tmask v.id, fr := v.fr.map (fun e => { e with wait := f e.wait })
    clause := v.clause.map (fun k => { k with wait := f k.wait }) }

/-- The records of a spawn cohort return to the reservations they came from (07 R130). -/
def returnRecords (s : State) (recs : List Nat) : State :=
  recs.foldl (fun s r =>
    match s.allocs.find? (fun a => a.pool = 0 && (match regionOf s a.owner with
        | some g => decide (g.rpool + 4096 * a.start ≤ r) && decide (r < g.rpool + 4096 * (a.start + a.len))
        | none => false)) with
    | some a => mapUid s a.uid (fun c => { c with recs := c.recs ++ [r] })
    | none => s) s

/-- The list buffer of a spawn queue is free again, and a dispatch that waited for it is made (28 R432, R433). -/
def freeBuffer (s : State) (core q buf : Nat) : State :=
  let recs := match s.spawnqs.find? (fun x => x.core = core && x.q = q) with
    | some x => ((if buf = 0 then x.bufA else x.bufB).map (·.recs)).getD []
    | none => []
  let s1 := returnRecords s recs
  let s2 : State :=
    { s1 with
      spawnqs := s1.spawnqs.map (fun x =>
        if x.core = core && x.q = q then (if buf = 0 then { x with bufA := none } else { x with bufB := none }) else x) }
  match s2.spawnqs.find? (fun x => x.core = core && x.q = q) with
  | some x => if x.want then dispatchQ s2 core q else s2
  | none => s2

/-- The header priority at a kernel's entry (01 R27); 0 where it cannot be read. -/
def entryPrio (s : State) (root : DWord) (va : Nat) : Nat :=
  match engAddr s fwCore root (BitVec.ofNat 64 va) false true with
  | (some (.ok (pa, _)), s1) => memNat s1 pa 1
  | _ => 0

/-- A BIND that passes (28 R429): the cohort is created or restored, and its first instruction's acquire is made (27 R418). -/
def createCohort (s : State) (b : BindReq) : State :=
  let now := cycles s b.core
  let c0 : Cohort :=
    { b.co with bindNs := s.ns, quantumNs := s.ns, chargeNs := s.ns, evict := false, yielded_ := false }
  let s1 := slotState { s with binds := s.binds.erase b } b.core b.slot 2#2
  match b.src with
  | .parked uid =>
    let c1 := loadImage s1 c0
    let c2 := { c1 with convoys := c1.convoys.map (boundConvoy now c1) }
    invalidateL1 { s1 with parked := s1.parked.filter (fun p => p.co.uid ≠ uid), others := c2 :: s1.others } b.core
  | _ =>
    let prio := entryPrio s1 c0.root c0.desc.entry
    let pbase := memNat s1 (c0.ctx + 224) 8
    let c1 := { c0 with convoys := (List.range c0.desc.convoys).map (freshConvoy c0 pbase prio) }
    let s2 := invalidateL1 { s1 with others := c1 :: s1.others } b.core
    match b.src with
    | .spawn core q buf => freeBuffer s2 core q buf
    | _ => s2

/-- SLOT_BIND (28 R428 to R430). -/
def execSlotBind (at_ : SlotRef) (s : State) : Out :=
  match s.binds.find? (fun b => b.core = at_.core && b.slot = at_.slot) with
  | none => .next s
  | some b =>
    match bindFault s b with
    | none => .next (pickFocus (createCohort (unfocus s) b))
    | some k =>
      if !(ringRoom s (dieOf b.core)) then .next s
      else
        let s1 := slotState { s with binds := s.binds.erase b } b.core b.slot 0#2
        let s2 := post s1 (dieOf b.core) (ringEntry b.co.gen b.co.linear b.core b.slot 4 (BitVec.ofNat 32 k))
        let back (s : State) : State := { s with allocs := s.allocs.filter (fun a => a.uid ≠ b.co.uid) }
        match b.src with
        | .parked _ => .next s2
        | .launch no id => .next (mapLaunch (back s2) no (fun l => l.giveBack id))
        | .spawn _ _ _ => .next (back s2)

/-- SLEEP_EXPIRY (28 R440): the time of a sleeping cohort has passed. -/
def execSleepExpiry (cohort : Nat) (s : State) : Out :=
  .next { s with
    parked := s.parked.map (fun p =>
      match p.why with
      | .sleeping t => if p.co.uid = cohort && decide (t ≤ s.ns) then { p with why := .ready, since := s.ns } else p
      | _ => p) }

/-- Whether a ready cohort waits that could use a slot of a core in place of its cohort (28 R436). -/
def wantsSlot (s : State) (c : Cohort) (p : Cohort → Bool) : Bool :=
  let s1 := { s with others := s.others.filter (fun d => d.uid ≠ c.uid), slotTab := NMap.set 0#256 s.slotTab (16 * c.core + c.slot) 0#256 }
  let logicals := (List.range 320).filter (fun l => physOf s l = c.core)
  logicals.any (fun l =>
    ((parkedCands s1 ++ spawnCands s1 ++ (launchCands s1 l s1.launches).1).filter (passable s1)).any (fun x =>
      p x.co && logicalOk x.co l && (coreFits s1 c.core l 0xFFFF#16 x.co || coreFits s1 c.core l c.tmask x.co)))

/-- Whether a bound cohort is the one that a throttling step evicts (34 R520): of level 2 or 3 at step 2, any at step 4, with the
lowest priority; a reserved core only when its region holds more than its reserve. -/
def throttled (s : State) (c : Cohort) : Bool :=
  let free (d : Cohort) : Bool :=
    !d.dclass || decide (effFld s 4 d.rcb 863 848 < heldCores s (fun e => e.rcb = d.rcb))
  let pool := (allCohorts s).filter (fun d => free d && (s.power.step_ = 4 || decide (2 ≤ countedLevel d)))
  (s.power.step_ = 2 || s.power.step_ = 3 || s.power.step_ = 4) && pool.any (fun d => d.uid = c.uid) && pool.all (fun d => c.prio ≤ d.prio)

/-- QUANTUM_CHECK (28 R436; 34 R519, R520): once a cohort has held its slot for its quantum, the firmware evicts it or starts a new
quantum. -/
def execQuantumCheck (at_ : SlotRef) (s : State) : Out :=
  .next (atBound s at_.core at_.slot (fun s c =>
    let st := (NMap.get 0#256 s.slotTab (16 * c.core + c.slot)).extractLsb' 0 2
    if st ≠ 2#2 || (!c.yielded_ && s.ns < c.quantumNs + 10000 * c.quantum) then s
    else
      let s1 := chargeCohort s c
      let hot := throttled s1 c
      let out := decide (energyOf s1 c.rcb ≤ 0) || wantsSlot s1 c (fun _ => true) || hot
      let s2 := if hot then { s1 with power := { s1.power with acted := true } } else s1
      if out then mapUid (slotState s2 c.core c.slot 3#2) c.uid (fun (d : Cohort) => { d with evict := true, yielded_ := false })
      else mapUid s2 c.uid (fun (d : Cohort) => { d with quantumNs := s.ns, yielded_ := false })))

/-- ENERGY_DEDUCTION (34 R519): the charge of a bound cohort since its last one. -/
def execEnergyDeduction (at_ : SlotRef) (s : State) : Out := .next (atBound s at_.core at_.slot chargeCohort)

/-- Whether cohorts of a region have not retired (28 R438). -/
def unretired (s : State) (rcb : Nat) : Bool :=
  (allCohorts s).any (fun c => c.rcb = rcb) || s.parked.any (fun p => p.co.rcb = rcb) || s.launches.any (fun l => l.rcb = rcb)

/-- DEADLINE_PASSED (28 R438): a DEADLINE event, once for each deadline. -/
def execDeadlinePassed (rcb : Nat) (s : State) : Out :=
  let d := effFld s 4 rcb 1471 1408
  match regionOf s rcb with
  | none => .next s
  | some r =>
    if effFld s 4 rcb 812 812 ≠ 1 || s.ns ≤ d || !(unretired s rcb) || r.logged = some d then .next s
    else .next (logPut (putRegion s { r with logged := some d }) (logEvent s rcb 3 0 0 0 0))

end Sys2Proof.Machine
end

