-- ==== Sys2Proof/Machine/Services.lean ====
section
/-! DEFINITION. The firmware's services (28 R440; 20 R387; 31 R479; 29 R450) and its power samples (34 R516, R520, R521). -/

namespace Sys2Proof.Machine

/-- A convoy of a cohort, bound or parked. -/
def convoyIn (s : State) (uid convoy : Nat) : Option Convoy :=
  if s.focus && s.ch.uid = uid then (convoysOf s).find? (fun v => v.id = convoy)
  else (cohortOf s uid).bind (fun c => c.convoys.find? (fun v => v.id = convoy))

/-- Changing one convoy of a cohort, bound or parked. -/
def mapConvoyIn (s : State) (uid convoy : Nat) (f : Convoy → Convoy) : State :=
  if s.focus && s.ch.uid = uid then mapConvoy s convoy f
  else mapUid s uid (fun c => { c with convoys := c.convoys.map (fun v => if v.id = convoy then f v else v) })

/-- The bound cohort with a number. -/
def boundOf (s : State) (uid : Nat) : Option Cohort := (allCohorts s).find? (fun c => c.uid = uid)

/-- What a read by an engine of n bytes at any alignment gives (18 R350): the bytes, or none for a read that fails; it is
answered by `none` outside while a translation is retried. -/
def readBytesAt (s : State) (core : Nat) (root : DWord) (va : Nat) : Nat → Option (Option (List Byte)) × State
  | 0 => (some (some []), s)
  | n + 1 =>
    match engAddr s core root (BitVec.ofNat 64 va) false false with
    | (none, s1) => (none, s1)
    | (some (.error _), s1) => (some none, s1)
    | (some (.ok (pa, key)), s1) =>
      if poisoned s1 (lineOf pa) then (some none, s1)
      else
        let s2 := rekeyAt s1 pa 1 key
        match readBytesAt s2 core root (va + 1) n with
        | (some (some bs), s3) => (some (some (memByte s2 pa :: bs)), s3)
        | r => r

/-- Status PROTECTION (28 R440). -/
def denied : Nat := 1

/-- Whether a request of SCALL has been sent: its release has been performed (20 R387, 04 R83). -/
def scallSent (s : State) (r : Scall) : Bool :=
  match convoyIn s r.uid r.convoy with
  | none => false
  | some v =>
    match v.units.find? (fun u => u.seq = r.unit) with
    | none => false
    | some u => !(releaseBlocked (v.units.takeWhile (fun w => w.seq ≠ u.seq)) u)

/-- The release of a request (20 R387): the stores of its threads are registered. -/
def scallRelease (s : State) (r : Scall) : State :=
  match boundOf s r.uid, convoyIn s r.uid r.convoy with
  | some c, some v =>
    match v.units.find? (fun u => u.seq = r.unit) with
    | some u => registerThrough s c.core (fun x => decide (x.uid = r.uid) && decide (x.convoy = r.convoy) && u.mask.getLsbD x.lane)
    | none => s
  | _, _ => s

/-- A request ends with a status: of a SCALL, which is delivered later, or of the mailbox (31 R479). -/
def giveStatus (s : State) (no : Nat) (x : Nat) : State :=
  { s with scalls := s.scalls.map (fun r => if r.no = no then { r with status := some (BitVec.ofNat 32 x) } else r) }

/-- The mailbox request ends with a status (31 R479). -/
def mailboxDone (s : State) (x : Nat) : State :=
  fire { s with regs := { s.regs with busy := false, status := (1#1 ++ 0#31) ++ BitVec.ofNat 32 x } } 1

/-- A request of a service, from a SCALL or from the mailbox. What it does and its status are none while it waits. -/
def serve (req : Option Nat) (service : Nat) (dev : State → Scall → Option (State × Nat))
    (host : State → Nat → Option (State × Nat)) (s : State) : Out :=
  match req with
  | some k =>
    match s.scalls[k]? with
    | none => .next s
    | some r =>
      if r.service ≠ service || r.status.isSome || !(scallSent s r) then .next s
      else
        match dev (scallRelease s r) r with
        | none => .next s
        | some (s1, x) => .next (giveStatus s1 r.no x)
  | none =>
    if !s.regs.busy || (s.regs.service.extractLsb' 0 12).toNat ≠ service then .next s
    else
      match host s s.regs.arg.toNat with
      | none => .next s
      | some (s1, x) => .next (mailboxDone s1 x)

/-- VERSION (28 R440). -/
def execVersion (req : Option Nat) (s : State) : Out :=
  serve req 0 (fun s _ => some (s, Config.tamgalVersion.toNat)) (fun s _ => some (s, Config.tamgalVersion.toNat)) s

/-- YIELDQ (28 R440): the quantum has ended; the next quantum check acts at once. -/
def execYieldq (req : Option Nat) (s : State) : Out :=
  serve req 1 (fun s r => some (mapUid s r.uid (fun (c : Cohort) => { c with yielded_ := true }), 0)) (fun s _ => some (s, denied)) s

/-- An EVICT written to the slot of a bound cohort (28 R429). -/
def evictCohort (s : State) (c : Cohort) : State :=
  if (NMap.get 0#256 s.slotTab (16 * c.core + c.slot)).extractLsb' 0 2 = 2#2 then
    mapUid (slotState s c.core c.slot 3#2) c.uid (fun (d : Cohort) => { d with evict := true })
  else s

/-- The cohort is unbound, and ready again at a time (28 R440, 01 R36). -/
def sleepUntil (s : State) (uid t : Nat) : State :=
  match boundOf s uid with
  | some c => evictCohort (mapUid s uid (fun (d : Cohort) => { d with sleepTo := some t })) c
  | none =>
    { s with parked := s.parked.map (fun p => if p.co.uid = uid && p.why = .ready then { p with why := .sleeping t } else p) }

/-- SLEEP (28 R440). -/
def execSleep (req : Option Nat) (s : State) : Out :=
  serve req 2
    (fun s r =>
      match readBytesAt s fwCore r.root r.arg.toNat 8 with
      | (none, _) => none
      | (some none, s1) => some (s1, denied)
      | (some (some bs), s1) => some (sleepUntil s1 r.uid (s1.ns + natOfBytes bs), 0))
    (fun s _ => some (s, denied)) s

/-- A USER event (28 R440): the record, with its time, the RCB concerned and its type. -/
def userEvent (s : State) (rcb x : Nat) : BitVec 512 :=
  BitVec.ofNat 64 s.ns ++ BitVec.ofNat 64 rcb ++ 6#8 ++ BitVec.ofNat 376 x

/-- Whether n bytes at a physical address can be read (30 R463, 29 R458). -/
def physReadable (s : State) (pa n : Nat) : Bool :=
  (List.range n).all (fun i => (physKind s (pa + i) = .hbm || physKind s (pa + i) = .tier2) && !(poisoned s (lineOf (pa + i))))

/-- LOG (28 R440). The host's record is at a physical address. -/
def execLog (req : Option Nat) (s : State) : Out :=
  serve req 3
    (fun s r =>
      match readBytesAt s fwCore r.root r.arg.toNat 64 with
      | (none, _) => none
      | (some none, s1) => some (s1, denied)
      | (some (some bs), s1) => some (logPut s1 (userEvent s1 r.rcb (natOfBytes bs)), 0))
    (fun s a => if physReadable s a 64 then some (logPut s (userEvent s 0 (memNat s a 64)), 0) else some (s, denied)) s

/-- Whether an address can be a region control block (27 R409, R538). -/
def rcbReadable (s : State) (rcb : Nat) : Bool := decide (rcb % 256 = 0) && decide (rcb ≠ 0) && physReadable s rcb 256

/-- A REGIONUPD (27 R412; 28 R440; 29 R450): the region's fields are read again, or a new region joins the tree, and the
dispositions of its stopped cohorts are read. -/
def updateRegion (s : State) (rcb : Nat) : State :=
  let s1 := takeRegion s rcb
  (s1.parked.filter (fun p => p.co.rcb = rcb && p.why = .stopped)).foldl (fun s p => applyDisp s p.co.uid false) s1

/-- REGIONUPD (28 R440): a device request names a target inside the caller's subtree. -/
def execRegionupd (req : Option Nat) (s : State) : Out :=
  serve req 4
    (fun s r =>
      let a := r.arg.toNat
      let p := rcbFld s a 2047 1984
      let inside := if (regionOf s a).isSome then below s r.rcb treeFuel a else (regionOf s p).isSome && below s r.rcb treeFuel p
      if rcbReadable s a && inside then some (updateRegion s a, 0) else some (s, denied))
    (fun s a => if rcbReadable s a then some (updateRegion s a, 0) else some (s, denied)) s

/-- HALT of a region: the flag, and an EVICT for every bound cohort of the subtree (28 R440). -/
def haltRegion (s : State) (rcb : Nat) : State :=
  let s1 := rcbSetBit s rcb 768
  ((allCohorts s1).filter (fun c => below s1 rcb treeFuel c.rcb)).foldl evictCohort s1

/-- HALT (28 R440). -/
def execHalt (req : Option Nat) (s : State) : Out :=
  serve req 5 (fun s _ => some (s, denied))
    (fun s a => if (regionOf s a).isSome then some (haltRegion s a, 0) else some (s, denied)) s

/-- KILL (28 R440): acts as fault action 3. -/
def execKill (req : Option Nat) (s : State) : Out :=
  serve req 6 (fun s _ => some (s, denied))
    (fun s a => if (regionOf s a).isSome then some (pickFocus (killSubtree s a), 0) else some (s, denied)) s

/-- SCALL_STATUS_DELIVERY (20 R387): the status is written to d, and the completion is an acquire; it waits while the cohort is
unbound. -/
def execScallStatusDelivery (k : Nat) (s : State) : Out :=
  match s.scalls[k]? with
  | none => .next s
  | some r =>
    match r.status, boundOf s r.uid with
    | some x, some c =>
      let f (v : Convoy) : Convoy :=
        match v.units.find? (fun u => u.seq = r.unit) with
        | none => v
        | some u => dropUnit (u.writes.foldl (fun v e => setLoc v e.1 (x.setWidth 64)) v) u
      .next (invalidateL1 (mapConvoyIn { s with scalls := s.scalls.eraseIdx k } r.uid r.convoy f) c.core)
    | _, _ => .next s

/-- A declaration of a resource that has no procedure of its own here: a LASTING event, and an entry of the repair record. -/
def declareOnly (s : State) (cls index spare count : Nat) : State :=
  let s1 := logPut s (logEvent s 0 5 cls index spare count)
  { s1 with
    ras := { s1.ras with
      faulty := s1.ras.faulty ++ [(cls, index)]
      repair := if s1.ras.repair.length < 256 then s1.ras.repair ++ [(cls, index)] else s1.ras.repair } }

/-- Every region holds HALT until the next reset (34 R521; 33 R508, R511): a class 8 declaration. -/
def declarePackage (s : State) : State :=
  if s.ras.faulty.any (fun f => f.1 = 8) then s
  else
    let s1 := declareOnly s 8 0 0xFFFFFFFF 0
    s1.regions.foldl (fun s r => rcbSetBit s r.rcb 768) s1

/-- The envelope's step and clock after a sample in milliwatts (34 R520). -/
def envelopeStep (s : State) (mw : Nat) : Power :=
  let p := { s.power with sample := mw }
  if 1000 * p.envelope < mw then
    if p.step_ < 2 then { p with step_ := 2, acted := false }
    else if p.step_ = 2 && !p.acted && (allCohorts s).any (fun c => decide (2 ≤ countedLevel c)) then p
    else if p.floor < p.clock then { p with step_ := 3, clock := max p.floor (p.clock - 50) }
    else { p with step_ := 4 }
  else { p with step_ := 0, acted := false }

/-- Whether clocks rise at a sample (34 R520). -/
def clocksRise (s : State) (mw : Nat) : Bool :=
  decide (mw + 40000 ≤ 1000 * s.power.envelope) && decide (s.power.passed + 1000000 ≤ s.ns)

/-- A die's clock and hot time after a sample (34 R521). -/
def dieSample (p : Power) (rise : Bool) (now t clk : Nat) (hot : Option Nat) : Nat × Option Nat :=
  if p.hard ≤ t then (max p.floor (clk - 50), if clk ≤ p.floor then some (hot.getD now) else none)
  else (if rise && decide (t + 3 ≤ p.hard) then min 1300 (clk + 50) else clk, none)

/-- POWER_SAMPLE (34 R516, R520 to R522), at the next multiple of 100 µs. -/
def execPowerSample (milliwatts : Nat) (temps : List Nat) (s0 : State) : Out :=
  let s := { s0 with ns := (s0.ns / 100000 + 1) * 100000 }
  let rise := clocksRise s milliwatts
  let p0 := envelopeStep s milliwatts
  let p := if rise then { p0 with clock := min 1300 (p0.clock + 50) } else p0
  let dies := (List.range 4).map (fun d => dieSample p rise s.ns (temps.getD d 0) (p.dieClock.getD d 1300) ((p.hot.getD d none)))
  let s1 := { s with power := { p with temps := (List.range 4).map (fun d => temps.getD d 0), dieClock := dies.map (·.1), hot := dies.map (·.2) } }
  let over_ := dies.any (fun e => match e.2 with
    | some t => decide (t + 10000000 ≤ s.ns)
    | none => false)
  .next (if over_ then declarePackage s1 else s1)

end Sys2Proof.Machine
end

