-- ==== Sys2Proof/Machine/Shake.lean ====
section
/-! DEFINITION. SHAKE256 (FIPS 202), which 09 R180, 31 R482 and 35 R529 use. -/

namespace Sys2Proof.Machine

/-- The rotation offsets of Keccak, lane (x, y) at x + 5y. -/
def keccakRot : List Nat :=
  [0, 1, 62, 28, 27, 36, 44, 6, 55, 20, 3, 10, 43, 25, 39, 41, 45, 15, 21, 8, 18, 2, 61, 56, 14]

/-- The round constants of Keccak. -/
def keccakRc : List DWord :=
  [0x0000000000000001#64, 0x0000000000008082#64, 0x800000000000808A#64, 0x8000000080008000#64, 0x000000000000808B#64,
   0x0000000080000001#64, 0x8000000080008081#64, 0x8000000000008009#64, 0x000000000000008A#64, 0x0000000000000088#64,
   0x0000000080008009#64, 0x000000008000000A#64, 0x000000008000808B#64, 0x800000000000008B#64, 0x8000000000008089#64,
   0x8000000000008003#64, 0x8000000000008002#64, 0x8000000000000080#64, 0x000000000000800A#64, 0x800000008000000A#64,
   0x8000000080008081#64, 0x8000000000008080#64, 0x0000000080000001#64, 0x8000000080008008#64]

/-- A lane of a Keccak state, indices taken modulo 5. -/
def kLane (a : List DWord) (x y : Nat) : DWord := a.getD (x % 5 + 5 * (y % 5)) 0#64

/-- The 25 lanes given by a function of x and y. -/
def kLanes (f : Nat → Nat → DWord) : List DWord := (List.range 25).map (fun i => f (i % 5) (i / 5))

/-- One round of Keccak-f[1600]. -/
def keccakRound (a : List DWord) (rc : DWord) : List DWord :=
  let c := (List.range 5).map (fun x => (List.range 5).foldl (fun v y => v ^^^ kLane a x y) 0#64)
  let d := (List.range 5).map (fun x => c.getD ((x + 4) % 5) 0#64 ^^^ (c.getD ((x + 1) % 5) 0#64).rotateLeft 1)
  let b := kLanes (fun x y =>
    let u := (x + 3 * y) % 5
    (kLane a u x ^^^ d.getD u 0#64).rotateLeft (keccakRot.getD (u + 5 * x) 0))
  let e := kLanes (fun x y => kLane b x y ^^^ (~~~(kLane b (x + 1) y) &&& kLane b (x + 2) y))
  match e with
  | h :: t => (h ^^^ rc) :: t
  | [] => []

/-- Keccak-f[1600]. -/
def keccakF (a : List DWord) : List DWord := keccakRc.foldl keccakRound a

/-- The lanes that n bytes fill, the rest zero. -/
def lanesOf (bs : List Byte) : List DWord :=
  (List.range 25).map (fun i => BitVec.ofNat 64 (natOfBytes ((bs.drop (8 * i)).take 8)))

/-- Absorbing whole blocks of 136 bytes. -/
def shakeAbsorb : Nat → List Byte → List DWord → List DWord
  | 0, _, a => a
  | n + 1, bs, a => shakeAbsorb n (bs.drop 136) (keccakF (List.zipWith (· ^^^ ·) a (lanesOf (bs.take 136))))

/-- The first n bytes, at most 136, of SHAKE256 of a message. -/
def shake256 (bs : List Byte) (n : Nat) : List Byte :=
  let k := bs.length / 136 + 1
  let z := 136 * k - bs.length - 1
  let padded := if z = 0 then bs ++ [0x9F#8] else bs ++ [0x1F#8] ++ List.replicate (z - 1) 0#8 ++ [0x80#8]
  ((shakeAbsorb k padded (List.replicate 25 0#64)).flatMap (fun w => bytesOf w.toNat 8)).take n

end Sys2Proof.Machine
end

