-- ==== Sys2Proof/Machine/Sys.lean ====
section
/-! DEFINITION. The SYS class (20 R379 to R392; 09 R180; 33 R513; 35 R524, R525) and the completion of its units. -/

namespace Sys2Proof.Machine

/-- A Protection fault of every active thread (29 R446). -/
def protFault (s : State) (sub addr : Nat) : FaultRec := { kind := 0x0E, sub := sub, addr := addr, mask := activeMask s }

/-- A SYS instruction: its checks in the order of 20 R381, then `f` goes on. -/
def sysOp (us : List Use) (d : Option (Dst × Nat)) (check : State → Option FaultRec) (s0 : State) (f : State → Out) : Out :=
  let s := settleIdx s0 us (d.map (·.1))
  match checkUses s us d with
  | some e => faultOut s e
  | none =>
    match checkReady s (useLocs s us ++ (match d with
        | some (x, n) => dstLocs s x n
        | none => [])) with
    | some e => faultOut s e
    | none =>
      let s1 := settleReads s us []
      match check s1 with
      | some e => faultOut s1 e
      | none => f s1

/-- The end of a SYS instruction: its units join its token (20 R380). -/
def sysUnits (st : Stall) (t : Tok) (us : List Pending) (s : State) (f : State → State) : Out :=
  if tokRoom s.cv t.toNat us.length then
    let s1 := f s
    .next (retire st { s1 with cv := addUnits s1.cv us })
  else .next (waitIssue s)

/-- The writes of a value to d in every active thread that has no poisoned source. -/
def sysWrites (s : State) (d : Dst) (n : Nat) (f : Nat → DWord) : List (Loc × DWord) :=
  ((actLanes s).filter (clean s)).flatMap (fun k => dstWrites s d n k (f k))

/-- The writes of a unit whose value is read at its completion: word numbers in place of the words. -/
def sysMarks (s : State) (d : Dst) (n : Nat) : List (Loc × DWord) := sysWrites s d n (fun _ => 1#64 <<< 32)

/-- The mode word (20 R390). -/
def modeWord (c : Cohort) : Word :=
  BitVec.ofNat 32 (256 * b2n c.eftrap + 8 * b2n c.pmacc + 4 * b2n c.check + 2 * b2n c.strict + b2n c.det)

/-- The code of a role (02 R48, 12 R231). -/
def roleCode : Role → Nat
  | .general => 0 | .feed => 1 | .compute => 2 | .drain => 3

/-- A special register of a thread (20 R392; 01 R15). -/
def special (s : State) (r t : Nat) : DWord :=
  let c := s.ch
  let lin := 32 * s.cv.id + t
  let k := c.desc
  BitVec.ofNat 64 (match r with
    | 0x00 => lin % k.shapex
    | 0x01 => lin / k.shapex % k.shapey
    | 0x02 => lin / (k.shapex * k.shapey)
    | 0x03 => lin
    | 0x04 => t
    | 0x05 => s.cv.id
    | 0x06 => k.convoys
    | 0x07 => c.coord.1
    | 0x08 => c.coord.2.1
    | 0x09 => c.coord.2.2
    | 0x0A => c.linear % 2 ^ 32
    | 0x0B => c.grid.1 % 2 ^ 32
    | 0x0C => c.grid.2.1
    | 0x0D => c.grid.2.2
    | 0x0E => s.cv.track
    | 0x0F => c.logical
    | 0x10 => roleCode s.cv.role
    | 0x11 => c.handoffs.toNat
    | 0x12 => c.arg.toNat
    | 0x13 => c.cfirst
    | 0x14 => c.ccount
    | 0x20 => c.core
    | 0x21 => dieOf c.core
    | 0x22 => c.rcb
    | 0x23 => c.travtab.toNat
    | 0x25 => (modeWord c).toNat
    | 0x26 => c.spawnk
    | _ => 0)

/-- SRD (20 R382, R392). -/
def execSrd (st : Stall) (d : Dst) (reg : BitVec 8) (t : Tok) (s : State) : Out :=
  let n := if specialWide reg then 2 else 1
  sysOp [] (some (d, n)) (fun _ => none) s (fun s =>
    if reg = 0x24#8 then sysUnits st t [{ newUnit s t (.sysRead 6) with writes := sysMarks s d 2 }] s id
    else sysUnits st t [{ newUnit s t .value with writes := sysWrites s d n (special s reg.toNat) }] s id)

/-- SWR (20 R382): only %trav.table is writable. -/
def execSwr (st : Stall) (a : Src) (reg : BitVec 8) (t : Tok) (s : State) : Out :=
  let n := if specialWide reg then 2 else 1
  sysOp [⟨0, a, n⟩] none
    (fun s =>
      let x := rd64 s a (lowest s)
      if reg ≠ 0x23#8 then some (protFault s 10 0)
      else if x.extractLsb' 0 9 ≠ 0#9 then some { kind := 0x0C, addr := x.toNat, mask := activeMask s }
      else none) s
    (fun s => sysUnits st t [newUnit s t (.sysSet 0 (rd64 s a (lowest s)))] s id)

/-- The accesses of CCTL and TLBH: the threads whose pointer names a global byte or a private one inside the bound; the others are
dropped (20 R383, R384). -/
def hintAccs (s : State) (a : Src) : List Acc :=
  ((actLanes s).map (fun t => { lane := t, ea := (rd64 s a t).toNat, win := resolve (rd64 s a t), n := 1 : Acc })).filter (fun x =>
    match x.win with
    | .glob _ => true
    | .priv off => decide (off / 4 < privBound s x.lane)
    | _ => false)

/-- CCTL (20 R383): one unit for each distinct line, or one in all. -/
def execCctl (st : Stall) (a : Src) (op : CctlOp) (t : Tok) (s : State) : Out :=
  sysOp [⟨0, a, 2⟩] none (fun _ => none) s (fun s =>
    let go (s : State) (ps : List Piece) : Out :=
      if op = .wball || op = .invall then sysUnits st t [newUnit s t (.cctl op)] s id
      else sysUnits st t (groupUnits lineKey (newUnit s t (.cctl op)) ps) s id
    if op = .wball || op = .invall then go s []
    else
      match pageChecks s false false (hintAccs s a) with
      | .fault s1 f => if f.kind = 0x0D then faultOut s1 f else go s1 []
      | .stall s1 => .next (stallRetry s1)
      | .go s1 ps =>
        go s1 ((ps.filter (fun p => !p.ms && clean s1 p.lane)).map (fun p =>
          { lane := p.lane, scr := false, addr := p.pa, va := p.va, n := 0, priv := p.priv, key := p.key : Piece })))

/-- What a unit of CCTL does (20 R383). -/
def performCctl (s : State) (u : Pending) (op : CctlOp) : State :=
  let core := s.ch.core
  let back (s : State) (p : Piece) : State :=
    if p.priv then (s.l1.filter (fun l => l.core = core && l.priv && l.line = lineOf p.addr)).foldl writeBackLine s
    else leaveCopy s core (lineOf p.addr)
  let inval (s : State) (p : Piece) : State := dropCopy s core (128 * lineOf p.addr) 128
  let s1 : State := match op with
    | .wbl => u.pieces.foldl back s
    | .invl => u.pieces.foldl inval s
    | .wbinvl => u.pieces.foldl inval (u.pieces.foldl back s)
    | .wball =>
      let s2 := writeBackPrivate s s.ch.uid
      { s2 with owner := s2.owner.filter (fun e => e.2 ≠ core + 1) }
    | .invall => invalidateL1 s core
  { s1 with cv := dropUnit s1.cv u }

/-- The PMACC rule (20 R385, R389; 35 R527). -/
def pmaccCheck (s : State) : Option FaultRec := if s.ch.pmacc then none else some (protFault s 10 0)

/-- PMC (20 R385; 35 R527). -/
def execPmc (st : Stall) (ev : BitVec 6) (k : BitVec 2) (enable clear own : Bool) (t : Tok) (s : State) : Out :=
  sysOp [] none (fun s => if s.session.isSome then some (protFault s 10 0) else pmaccCheck s) s (fun s =>
    sysUnits st t [newUnit s t .value] s (fun s =>
      let i := 4 * s.ch.core + k.toNat
      let c : PmCtr := NMap.get {} s.ctrs i
      let new : PmCtr := { ev := ev, en := enable, own := if own then some s.ch.uid else none, val := if clear then 0#64 else c.val }
      { s with ctrs := NMap.set {} s.ctrs i new }))

/-- PMR (20 R385). -/
def execPmr (st : Stall) (d : Dst) (k : BitVec 2) (t : Tok) (s : State) : Out :=
  sysOp [] (some (d, 2)) pmaccCheck s (fun s =>
    sysUnits st t [{ newUnit s t (.sysRead k.toNat) with writes := sysMarks s d 2 }] s id)

/-- CLK (20 R386). -/
def execClk (st : Stall) (d : Dst) (ns : Bool) (t : Tok) (s : State) : Out :=
  sysOp [] (some (d, 2)) (fun _ => none) s (fun s =>
    sysUnits st t [{ newUnit s t (.sysRead (if ns then 5 else 4)) with writes := sysMarks s d 2 }] s id)

/-- What a unit reads when it completes. -/
def sysValue (s : State) (what : Nat) : DWord :=
  match what with
  | 4 => BitVec.ofNat 64 (cycles s s.ch.core)
  | 5 => BitVec.ofNat 64 s.ns
  | 6 => BitVec.ofNat 64 (wrapN 64 (energyOf s s.ch.rcb))
  | k => (NMap.get {} s.ctrs (4 * s.ch.core + k)).val

/-- A unit that reads a value when it completes: word k of the value goes where its writes say k. -/
def performSysRead (s : State) (u : Pending) (what : Nat) : State :=
  let v := sysValue s what
  let word (k : Nat) : Word := (v >>> (32 * k)).setWidth 32
  let c := u.writes.foldl (fun c e => setLoc c e.1 ((word e.2.toNat).setWidth 64)) s.cv
  { s with cv := dropUnit c u }

/-- A unit that sets a register of the cohort (20 R382, R390; 34 R517): a new power level takes the charge up to now under the old. -/
def performSysSet (s : State) (u : Pending) (what : Nat) (x : DWord) : State :=
  let s1 : State := match what with
    | 0 => { s with ch := { s.ch with travtab := x } }
    | 1 =>
      let s2 := chargeCohort s s.ch
      { s2 with ch := { s2.ch with pwrh := x.setWidth 2 } }
    | _ => { s with ch := { s.ch with eftrap := x.getLsbD 0 } }
  { s1 with cv := dropUnit s1.cv u }

/-- The pages that TLBH names, with the lowest thread of each (20 R384). -/
def hintSpans (s : State) (a : Src) : List Span :=
  let ps := (hintAccs s a).flatMap (spansOf s)
  (distinct (ps.map (fun p => p.va / 4096))).flatMap (fun k => (ps.find? (fun p => p.va / 4096 = k)).toList)

/-- TLBH (20 R384): one unit for each distinct page. -/
def execTlbh (st : Stall) (a : Src) (evict : Bool) (t : Tok) (s : State) : Out :=
  sysOp [⟨0, a, 2⟩] none (fun _ => none) s (fun s =>
    let ps := hintSpans s a
    sysUnits st t (ps.map (fun p => { newUnit s t .value with mask := unitMask (newUnit s t .value) [p.lane] })) s (fun s =>
      ps.foldl (fun s p =>
        if evict then { s with tlb := s.tlb.filter (fun e => !(e.core = some s.ch.core && e.covers p.root p.va)) }
        else (translate s s.ch.core p.root p.va).2) s))

/-- SCALL (20 R387): the request is sent once its release is performed; an undefined service has its status at once. -/
def execScall (st : Stall) (d : Dst) (a : Src) (service : BitVec 12) (t : Tok) (s : State) : Out :=
  sysOp [⟨0, a, 2⟩] (some (d, 1)) (fun _ => none) s (fun s =>
    let no := s.nscall + 1
    let u := { newUnit s t (.scall (2 ^ 32 * service.toNat + no % 2 ^ 32)) with writes := sysWrites s d 1 (fun _ => 0#64), acq := true, rel := true }
    sysUnits st t [u] s (fun s =>
      let r : Scall :=
        { no := no, uid := s.ch.uid, convoy := s.cv.id, unit := s.cv.useq, rcb := s.ch.rcb, root := s.ch.root
          service := service.toNat, arg := rd64 s a (lowest s), status := if 6 < service.toNat then some 0xFFFFFFFF#32 else none }
      { s with scalls := s.scalls ++ [r], nscall := no }))

/-- DIGEST.absorb (20, QRD, QWR, DIGEST; 09 R180). -/
def execDigestAbsorb (st : Stall) (a b c : Src) (slot : BitVec 4) (t : Tok) (s : State) : Out :=
  sysOp [⟨0, a, 2⟩, ⟨1, b, 2⟩, ⟨2, c, 1⟩] none
    (fun s =>
      let p := rd64 s b (lowest s)
      if 2 ^ 57 < p.toNat + (rd32 s c (lowest s)).toNat || 2 ^ 57 ≤ p.toNat then some (protFault s 1 p.toNat) else none) s
    (fun s =>
      let l := lowest s
      sysUnits st t [{ newUnit s t (.absorb slot.toNat (rd64 s a l) (rd64 s b l) (rd32 s c l).toNat) with rel := true }] s id)

/-- The unit of DIGEST.absorb: the buffer is read, and the slot takes the digest; a read that fails leaves the slot and gives an
Engine fault (09 R180, 29 R447). -/
def performAbsorb (s : State) (u : Pending) (slot : Nat) (tag buf : DWord) (len : Nat) : State :=
  let s0 := releaseStores s u.mask
  match readBytesAt s0 s0.ch.core s0.ch.root buf.toNat len with
  | (none, _) => s
  | (some none, s1) =>
    let c := { s1.ch with efault := (recordEngine s1.ch 6 5 s1.cv.id 0 0 buf.toNat 0).efault }
    let v := dropUnit s1.cv u
    { s1 with ch := c, cv := { v with bfaults := v.bfaults ++ [enginePending buf.toNat 0 6] } }
  | (some (some bs), s1) =>
    let h := natOfBytes (shake256 (bytesOf tag.toNat 8 ++ bytesOf len 8 ++ bs) 32)
    let g := digestOf s1 s1.ch.rcb
    let s2 := putDigest s1 { g with slots := NMap.set 0#256 g.slots slot (NMap.get 0#256 g.slots slot ^^^ BitVec.ofNat 256 h) }
    { s2 with cv := dropUnit s2.cv u }

/-- A replica mismatch (33 R513): MISMATCH and HALT in each control block, an event for each region, and the eviction of both
subtrees. -/
def mismatch (s : State) (a b : Nat) : State :=
  let mark (s : State) (r : Nat) : State := rcbSetBit (rcbSetBit s r 769) r 768
  let s1 := mark (mark s a) b
  let s2 := logPut (logPut s1 (logEvent s1 a 2 0 0 0 0)) (logEvent s1 b 2 0 0 0 0)
  ((allCohorts s2).filter (fun c => below s2 a treeFuel c.rcb || below s2 b treeFuel c.rcb)).foldl evictCohort s2

/-- DIGEST.step (09 R180; 20, QRD, QWR, DIGEST; 33 R513, R514). -/
def execDigestStep (st : Stall) (a : Src) (slot : BitVec 4) (s : State) : Out :=
  let _ := slot
  withUses [⟨0, a, 2⟩] 7 s (fun s =>
    let n := rd64 s a (lowest s)
    let r := s.ch.rcb
    let p := partnerOf s r
    let own := digestOf s r
    if p = 0 then .next (retire st (putDigest s { own with slots := [], pub := none }))
    else if own.done = some n then .next (retire st s)
    else
      let mine := { own with pub := some n }
      let s1 := putDigest s mine
      let its := digestOf s1 p
      if its.pub ≠ some n then .next (waitEntry (.digest n) s1)
      else if its.slots = mine.slots then
        let s2 := putDigest s1 { rcb := r, slots := [], pub := none, done := some n }
        .next (retire st (putDigest s2 { rcb := p, slots := [], pub := none, done := some n }))
      else .next (waitEntry (.digest n) (mismatch s1 r p)))

/-- MODE (20 R390). -/
def execMode (st : Stall) (op : ModeOp) (t : Tok) (s : State) : Out :=
  let set (a : Src) (b : Bool) : Out :=
    sysOp [⟨0, a, 1⟩] none
      (fun s => if rd32 s a (lowest s) &&& ~~~0x100#32 ≠ 0#32 then some (protFault s 10 0) else none) s
      (fun s =>
        if (rd32 s a (lowest s)).getLsbD 8 then sysUnits st t [newUnit s t (.sysSet 2 (BitVec.ofNat 64 (b2n b)))] s id
        else sysUnits st t [newUnit s t .value] s id)
  match op with
  | .rd d =>
    sysOp [] (some (d, 1)) (fun _ => none) s (fun s =>
      sysUnits st t [{ newUnit s t .value with writes := sysWrites s d 1 (fun _ => (modeWord s.ch).setWidth 64) }] s id)
  | .set a => set a true
  | .clr a => set a false

/-- The copy of the engine fault record (20 R391): four stores of 16 bytes of the lowest thread, under checks 7 to 12 of 15 R283. -/
def efltCopy (st : Stall) (a : Src) (clear : Bool) (t : Tok) (s : State) : Out :=
  sysOp [⟨0, a, 2⟩] none (fun _ => none) s (fun s =>
    let l := lowest s
    let p := rd64 s a l
    match accessChecks s true false false false false [{ lane := l, ea := p.toNat, win := resolve p, n := 64 }] with
    | .fault s1 f => faultOut s1 { f with mask := activeMask s }
    | .stall s1 => .next (stallRetry s1)
    | .go s0 ps =>
      let s1 := widenNoted s0
      let bs := bytesOf s0.ch.efault.pack.toNat 64
      let cut (q : Piece) : List Piece :=
        if q.n ≤ 16 then [q]
        else (List.range (q.n / 16)).map (fun k =>
          { q with addr := q.addr + 16 * k, va := q.va + 16 * k, n := 16, data := (q.data.drop (16 * k)).take 16 })
      let scr : List Piece := match resolve p with
        | .scr off => [{ lane := l, scr := true, addr := off, va := off, n := 64, data := bs }]
        | _ => []
      let mem : List Piece := ps.map (fun q =>
        { lane := q.lane, scr := false, addr := q.pa, va := q.va, n := q.n, data := (bs.drop q.off).take q.n, priv := q.priv
          ms := q.ms, key := q.key })
      let u := { newUnit s1 t .store with once := true, pieces := (cleanPieces s1 (scr ++ mem)).flatMap cut }
      sysUnits st t [u] s1 (fun s => if clear then { s with ch := { s.ch with efault := {} } } else s))

/-- EFLT (20 R391). -/
def execEflt (st : Stall) (op : EfltOp) (t : Tok) (s : State) : Out :=
  match op with
  | .copy a => efltCopy st a false t s
  | .clr => sysOp [] none (fun _ => none) s (fun s =>
      sysUnits st t [newUnit s t .value] s (fun s => { s with ch := { s.ch with efault := {} } }))
  | .copyClr a => efltCopy st a true t s

/-- PWRH (20, MODE, EFLT, PWRH; 34 R517). -/
def execPwrh (st : Stall) (level : BitVec 2) (t : Tok) (s : State) : Out :=
  sysOp [] none (fun _ => none) s (fun s => sysUnits st t [newUnit s t (.sysSet 1 (level.setWidth 64))] s id)

/-- QRD (02 R46). -/
def execQrd (st : Stall) (d : Dst) (q : BitVec 3) (t : Tok) (s : State) : Out :=
  sysOp [] (some (d, 1)) (fun _ => none) s (fun s =>
    sysUnits st t [{ newUnit s t .value with writes := sysWrites s d 1 (fun _ => (NMap.get 0#32 s.cv.qview q.toNat).setWidth 64) }] s id)

/-- QWR (02 R46): its unit completes in its issue cycle. -/
def execQwr (st : Stall) (a : Src) (q : BitVec 3) (t : Tok) (s : State) : Out :=
  let _ := t
  sysOp [⟨0, a, 1⟩] none (fun _ => none) s (fun s =>
    let x := rd32 s a (lowest s)
    .next (retire st (if clean s (lowest s) then
      { s with ch := { s.ch with q := NMap.set 0#32 s.ch.q q.toNat x }, cv := { s.cv with qview := NMap.set 0#32 s.cv.qview q.toNat x } }
      else s)))

/-- The region that LNCH names: the issuing one for the zero code (20 R388). -/
def lnchTarget (s : State) (b : Src) : Nat := if b = .zero then s.ch.rcb else (rd64 s b (lowest s)).toNat

/-- LNCH (20 R388): the target is checked at issue, and the record is linked when the unit completes. -/
def execLnch (st : Stall) (a b : Src) (t : Tok) (s : State) : Out :=
  sysOp [⟨0, a, 2⟩, ⟨1, b, 2⟩] none
    (fun s =>
      let x := (rd64 s a (lowest s)).toNat
      if !(below s s.ch.rcb treeFuel (lnchTarget s b)) then some (protFault s 11 x)
      else if x % 64 ≠ 0 then some { kind := 0x0C, addr := x, mask := activeMask s }
      else none) s
    (fun s => sysUnits st t [{ newUnit s t (.lnch (rd64 s a (lowest s)) (lnchTarget s b)) with rel := true }] s id)

/-- Whether a write at an address of a region is retried (30 R464). -/
def writeRetry (s : State) (root : DWord) (va : Nat) : Bool := (engAddr s fwCore root (BitVec.ofNat 64 va) true true).1.isNone

/-- Whether a link of a record into a queue waits for a translation (27 R416, 30 R464). -/
def linkRetry (s : State) (rcb rec_ : Nat) : Bool :=
  let root := effRoot s rcb
  let old := rcbFld s rcb 1791 1728
  writeRetry s root (rec_ + 56) || (decide (old ≠ 0) && writeRetry s root (old + 56))

/-- The unit of LNCH: a release, then the link (20 R388; 27 R416). A link of a session cohort into another region sets the external
flag (35 R528). -/
def performLnch (s : State) (u : Pending) (rec_ : DWord) (rcb : Nat) : State :=
  if linkRetry s rcb rec_.toNat then s
  else
    let s1 := linkRecord (releaseStores s u.mask) rcb rec_.toNat
    let s2 : State :=
      { s1 with session := s1.session.map (fun x => { x with external := x.external || s1.ch.session }) }
    { s2 with cv := dropUnit s2.cv u }

/-- The session word (20 R389). -/
def sessionWord (s : State) : DWord :=
  match s.session with
  | none => 0#64
  | some x => BitVec.ofNat 64 (x.pass % 256 + 256 + 512 * b2n s.sessMis)

/-- REPLAY (20 R389). -/
def execReplay (st : Stall) (op : ReplayOp) (t : Tok) (s : State) : Out :=
  match op with
  | .rd d =>
    sysOp [] (some (d, 1)) (fun _ => none) s (fun s =>
      sysUnits st t [{ newUnit s t .value with writes := sysWrites s d 1 (fun _ => sessionWord s) }] s id)
  | .req a =>
    sysOp [⟨0, a, 2⟩] none pmaccCheck s (fun s => sysUnits st t [newUnit s t (.replayReq (rd64 s a (lowest s)))] s id)

/-- Writing bytes at a virtual address of a region, where they translate. -/
def writeBytesAt (s : State) (root : DWord) (va : Nat) (bs : List Byte) : State :=
  (bs.zipIdx).foldl (fun s e =>
    match engAddr s fwCore root (BitVec.ofNat 64 (va + e.2)) true true with
    | (some (.ok (pa, key)), s1) => writeCoherent s1 none pa key [e.1]
    | (_, s1) => s1) s

/-- The header of a result record: status, passes run, mismatch mask, the external flag, the complete byte, pages captured (35 R530). -/
def resultHeader (status passes mask ext pages : Nat) : List Byte :=
  bytesOf status 4 ++ bytesOf passes 1 ++ bytesOf mask 1 ++ bytesOf ext 1 ++ bytesOf 1 1 ++ bytesOf pages 4

/-- A session record (35 R524). -/
def sessionOf (s : State) (rcb x : Nat) : Session :=
  { rcb := rcb, root := effRoot s rcb, launch := BitVec.ofNat 64 (slice x 511 448), result := BitVec.ofNat 64 (slice x 447 384)
    wsbuf := BitVec.ofNat 64 (slice x 383 320), wspages := slice x 319 288
    events := (List.range (min 32 (slice x 63 56))).map (fun i => slice x (64 + 6 * i + 5) (64 + 6 * i)), stop := x.testBit 48 }

/-- Whether a session record keeps its limits (35 R524, R525). -/
def sessionOk (x : Nat) : Bool :=
  decide (slice x 287 256 = 0) && decide (slice x 55 49 = 0) && decide (slice x 47 0 = 0) && decide (slice x 511 448 % 64 = 0) &&
    decide (slice x 447 384 % 64 = 0) && decide (slice x 383 320 % 4096 = 0) && decide (1 ≤ slice x 319 288) &&
    decide (1 ≤ slice x 63 56 ∧ slice x 63 56 ≤ 32)

/-- Whether a launch record would be taken (27 R415); none while a translation is retried. -/
def launchWouldRun (s : State) (rcb va : Nat) : Option Bool :=
  match readRec s fwCore (effRoot s rcb) va 64 with
  | (none, true, _) => none
  | (x, _, s1) => (beginLaunch s1 rcb va (x.map launchRec) none true).map (·.2)

/-- The unit of REPLAY.req: the firmware accepts or refuses the request (35 R525). -/
def performReplayReq (s : State) (u : Pending) (va : DWord) : State :=
  let done (s : State) : State := { s with cv := dropUnit s.cv u }
  let rcb := s.ch.rcb
  let root := effRoot s rcb
  match readBytesAt s fwCore root va.toNat 64 with
  | (none, _) => s
  | (some none, s1) => done s1
  | (some (some bs), s1) =>
    let x := natOfBytes bs
    let refuse (s : State) (k : Nat) : State := done (writeBytesAt s root (slice x 447 384) (resultHeader k 0 0 0 0))
    if s1.session.isSome then refuse s1 1
    else if !(sessionOk x) || va.extractLsb' 0 6 ≠ 0#6 then refuse s1 2
    else
      match launchWouldRun s1 rcb (slice x 511 448) with
      | none => s
      | some false => refuse s1 2
      | some true => done { s1 with session := some (sessionOf s1 rcb x), sessMis := false }

end Sys2Proof.Machine
end

