-- ==== Sys2Proof/Machine/Trav.lean ====
section
/-! DEFINITION. The traversal unit (08 R156 to R164; 19 R365 to R371): microprograms, nodes, instances, primitives, the short
stack and the trail, emission, and the adjoint of a kept hit. -/

namespace Sys2Proof.Machine

/-- What a program is run for (19 R369, R370). -/
inductive ProgRole | node | prim | adj
  deriving DecidableEq, Repr

/-- A microprogram's registers, flags and results (19 R369). -/
structure Prog where
  w     : NMap Word := []
  fl    : NMap Bool := []
  emits : Nat := 0
  kids  : List (DWord × Bool × Bool) := []
  acc   : Option (Word × Word × Word) := none
  grads : List (Nat × Word) := []
  /-- ended, and whether with KIND -/
  ended : Bool := false
  wrong : Bool := false
  deriving DecidableEq, Repr

/-- What an accepting step compares with (19 R370): tmin, tmax, and the held t of CLOSEST. -/
structure AccCtx where
  tmin : Word
  tmax : Word
  held : Option Word
  deriving DecidableEq, Repr

/-- A register of a program. -/
def Prog.reg (p : Prog) (i : Nat) : Word := NMap.get 0#32 p.w i

/-- A flag of a program; f7 reads set (19 R369). -/
def Prog.flag (p : Prog) (i : Nat) : Bool := decide (i = 7) || NMap.get false p.fl i

/-- The FP32 value of a word. -/
def f32v (w : Word) : FV := fval .f32 w.toNat

/-- FResult in binary32 under rne (14 R258). -/
def f32r (v : FV) : Word := BitVec.ofNat 32 (enc .f32 (fresult .f32 .rne false false v))

/-- Whether a program may write a register (19 R369). -/
def writable (r : ProgRole) (i : Nat) : Bool :=
  decide (24 ≤ i ∧ i ≤ 47) || decide (57 ≤ i ∧ i ≤ 59) || (decide (r = .adj) && decide (48 ≤ i ∧ i ≤ 53))

/-- The fields that an operation uses (19 R370). -/
def stepFields (op : Nat) : Word :=
  match op with
  | 0 => 0x0FFFFFF0#32 | 1 => 0x0FFFFC00#32 | 2 => 0x0FFFFC00#32 | 3 => 0x01FFFC70#32 | 4 => 0x0FFFFC07#32
  | 5 => 0x0FFF0000#32 | 6 => 0x003F000F#32 | 7 => 0x003FFFF7#32 | 9 => 0x003F3C00#32 | _ => 0#32

/-- Setting a register of a program; KIND where it is not writable. -/
def Prog.put (p : Prog) (r : ProgRole) (i : Nat) (w : Word) : Prog :=
  if writable r i then { p with w := NMap.set 0#32 p.w i w } else { p with ended := true, wrong := true }

/-- Whether an ACC accepts a t (19 R370). -/
def accepts (x : AccCtx) (t : Word) : Bool :=
  let v := f32v t
  decide (v ≠ .nan) && fcond .le (f32v x.tmin) v && fcond .le v (f32v x.tmax) &&
  (match x.held with
    | some h => flt v (f32v h)
    | none => true)

/-- One step of a program (19 R370). -/
def Prog.step (r : ProgRole) (x : AccCtx) (p : Prog) (s : Word) : Prog :=
  let op := (s.extractLsb' 28 4).toNat
  let dst := (s.extractLsb' 22 6).toNat
  let a := (s.extractLsb' 16 6).toNat
  let b := (s.extractLsb' 10 6).toNat
  let c := (s.extractLsb' 4 6).toNat
  let f := (s.extractLsb' 0 3).toNat
  let bad : Prog := { p with ended := true, wrong := true }
  if p.ended then p
  else if 10 ≤ op || (s &&& 0x0FFFFFFF#32) &&& ~~~(stepFields op) ≠ 0#32 then bad
  else
    match op with
    | 0 => p.put r dst (f32r (fsum .rne (fprod (f32v (p.reg a)) (f32v (p.reg b))) (f32v (p.reg c))))
    | 1 => p.put r dst (BitVec.ofNat 32 (enc .f32 (fminmax false (f32v (p.reg a)) (f32v (p.reg b)))))
    | 2 => p.put r dst (BitVec.ofNat 32 (enc .f32 (fminmax true (f32v (p.reg a)) (f32v (p.reg b)))))
    | 3 =>
      if dst = 7 then bad
      else { p with fl := NMap.set false p.fl dst (fcond (condOf (s.extractLsb' 4 3)) (f32v (p.reg a)) (f32v (p.reg b))) }
    | 4 => p.put r dst (if p.flag f then p.reg a else p.reg b)
    | 5 => p.put r dst (f32r (fquot (.fin (Q.ofInt 1)) (f32v (p.reg a))))
    | 6 =>
      if a % 2 = 1 then bad
      else if r ≠ .node || 4 ≤ p.emits then p
      else
        { p with emits := p.emits + 1, kids := p.kids ++ [(DWord.ofWords (p.reg a) (p.reg (a + 1)), p.flag f, s.getLsbD 3)] }
    | 7 =>
      if r = .prim && p.flag f && accepts x (p.reg a) then
        { p with acc := some (p.reg a, p.reg b, p.reg c), ended := true }
      else p
    | 8 => { p with ended := true }
    | _ => if r = .adj then { p with grads := p.grads ++ [(b % 16, p.reg a)] } else p

/-- Running a program (19 R369, R370). -/
def Prog.run (r : ProgRole) (x : AccCtx) (p : Prog) (ws : List Word) : Prog := ws.foldl (Prog.step r x) p

/-- The registers that a program starts with: the record, the frame, and the constants (19 R369). -/
def progStart (rec : List Word) (fo fd : List Word) (tmin : Word) : Prog :=
  let m := NMap.setAll 0#32 ([] : NMap Word) 0 (rec.take 16)
  let m := NMap.setAll 0#32 m 16 (fo ++ fd ++ [tmin])
  { w := NMap.setAll 0#32 m 60 [0#32, 0x3F800000#32, 0xBF800000#32, 0x7F800000#32] }

/-- What a read for a ray gives: words, a retry, or the status that ends the ray (08 R161, R164). -/
inductive RayRead
  | ok (ws : List Word)
  | retry
  | stop (status : Nat)
  deriving DecidableEq, Repr

/-- Words of a list of bytes. -/
def wordsOfBytes (bs : List Byte) : List Word :=
  (List.range (bs.length / 4)).map (fun k => BitVec.ofNat 32 (natOfBytes ((bs.drop (4 * k)).take 4)))

/-- An engine read of n words for a ray, within one 64-byte block (08 R157, R161, R164). -/
def rayRead (s : State) (va n : Nat) : RayRead × State :=
  match engAddr s s.ch.core s.ch.root (BitVec.ofNat 64 va) false false with
  | (none, s1) => (.retry, s1)
  | (some (.error _), s1) => (.stop 7, s1)
  | (some (.ok (pa, key)), s1) =>
    let s2 := rekeyAt s1 pa (4 * n) key
    if poisoned s2 (lineOf pa) then (.stop 2, s2) else (.ok (wordsOfBytes (memGet s2 pa (4 * n))), s2)

/-- A program's 64 step words: four 64-byte reads; one whose first word is 0 does not exist (19 R368). -/
def rayProgram (s : State) (va : Nat) : RayRead × State :=
  let go := (List.range 4).foldl (fun (r : RayRead × State) k =>
    match r.1 with
    | .ok ws =>
      let q := rayRead r.2 (va + 64 * k) 16
      match q.1 with
      | .ok xs => (.ok (ws ++ xs), q.2)
      | e => (e, q.2)
    | _ => r) (RayRead.ok [], s)
  match go.1 with
  | .ok ws => if ws.headD 0#32 = 0#32 then (.stop 6, go.2) else go
  | _ => go

/-- Address of the program of a kind: class 0 nodes, 1 primitives; the adjoint in the second half (19 R368). -/
def progVa (table c kind : Nat) (adj : Bool) : Nat := table + 512 * (16 * c + kind) + (if adj then 256 else 0)

/-- Class of a reference (19 R368). -/
def refClass (r : DWord) : Nat := (r.extractLsb' 58 2).toNat

/-- Kind of a reference (08 R157). -/
def refKind (r : DWord) : Nat := (r.extractLsb' 60 4).toNat

/-- Address of a reference (08 R157). -/
def refVa (r : DWord) : Nat := (r.extractLsb' 6 51).toNat * 64

/-- Whether the bits of a reference that must be zero are (19 R368). -/
def refOk (r : DWord) : Bool := !(r.getLsbD 57) && decide (r.extractLsb' 0 6 = 0#6) && decide (refClass r ≠ 3)

/-- An instance's transform of a point or a direction (08 R158). -/
def transform (m : List Word) (x : List Word) (point : Bool) : List Word :=
  (List.range 3).map (fun i =>
    let e (c : Nat) : FV := f32v (m.getD (4 * i + c) 0#32)
    let v (c : Nat) : FV := f32v (x.getD c 0#32)
    let a0 := f32r (fprod (e 0) (v 0))
    let a1 := f32r (fsum .rne (fprod (e 1) (v 1)) (f32v a0))
    let a2 := f32r (fsum .rne (fprod (e 2) (v 2)) (f32v a1))
    if point then f32r (fsum .rne (f32v a2) (e 3)) else a2)

/-- Replacing a ray of the focused cohort. -/
def putRay (s : State) (r : Ray) : State :=
  { s with ch := { s.ch with rays := s.ch.rays.map (fun x => if x.num = r.num && x.gen = r.gen then r else x) } }

/-- The end of a walk that has visited everything: HIT when a hit is kept, else MISS (08 R160). -/
def Ray.walkOver (r : Ray) : Ray := r.endWith (if r.hit.isSome then 1 else 0)

/-- Field k of the trail (08 R159). -/
def Ray.field (r : Ray) (k : Nat) : Nat := (r.trail.toNat >>> (2 * k)) % 4

/-- Field k increased and every deeper field cleared (08 R159). -/
def bumpTrail (x : DWord) (k : Nat) : DWord := BitVec.ofNat 64 (x.toNat % 2 ^ (2 * k + 2) + 2 ^ (2 * k))

/-- The depth at which a subtree that ends at a depth leaves something to do: the place there is counted as finished; depth 0
is the root (08 R159). -/
def finishDepth (r : Ray) : Nat → Nat
  | 0 => 0
  | d + 1 => if NMap.get 0 r.kids (d + 1) ≤ r.field (d + 1) + 1 then finishDepth r d else d + 1

/-- The subtree at a depth is finished (08 R159): the walk goes on at the next place, restarts, or ends. -/
def Ray.finish (r : Ray) (root : DWord) (depth : Nat) : Ray :=
  let d := finishDepth r depth
  if d = 0 then r.walkOver
  else
    let q := { r with trail := bumpTrail r.trail d }
    match q.stack with
    | v :: vs =>
      let keep := match q.inst with
        | some i => decide (i.depth < v.depth)
        | none => true
      let w := { q with cur := some v, stack := vs }
      if keep then w else { w with inst := none, fo := q.o, fd := q.d }
    | [] =>
      if q.dropped then
        { q with
          cur := some { ref := root, depth := 0 }, dropped := false, restarted := true, inst := none, kids := [], fo := q.o, fd := q.d }
      else q.walkOver

/-- The counted children of the place being visited: those already finished are skipped, the first left is descended into and
the others are pushed (08 R159). -/
def Ray.descend (r : Ray) (root : DWord) (depth : Nat) (kids : List (DWord × Bool)) : Ray :=
  let q := { r with kids := NMap.set 0 r.kids (depth + 1) kids.length }
  match (kids.drop (q.field (depth + 1))).map (fun k => ({ ref := k.1, depth := depth + 1, emit := k.2 } : Visit)) with
  | [] => q.finish root depth
  | v :: vs =>
    let st := vs ++ q.stack
    { q with cur := some v, stack := st.take 8, dropped := q.dropped || decide (8 < st.length) }

/-- Writing a record to a ray's emit buffer (19 R366): the ray with its count, a retry, or the status. -/
def emitTo (s : State) (r : Ray) (ref : DWord) (prim inst : Word) : Option (Except Nat Unit) × State :=
  if r.emit_.extractLsb' 0 4 ≠ 0#4 then (some (.error 7), s)
  else
    match engAddr s s.ch.core s.ch.root r.emit_ true false with
    | (none, s1) => (none, s1)
    | (some (.error _), s1) => (some (.error 7), s1)
    | (some (.ok (pa, key)), s1) =>
      let s2 := rekeyAt s1 pa 8 key
      let n := memNat s2 pa 4
      if poisoned s2 (lineOf pa) then (some (.error 2), s2)
      else if memNat s2 (pa + 4) 4 ≤ n then (some (.error 8), s2)
      else
        match engAddr s2 s2.ch.core s2.ch.root (r.emit_ + BitVec.ofNat 64 (16 + 16 * n)) true false with
        | (none, s3) => (none, s3)
        | (some (.error _), s3) => (some (.error 7), writeCoherent s3 none pa key (bytesOf (n + 1) 4))
        | (some (.ok (pb, key2)), s3) =>
          let s4 := writeCoherent s3 none pa key (bytesOf (n + 1) 4)
          (some (.ok ()), writeCoherent s4 none pb key2 (bytesOf (inst ++ prim ++ ref).toNat 16))

/-- Instance id of a ray's current place (08 R158). -/
def Ray.instId (r : Ray) : Word := match r.inst with
  | some i => i.id
  | none => 0xFFFFFFFF#32

/-- Whether the stores before a ray's TRAVS are performed (08 R157). -/
def rayReady (s : State) (r : Ray) : Bool := afterDone s [(r.convoy, r.lane, r.before)]

/-- One visit of a node, an instance node or an accept-emit child (08 R157 to R160). -/
def nodeStep (s0 : State) (r : Ray) (v : Visit) : State :=
  let s := afterRelease s0 [(r.convoy, r.lane, r.before)]
  if 32 ≤ v.depth then putRay s (r.endWith 4)
  else if v.emit then
    match emitTo s r v.ref 0xFFFFFFFF#32 r.instId with
    | (none, s1) => s1
    | (some (.error e), s1) => putRay s1 (r.endWith e)
    | (some (.ok _), s1) => putRay s1 ({ r with emitted := r.emitted + 1 }.finish r.root v.depth)
  else if !(refOk v.ref) then putRay s (r.endWith 6)
  else if refClass v.ref = 1 then s
  else if refClass v.ref = 2 && r.inst.isSome then putRay s (r.endWith 5)
  else
    match rayRead s (refVa v.ref) 16 with
    | (.retry, s1) => s1
    | (.stop e, s1) => putRay s1 (r.endWith e)
    | (.ok ws, s1) =>
      if refClass v.ref = 2 then
        let m := ws.take 12
        let q := { r with
          inst := some { depth := v.depth, addr := refVa v.ref, id := ws.getD 13 0#32, m := m }
          fo := transform m r.o true
          fd := transform m r.d false }
        putRay s1 (q.descend r.root v.depth [(DWord.ofWords (ws.getD 14 0#32) (ws.getD 15 0#32), false)])
      else
        match rayProgram s1 (progVa r.table 0 (refKind v.ref) false) with
        | (.retry, s2) => s2
        | (.stop e, s2) => putRay s2 (r.endWith e)
        | (.ok prog, s2) =>
          let p := (progStart ws r.fo r.fd r.tmin).run .node { tmin := r.tmin, tmax := r.tmax, held := none } prog
          if p.wrong then putRay s2 (r.endWith 6)
          else
            let kids := (p.kids.filter (fun k => k.2.1 && (!k.2.2 || decide (r.mode = .emit)))).map (fun k => (k.1, k.2.2))
            putRay s2 (r.descend r.root v.depth kids)

/-- Whether a hit replaces the one kept (08 R160): in EMIT mode only a lesser t does. -/
def betterHit (r : Ray) (t : Word) : Bool :=
  match r.hit with
  | none => true
  | some h => decide (r.mode ≠ .emit) || flt (f32v t) (f32v h.t)

/-- The hit held against an accepting step: that of CLOSEST (19 R370). -/
def heldT (r : Ray) : Option Word := if r.mode = .closest then r.hit.map (·.t) else none

/-- An accepted primitive (08 R160). -/
def acceptHit (r : Ray) (h : Hit) (depth : Nat) : Ray :=
  let q := if betterHit r h.t then { r with hit := some h } else r
  match r.mode with
  | .closest => ({ q with tmax := h.t }).finish r.root depth
  | .any => q.endWith 1
  | .emit => q.finish r.root depth

/-- One visit of a primitive (08 R157, R160; 19 R366). -/
def primStep (s0 : State) (r : Ray) (v : Visit) : State :=
  let s := afterRelease s0 [(r.convoy, r.lane, r.before)]
  if 32 ≤ v.depth then putRay s (r.endWith 4)
  else if !(refOk v.ref) then putRay s (r.endWith 6)
  else
    match rayRead s (refVa v.ref) 16 with
    | (.retry, s1) => s1
    | (.stop e, s1) => putRay s1 (r.endWith e)
    | (.ok ws, s1) =>
      match rayProgram s1 (progVa r.table 1 (refKind v.ref) false) with
      | (.retry, s2) => s2
      | (.stop e, s2) => putRay s2 (r.endWith e)
      | (.ok prog, s2) =>
        let x : AccCtx := { tmin := r.tmin, tmax := r.tmax, held := heldT r }
        let p := (progStart ws r.fo r.fd r.tmin).run .prim x prog
        if p.wrong then putRay s2 (r.endWith 6)
        else
          match p.acc with
          | none => putRay s2 (r.finish r.root v.depth)
          | some (t, a, b) =>
            let h : Hit :=
              { t := t, u := a, v := b, ref := v.ref, prim := ws.getD 15 0#32, inst := r.inst,
                m := (r.inst.map (·.m)).getD [], fo := r.fo, fd := r.fd, tmax := r.tmax, held := heldT r }
            if r.mode = .emit then
              match emitTo s2 r v.ref h.prim r.instId with
              | (none, s3) => s3
              | (some (.error e), s3) => putRay s3 (r.endWith e)
              | (some (.ok _), s3) => putRay s3 (acceptHit { r with emitted := r.emitted + 1 } h v.depth)
            else putRay s2 (acceptHit r h v.depth)

/-- A running ray of the focused cohort under a number, with its place. -/
def runningRay (s : State) (num : Nat) : Option (Ray × Visit) :=
  match s.ch.rays.find? (fun r => r.num = num && r.status.isNone) with
  | some r => match r.cur with
    | some v => if rayReady s r then some (r, v) else none
    | none => none
  | none => none

/-- The status word of a ray (19 R367). -/
def rayStatus (r : Ray) : Word := BitVec.ofNat 32 (r.status.getD 0 + (if r.restarted then 16 else 0))

/-- The result octet of a ray (19 R367). -/
def rayOctet (r : Ray) : List Word :=
  let tail (kind : Nat) : List Word := [rayStatus r, BitVec.ofNat 32 r.emitted, BitVec.ofNat 32 kind]
  match (if r.status = some 1 then r.hit else none) with
  | some h =>
    [h.t, h.prim, (match h.inst with
      | some i => i.id
      | none => 0xFFFFFFFF#32), h.u, h.v] ++ tail (refKind h.ref)
  | none => [0x7F800000#32, 0xFFFFFFFF#32, 0xFFFFFFFF#32, 0#32, 0#32] ++ tail 0

/-- The ray that a handle names (19 R365). -/
def rayOf (c : Cohort) (h : Word) : Option Ray :=
  if h.extractLsb' 27 5 ≠ 0#5 then none
  else c.rays.find? (fun r => !r.freed && decide (r.num = (h.extractLsb' 0 11).toNat) && decide (r.gen = (h.extractLsb' 11 16).toNat))

/-- Whether a unit waits for a ray. -/
def namesRay (r : Ray) (u : Pending) : Bool :=
  match u.kind with
  | .travr n g _ => decide (n = r.num ∧ g = r.gen)
  | .trava n g _ _ => decide (n = r.num ∧ g = r.gen)
  | _ => false

/-- A freed ray that no unit waits for leaves the cohort. -/
def dropRay (s : State) (r : Ray) : State :=
  if r.freed && !((convoysOf s).any (fun c => c.units.any (namesRay r))) then
    { s with ch := { s.ch with rays := s.ch.rays.filter (fun x => !(x.num = r.num && x.gen = r.gen)) } }
  else s

/-- Words delivered to the destinations of a unit's piece. -/
def deliverWords (u : Pending) (ws : List Word) (c : Convoy) : Convoy :=
  u.pieces.foldl (fun c p => (List.zip p.dst ws).foldl (fun c e => setLoc c e.1 (e.2.setWidth 64)) c) c

/-- A TRAVR unit completes once its ray has ended (19 R367). -/
def completeTravr (s : State) (u : Pending) (num gen : Nat) : State :=
  match s.ch.rays.find? (fun r => r.num = num && r.gen = gen) with
  | none => { s with cv := dropUnit s.cv u }
  | some r =>
    if r.status.isNone then s
    else dropRay { s with cv := dropUnit (deliverWords u (rayOctet r) s.cv) u } r

/-- World-space gradient of a component: exact, rounded once (19 R371). -/
def worldGrad (m g : List Word) : List Word :=
  (List.range 3).map (fun j =>
    let e (i : Nat) : FV := fprod (f32v (m.getD (4 * i + j) 0#32)) (f32v (g.getD i 0#32))
    f32r (fsum .rne (fsum .rne (e 0) (e 1)) (e 2)))

/-- The SCADD of a GRAD step: taken in, a retry, or the status that ends the TRAVA (19 R370, R371). -/
def gradTo (s : State) (va : DWord) (v : Word) : Option (Except Nat Unit) × State :=
  if va.extractLsb' 0 2 ≠ 0#2 || va.extractLsb' 57 7 ≠ 0#7 then (some (.error 7), s)
  else
    match setDirty s s.ch.core s.ch.root va.toNat with
    | (.retry, s1) => (none, s1)
    | (.fail, s1) => (some (.error 7), s1)
    | (.poison _, s1) => (some (.error 2), s1)
    | (.ok pte level _, s1) =>
      if (pageSub s1 true true va.toNat pte level).isSome then (some (.error 7), s1)
      else (some (.ok ()), gsuTake s1 s1.ch.rcb (leafPa pte level va.toNat) (pteKey pte) va.toNat v.toNat)

/-- The SCADDs of an adjoint program in order: the status of the first that fails, none when one is retried. -/
def gradsTo (s : State) (base : DWord) : List (Nat × Word) → Option (Option Nat) × State
  | [] => (some none, s)
  | (k, v) :: gs =>
    match gradTo s (base + BitVec.ofNat 64 (4 * k)) v with
    | (none, s1) => (none, s1)
    | (some (.error e), s1) => (some (some e), s1)
    | (some (.ok _), s1) => gradsTo s1 base gs

/-- Result words of a TRAVA (19 R371). -/
def travaWords (g : List Word) (status : Nat) : List Word := g.take 6 ++ [BitVec.ofNat 32 status, 0#32]

/-- Six zero words. -/
def zeros6 : List Word := List.replicate 6 0#32

/-- The adjoint of a ray's hit (19 R371): the result words, none while a read is retried. -/
def adjoint (s : State) (r : Ray) (h : Hit) (g : List Word) (base : DWord) : Option (List Word) × State :=
  match rayRead s (refVa h.ref) 16 with
  | (.retry, s1) => (none, s1)
  | (.stop e, s1) => (some (travaWords zeros6 e), s1)
  | (.ok rec, s1) =>
    match rayProgram s1 (progVa r.table 1 (refKind h.ref) false) with
    | (.retry, s2) => (none, s2)
    | (.stop e, s2) => (some (travaWords zeros6 e), s2)
    | (.ok fwd, s2) =>
      match rayProgram s2 (progVa r.table 1 (refKind h.ref) true) with
      | (.retry, s3) => (none, s3)
      | (.stop e, s3) => (some (travaWords zeros6 e), s3)
      | (.ok adj, s3) =>
        let x : AccCtx := { tmin := r.tmin, tmax := h.tmax, held := h.held }
        let p := (progStart rec h.fo h.fd r.tmin).run .prim x fwd
        let w := NMap.setAll 0#32 p.w 48 (zeros6 ++ g.take 3)
        let q : Prog := Prog.run .adj x ({ w := w } : Prog) adj
        match gradsTo s3 base q.grads with
        | (none, _) => (none, s3)
        | (some (some e), s4) => (some (travaWords zeros6 e), s4)
        | (some none, s4) =>
          if q.wrong then (some (travaWords zeros6 6), s4)
          else
            let go := (List.range 3).map (fun i => q.reg (48 + i))
            let gd := (List.range 3).map (fun i => q.reg (51 + i))
            let out := if h.inst.isSome then worldGrad h.m go ++ worldGrad h.m gd else go ++ gd
            (some (travaWords out 1), s4)

/-- A TRAVA unit completes: its adjoint is run once its ray has ended and its thread's earlier stores are performed
(19 R361, R371). -/
def completeTrava (s0 : State) (u : Pending) (num gen : Nat) (g : List Word) (base : DWord) : State :=
  match s0.ch.rays.find? (fun r => r.num = num && r.gen = gen) with
  | none => { s0 with cv := dropUnit s0.cv u }
  | some r =>
    let mine := (lanes u.mask).map (fun t => (s0.cv.id, t, u.seq))
    if r.status.isNone || !(afterDone s0 mine) then s0
    else
      let s := afterRelease s0 mine
      let finish (s : State) (ws : List Word) : State := dropRay { s with cv := dropUnit (deliverWords u ws s.cv) u } r
      match (if r.status = some 1 then r.hit else none) with
      | none => finish s (zeros6 ++ [rayStatus r, 0#32])
      | some h =>
        match adjoint s r h g base with
        | (none, _) => s0
        | (some ws, s1) => finish s1 ws

end Sys2Proof.Machine
end

