-- ==== Sys2Proof/Machine/TravIns.lean ====
section
/-! DEFINITION. TRAVS, TRAVR and TRAVA (19 R359 to R371) and the events of the traversal unit (08 R156 to R163). -/

namespace Sys2Proof.Machine

/-- The registers of an octet or a twelve in a thread (19 R361). -/
def groupLocs (first n t : Nat) : List Loc := (List.range n).map (fun j => .main (first + j) t)

/-- The bounds of an octet or a twelve (19 R361). -/
def wideCheck (s : State) (pos first n : Nat) : Option FaultRec :=
  if first + n ≤ window s then none else some (boundsFault pos first (activeMask s))

/-- The first steps of an instruction with an octet for D: operands, then the octet, then the scoreboard (19 R362). -/
def octetStart (us : List Use) (d : Fin 12) (s0 : State) (f : State → Out) : Out :=
  let s := settleIdx s0 us none
  match (checkUses s us none).or (wideCheck s 3 (8 * d.val) 8) with
  | some e => faultOut s e
  | none =>
    match checkReady s (useLocs s us ++ (actLanes s).flatMap (groupLocs (8 * d.val) 8)) with
    | some e => faultOut s e
    | none => f (settleReads s us [])

/-- Units of an instruction, one for each acting thread. -/
def laneUnits (st : Stall) (s : State) (f : Nat → Pending) : Out :=
  .next (retire st { s with cv := addUnits s.cv ((actLanes s).map (fun t => { f t with mask := unitMask (f t) [t] })) })

/-- The reads of an instruction that takes its first operand from its lowest thread alone (19 R361): where that one is poisoned no
thread acts. -/
def settleLow (s : State) (a : Use) (us : List Use) : State :=
  let s1 := settleReads s (a :: us) []
  let all := (poisonedLanes s1 [a]).getLsbD (lowest s1)
  { s1 with cv := { s1.cv with bad := if all then activeMask s1 else poisonedLanes s1 us } }

/-- Whether no thread acts for poison in its sources. -/
def allBad (s : State) : Bool := !((actLanes s).any (clean s))

/-- A place for the words that a unit delivers when it completes. -/
def resultPiece (lane : Nat) (dst : List Loc) : Piece := { lane := lane, scr := false, addr := 0, va := 0, n := 0, dst := dst }

/-- The lowest free ray number of a cohort (19 R365). -/
def freeRay (c : Cohort) : Nat :=
  ((List.range (c.rays.length + 1)).find? (fun n => !(c.rays.any (fun r => r.num = n)))).getD c.rays.length

/-- Rays that a core's unit holds (08 R156). -/
def unitRays (s : State) (core : Nat) : Nat := (((allCohorts s).filter (fun c => c.core = core)).map (fun c => c.rays.length)).sum

/-- A handle (19 R365). -/
def rayHandle (num gen : Nat) : Word := BitVec.ofNat 32 (num + 2048 * gen)

/-- The ray of a thread (19 R365): with no valid interval it ends at once; with no table it ends with KIND (20 R382). -/
def newRay (s : State) (mode : TravMode) (num gen t : Nat) (a b c : List Word) : Ray :=
  let tmin := a.getD 3 0#32
  let tmax := b.getD 3 0#32
  let root := DWord.ofWords (c.getD 0 0#32) (c.getD 1 0#32)
  let r : Ray :=
    { num := num, gen := gen, lane := t, convoy := s.cv.id, before := s.cv.useq, mode := mode, o := a.take 3, d := b.take 3, tmin := tmin,
      tmax := tmax, emit_ := DWord.ofWords (c.getD 2 0#32) (c.getD 3 0#32), table := s.ch.travtab.toNat, root := root,
      cur := some { ref := root, depth := 0 }, fo := a.take 3, fd := b.take 3 }
  if !(fcond .le (f32v tmin) (f32v tmax)) then r.endWith 0
  else if s.ch.travtab = 0#64 then r.endWith 6 else r

/-- One thread's ray is started: the cohort and the handle. -/
def startRay (s : State) (mode : TravMode) (t : Nat) (a b c : List Word) : Cohort × Word :=
  let n := freeRay s.ch
  let g := NMap.get 0 s.ch.raygen n
  ({ s.ch with rays := s.ch.rays ++ [newRay s mode n (g % 65536) t a b c], raygen := NMap.set 0 s.ch.raygen n (g + 1) },
   rayHandle n (g % 65536))

/-- TRAVS (08 R156, 19 R365). -/
def execTravs (st : Stall) (d : Dst) (a b c : Src) (mode : TravMode) (t : Tok) (s0 : State) : Out :=
  let us : List Use := [⟨0, a, 4⟩, ⟨1, b, 4⟩, ⟨2, c, 4⟩]
  let s := settleIdx s0 us (some d)
  match checkUses s us (some (d, 1)) with
  | some e => faultOut s e
  | none =>
    match checkReady s (useLocs s us ++ dstLocs s d 1) with
    | some e => faultOut s e
    | none =>
      let s1 := settleReads s us []
      let n := (actLanes s1).length
      if 2048 < unitRays s1 s1.ch.core + n || 2048 < s1.ch.rays.length + n || !(tokRoom s1.cv t.toNat n) then .next (waitIssue s1)
      else
        let r := ((actLanes s1).filter (clean s1)).foldl (fun (r : State × List (Nat × Word)) l =>
          let q := startRay r.1 mode l (rdQuad r.1 a l) (rdQuad r.1 b l) (rdQuad r.1 c l)
          ({ r.1 with ch := q.1 }, r.2 ++ [(l, q.2)])) (s1, [])
        laneUnits st r.1 (fun l =>
          { newUnit r.1 t .value with
            writes := match r.2.find? (fun e => e.1 = l) with
              | some e => dstWrites r.1 d 1 l (e.2.setWidth 64)
              | none => [] })

/-- The check of the handles (19 R362): each names a live ray of the cohort, for TRAVA one that is kept. -/
def handleCheck (s : State) (a : Src) (kept : Bool) : Option FaultRec :=
  match (actLanes s).filter (fun t => clean s t && (match rayOf s.ch (rd32 s a t) with
      | some r => kept && !r.kept
      | none => true)) with
  | [] => none
  | t :: ts => some { kind := 0x0E, sub := 9, mask := maskOf (t :: ts) }

/-- A change of the ray that a handle names. -/
def mapRay (c : Cohort) (h : Word) (f : Ray → Ray) : Cohort :=
  match rayOf c h with
  | some r => { c with rays := c.rays.map (fun x => if x.num = r.num && x.gen = r.gen then f x else x) }
  | none => c

/-- Number and generation of a handle. -/
def handleParts (h : Word) : Nat × Nat := ((h.extractLsb' 0 11).toNat, (h.extractLsb' 11 16).toNat)

/-- TRAVR (19 R367): the ray is kept or to be freed from the issue on. -/
def execTravr (st : Stall) (d : Fin 12) (a : Src) (keep : Bool) (t : Tok) (s0 : State) : Out :=
  octetStart [⟨0, a, 1⟩] d s0 (fun s =>
    match handleCheck s a false with
    | some e => faultOut s e
    | none =>
      if !(tokRoom s.cv t.toNat (actLanes s).length) then .next (waitIssue s)
      else
        let ok := (actLanes s).filter (clean s)
        let c := ok.foldl (fun c l => mapRay c (rd32 s a l) (fun r => if keep then { r with kept := true } else { r with freed := true })) s.ch
        laneUnits st { s with ch := c } (fun l =>
          let h := handleParts (rd32 s a l)
          if clean s l then
            { newUnit s t (.travr h.1 h.2 keep) with pieces := [resultPiece l (groupLocs (8 * d.val) 8 l)] }
          else newUnit s t .value))

/-- TRAVA (19 R371): the ray is to be freed from the issue on. -/
def execTrava (st : Stall) (d : Fin 12) (a b c : Src) (t : Tok) (s0 : State) : Out :=
  octetStart [⟨0, a, 1⟩, ⟨1, b, 4⟩, ⟨2, c, 2⟩] d s0 (fun s =>
    match handleCheck s a true with
    | some e => faultOut s e
    | none =>
      if !(tokRoom s.cv t.toNat (actLanes s).length) then .next (waitIssue s)
      else
        let ok := (actLanes s).filter (clean s)
        let k := ok.foldl (fun c l => mapRay c (rd32 s a l) (fun r => { r with freed := true })) s.ch
        laneUnits st { s with ch := k } (fun l =>
          let h := handleParts (rd32 s a l)
          if clean s l then
            { newUnit s t (.trava h.1 h.2 (rdQuad s b l) (rd64 s c l)) with pieces := [resultPiece l (groupLocs (8 * d.val) 8 l)] }
          else newUnit s t .value))

/-- TRAV_NODE_STEP (08 R158 to R160; 19 R366). -/
def execTravNodeStep (at_ : SlotRef) (ray : Nat) (s : State) : Out :=
  atSlot s at_ (fun s =>
    match runningRay s ray with
    | some (r, v) => nodeStep s r v
    | none => s)

/-- TRAV_PRIMITIVE_TEST (08 R157, R160; 19 R366, R370). -/
def execTravPrimitiveTest (at_ : SlotRef) (ray : Nat) (s : State) : Out :=
  atSlot s at_ (fun s =>
    match runningRay s ray with
    | some (r, v) => if refClass v.ref = 1 && !v.emit then primStep s r v else s
    | none => s)

/-- TRAVERSAL_CONTEXT_RESET (08 R162). -/
def execTraversalContextReset (at_ : SlotRef) (s : State) : Out := atSlot s at_ (fun s => { s with ch := dropRays s.ch })

end Sys2Proof.Machine
end

