-- ==== Sys2Proof/Machine/Tex.lean ====
section
/-! DEFINITION. Texture sampling and its adjoint, the raster interior adjoint, and edge samples (08 R155; 09 R174; 19 R372 to
R377). -/

namespace Sys2Proof.Machine

/-- A texture record (19 R372). -/
structure TexRec where
  base   : Nat
  pitch  : Nat
  w      : Nat
  h      : Nat
  fmt    : Nat
  bi     : Bool
  clamp  : Bool
  gbase  : Nat
  gpitch : Nat
  deriving DecidableEq, Repr

/-- A texture record from its 64 bytes, or the Engine code of 19 R373. -/
def texRec (x : Nat) : Except Nat TexRec :=
  let r : TexRec :=
    { base := slice x 511 448, pitch := slice x 447 416, w := slice x 415 400, h := slice x 399 384, fmt := slice x 383 380,
      bi := decide (slice x 379 378 = 1), clamp := decide (slice x 377 376 = 1), gbase := slice x 375 312, gpitch := slice x 311 280 }
  if slice x 279 0 ≠ 0 then .error 1
  else if 2 < r.fmt || 1 < slice x 379 378 || 1 < slice x 377 376 || r.w = 0 || r.h = 0 || 32768 < r.w || 32768 < r.h ||
      r.base % 16 ≠ 0 || r.pitch % 16 ≠ 0 || r.gbase % 16 ≠ 0 || r.gpitch % 16 ≠ 0 then .error 2
  else .ok r

/-- Bytes of a texel (19 R372). -/
def texelBytes (fmt : Nat) : Nat := if fmt = 1 then 16 else 4

/-- The exact value of a finite coordinate. -/
def coord (w : Word) : Option Q :=
  match f32v w with
  | .fin x => some x
  | .zero _ => some (Q.ofInt 0)
  | _ => none

/-- A texel index brought into range (19 R374). -/
def texIndex (clamp : Bool) (i : Int) (n : Nat) : Nat :=
  if clamp then (min (max i 0) ((n : Int) - 1)).toNat else (i % (n : Int)).toNat

/-- First texel index and fraction of a coordinate (19 R374). -/
def texSplit (bi : Bool) (x : Q) : Int × Q :=
  if bi then
    let y := x.sub ⟨1, 2⟩
    (y.floor, y.sub (Q.ofInt y.floor))
  else (x.floor, Q.ofInt 0)

/-- The texels of a sample in ascending (dj, di), unmapped (19 R374, R375). -/
def texels (bi : Bool) (x y : Q) : List (Int × Int) :=
  let i := (texSplit bi x).1
  let j := (texSplit bi y).1
  if bi then [(i, j), (i + 1, j), (i, j + 1), (i + 1, j + 1)] else [(i, j)]

/-- The weights of the texels (19 R374). -/
def texWeights (bi : Bool) (x y : Q) : List Q :=
  let fx := (texSplit bi x).2
  let fy := (texSplit bi y).2
  let gx := (Q.ofInt 1).sub fx
  let gy := (Q.ofInt 1).sub fy
  if bi then [gx.mul gy, fx.mul gy, gx.mul fy, fx.mul fy] else [Q.ofInt 1]

/-- An exact value as a float value. -/
def fvq (x : Q) : FV := if x.isZero then .zero false else .fin x

/-- The four channel values of a texel (19 R374). -/
def channels (fmt : Nat) (bs : List Byte) : List FV :=
  match fmt with
  | 0 => (List.range 4).map (fun k => fvq ⟨((bs.getD k 0#8).toNat : Int), 255⟩)
  | 1 => (wordsOfBytes bs).map f32v
  | _ => [f32v ((wordsOfBytes bs).headD 0#32), .zero false, .zero false, .fin (Q.ofInt 1)]

/-- The sum of a list of float values under rne (14 R258). -/
def fsumAll : List FV → FV
  | [] => .zero false
  | v :: vs => vs.foldl (fsum .rne) v

/-- The four filtered channels (19 R374). -/
def filtered (fmt : Nat) (ws : List Q) (ts : List (List Byte)) : List Word :=
  let cs := ts.map (channels fmt)
  (List.range 4).map (fun k =>
    f32r (fsumAll ((List.zip ws cs).map (fun e => fprod (fvq e.1) (e.2.getD k (.zero false))))))

/-- The coordinate gradients (19 R375); nearest filtering gives none. -/
def coordGrad (fmt : Nat) (bi : Bool) (x y : Q) (g : List Word) (ts : List (List Byte)) : List Word :=
  if !bi then [0#32, 0#32]
  else
    let cs := ts.map (channels fmt)
    let v (n k : Nat) : FV := (cs.getD n []).getD k (.zero false)
    let sub (a b : FV) : FV := fsum .rne a b.flip
    let fx := (texSplit true x).2
    let fy := (texSplit true y).2
    let one (f : Q) (a b c d : Nat) (k : Nat) : FV :=
      fprod (f32v (g.getD k 0#32))
        (fsum .rne (fprod (fvq ((Q.ofInt 1).sub f)) (sub (v a k) (v b k))) (fprod (fvq f) (sub (v c k) (v d k))))
    [f32r (fsumAll ((List.range 4).map (one fy 1 0 3 2))), f32r (fsumAll ((List.range 4).map (one fx 2 0 3 1)))]

/-- Whether the entry's threads have memory accesses outstanding: a read made at issue comes after their stores (04 R79). -/
def quiet (s : State) : Bool := !(accessPending s.cv (activeMask s))

/-- The bytes of accesses that have passed their checks, as plain reads, and whether a word was poisoned. -/
def readNow (s : State) (as : List Acc) (ps : List PSpan) : List Byte × Bool :=
  let pieces := loadPieces s .zero false .lin as ps
  (pieces.flatMap (pieceBytes s false), pieces.any (piecePoison s))

/-- The 64 bytes at a generic pointer as four accesses of a thread. -/
def blockAccs (t : Nat) (p : DWord) : List Acc :=
  (List.range 4).map (fun k =>
    let q := p + BitVec.ofNat 64 (16 * k)
    { lane := t, ea := q.toNat, win := resolve q, n := 16 })

/-- Accesses of a thread's texels (19 R374): global pointers. -/
def texelAccs (r : TexRec) (t : Nat) (x y : Q) : List Acc :=
  (texels r.bi x y).map (fun e =>
    let va : DWord := BitVec.ofNat 64 (r.base + texIndex r.clamp e.2 r.h * r.pitch + texIndex r.clamp e.1 r.w * texelBytes r.fmt)
    { lane := t, ea := va.toNat, win := resolve va, n := texelBytes r.fmt })

/-- The SCADDs of a thread's TXG: address and value (19 R375). -/
def texelGrads (r : TexRec) (x y : Q) (g : List Word) : List (DWord × Word) :=
  ((List.zip (texels r.bi x y) (texWeights r.bi x y)).filter (fun e => !(e.2.isZero))).flatMap (fun e =>
    (List.range (if r.fmt = 2 then 1 else 4)).map (fun k =>
      (BitVec.ofNat 64 (r.gbase + texIndex r.clamp e.1.2 r.h * r.gpitch + 16 * texIndex r.clamp e.1.1 r.w + 4 * k),
        f32r (fprod (fvq e.2) (f32v (g.getD k 0#32))))))

/-- Pieces in the order of the accesses of a thread. -/
def lanePieces (s : State) (t : Nat) (as : List Acc) (ps : List PSpan) : List Piece :=
  (loadPieces s .zero false .lin as ps).filter (fun p => p.lane = t)

/-- The pending fault of a record with a poisoned word (15 R285). -/
def poisonAt (s : State) (as : List Acc) (ps : List PSpan) : FaultRec :=
  let f : FaultRec := { kind := 0x15, mask := activeMask s, pc := some (curPc s), ord := s.cv.useq }
  match (loadPieces s .zero false .lin as ps).find? (piecePoison s) with
  | some p => if p.scr then { f with sub := 1 } else { f with addr := p.addr / 128 * 128 }
  | none => f

/-- The record of TXS and TXG: read at issue for the lowest thread, with its checks (19 R362, R373); `f` goes on. -/
def withTexRec (s : State) (va : DWord) (f : State → TexRec → Out) (bad : State → Out) : Out :=
  let m := activeMask s
  if va.toNat % 64 ≠ 0 then faultOut s { kind := 0x0C, addr := va.toNat, mask := m }
  else
    let as := blockAccs (lowest s) va
    match accessChecks s false false false false false as with
    | .fault s1 e => faultOut s1 { e with mask := m }
    | .stall s1 => .next (stallRetry s1)
    | .go s0 ps =>
      let s1 := widenNoted s0
      let ls := pieceLines false (loadPieces s1 .zero false .lin as ps)
      let r := readNow s1 as ps
      if ls.any (fun x => fcWaits s1 x.1 x.2) then .next (stallRetry (ls.foldl (fun s x => fcAsk s x.1 x.2) s1))
      else if r.2 then
        bad { s1 with cv := noteConsumed s1.cv (poisonAt s1 as ps) }
      else
        match texRec (natOfBytes r.1) with
        | .error e => faultOut s1 { kind := 0x14, sub := e, mask := m }
        | .ok x => f s1 x

/-- The threads of a TXS that sample join their core's queue; unit k of the instruction is that of acting thread k
(08 R155, 19 R374). -/
def queueTex (s : State) (samples : Nat → Bool) : State :=
  { s with
    texq := s.texq ++ ((actLanes s).zipIdx.filter (fun e => samples e.1)).map (fun e =>
      { core := s.ch.core, slot := s.ch.slot, uid := s.ch.uid, convoy := s.cv.id, unit := s.cv.useq + e.2 : TexReq }) }

/-- The finite coordinates of a thread. -/
def coordsOf (s : State) (b : Src) (t : Nat) : Option (Q × Q) :=
  match coord (readWord s b t 0), coord (readWord s b t 1) with
  | some x, some y => some (x, y)
  | _, _ => none

/-- TXS (19 R372 to R374). -/
def execTxs (st : Stall) (d : Dst) (a b : Src) (t : Tok) (s0 : State) : Out :=
  let us : List Use := [⟨0, a, 2⟩, ⟨1, b, 2⟩]
  let s := settleIdx s0 us (some d)
  match checkUses s us (some (d, 4)) with
  | some e => faultOut s e
  | none =>
    match checkReady s (useLocs s us ++ dstLocs s d 4) with
    | some e => faultOut s e
    | none =>
      let s1 := settleLow s ⟨0, a, 2⟩ [⟨1, b, 2⟩]
      let dst (s : State) (l : Nat) : List Loc := (List.range 4).flatMap (fun k => (dstLoc s d l k).toList)
      if !(tokRoom s1.cv t.toNat (actLanes s1).length) || !(quiet s1) then .next (waitIssue s1)
      else if allBad s1 then laneUnits st s1 (fun _ => newUnit s1 t .value)
      else
        withTexRec s1 (rd64 s1 a (lowest s1))
          (fun s r =>
            let ok := (actLanes s).filter (clean s)
            let as := ok.flatMap (fun l => match coordsOf s b l with
              | some (x, y) => texelAccs r l x y
              | none => [])
            match accessChecks s false true true false false as with
            | .fault s2 e => faultOut s2 e
            | .stall s2 => .next (stallRetry s2)
            | .go s2 ps =>
              laneUnits st (queueTex s2 (fun l => clean s2 l && (coordsOf s2 b l).isSome)) (fun l =>
                if !(clean s2 l) then newUnit s2 t .value
                else match coordsOf s2 b l with
                  | none => { newUnit s2 t .value with writes := (dst s2 l).map (fun x => (x, 0#64)) }
                  | some _ =>
                    { newUnit s2 t (.texture r.fmt (readWord s2 b l 0) (readWord s2 b l 1) r.bi) with
                      pieces := resultPiece l (dst s2 l) :: lanePieces s2 l as ps }))
          (fun s => laneUnits st s (fun _ => newUnit s t .value))

/-- TXG (19 R375): its SCADDs are checked at issue and sent when its unit completes. -/
def execTxg (st : Stall) (d : Dst) (a b c : Src) (t : Tok) (s0 : State) : Out :=
  let us : List Use := [⟨0, a, 2⟩, ⟨1, b, 2⟩, ⟨2, c, 4⟩]
  let s := settleIdx s0 us (some d)
  match checkUses s us (some (d, 2)) with
  | some e => faultOut s e
  | none =>
    match checkReady s (useLocs s us ++ dstLocs s d 2) with
    | some e => faultOut s e
    | none =>
      let s1 := settleLow s ⟨0, a, 2⟩ [⟨1, b, 2⟩, ⟨2, c, 4⟩]
      let dst (s : State) (l : Nat) : List Loc := (List.range 2).flatMap (fun k => (dstLoc s d l k).toList)
      if !(tokRoom s1.cv t.toNat (actLanes s1).length) || !(quiet s1) then .next (waitIssue s1)
      else if allBad s1 then laneUnits st s1 (fun _ => newUnit s1 t .value)
      else
        withTexRec s1 (rd64 s1 a (lowest s1))
          (fun s r =>
            let ok := (actLanes s).filter (clean s)
            let as := ok.flatMap (fun l => match coordsOf s b l with
              | some (x, y) => texelAccs r l x y
              | none => [])
            match accessChecks s false true true false false as with
            | .fault s2 e => faultOut s2 e
            | .stall s2 => .next (stallRetry s2)
            | .go s2 ps =>
              let gs (l : Nat) : List (DWord × Word) := match coordsOf s2 b l with
                | some (x, y) => texelGrads r x y (rdQuad s2 c l)
                | none => []
              let gas := ok.flatMap (fun l => (gs l).map (fun e => ({ lane := l, ea := e.1.toNat, win := resolve e.1, n := 4 } : Acc)))
              match accessChecks s2 true true true false true gas with
              | .fault s3 e => faultOut s3 e
              | .stall s3 => .next (stallRetry s3)
              | .go s3 qs =>
                let grads (l : Nat) : List Piece :=
                  (List.zip (qs.filter (fun p => p.lane = l)) (gs l)).map (fun e =>
                    { lane := l, scr := false, addr := e.1.pa, va := e.1.va, n := 4, data := bytesOf e.2.2.toNat 4, key := e.1.key })
                laneUnits st s3 (fun l =>
                  if !(clean s3 l) then newUnit s3 t .value
                  else match coordsOf s3 b l with
                    | none => { newUnit s3 t .value with writes := (dst s3 l).map (fun x => (x, 0#64)) }
                    | some _ =>
                      { newUnit s3 t (.texGrad r.fmt (readWord s3 b l 0) (readWord s3 b l 1) r.bi (rdQuad s3 c l)) with
                        pieces := resultPiece l (dst s3 l) :: lanePieces s3 l as ps ++ grads l }))
          (fun s => laneUnits st s (fun _ => newUnit s t .value))

/-- The pieces of a unit that read memory. -/
def readPieces (u : Pending) : List Piece := u.pieces.filter (fun p => decide (0 < p.n) && p.data.isEmpty)

/-- The words that a unit delivers to its result piece; with a poisoned read it delivers none (19 R362, 15 R285). -/
def deliverRead (s : State) (u : Pending) (f : List (List Byte) → List Word) (after : State → State) : State :=
  let ps := readPieces u
  let s1 := ps.foldl (fun s p => if p.scr || p.priv then s else rekeyAt s p.addr p.n p.key) s
  if ps.any (piecePoison s1) then
    let s2 := unitPoison s1 { u with pieces := ps }
    { s2 with cv := dropUnit s2.cv u }
  else
    let ws := f (ps.map (pieceBytes s1 false))
    let s2 := after s1
    { s2 with cv := dropUnit (deliverWords { u with pieces := u.pieces.filter (fun p => p.n = 0) } ws s2.cv) u }

/-- A TXS unit is served (19 R374). -/
def performTexture (s : State) (u : Pending) (fmt : Nat) (x y : Word) (bi : Bool) : State :=
  match coord x, coord y with
  | some p, some q => deliverRead s u (filtered fmt (texWeights bi p q)) id
  | _, _ => { s with cv := dropUnit s.cv u }

/-- A TXG unit completes: the SCADDs are taken in and the coordinate gradients written (19 R375). -/
def performTexGrad (s : State) (u : Pending) (fmt : Nat) (x y : Word) (bi : Bool) (g : List Word) : State :=
  match coord x, coord y with
  | some p, some q =>
    deliverRead s u (coordGrad fmt bi p q g) (fun s =>
      (u.pieces.filter (fun p => !p.data.isEmpty)).foldl (fun s p => gsuTake s s.ch.rcb p.addr p.key p.va (natOfBytes p.data)) s)
  | _, _ => { s with cv := dropUnit s.cv u }

/-- The exact values of finite words; none where one is NaN or infinite. -/
def finiteAll : List Word → Option (List Q)
  | [] => some []
  | w :: ws =>
    match coord w, finiteAll ws with
    | some x, some xs => some (x :: xs)
    | _, _ => none

/-- The eight words of RADJ (19 R376): the record's nine positions, then px, py, gb1, gb2 and gz. -/
def radjWords (pos q : List Word) (gz : Word) : List Word :=
  match finiteAll (pos ++ q ++ [gz]) with
  | some [x0, y0, z0, x1, y1, z1, x2, y2, z2, px, py, g1, g2, gz] =>
    let cross (a b c d : Q) : Q := (a.mul b).sub (c.mul d)
    let area := cross (x1.sub x0) (y2.sub y0) (x2.sub x0) (y1.sub y0)
    if area.isZero then List.replicate 8 0#32
    else
      let n1 := cross (px.sub x0) (y2.sub y0) (x2.sub x0) (py.sub y0)
      let n2 := cross (x1.sub x0) (py.sub y0) (px.sub x0) (y1.sub y0)
      let w1 := g1.add (gz.mul (z1.sub z0))
      let w2 := g2.add (gz.mul (z2.sub z0))
      let zero := Q.ofInt 0
      let part (d1 d2 da : Q) : Word :=
        let t1 := (((d1.mul area).sub (n1.mul da)).div (area.mul area))
        let t2 := (((d2.mul area).sub (n2.mul da)).div (area.mul area))
        f32r (fvq ((w1.mul t1).add (w2.mul t2)))
      [ part (py.sub y2) (y1.sub py) (y1.sub y2), part (x2.sub px) (px.sub x1) (x2.sub x1),
        part zero (py.sub y0) (y2.sub y0), part zero (x0.sub px) (x0.sub x2),
        part (y0.sub py) zero (y0.sub y1), part (px.sub x0) zero (x1.sub x0), 0#32, 0#32 ]
  | _ => List.replicate 8 0#32

/-- RADJ (19 R376): the record is read when the unit completes. -/
def execRadj (st : Stall) (d : Fin 12) (a b c : Src) (t : Tok) (s0 : State) : Out :=
  octetStart [⟨0, a, 2⟩, ⟨1, b, 4⟩, ⟨2, c, 1⟩] d s0 (fun s =>
    let ok := (actLanes s).filter (clean s)
    match ok.filter (fun l => (rd64 s a l).toNat % 64 ≠ 0) with
    | l :: ls => faultOut s { kind := 0x0C, addr := (rd64 s a l).toNat, mask := maskOf (l :: ls) }
    | [] =>
      let as := ok.flatMap (fun l => blockAccs l (rd64 s a l))
      match accessChecks s false false false false false as with
      | .fault s1 e => faultOut s1 e
      | .stall s1 => .next (stallRetry s1)
      | .go s1 ps =>
        if !(tokRoom s1.cv t.toNat (actLanes s1).length) then .next (waitIssue s1)
        else
          laneUnits st s1 (fun l =>
            if clean s1 l then
              { newUnit s1 t (.radj (rdQuad s1 b l) (rd32 s1 c l)) with
                pieces := resultPiece l (groupLocs (8 * d.val) 8 l) :: lanePieces s1 l as ps }
            else newUnit s1 t .value))

/-- A RADJ unit completes (19 R376): positions are bits 351 to 64 of the record. -/
def performRadj (s : State) (u : Pending) (q : List Word) (gz : Word) : State :=
  deliverRead s u (fun bs => radjWords ((wordsOfBytes bs.flatten).drop 2 |>.take 9) q gz) id

/-- The eight words of EDGE (09 R174, 19 R377). -/
def edgeWords (q : List Word) (n k : Nat) (j : Word) : List Word :=
  let zeros := List.replicate 8 0#32
  match finiteAll (q ++ [j]) with
  | some [ax, ay, bx, by_, jj] =>
    if n = 0 || 256 < n || n ≤ k || jj.isNeg || (Q.ofInt 1).le jj then zeros
    else
      let ex := f32r (fvq (bx.sub ax))
      let ey := f32r (fvq (by_.sub ay))
      let sw := f32r (fvq (((Q.ofInt k).add jj).div (Q.ofInt n)))
      match finiteAll [ex, ey, sw] with
      | some [x, y, p] =>
        let sq := (x.mul x).add (y.mul y)
        let lw := if sq.isZero then 0#32 else f32r (.fin (qsqrt 300 sq))
        match coord lw with
        | none => zeros
        | some len =>
          if len.isZero then zeros
          else
            let w (x : Q) : Word := f32r (fvq x)
            [w p, w (y.div len), w (x.neg.div len), w ((((Q.ofInt 1).sub p).mul len).div (Q.ofInt n)), w ((p.mul len).div (Q.ofInt n)),
              0#32, 0#32, 0#32]
      | _ => zeros
  | _ => zeros

/-- EDGE (09 R174, 19 R377). -/
def execEdge (st : Stall) (d : Fin 12) (a b c : Src) (t : Tok) (s0 : State) : Out :=
  octetStart [⟨0, a, 4⟩, ⟨1, b, 2⟩, ⟨2, c, 1⟩] d s0 (fun s =>
    if !(tokRoom s.cv t.toNat (actLanes s).length) then .next (waitIssue s)
    else
      laneUnits st s (fun l =>
        let ws := edgeWords (rdQuad s a l) (readWord s b l 0).toNat (readWord s b l 1).toNat (rd32 s c l)
        { newUnit s t .value with
          writes := if clean s l then List.zip (groupLocs (8 * d.val) 8 l) (ws.map (fun w => w.setWidth 64)) else [] }))

/-- Whether a queued TXS thread is still outstanding. -/
def texLive (s : State) (x : TexReq) : Bool :=
  (allCohorts s).any (fun c => c.uid = x.uid && c.convoys.any (fun v => v.id = x.convoy && v.units.any (fun u => u.seq = x.unit)))

/-- TEXTURE_SAMPLE (08 R155, 19 R374): the first TXS thread of a core's queue is served. -/
def execTextureSample (core : Nat) (s : State) : Out :=
  match s.texq.find? (fun x => x.core = core) with
  | none => .next s
  | some x =>
    let s1 := { s with texq := s.texq.erase x }
    if !(texLive s x) then .next s1
    else
      let s2 := focusOn s1 x.core x.slot x.convoy
      match s2.cv.units.find? (fun u => u.seq = x.unit) with
      | none => .next s1
      | some u =>
        match u.kind with
        | .texture fmt p q bi =>
          if mayComplete s2.cv u then
            fcGate { s2 with texq := s.texq } (pieceLines false (readPieces u)) (.next (performTexture s2 u fmt p q bi))
          else .next s
        | _ => .next s1

end Sys2Proof.Machine
end

