-- ==== Sys2Proof/Machine/Units.lean ====
section
/-! DEFINITION. The completion of units that are no plain memory requests (03 R60, 05 R109), and the events of the frontier
(01 R28 to R35; 10 R185). -/

namespace Sys2Proof.Machine

/-- TOKEN_UNIT_COMPLETE (05 R109): unit k of the focused convoy. -/
def execTokenUnitComplete (k : Nat) (s : State) : Out :=
  match s.cv.units[k]? with
  | none => .next s
  | some u =>
    let may := mayComplete s.cv u
    match u.kind with
    | .value => .next (landWrites s u)
    | .engine => .next (landWrites s u)
    | .matrix _ => .next (completeMatrix s u)
    | .travr ray gen _ => .next (completeTravr s u ray gen)
    | .trava ray gen g base => .next (if may then completeTrava s u ray gen g base else s)
    | .texGrad fmt x y bi g =>
      fcGate s (pieceLines false (readPieces u)) (.next (if may then performTexGrad s u fmt x y bi g else s))
    | .radj q gz => fcGate s (pieceLines false (readPieces u)) (.next (if may then performRadj s u q gz else s))
    | .binit range off n =>
      .next (if may then (let s1 := { s with ch := performBinit s.ch range off n }; { s1 with cv := dropUnit s1.cv u }) else s)
    | .barv off n => .next (if may then performBarv s u off n else s)
    | .spawn desc j at_ cs => .next (if may then performSpawn s u desc j at_ cs else s)
    | .cctl op => .next (performCctl s u op)
    | .sysRead what => .next (performSysRead s u what)
    | .sysSet what x => .next (performSysSet s u what x)
    | .absorb slot tag buf len => .next (if may then performAbsorb s u slot tag buf len else s)
    | .lnch r rcb => .next (if may then performLnch s u r rcb else s)
    | .replayReq va => .next (performReplayReq s u va)
    | .scall _ => .next s
    | .load => .next s
    | .store => .next s
    | .scrLoad _ _ => .next s
    | .scrStore _ => .next s
    | .atom _ _ => .next s
    | .scrAtom _ _ => .next s
    | .scadd => .next s
    | .fence _ => .next s
    | .pref => .next s
    | .texture _ _ _ _ => .next s
    | .gscom => .next s

/-- CLAUSE_FETCH (10 R185). -/
def execClauseFetch (s : State) : Out := .next (if s.focus then clauseFetchOp s else s)

/-- CLAUSE_BOUNDARY (01 R28, 29 R442). -/
def execClauseBoundary (s : State) : Out := .next (if s.focus && !s.ch.dying then clauseBoundaryOp s else s)

/-- FRONTIER_AGE_EXPIRY (01 R32): the boundary at which an entry of age 4,096 is issued ahead of the order. -/
def execFrontierAgeExpiry (s : State) : Out :=
  if (s.cv.fr ++ s.cv.spill).any (fun e => e.wait.isNone && decide (4096 ≤ e.age)) && s.focus && !s.ch.dying then
    .next (clauseBoundaryOp s)
  else .next s

/-- JOINW_TIMEOUT (01 R34, R35): the wait at a header ends at its deadline. -/
def execJoinwTimeout (pc : Nat) (s : State) : Out :=
  match (s.cv.fr ++ s.cv.spill).find? (fun e => e.pc = pc && (match e.wait with
      | some (.join _ late) => !late
      | _ => false)) with
  | some e =>
    match e.wait with
    | some (.join d _) =>
      let s1 := reachCycle s s.ch.core d
      let f (x : Entry) : Entry := if x = e then { x with wait := some (.join d true) } else x
      .next { s1 with cv := { s1.cv with fr := s1.cv.fr.map f, spill := s1.cv.spill.map f } }
    | _ => .next s
  | none => .next s

end Sys2Proof.Machine
end

