-- ==== Sys2Proof/Machine/Coll.lean ====
section
/-! DEFINITION. The collective engine (06 R126, R127; 11 R216; 18 R346 to R352; 32 R502 to R504) and the mileposts of every kind of
command (06 R112). -/

namespace Sys2Proof.Machine

/-- An engine's read of n bytes: the bytes, or an error code with the address (18 R350); none while a translation is retried. -/
def engBytes (s : State) (core : Nat) (root : DWord) (va n : Nat) : Option (Except (Nat × Nat) (List Byte)) × State :=
  match engAddr s core root (BitVec.ofNat 64 va) false false with
  | (none, s1) => (none, s1)
  | (some (.error e), s1) => (some (.error (e, va)), s1)
  | (some (.ok (pa, key)), s1) =>
    let s2 := rekeyAt s1 pa n key
    if poisonedRange s2 pa n then (some (.error (7, va)), s2) else (some (.ok (memGet s2 pa n)), s2)

/-- Reading elements of n bytes, each aligned to its size (18 R347). -/
def engReads (s : State) (core : Nat) (root : DWord) (n : Nat) : List Nat → Option (Except (Nat × Nat) (List (List Byte))) × State
  | [] => (some (.ok []), s)
  | va :: vas =>
    if va % n ≠ 0 then (some (.error (3, va)), s)
    else
      match engBytes s core root va n with
      | (some (.ok bs), s1) =>
        match engReads s1 core root n vas with
        | (some (.ok xs), s2) => (some (.ok (bs :: xs)), s2)
        | r => r
      | (some (.error e), s1) => (some (.error e), s1)
      | (none, s1) => (none, s1)

/-- Writing elements at their addresses; the first that fails ends the rest. -/
def engPuts (s : State) (core : Nat) (root : DWord) : List (Nat × List Byte) → Option (Option (Nat × Nat)) × State
  | [] => (some none, s)
  | (va, bs) :: rest =>
    if va % bs.length ≠ 0 then (some (some (3, va)), s)
    else
      match engAddr s core root (BitVec.ofNat 64 va) true false with
      | (none, s1) => (none, s1)
      | (some (.error e), s1) => (some (some (e, va)), s1)
      | (some (.ok (pa, key)), s1) => engPuts (writeCoherent s1 none pa key bs) core root rest

/-- Whether the accesses that a command of a cohort must see are performed (04 R87). -/
def afterDoneIn (s : State) (uid : Nat) (xs : List (Nat × Nat × Nat)) : Bool :=
  xs.all (fun x => match convoyIn s uid x.1 with
    | none => true
    | some v => !(v.units.any (fun u => decide (u.seq < x.2.2) && u.mask.getLsbD x.2.1 && accessUnit u && !(decide (u.kind = .pref)))))

/-- The stores of the issuing threads are registered (04 R83, R87). -/
def afterReleaseIn (s : State) (core uid : Nat) (xs : List (Nat × Nat × Nat)) : State :=
  xs.foldl (fun s x =>
    registerThrough s core (fun p => decide (p.uid = uid) && decide (p.convoy = x.1) && decide (p.lane = x.2.1))) s

/-- Replacing a command of the collective engine. -/
def putColl (s : State) (c : Coll) : State :=
  { s with colls := s.colls.map (fun x => if x.uid = c.uid && x.seq = c.seq then c else x) }

/-- Fields of a COLL record (18 R346). -/
def collOp (x : Nat) : Nat := slice x 111 108
/-- Deterministic mode is asked for. -/
def collMode (x : Nat) : Nat := slice x 107 106
/-- Data format. -/
def collFmt (x : Nat) : Option Fmt := fmtOf (BitVec.ofNat 5 (slice x 105 101))
/-- Wire format. -/
def collWire (x : Nat) : Option Fmt := fmtOf (BitVec.ofNat 5 (slice x 100 96))
/-- Operation of a reduction or atomic. -/
def collAop (x : Nat) : Nat := slice x 95 91
/-- Elements per block. -/
def collCount (x : Nat) : Nat := slice x 319 288
/-- Address of element e of block j in the source. -/
def collSrc (x j e : Nat) : Nat :=
  (((slice x 511 448 : Nat) + j * sextN 32 (slice x 255 224) + e * sextN 32 (slice x 191 160)) % (2 ^ 64 : Int)).toNat
/-- Address of element e of block j in the destination. -/
def collDst (x j e : Nat) : Nat :=
  (((slice x 447 384 : Nat) + j * sextN 32 (slice x 223 192) + e * sextN 32 (slice x 159 128)) % (2 ^ 64 : Int)).toNat

/-- Whether a command reduces. -/
def collReduces (x : Nat) : Bool := decide (collOp x = 0 ∨ collOp x = 2)

/-- Whether the wire format is narrower than the data (18 R348). -/
def collNarrow (x : Nat) : Bool := decide (collFmt x = some .f32) && collReduces x && decide (collAop x = 0) &&
  (match collWire x with
    | some .f16 => true | some .bf16 => true | some .f8e4 => true | some .f8e5 => true
    | _ => false)

/-- Whether an atomic takes a format (18 R349). -/
def atomFmtOk (op : AtomOp) (f : Fmt) : Bool :=
  match op with
  | .exch => true | .cas => true
  | .fadd => f.isFloat | .fmin => f.isFloat | .fmax => f.isFloat
  | _ => !f.isFloat

/-- The checks of a record's fields (18 R346 to R349): the error code, if one fails. -/
def collFields (x : Nat) (strict : Bool) : Option Nat :=
  let scalar (f : Fmt) : Bool := decide (f = .f64 ∨ f = .f32 ∨ f = .i32 ∨ f = .n32 ∨ f = .i64 ∨ f = .n64)
  if slice x 90 0 ≠ 0 then some 1
  else if 4 < collOp x || 1 < collMode x then some 2
  else
    match collFmt x, collWire x with
    | some d, some w =>
      if collReduces x then
        if !(scalar d) || 2 < collAop x || !(w = d || collNarrow x) then some 2
        else if collNarrow x && slice x 383 320 = 0 then some 2
        else if collNarrow x && slice x 383 320 % 16 ≠ 0 then some 3
        else none
      else if collOp x = 4 then
        match atomOpOf (BitVec.ofNat 5 (collAop x)) with
        | none => some 2
        | some op =>
          if !(scalar d) || w ≠ d || !(atomFmtOk op d) then some 2
          else if strict && op = .fadd then some 11 else none
      else if d.width < 8 || w ≠ d then some 2 else none
    | _, _ => some 2

/-- A group (32 R502): its tag, its control block and its ranks. -/
structure Group where
  gtag : Word
  rcb  : Nat
  rank : List Nat

/-- Physical address of an entry of the group table (32 R493, R502). -/
def groupPa (s : State) (g : Nat) : Nat := s.pkg * 2 ^ 42 + 0x7F00000000 + 4096 * g

/-- The group of an index; none gives GROUP (32 R502). -/
def groupOf (s : State) (g : Nat) : Option Group :=
  let a := groupPa s g
  let f (off n : Nat) : Nat := memNat s (a + off) n
  let n := f 4 4
  let rank := (List.range n).map (fun i => f (64 + 2 * i) 2)
  if 4096 ≤ g || f 0 4 ≠ 1 || n = 0 || 1024 < n || f 12 4 ≠ 0 || f 24 40 ≠ 0 || f (64 + 2 * n) (4032 - 2 * n) ≠ 0 then none
  else if (distinct rank).length ≠ n || !(rank.any (· = s.pkg)) then none
  else some { gtag := BitVec.ofNat 32 (f 8 4), rcb := f 16 8, rank := rank }

/-- A list cut into parts of k. -/
def cutList {α : Type} (k : Nat) (xs : List α) : List (List α) :=
  (List.range ((xs.length + k - 1) / k)).map (fun i => (xs.drop (i * k)).take k)

/-- Elements of a message (32 R503). -/
def perMsg (f : Fmt) : Nat := 4096 / (f.width / 8)

/-- A message of a command (32 R495): its kind, the member it goes to, its number and data. -/
def collMsg (s : State) (c : Coll) (kind dst seq : Nat) (data : List Byte) : FabMsg :=
  { kind := kind, sw := false, seq := seq, data := some data
    h := { src := s.pkg, dst := dst, tag := c.gtag, line := slice c.fields 127 112 + 65536 * slice c.fields 105 91, state := 0,
           poison := false, plane := 0 } }

/-- Round to nearest in FP32. -/
def roundF32 (v : FV) : Nat := enc .f32 (fresult .f32 .rne false false v)

/-- One element sent narrow (06 R127; 18 R348): the wire value and the new residual. -/
def narrowEl (w : Fmt) (x e : Nat) : Nat × Nat :=
  let c := roundF32 (fsum .rne (fval .f32 x) (fval .f32 e))
  let q := convert .f32 w .rne { ftzi := false, ftzo := false, sat := true } c
  (q, roundF32 (fsum .rne (fval .f32 c) (fval w q).flip))

/-- The residual header of a command (18 R348). -/
def residualHead (x : Nat) (n : Nat) : List Byte :=
  bytesOf (slice x 287 256) 4 ++ bytesOf n 4 ++ bytesOf (slice x 100 96) 4 ++ bytesOf 0 4

/-- The wire elements of a narrow command, with the residuals rewritten (06 R127, 18 R348). -/
def narrowAll (s : State) (core : Nat) (root : DWord) (x : Nat) (w : Fmt) (xs : List Nat) :
    Option (Except (Nat × Nat) (List Nat)) × State :=
  let base := slice x 383 320
  let head := residualHead x xs.length
  match engBytes s core root base 16 with
  | (none, s1) => (none, s1)
  | (some (.error e), s1) => (some (.error e), s1)
  | (some (.ok h), s1) =>
    let at_ (i : Nat) : Nat := base + 16 + 4 * i
    let olds := if h = head then engReads s1 core root 4 ((List.range xs.length).map at_)
      else (some (.ok (xs.map (fun _ => [0#8, 0#8, 0#8, 0#8]))), s1)
    match olds with
    | (none, s2) => (none, s2)
    | (some (.error e), s2) => (some (.error e), s2)
    | (some (.ok es), s2) =>
      let rs := (List.zip xs (es.map natOfBytes)).map (fun e => narrowEl w e.1 e.2)
      let heads := (List.range 4).map (fun i => (base + 4 * i, (head.drop (4 * i)).take 4))
      match engPuts s2 core root (heads ++ (rs.zipIdx).map (fun e => (at_ e.2, bytesOf e.1.2 4))) with
      | (none, s3) => (none, s3)
      | (some (some e), s3) => (some (.error e), s3)
      | (some none, s3) => (some (.ok (rs.map (·.1))), s3)

/-- The blocks that a command reads, in order (18 R347). -/
def collBlocks (x n : Nat) : List Nat := if collOp x = 2 || collOp x = 3 then List.range n else [0]

/-- The wire bytes of each block that a command contributes (18 R347, R348). -/
def contributions (s : State) (core : Nat) (root : DWord) (x n : Nat) (d w : Fmt) :
    Option (Except (Nat × Nat) (List (List (List Byte)))) × State :=
  let k := collCount x
  let vas := (collBlocks x n).flatMap (fun j => (List.range k).map (collSrc x j))
  match engReads s core root (d.width / 8) vas with
  | (none, s1) => (none, s1)
  | (some (.error e), s1) => (some (.error e), s1)
  | (some (.ok xs), s1) =>
    if collNarrow x then
      match narrowAll s1 core root x w (xs.map natOfBytes) with
      | (none, s2) => (none, s2)
      | (some (.error e), s2) => (some (.error e), s2)
      | (some (.ok qs), s2) => (some (.ok (cutList k (qs.map (fun q => bytesOf q (w.width / 8))))), s2)
    else (some (.ok (cutList k xs)), s1)

/-- The messages of a command: rank, number and bytes (32 R503). Block j goes to rank j, or the one block to every rank. -/
def collParts (x n : Nat) (w : Fmt) (blocks : List (List (List Byte))) : List (Nat × Nat × List Byte) :=
  (List.range n).flatMap (fun r =>
    let b := if collOp x = 2 || collOp x = 3 then blocks.getD r [] else blocks.getD 0 []
    ((cutList (perMsg w) b).zipIdx).map (fun m => (r, m.2, m.1.flatten)))

/-- The sum of contributions in ascending rank (11 R216). -/
def rankSum (acc d w : Fmt) (xs : List Nat) : Nat :=
  let wide (x : Nat) : FV := fval w x
  let add (a b : FV) : FV := fresult acc .rne false false (fsum .rne a b)
  let total := match xs with
    | [] => FV.zero false
    | x :: rest => rest.foldl (fun a y => add a (wide y)) (wide x)
  convert acc d .rne { ftzi := false, ftzo := false, sat := false } (enc acc total)

/-- The result of an element over all ranks (06 R126; 11 R216; 14 R260): none where a float sum of three or more has no fixed order. -/
def reduceEl (det : Bool) (x : Nat) (d w : Fmt) (xs : List Nat) : Option Nat :=
  if d.isFloat then
    match collAop x with
    | 0 => if det || xs.length ≤ 2 then some (rankSum (if d = .f64 then Fmt.f64 else Fmt.f32) d w xs) else none
    | k =>
      match xs with
      | [] => some 0
      | y :: rest => some (enc d (rest.foldl (fun a z => fminmax (decide (k = 2)) a (fval d z)) (fval d y)))
  else some (reduInt (match collAop x with
    | 0 => .add | 1 => .min | _ => .max) d xs)

/-- The reduced elements, free values where the order is open. -/
def reduceAll (s : State) (det : Bool) (x : Nat) (d w : Fmt) : List (List Nat) → List Nat × State
  | [] => ([], s)
  | ys :: rest =>
    let r := match reduceEl det x d w ys with
      | some v => (v, s)
      | none =>
        ((Config.freeWord s.free).toNat + (if d = Fmt.f64 then 2 ^ 32 * (Config.freeWord (s.free + 1)).toNat else 0),
          { s with free := s.free + 2 })
    let q := reduceAll r.2 det x d w rest
    (r.1 :: q.1, q.2)

/-- Elements of a message as numbers. -/
def msgEls (w : Fmt) (bs : List Byte) : List Nat := (cutList (w.width / 8) bs).map natOfBytes

/-- What a message number makes complete (18 R347): the destination addresses with their bytes; none while contributions are missing. -/
def collReady (s : State) (c : Coll) (det : Bool) (d w : Fmt) (rank no : Nat) : Option (List (Nat × List Byte)) × State :=
  let x := c.fields
  let n := d.width / 8
  let at_ (j : Nat) (xs : List (List Byte)) : List (Nat × List Byte) :=
    (xs.zipIdx).map (fun e => (collDst x j (no * perMsg w + e.2), e.1))
  let part (r : Nat) : Option (List Byte) := (c.got.find? (fun g => g.1 = r && g.2.1 = no)).map (·.2.2)
  if collReduces x then
    let parts := (List.range c.members.length).map part
    if parts.any (·.isNone) then (none, s)
    else
      let els := parts.map (fun p => msgEls w (p.getD []))
      let k := (els.getD 0 []).length
      let q := reduceAll s det x d w ((List.range k).map (fun i => els.map (fun e => e.getD i 0)))
      (some (at_ 0 (q.1.map (fun v => bytesOf v n))), q.2)
  else (some (at_ rank (cutList n ((part rank).getD []))), s)

/-- A contribution has arrived: what it completes is written (18 R347); none while a translation is retried. -/
def collArrive (s : State) (c : Coll) (det : Bool) (root : DWord) (rank no : Nat) (bs : List Byte) : Option State :=
  match collFmt c.fields, collWire c.fields with
  | some d, some w =>
    let c1 := { c with got := c.got ++ [(rank, no, bs)] }
    match collReady s c1 det d w rank no with
    | (none, s1) => some (putColl s1 c1)
    | (some ws, s1) =>
      match engPuts s1 fwCore root ws with
      | (none, _) => none
      | (some err, s2) =>
        let n := (ws.map (fun e => e.2.length)).sum
        some (putColl s2 { c1 with written := c1.written ++ [(rank, no)], done := if err.isNone then c1.done + n else c1.done, err := err })
  | _, _ => some s

/-- Whether a command's float reduction runs in deterministic mode (06 R126). -/
def collDet (c : Cohort) (x : Nat) : Bool := c.det || decide (collMode x = 1)

/-- An element of a remote-atomics command: target address, operand, compare value and rank (18 R349). -/
def atomElem (bs : List Byte) : Nat × Nat × Nat × Nat :=
  let x := natOfBytes bs
  (slice x 63 0, slice x 127 64, slice x 191 128, slice x 207 192)

/-- A remote atomic performed here (32 R504; 15 R291, R292): the old value, or that it is refused; none while a translation is
retried. -/
def remoteAtom (s : State) (g : Group) (op : AtomOp) (d : Fmt) (va x cmp : Nat) : Option (Option Nat) × State :=
  let n := d.width / 8
  if va % n ≠ 0 || (regionOf s g.rcb).isNone then (some none, s)
  else
    match engAddr s fwCore (effRoot s g.rcb) (BitVec.ofNat 64 va) true false with
    | (none, s1) => (none, s1)
    | (some (.error _), s1) => (some none, s1)
    | (some (.ok (pa, key)), s1) =>
      let s2 := rekeyAt s1 pa n key
      if poisonedRange s2 pa n then (some none, s2)
      else
        let old := memNat s2 pa n
        let new := atomNew op (decide (n = 8)) old (x % 2 ^ (8 * n)) (cmp % 2 ^ (8 * n))
        (some (some old), writeCoherent s2 none pa key (bytesOf new n))

/-- Elements of an atomics command that may be sent: not sent yet, none before it for the same word of the same rank outstanding,
none before it refused (06 R126, 32 R504). -/
def atomDue (c : Coll) : Option (Nat × Nat × List Byte) :=
  let word (e : Nat × Nat × List Byte) : Nat × Nat := (e.1, (atomElem e.2.2).1)
  c.got.find? (fun e =>
    !(c.waits.any (· = e.2.1)) && !(c.got.any (fun f => decide (f.2.1 < e.2.1) && word f = word e)) &&
    (match c.refused with
      | some r => decide (e.2.1 < r)
      | none => true))

/-- An element's response: the old value is written at dst (18 R349), or the element is refused. -/
def atomAnswer (s : State) (c : Coll) (root : DWord) (e : Nat) (old : Option Nat) : Option State :=
  let c1 := { c with got := c.got.filter (fun g => g.2.1 ≠ e), waits := c.waits.filter (· ≠ e) }
  match old with
  | none => some (putColl s { c1 with refused := some (min e (c.refused.getD e)) })
  | some v =>
    match engPuts s fwCore root [((slice c.fields 447 384 + 8 * e) % 2 ^ 64, bytesOf v 8)] with
    | (none, _) => none
    | (some err, s1) => some (putColl s1 { c1 with done := c1.done + 1, err := c1.err.or err })

/-- Sending the atomics that may go; those for this package are performed at once. -/
def atomPump (c0 : Nat × Nat) (co : Cohort) : Nat → State → Option State
  | 0, s => some s
  | n + 1, s =>
    match s.colls.find? (fun c => c.uid = c0.1 && c.seq = c0.2) with
    | none => some s
    | some c =>
      match atomDue c, groupOf s (slice c.fields 127 112), atomOpOf (BitVec.ofNat 5 (collAop c.fields)), collFmt c.fields with
      | some e, some g, some op, some d =>
        let q := atomElem e.2.2
        if c.err.isSome then some s
        else if c.members.getD e.1 0 = s.pkg then
          match remoteAtom s g op d q.1 q.2.1 q.2.2.1 with
          | (none, _) => none
          | (some old, s1) =>
            match atomAnswer s1 c co.root e.2.1 old with
            | none => none
            | some s2 => atomPump c0 co n s2
        else
          let s1 := sendMsgs s [collMsg s c 0x12 (c.members.getD e.1 0) e.2.1 (e.2.2.take 24)]
          atomPump c0 co n (putColl s1 { c with waits := c.waits ++ [e.2.1] })
      | _, _, _, _ => some s

/-- The elements of an atomics command, read at its start (18 R349). -/
def atomStart (s : State) (c : Coll) (co : Cohort) : Option State :=
  let x := c.fields
  match engReads s fwCore co.root 32 ((List.range (collCount x)).map (fun e => slice x 511 448 + 32 * e)) with
  | (none, _) => none
  | (some (.error e), s1) => some (putColl s1 { c with err := some e })
  | (some (.ok xs), s1) =>
    let bad := (xs.zipIdx).find? (fun e => slice (natOfBytes e.1) 255 208 ≠ 0)
    let far := (xs.zipIdx).find? (fun e => decide (c.members.length ≤ (atomElem e.1).2.2.2))
    match bad, far with
    | some e, _ => some (putColl s1 { c with err := some (1, slice x 511 448 + 32 * e.2) })
    | none, some e => some (putColl s1 { c with err := some (9, slice x 511 448 + 32 * e.2) })
    | none, none =>
      let c1 := { c with got := (xs.zipIdx).map (fun e => ((atomElem e.1).2.2.2, e.2, e.1)) }
      atomPump (c.uid, c.seq) co (xs.length + 1) (putColl s1 c1)

/-- The messages of a command that is started: those for other members are sent, this package's own contribution is taken. -/
def moveStart (s : State) (c : Coll) (co : Cohort) (d w : Fmt) : Option State :=
  let x := c.fields
  match contributions s fwCore co.root x c.members.length d w with
  | (none, _) => none
  | (some (.error e), s1) => some (putColl s1 { c with err := some e })
  | (some (.ok blocks), s1) =>
    let parts := collParts x c.members.length w blocks
    let ms := (parts.filter (fun p => p.1 ≠ c.rank)).map (fun p => collMsg s1 c 0x10 (c.members.getD p.1 0) p.2.1 p.2.2)
    let mine := parts.filter (fun p => p.1 = c.rank)
    let s2 := putColl (sendMsgs s1 ms) c
    mine.foldl (fun (o : Option State) p => o.bind (fun s =>
      match s.colls.find? (fun y => y.uid = c.uid && y.seq = c.seq) with
      | some y => if y.err.isSome then some s else collArrive s y (collDet co x) co.root c.rank p.2.1 p.2.2
      | none => some s)) (some s2)

/-- A command starts: its record is read and checked, and its messages are cut (18 R346 to R349; 32 R502, R503). -/
def startColl (s : State) (c : Coll) (co : Cohort) : Option State :=
  let s0 := afterReleaseIn s co.core c.uid c.after
  let c0 := { c with started := true }
  let fail (s : State) (e : Nat × Nat) : Option State := some (putColl s { c0 with err := some e })
  if c.recVa.extractLsb' 0 6 ≠ 0#6 then fail s0 (3, c.recVa.toNat)
  else
    match engBytes s0 fwCore co.root c.recVa.toNat 64 with
    | (none, _) => none
    | (some (.error e), s1) => fail s1 e
    | (some (.ok bs), s1) =>
      let x := natOfBytes bs
      match collFields x co.strict, groupOf s1 (slice x 127 112), collFmt x, collWire x with
      | some k, _, _, _ => fail s1 (k, c.recVa.toNat)
      | none, some g, some d, some w =>
        let c1 := { c0 with fields := x, members := g.rank, rank := g.rank.idxOf s1.pkg, gtag := g.gtag }
        if collCount x = 0 then some (putColl s1 c1)
        else if collOp x = 4 then atomStart (putColl s1 c1) c1 co
        else moveStart (putColl s1 c1) c1 co d w
      | _, _, _, _ => fail s1 (9, c.recVa.toNat)

/-- COLL_COMMAND_START (06 R126, R127; 18 R346 to R349; 32 R503; 04 R87, R88): command k of the engine. -/
def execCollCommandStart (k : Nat) (s : State) : Out :=
  match s.colls[k]? with
  | none => .next s
  | some c =>
    match cohortOf s c.uid with
    | none => .next s
    | some co =>
      if c.started || !(afterDoneIn s c.uid c.after) || (c.acq && decide (0 < k)) then .next s
      else .next ((startColl s c co).getD s)

/-- The command that a message of another member belongs to: the oldest started one of the group that passes a test. -/
def collFor (s : State) (h : FabHdr) (p : Coll → Bool) : Option Coll :=
  s.colls.find? (fun c => c.started && c.err.isNone && slice c.fields 127 112 = h.line % 65536 && p c)

/-- COLL_DATA (06 R126; 11 R216; 18 R347; 32 R495, R502, R503): a contribution of another member arrives; it waits for a command that
has not started. -/
def execCollData (h : FabHdr) (seq : Nat) (data : List Byte) (s : State) : Out :=
  if h.dst ≠ s.pkg then .next s
  else
    let open_ (c : Coll) : Bool := c.members.any (· = h.src) && !(c.got.any (fun g => g.1 = c.members.idxOf h.src && g.2.1 = seq)) &&
      decide (collOp c.fields ≠ 4)
    match collFor s h open_ with
    | none => .next s
    | some c =>
      match cohortOf s c.uid with
      | none => .next s
      | some co =>
        if c.gtag ≠ h.tag then .next (putColl s { c with err := some (9, c.recVa.toNat) })
        else
          match collArrive s c (collDet co c.fields) co.root (c.members.idxOf h.src) seq data with
          | none => .next s
          | some s1 => .next (sendMsgs s1 [{ collMsg s1 c 0x11 h.src seq [] with data := none }])

/-- COLL_ACK (32 R496, R503). -/
def execCollAck (h : FabHdr) (seq : Nat) (s : State) : Out :=
  if h.dst ≠ s.pkg then .next s
  else
    match collFor s h (fun c => c.members.any (· = h.src) && c.gtag = h.tag && !(c.acks.any (· = (c.members.idxOf h.src, seq)))) with
    | none => .next s
    | some c => .next (putColl s { c with acks := c.acks ++ [(c.members.idxOf h.src, seq)] })

/-- ATOMIC_REQUEST (32 R502, R504): a remote atomic is performed here, and answered. -/
def execAtomicRequest (h : FabHdr) (seq : Nat) (data : List Byte) (s : State) : Out :=
  if h.dst ≠ s.pkg then .next s
  else
    let aop := (h.line / 65536) % 32
    let fm := (h.line / 2 ^ 26) % 32
    let hd : FabHdr := { h with src := h.dst, dst := h.src }
    let answer (s : State) (old : Option Nat) : Out :=
      .next (sendMsgs s [{ kind := 0x13, sw := false, h := hd, part := b2n old.isNone, seq := seq, word := BitVec.ofNat 64 (old.getD 0) }])
    match groupOf s (h.line % 65536), atomOpOf (BitVec.ofNat 5 aop), fmtOf (BitVec.ofNat 5 fm) with
    | some g, some op, some d =>
      let q := atomElem data
      if g.gtag ≠ h.tag then answer s none
      else
        match remoteAtom s g op d q.1 q.2.1 q.2.2.1 with
        | (none, _) => .next s
        | (some old, s1) => answer s1 old
    | _, _, _ => answer s none

/-- ATOMIC_RESPONSE (18 R349, 32 R504). -/
def execAtomicResponse (h : FabHdr) (seq : Nat) (old : DWord) (refused : Bool) (s : State) : Out :=
  if h.dst ≠ s.pkg then .next s
  else
    let mine (c : Coll) : Bool := decide (collOp c.fields = 4) && c.gtag = h.tag && c.waits.any (· = seq) &&
      c.got.any (fun g => g.2.1 = seq && c.members.getD g.1 0 = h.src)
    match collFor s h mine with
    | none => .next s
    | some c =>
      match cohortOf s c.uid with
      | none => .next s
      | some co =>
        match (atomAnswer s c co.root seq (if refused then none else some old.toNat)).bind (atomPump (c.uid, c.seq) co (c.got.length + 1)) with
        | none => .next s
        | some s1 => .next s1

/-- Messages that complete a command's destination (18 R347). -/
def collNeed (c : Coll) : Nat :=
  match collWire c.fields with
  | none => 0
  | some w =>
    let m := (collCount c.fields + perMsg w - 1) / perMsg w
    if collReduces c.fields then m else m * c.members.length

/-- Whether a command has ended (18 R347, R349, R350): its error, or its destination complete. -/
def collOver (c : Coll) : Bool :=
  c.started && (c.err.isSome ||
    (if collOp c.fields = 4 then
      (match c.refused with
        | some r => c.got.all (fun g => decide (r < g.2.1))
        | none => c.got.isEmpty)
    else decide (collNeed c ≤ c.written.length)))

/-- The error that a command ends with. -/
def collErr (c : Coll) : Option (Nat × Nat) :=
  c.err.or (c.refused.map (fun r => (5, slice c.fields 511 448 + 32 * r)))

/-- The engine fault record of a cohort, bound or parked; a parked one's lies in its context block (29 R447). -/
def recordEngineIn (s : State) (uid code source convoy seq vaddr done : Nat) : State :=
  let s1 := mapUid s uid (fun c => recordEngine c code source convoy seq 0 vaddr done)
  match (boundOf s1 uid).isSome, cohortOf s1 uid with
  | false, some c => writeCoherent s1 none (c.ctx + 320) c.ckey (bytesOf c.efault.pack.toNat 64)
  | _, _ => s1

/-- A command of the package's engines ends: record, milepost, and the Engine fault where there is no milepost, it cannot be written,
or EFTRAP is set (18 R351; 20 R390). None while the milepost's translation is retried. -/
def endCommand (s : State) (uid convoy seq source : Nat) (mile : DWord) (done : Nat) (err : Option (Nat × Nat)) : Option State :=
  match cohortOf s uid with
  | none => some s
  | some co =>
    if hasMile mile && (engAddr s fwCore co.root mile true false).1.isNone then none
    else
      let s1 := match err with
        | some (code, va) => recordEngineIn s uid code source convoy seq va done
        | none => s
      let r := writeMile s1 fwCore co.root mile err.isSome seq
      let s2 := match r.1 with
        | some e => recordEngineIn r.2.2 uid e source convoy seq mile.toNat done
        | none => r.2.2
      let code : Option (Nat × Nat) := match err, r.1 with
        | some (k, va), none => if !(hasMile mile) || co.eftrap then some (k, va) else none
        | some (k, va), some _ => some (k, va)
        | none, some e => some (e, mile.toNat)
        | none, none => none
      some (match code with
        | some (k, va) =>
          mapConvoyIn s2 uid convoy (fun (v : Convoy) => { v with bfaults := v.bfaults ++ [enginePending va seq k] })
        | none => s2)

/-- Whether every fragment of a batch has been drawn (08 R152). -/
def batchOver (s : State) (b : Batch) : Bool :=
  b.started && (b.err.isSome || decide (b.count ≤ b.next)) && !(s.frags.any (fun f => f.batch = b.no)) &&
    !(s.launches.any (fun l => l.batch = some b.no))

/-- MILEPOST_WRITE (06 R112; 18 R347, R351; 08 R152): a copy, a collective or a batch of the cohort that issued it in a slot ends. -/
def execMilepostWrite (at_ : SlotRef) (seq : Nat) (s : State) : Out :=
  match s.colls.find? (fun c => c.core = at_.core && c.slot = at_.slot && c.seq = seq) with
  | some c =>
    if !(collOver c) then .next s
    else
      match endCommand s c.uid c.convoy c.seq 3 c.mile c.done (collErr c) with
      | none => .next s
      | some s1 => .next { s1 with colls := s1.colls.filter (fun x => !(x.uid = c.uid && x.seq = c.seq)) }
  | none =>
    match s.batches.find? (fun b => b.core = at_.core && b.slot = at_.slot && b.seq = seq) with
    | some b =>
      if !(batchOver s b) then .next s
      else
        match endCommand s b.uid b.convoy b.seq 4 b.mile b.done b.err with
        | none => .next s
        | some s1 => .next { s1 with batches := s1.batches.filter (fun x => x.no ≠ b.no) }
    | none => atCmd s at_ seq finishCmd

end Sys2Proof.Machine
end

