-- ==== Sys2Proof/Machine/Fabric.lean ====
section
/-! DEFINITION. The coherence messages of the fabric and the recovery after the failure of a plane (32 R489 to R501). A message is
received where its header's source is another agent; WBACK of this package's own, LINE and END are sent. -/

namespace Sys2Proof.Machine

/-- A line supplied with the state granted (32 R496, R497). -/
def supply (s : State) (h : FabHdr) (state : Nat) (data : Option (List Byte)) : State :=
  sendMsgs s [fcMsg s 5 false h.src h.tag h.line state data]

/-- A request has its reply. -/
def dropReq (s : State) (tag : Word) (line : Nat) : State :=
  { s with fab := { s.fab with reqs := s.fab.reqs.filter (fun q => !(q.tag = tag && q.line = line)) } }

/-- The home grants a line in a state (32 R497, R499): to another package, or to itself. -/
def grant (s0 : State) (h : FabHdr) (state : Nat) (data : Bool) : State :=
  let s := recallLine s0 h.line
  let s1 := if 2 ≤ state then setOut s h.line true else s
  if h.src = s.pkg then dropReq (setFc s1 h.line state) h.tag h.line
  else setFc (supply s1 h state (if data then fcData s1 h.line else none)) h.line (if state = 1 then 1 else 0)

/-- Whether a message is for the home of its line, here, which is no owner of it. -/
def homeAsked (s : State) (h : FabHdr) : Bool :=
  decide (homeOf h.line = s.pkg) && !(decide (2 ≤ fcState s h.line ∧ fcState s h.line ≤ 4))

/-- READS at the home (32 R496, R497): S or E is granted. -/
def execReads (h : FabHdr) (s : State) : Out :=
  if !(homeAsked s h) then .next s
  else
    let r := pickBit s
    .next (grant r.2 h (if r.1 then 2 else 1) true)

/-- READO at the home (32 R496, R497): M is granted. -/
def execReado (h : FabHdr) (s : State) : Out := .next (if homeAsked s h then grant s h 4 true else s)

/-- UPGR at the home (32 R496): M is granted without data. -/
def execUpgr (h : FabHdr) (s : State) : Out := .next (if homeAsked s h then grant s h 4 false else s)

/-- A line is written back to its home (32 R496, R499): at the home itself its out bit is cleared; elsewhere the write-back buffer holds
it until the home acknowledges. -/
def writeBackFc (s : State) (line : Nat) (buffer : Bool) : State :=
  let dirty := decide (fcState s line = 3 ∨ fcState s line = 4)
  if homeOf line = s.pkg then setOut s line false
  else
    let q : FabReq := { tag := s.fab.tag, kind := 4, line := line, plane := planeOf s (dirSlice line), ns := s.ns }
    let s1 : State := { s with fab := { s.fab with tag := s.fab.tag + 1#32, reqs := if buffer then s.fab.reqs ++ [q] else s.fab.reqs } }
    sendMsgs s1 [fcMsg s 4 false (homeOf line) s.fab.tag line 0 (if dirty then fcData s line else none)]

/-- WBACK (32 R496, R499): this package gives up a line; or its home takes one, clears its out bit and acknowledges; or an
acknowledgement empties the write-back buffer. -/
def execWback (h : FabHdr) (data : Option (List Byte)) (s : State) : Out :=
  if h.src = s.pkg then
    if 1 ≤ fcState s h.line ∧ fcState s h.line ≤ 4 then
      .next (setFc (writeBackFc (recallLine s h.line) h.line true) h.line 0)
    else .next s
  else if homeOf h.line = s.pkg then
    let s1 := recallLine s h.line
    let s2 := match data with
      | some bs => setPoison (memPut s1 (128 * h.line) (bs.take 128)) h.line h.poison
      | none => s1
    let s3 := setOut s2 h.line false
    .next (sendMsgs s3 [fcMsg s3 4 false h.src h.tag h.line 0 none])
  else .next (dropReq s h.tag h.line)

/-- FWD (32 R496, R497): the reply to a request of this package, or the switch's word to supply a line that it holds or is writing
back. -/
def execFwd (h : FabHdr) (data : Option (List Byte)) (s : State) : Out :=
  match s.fab.reqs.find? (fun q => q.tag = h.tag && q.line = h.line && decide (q.kind ≤ 3)), data with
  | some _, some bs =>
    let s1 := setPoison (memPut s (128 * h.line) (bs.take 128)) h.line h.poison
    .next (dropReq (setFc s1 h.line h.state) h.tag h.line)
  | some q, none =>
    if q.kind = 3 && decide (1 ≤ fcState s h.line ∧ fcState s h.line ≤ 4) then .next (dropReq (setFc s h.line h.state) h.tag h.line)
    else .next s
  | none, _ =>
    let st := fcState s h.line
    if 2 ≤ st ∧ st ≤ 4 then
      let s1 := recallLine s h.line
      .next (setFc (supply s1 h h.state (fcData s1 h.line)) h.line (if h.state = 1 then 3 else 0))
    else if s.fab.reqs.any (fun q => q.kind = 4 && q.line = h.line) then .next (supply s h h.state (fcData s h.line))
    else .next s

/-- INV (32 R496): the copy is given up and the switch answered. -/
def execInv (h : FabHdr) (s : State) : Out :=
  let s1 := recallLine s h.line
  let s2 := if fcState s1 h.line = 0 then s1 else setFc s1 h.line 0
  .next (sendMsgs s2 [fcMsg s2 6 true 0 h.tag h.line 0 none])

/-- RECALL (32 R496, R498): write-back, I, and the answer. -/
def execRecall (h : FabHdr) (s : State) : Out :=
  let s1 := recallLine s h.line
  let st := fcState s1 h.line
  let s2 := if 1 ≤ st ∧ st ≤ 4 then setFc (writeBackFc s1 h.line true) h.line 0 else s1
  .next (sendMsgs s2 [fcMsg s2 7 true 0 h.tag h.line 0 none])

/-- Steps 1 and 3 of a recovery for a line that is held (32 R500): owned words are recalled, the line is written home, and it stays in
S. -/
def reportLine (s : State) (line : Nat) : State :=
  let s1 := recallLine s line
  let s2 := if 2 ≤ fcState s1 line then writeBackFc s1 line false else s1
  setFc s2 line 1

/-- The lines of a list of slices that the package holds. -/
def heldLines (s : State) (slices : List Nat) : List Nat :=
  (s.fab.lines.filter (fun e => decide (1 ≤ e.2 ∧ e.2 ≤ 4) && slices.any (· = dirSlice e.1))).map (·.1)

/-- The START messages of a recovery (32 R500): to every member over every surviving plane. -/
def startMsgs (s : State) (plane : Nat) : List FabMsg :=
  (planesLeft s.fab.failed).flatMap (fun p =>
    (Config.podMembers.filter (fun m => m ≠ s.pkg && !(s.fab.removed.any (· = m)))).map (fun m =>
      { kind := 8, sw := false, via := p
        h := { src := s.pkg, dst := m, tag := 0#32, line := 0, state := 0, poison := false, plane := plane } }))

/-- A plane fails (32 R492, R500): requests to its slices are abandoned, the slice table changes, the lines held are written home, and a
LASTING event names the plane. The package that marks it tells the others. -/
def failPlane (s : State) (plane : Nat) (announce : Bool) : State :=
  if planes ≤ plane || s.fab.failed.any (· = plane) then s
  else
    let lost := (List.range 64).filter (fun i => planeOf s i = plane)
    let mine (q : FabReq) : Bool := lost.any (· = dirSlice q.line)
    let f := s.fab
    let s1 : State :=
      { s with fab := { f with
          failed := f.failed ++ [plane], recov := distinct (f.recov ++ lost)
          reqs := f.reqs.filter (fun q => !(mine q) || q.kind = 4), pend := f.pend ++ f.reqs.filter (fun q => mine q && q.kind ≠ 4) } }
    let s2 := (heldLines s1 lost).foldl reportLine s1
    let s3 := sendMsgs s2 ((s2.fab.reqs.filter (fun q => q.kind = 4 && mine q)).map (fun q =>
      fcMsg s2 4 false (homeOf q.line) q.tag q.line 0 (fcData s2 q.line)))
    let s4 := if announce then sendMsgs s3 (startMsgs s3 plane) else s3
    logPut s4 (logEvent s4 0 5 5 plane 0xFFFFFFFF 0)

/-- CENSUS START (32 R500). -/
def execCensusStart (h : FabHdr) (s : State) : Out := .next (if h.src = s.pkg then s else failPlane s h.plane false)

/-- Whether a report about a line has been sent to its plane. -/
def reported (s : State) (part line : Nat) : Bool :=
  s.fab.out.any (fun m => m.kind = 8 && m.part = part && m.via = planeOf s (dirSlice line) &&
    (if part = 1 then decide (m.h.line = line) else decide (dirSlice m.h.line = dirSlice line)))

/-- CENSUS LINE (32 R495, R500): the state of a line is reported to the new plane of its slice, or that a request for it is pending. -/
def execCensusLine (h : FabHdr) (s : State) : Out :=
  let waits := s.fab.pend.any (fun q => q.line = h.line)
  let held := decide (1 ≤ fcState s h.line ∧ fcState s h.line ≤ 4)
  if !(s.fab.recov.any (· = dirSlice h.line)) || !(waits || held) || reported s 1 h.line then .next s
  else .next (sendMsgs s [{ fcMsg s 8 true 0 0#32 h.line (if waits then 5 else fcState s h.line) none with part := 1 }])

/-- CENSUS END for the slice of a line (32 R500), once every line of the slice has been reported. -/
def execCensusEnd (h : FabHdr) (s : State) : Out :=
  let k := dirSlice h.line
  let due := heldLines s [k] ++ (s.fab.pend.filter (fun q => dirSlice q.line = k)).map (·.line)
  if !(s.fab.recov.any (· = k)) || due.any (fun l => !(reported s 1 l)) || reported s 2 h.line then .next s
  else .next (sendMsgs s [{ fcMsg s 8 true 0 0#32 h.line 0 none with part := 2 }])

/-- The lines of this package whose out bit is set (32 R493, R499). -/
def outLines (s : State) : List Nat :=
  let base := s.pkg * 2 ^ 42
  (s.mem.filter (fun e => decide (base + 0x7F01000000 ≤ e.1 ∧ e.1 < base + 0x7FA1000000))).flatMap (fun e =>
    let o := e.1 - base
    let first := if o < 0x7F21000000 then 8 * (o - 0x7F01000000) else 0x400000000 + 8 * (o - 0x7F21000000)
    ((List.range 8).filter (fun k => e.2.getLsbD k)).map (fun k => s.pkg * 2 ^ 35 + first + k))

/-- CENSUS CLOSE for the slice of a line (32 R500, R501): the home poisons its lines whose out bit is still set, and abandoned requests
are issued again. -/
def execCensusClose (h : FabHdr) (s : State) : Out :=
  let k := dirSlice h.line
  if !(s.fab.recov.any (· = k)) then .next s
  else
    let s1 := ((outLines s).filter (fun l => dirSlice l = k)).foldl (fun s l => setPoison s l true) s
    let again := s1.fab.pend.filter (fun q => dirSlice q.line = k)
    let s2 : State :=
      { s1 with fab := { s1.fab with recov := s1.fab.recov.filter (· ≠ k), pend := s1.fab.pend.filter (fun q => dirSlice q.line ≠ k) } }
    .next (again.foldl (fun s q => sendRequest s q.kind q.line) s2)

/-- FABRIC_TIMEOUT (32 R500, R503): a request without a reply within the timeout marks its plane as failed; a member that stays
unreachable for four timeouts ends the command of a group. -/
def execFabricTimeout (tag : Word) (s : State) : Out :=
  match s.fab.reqs.find? (fun q => q.tag = tag) with
  | some q => .next (failPlane { s with ns := max s.ns (q.ns + Config.fabricTimeout) } q.plane true)
  | none =>
    match s.colls.find? (fun c => c.started && c.err.isNone && c.gtag = tag) with
    | some c => .next (putColl s { c with err := some (9, c.recVa.toNat) })
    | none => .next s

/-- CENSUS_END_TIMEOUT (32 R500): a package that has not sent END in time is removed from the membership list. -/
def execCensusEndTimeout (plane pkg : Nat) (s : State) : Out :=
  if s.fab.failed.any (· = plane) && Config.podMembers.any (· = pkg) && !(s.fab.removed.any (· = pkg)) then
    .next { s with fab := { s.fab with removed := s.fab.removed ++ [pkg] } }
  else .next s

end Sys2Proof.Machine
end

