-- ==== Sys2Proof/Machine/Ras.lean ====
section
/-! DEFINITION. Errors, lasting faults and spares (33 R505 to R512; 32 R490; 28 R439). -/

namespace Sys2Proof.Machine

/-- The remap table as a list of physical cores by logical core (28 R439). -/
def remapList (s : State) : List Nat := (List.range 320).map (physOf s)

/-- Writing an entry of the remap table (28 R439). -/
def setRemap (s : State) (logical core : Nat) : State := { s with remap := NMap.set 0 s.remap logical (core + 1) }

/-- Physical cores that are not lasting-faulty. -/
def workingCores (s : State) : List Nat := (List.range 352).filter (fun c => !(s.ras.faulty.any (· = (0, c))))

/-- Logical cores that name a physical core. -/
def sharers (s : State) (core : Nat) : Nat := ((remapList s).filter (· = core)).length

/-- Working cores that no logical core names. -/
def spareCores (s : State) : List Nat := (workingCores s).filter (fun c => sharers s c = 0)

/-- The core that takes a logical core of a faulty one (33 R511): the lowest spare of the same die, the lowest spare, or the working core
with the fewest logical cores. -/
def replacement (s : State) (core : Nat) : Option Nat :=
  let sp := spareCores s
  match sp.find? (fun c => dieOf c = dieOf core) with
  | some c => some c
  | none =>
    match sp with
    | c :: _ => some c
    | [] =>
      let w := workingCores s
      (List.range 320).findSome? (fun n => w.find? (fun c => sharers s c = n))

/-- A REMAP event (33 R510). -/
def logRemap (s : State) (cls index spare : Nat) : State := logPut s (logEvent s 0 4 cls index spare 0)

/-- A physical core has been declared (28 R439, 33 R511): its cohorts are evicted, its logical cores move, and with fewer than 80 cores
left the package is declared. -/
def replaceCore (s : State) (core : Nat) : State :=
  let s1 := ((allCohorts s).filter (fun c => c.core = core)).foldl evictCohort s
  let mine := (List.range 320).filter (fun l => physOf s1 l = core)
  let s2 := mine.foldl (fun s l =>
    match replacement s core with
    | some c => logRemap (setRemap s l c) 0 core c
    | none => s) s1
  if (workingCores s2).length < 80 then declarePackage s2 else s2

/-- A class 0 declaration. -/
def declareCore (s : State) (core count : Nat) : State :=
  if s.ras.faulty.any (· = (0, core)) then s
  else
    let left := (spareCores s).any (· ≠ core)
    replaceCore (declareOnly s 0 core (if left then 0 else 0xFFFFFFFF) count) core

/-- A resource's replacement is under way (33 R509). -/
def setBusy (s : State) (cls index : Nat) : State := { s with ras := { s.ras with busy := s.ras.busy ++ [(cls, index)] } }

/-- A replacement is done. -/
def clearBusy (s : State) (cls index : Nat) : State := { s with ras := { s.ras with busy := s.ras.busy.filter (· ≠ (cls, index)) } }

/-- Service is required (33 R508). -/
def needService (s : State) : State := { s with ras := { s.ras with service := true } }

/-- Ways of a slice that are disabled (33 R512). -/
def waysOff (s : State) (slice : Nat) : Nat := (s.ras.ways.filter (fun e => e.1 / 16 = slice)).length

/-- The cohorts of a core are evicted (28 R437). -/
def evictCore (s : State) (core : Nat) : State := ((allCohorts s).filter (fun c => c.core = core)).foldl evictCohort s

/-- Whether no spare remains for a resource (33 R508, R512). -/
def noSpare (s : State) (cls index : Nat) : Bool :=
  match cls with
  | 0 => !((spareCores s).any (· ≠ index))
  | 1 => decide (Config.arraySpares ≤ NMap.get 0 s.ras.arrays index)
  | 2 => decide (6 ≤ NMap.get 0 s.ras.srams index)
  | 3 => decide (8 ≤ waysOff s (index / 16))
  | 4 => decide (4 ≤ NMap.get 0 s.ras.banks (Config.rowBank index))
  | 5 => false
  | 6 => decide (4 ≤ (s.ras.faulty.filter (fun f => f.1 = 6)).length)
  | _ => true

/-- A declaration (33 R507 to R512): the LASTING event, the repair record, and the spare. Array rows, L2 ways, HBM4 rows and lanes are
brought in by later steps. -/
def declare (s : State) (cls index count : Nat) : State :=
  if s.ras.faulty.any (· = (cls, index)) && decide (cls ≠ 1 ∧ cls ≠ 2) then s
  else if cls = 0 then declareCore s index count
  else if cls = 8 then declarePackage s
  else
    let none_ := noSpare s cls index
    let s1 := declareOnly s cls index (if none_ then 0xFFFFFFFF else 0) count
    match cls with
    | 1 => if none_ then declareCore s1 index count else setBusy s1 1 index
    | 2 =>
      if none_ then declareCore s1 index count
      else
        let s2 := evictCore s1 index
        { s2 with ras := { s2.ras with srams := NMap.set 0 s2.ras.srams index (NMap.get 0 s2.ras.srams index + 1) } }
    | 3 =>
      if none_ then needService s1
      else setBusy { s1 with ras := { s1.ras with ways := NMap.set false s1.ras.ways index true } } 3 index
    | 4 => if none_ then logRemap s1 4 (Config.rowFrames index).1 (Config.rowFrames index).2 else setBusy s1 4 index
    | 5 => setBusy { s1 with fab := { s1.fab with lanes := s1.fab.lanes ++ [index] } } 5 index
    | 6 => if none_ then needService s1 else s1
    | _ => s1

/-- Times kept of a resource. -/
def errTimes (s : State) (cls index : Nat) : List Nat := (s.ras.errs.filter (fun e => e.1 = cls && e.2.1 = index)).map (fun e => e.2.2)

/-- CORRECTED_ERROR (33 R505, R507, R509): counted against its resource, unless its replacement is under way; one that finds n within w
declares the resource. -/
def execCorrectedError (cls index : Nat) (s : State) : Out :=
  if s.ras.busy.any (· = (cls, index)) then .next s
  else
    let ts := errTimes s cls index
    let near := (ts.filter (fun t => decide (s.ns ≤ t + Config.errorWindow))).length
    let others := s.ras.errs.filter (fun e => !(e.1 = cls && e.2.1 = index))
    let keep := (ts ++ [s.ns]).drop (ts.length + 1 - Config.errorCount)
    if Config.errorCount ≤ near then .next (declare { s with ras := { s.ras with errs := others } } cls index near)
    else .next { s with ras := { s.ras with errs := others ++ keep.map (fun t => (cls, index, t)) } }

/-- The unit of storage that an uncorrectable error poisons (33 R505, 29 R458): a line of an L2 way, of HBM4 or of the second tier; a
latch or register of a convoy, a scratch word, or a word of a slot or accumulator of a core's cohort. Of a core's storage, `unit` holds
the slot above bit 26, the kind in bits 25:20 (0 scratch, 1 slot or accumulator, k + 2 convoy k) and the word below. -/
def poisonUnit (s : State) (cls index unit : Nat) : State :=
  let w := unit % 2 ^ 20
  let sel := unit / 2 ^ 20 % 64
  let at_ (f : Cohort → Cohort) : State :=
    let s1 := unfocus s
    let g (c : Cohort) : Cohort := if c.core = index && c.slot = unit / 2 ^ 26 then f c else c
    pickFocus { s1 with others := s1.others.map g }
  let convoy (l : Loc) (c : Cohort) : Cohort :=
    { c with convoys := c.convoys.map (fun v => if v.id + 2 = sel then { v with rpoison := v.rpoison ++ [l] } else v) }
  match cls with
  | 0 => at_ (convoy (.latch (w / 32) (w % 32)))
  | 2 =>
    if sel = 0 then at_ (fun c => { c with spoison := NMap.set false c.spoison w true })
    else if sel = 1 then at_ (fun c => { c with mpoison := NMap.set false c.mpoison w true })
    else at_ (convoy (.main (w / 32) (w % 32)))
  | 3 => setPoison s unit true
  | 4 => setPoison s unit true
  | 7 => setPoison s unit true
  | _ => s

/-- UNCORRECTABLE_ERROR (33 R505, R507): the unit is poisoned and the resource is declared; an HBM4 row starts its repair. -/
def execUncorrectableError (cls index unit : Nat) (s : State) : Out :=
  let s1 := poisonUnit s cls index unit
  if s1.ras.busy.any (· = (cls, index)) then .next s1
  else if cls = 4 then
    if noSpare s1 4 index then .next (logRemap s1 4 (Config.rowFrames index).1 (Config.rowFrames index).2) else .next (setBusy s1 4 index)
  else if cls = 7 then .next s1
  else .next (declare s1 cls index 0)

/-- ARRAY_ROW_MAP_OUT (33 R512): at an empty matrix queue the array maps out a row. -/
def execArrayRowMapOut (core row : Nat) (s : State) : Out :=
  if !(s.ras.busy.any (· = (1, core))) || (allCohorts s).any (fun c => c.core = core && !c.mq.isEmpty) then .next s
  else
    let s1 := clearBusy s 1 core
    .next (logRemap { s1 with ras := { s1.ras with arrays := NMap.set 0 s1.ras.arrays core (NMap.get 0 s1.ras.arrays core + 1) } } 1 core row)

/-- HBM_ROW_REPAIR_DONE (33 R512): the row lies in a spare row of its bank; what was poisoned stays poisoned. -/
def execHbmRowRepairDone (row : Nat) (s : State) : Out :=
  if !(s.ras.busy.any (· = (4, row))) then .next s
  else
    let b := Config.rowBank row
    let n := NMap.get 0 s.ras.banks b
    let s1 := clearBusy s 4 row
    .next (logRemap { s1 with ras := { s1.ras with banks := NMap.set 0 s1.ras.banks b (n + 1) } } 4 row n)

/-- PATROL_SCRUB (33 R506): a line is read, corrected and written back in one step; an uncorrectable one is poisoned. -/
def execPatrolScrub (line : Nat) (bad : Bool) (s : State) : Out := .next (if bad then setPoison s line true else s)

/-- Whether a port is down: both halves hold a faulty lane (32 R490). -/
def portDown (s : State) (port : Nat) : Bool :=
  let bad (half : Nat) : Bool := s.fab.lanes.any (fun l => l / 2 = 2 * port + half)
  bad 0 && bad 1

/-- PORT_RETRAIN_DONE (32 R490, R500): the port runs on its healthy half, or is down; a plane with every port down has failed. -/
def execPortRetrainDone (port : Nat) (s : State) : Out :=
  let s1 := { s with ras := { s.ras with busy := s.ras.busy.filter (fun b => !(b.1 = 5 && b.2 / 4 = port)) } }
  let p := Config.portPlane port
  if portDown s1 port && (List.range 36).all (fun q => Config.portPlane q ≠ p || portDown s1 q) then .next (failPlane s1 p true)
  else .next s1

/-- L2_WAY_WRITEBACK_DONE (33 R512). -/
def execL2WayWritebackDone (way : Nat) (s : State) : Out := .next (clearBusy s 3 way)

end Sys2Proof.Machine
end

