-- ==== Sys2Proof/Machine/Raster.lean ====
section
/-! DEFINITION. The raster front end, the classifier and the raster backends, with PEMIT and RSUB (08 R144 to R154; 19 R361 to R364). -/

namespace Sys2Proof.Machine

/-- Record i of a batch buffer (08 R144). -/
def triAddr (header i : Nat) : Nat := header + 64 + 64 * i

/-- The registers of a twelve as operands (19 R361). -/
def twelveUses (b : Fin 22) : List Use := (List.finRange 12).map (fun j => ⟨1, .main ⟨4 * b.val + j.val, by omega⟩, 1⟩)

/-- The 64 bytes of the record that a thread emits (19 R363). -/
def emitBytes (s : State) (b : Fin 22) (t : Nat) : List Byte :=
  let ws := (groupLocs (4 * b.val) 12 t).map (fun l => (readLoc s l).lo)
  (([0#32, 0#32] ++ ws ++ [0#32, 0#32]).map (fun w => bytesOf w.toNat 4)).flatten

/-- The header of PEMIT, for the lowest thread: its checks as for LD, its address and key (19 R362); none where its line or its walk is
poisoned. -/
inductive EmitHead | fault (s : State) (f : FaultRec) | stall (s : State) | lost (s : State) | ok (s : State) (pa key : Nat)

/-- Reading the header of PEMIT (19 R362, R363; 15 R285). -/
def emitHead (s : State) (va : DWord) : EmitHead :=
  let m := activeMask s
  if va.toNat % 64 ≠ 0 then .fault s { kind := 0x0C, addr := va.toNat, mask := m }
  else
    match accessChecks s false true true false false [{ lane := lowest s, ea := va.toNat, win := resolve va, n := 8 }] with
    | .fault s1 e => .fault s1 { e with mask := m }
    | .stall s1 => .stall s1
    | .go s0 ps =>
      let s1 := widenNoted s0
      match ps with
      | [] => .lost s1
      | p :: _ =>
        let s2 := rekeyAt (registerRange s1 s1.ch.core p.pa 8) p.pa 8 p.key
        if fcWaits s1 (lineOf p.pa) true then .stall (fcAsk s1 (lineOf p.pa) true)
        else if poisoned s2 (lineOf p.pa) then
          let f : FaultRec := { kind := 0x15, addr := 128 * lineOf p.pa, mask := m, pc := some (curPc s2), ord := s2.cv.useq }
          .lost { s2 with cv := noteConsumed s2.cv f }
        else
          match setDirty s2 s2.ch.core s2.ch.root va.toNat with
          | (.retry, s3) => .stall s3
          | (_, s3) => .ok s3 p.pa p.key

/-- The unit of a thread that stores its record (19 R361, R363). -/
def emitUnit (s : State) (t : Tok) (p : Pn) (b : Fin 22) (l : Nat) (ps : List PSpan) : Pending :=
  let bs := emitBytes s b l
  let mine := ps.filter (fun x => x.lane = l)
  if mine.length < 4 then newUnit s t .value
  else
    { newUnit s t .store with
      pieces := mine.zipIdx.map (fun e =>
        { lane := l, scr := false, addr := e.1.pa, va := e.1.va, n := 16, data := (bs.drop (16 * e.2)).take 16, ms := e.1.ms, key := e.1.key })
      writes := if p = 7#3 then [] else [(Loc.pred p.toNat l, 1#64)] }

/-- PEMIT (08 R145; 19 R361 to R363). -/
def execPemit (st : Stall) (p : Pn) (a : Src) (b : Fin 22) (t : Tok) (s0 : State) : Out :=
  let head : List Use := [⟨0, a, 2⟩]
  let s := settleIdx s0 head none
  match (checkUses s head none).or (wideCheck s 1 (4 * b.val) 12) with
  | some e => faultOut s e
  | none =>
    match checkReady s (useLocs s (head ++ twelveUses b) ++ predLocs s p.toNat) with
    | some e => faultOut s e
    | none =>
      let s1 := settleLow s ⟨0, a, 2⟩ (twelveUses b)
      let va := rd64 s1 a (lowest s1)
      let idle (s : State) : Out := laneUnits st s (fun _ => newUnit s t .value)
      if !(tokRoom s1.cv t.toNat (actLanes s1).length) || !(quiet s1) then .next (waitIssue s1)
      else if allBad s1 then idle s1
      else
        match emitHead s1 va with
        | .fault s2 e => faultOut s2 e
        | .stall s2 => .next (stallRetry s2)
        | .lost s2 => idle s2
        | .ok s2 pa key =>
          let cap := memNat s2 pa 4
          let count := memNat s2 (pa + 4) 4
          let ls := actLanes s2
          let n := min ls.length (cap - count)
          let slots := (ls.take n).zipIdx.map (fun e => (e.1, count + e.2))
          let as := (slots.filter (fun e => clean s2 e.1)).flatMap (fun e =>
            blockAccs e.1 (va + BitVec.ofNat 64 (triAddr 0 e.2)))
          match accessChecks s2 true true true false false as with
          | .fault s3 e => faultOut s3 e
          | .stall s3 => .next (stallRetry s3)
          | .go s3 ps =>
            let s4 := if n = 0 then s3
              else dropCopy (writeCoherent s3 none (pa + 4) key (bytesOf (count + n) 4)) s3.ch.core (pa + 4) 4
            laneUnits st s4 (fun l =>
              if !(clean s4 l) then newUnit s4 t .value
              else if slots.any (fun e => e.1 = l) then emitUnit s4 t p b l ps
              else { newUnit s4 t .value with writes := if p = 7#3 then [] else [(Loc.pred p.toNat l, 0#64)] })

/-- RSUB (08 R146, R147; 19 R364). -/
def execRsub (st : Stall) (a b c : Src) (t : Tok) (s0 : State) : Out :=
  let us : List Use := [⟨0, a, 2⟩, ⟨1, b, 2⟩, ⟨2, c, 2⟩]
  let s := settleIdx s0 us none
  match checkUses s us none with
  | some e => faultOut s e
  | none =>
    match checkReady s (useLocs s us) with
    | some e => faultOut s e
    | none =>
      let s1 := settleReads s us []
      let k := lowest s1
      let x : Batch :=
        { no := s1.nbatch + 1, core := s1.ch.core, slot := s1.ch.slot, uid := s1.ch.uid, convoy := s1.cv.id, seq := s1.ch.nextCmd
          batch := rd64 s1 a k, state_ := rd64 s1 b k, mile := rd64 s1 c k, rcb := s1.ch.rcb, root := s1.ch.root, after := issuers s1 }
      withUnit st t [] s1 (fun s =>
        { s with batches := s.batches ++ [x], nbatch := x.no, ch := { s.ch with nextCmd := s.ch.nextCmd + 1 } })

/-- Fields of a render state record (08 R148). -/
def rsTarget (x : Nat) : Nat := slice x 511 448
def rsPitch (x : Nat) : Nat := slice x 447 416
def rsWidth (x : Nat) : Nat := slice x 415 400
def rsHeight (x : Nat) : Nat := slice x 399 384
def rsThreshold (x : Nat) : Nat := slice x 383 368
def rsVisible (x : Nat) : Bool := decide (slice x 367 364 = 1)
def rsFloat (x : Nat) : Bool := decide (slice x 363 360 = 1)
def rsBlend (x : Nat) : Nat := slice x 359 356
def rsDepth (x : Nat) : Nat := slice x 351 288
def rsRing (x : Nat) : Nat := slice x 287 224
def rsCap (x : Nat) : Nat := slice x 223 192
def rsEntry (x : Nat) : Nat := slice x 191 128

/-- The checks of a render state record (08 R148): RESERVED or FIELD. -/
def rsCheck (x : Nat) : Option Nat :=
  if slice x 355 352 ≠ 0 || slice x 127 0 ≠ 0 then some 1
  else if rsPitch x % 128 ≠ 0 || rsWidth x = 0 || 32768 < rsWidth x || rsHeight x = 0 || 32768 < rsHeight x ||
      1 < slice x 367 364 || 1 < slice x 363 360 || (rsVisible x && rsFloat x) || 2 < rsBlend x ||
      (rsVisible x && rsCap x = 0) then some 2
  else none

/-- The raster backend of a pixel (08 R149). -/
def backendOf (x y : Nat) : Nat :=
  let tx := x / 16
  let ty := y / 16
  (4 * (ty % 4) + tx % 4) ^^^ ((tx / 4 + ty / 4) % 16)

/-- A coordinate in units of 1/256 pixel; none where it is NaN or outside ±2²⁰ (08 R150). -/
def snap (w : Word) : Option Int :=
  match coord w with
  | none => none
  | some q => if (Q.ofInt (2 ^ 20)).lt q.abs then none else some (roundInt .rne (q.mul (Q.ofInt 256)))

/-- A vertex: x and y in units of 1/256 pixel, depth and colour. -/
structure Vertex where
  x : Int
  y : Int
  z : Word
  c : Word
  deriving DecidableEq, Repr

/-- The vertices of a triangle record (08 R144, R150); none where the triangle is discarded. -/
def triangleOf (ws : List Word) : Option (Vertex × Vertex × Vertex) :=
  let w (i : Nat) : Word := ws.getD i 0#32
  let v (i : Nat) : Option Vertex :=
    match snap (w (2 + 3 * i)), snap (w (3 + 3 * i)) with
    | some x, some y => some { x := x, y := y, z := w (4 + 3 * i), c := w (11 + i) }
    | _, _ => none
  match v 0, v 1, v 2 with
  | some a, some b, some c => some (a, b, c)
  | _, _, _ => none

/-- Pixels of one axis whose centres lie within the vertices' range, clipped to the target: first and count (08 R152). -/
def spanOf (a b c : Int) (n : Nat) : Nat × Nat :=
  let lo := min a (min b c)
  let hi := max a (max b c)
  let first := max 0 (-((128 - lo) / 256))
  let last := min ((n : Int) - 1) ((hi - 128) / 256)
  (first.toNat, (last - first + 1).toNat)

/-- The edge function of a → b at a point, exact (08 R150). -/
def edgeFn (a b : Vertex) (px py : Int) : Int := (b.x - a.x) * (py - a.y) - (b.y - a.y) * (px - a.x)

/-- Whether a point on the edge a → b of a triangle of positive orientation is covered: a top or left edge (08 R150). -/
def topLeft (a b : Vertex) : Bool := decide (b.y - a.y = 0 ∧ 0 < b.x - a.x) || decide (b.y - a.y < 0)

/-- Whether a centre lies inside an edge of a triangle of orientation o. -/
def edgeIn (o : Int) (a b : Vertex) (px py : Int) : Bool :=
  let e := o * edgeFn a b px py
  decide (0 < e) || (decide (e = 0) && (if 0 < o then topLeft a b else topLeft b a))

/-- FP32 operations under round to nearest even. -/
def addF (a b : Word) : Word := f32r (fsum .rne (f32v a) (f32v b))
def subF (a b : Word) : Word := f32r (fsum .rne (f32v a) (f32v b).flip)
def mulF (a b : Word) : Word := f32r (fprod (f32v a) (f32v b))

/-- A value interpolated by the barycentrics (08 R150): rounded after each operation, or once at the end. -/
def interpolate (once : Bool) (b0 b1 b2 v0 v1 v2 : Word) : Word :=
  if once then
    f32r (fsumAll [fprod (f32v b0) (f32v v0), fprod (f32v b1) (f32v v1), fprod (f32v b2) (f32v v2)])
  else addF (addF (mulF b0 v0) (mulF b1 v1)) (mulF b2 v2)

/-- Channel k of an n8 colour as FP32. -/
def unitChan (c : Word) (k : Nat) : Word := f32r (fvq ⟨((c.extractLsb' (8 * k) 8).toNat : Int), 255⟩)

/-- The depth that R150 keeps: NaN, below +0 and above 1 are discarded, −0 counts as +0. -/
def keepDepth (z : Word) : Option Word :=
  match f32v z with
  | .zero _ => some 0#32
  | .fin x => if x.isNeg || (Q.ofInt 1).lt x then none else some z
  | _ => none

/-- The fragment of a covered pixel, or none (08 R150). -/
def fragAt (once : Bool) (no : Nat) (vis : Bool) (id : Word) (a b c : Vertex) (x y : Nat) : Option Frag :=
  let px : Int := 256 * x + 128
  let py : Int := 256 * y + 128
  let area := edgeFn a b c.x c.y
  if area = 0 then none
  else
    let o : Int := if 0 < area then 1 else -1
    if edgeIn o a b px py && edgeIn o b c px py && edgeIn o c a px py then
      let ratio (e : Int) : Word := f32r (fvq ((Q.ofInt e).div (Q.ofInt area)))
      let b1 := ratio (edgeFn c a px py)
      let b2 := ratio (edgeFn a b px py)
      let b0 := subF (subF 0x3F800000#32 b1) b2
      match keepDepth (interpolate once b0 b1 b2 a.z b.z c.z) with
      | none => none
      | some z =>
        let chan (k : Nat) : Word := interpolate once b0 b1 b2 (unitChan a.c k) (unitChan b.c k) (unitChan c.c k)
        some { batch := no, rb := backendOf x y, x := x, y := y, z := z, rgba := if vis then [] else (List.range 4).map chan, id := id }
    else none

/-- Where a triangle goes (08 R152). -/
inductive TriPath | none | software | fixed (fs : List Frag)

/-- The classifier (08 R150, R152). -/
def classify (once : Bool) (no x : Nat) (id : Word) (ws : List Word) : TriPath :=
  match triangleOf ws with
  | none => .none
  | some (a, b, c) =>
    let h := spanOf a.x b.x c.x (rsWidth x)
    let v := spanOf a.y b.y c.y (rsHeight x)
    let area := h.2 * v.2
    if area = 0 then .none
    else if rsVisible x && area ≤ rsThreshold x then .software
    else
      .fixed ((List.range v.2).flatMap (fun j => (List.range h.2).filterMap (fun i =>
        fragAt once no (rsVisible x) id a b c (h.1 + i) (v.1 + j))))

/-- Replacing a batch. -/
def putBatch (s : State) (b : Batch) : State := { s with batches := s.batches.map (fun x => if x.no = b.no then b else x) }

/-- What the front end holds of a ring (08 R154). -/
def ringOf (s : State) (root : DWord) (base : Nat) : RingPos :=
  (s.rings.find? (fun r => r.root = root && r.base = base)).getD { root := root, base := base, used := 0 }

/-- Replacing what the front end holds of a ring. -/
def putRing (s : State) (r : RingPos) : State :=
  { s with rings := r :: s.rings.filter (fun x => !(x.root = r.root && x.base = r.base)) }

/-- The job card over the batch's records of the ring that no grid has been launched for (08 R154); none while a read is to be
retried. -/
def launchRing (s : State) (b : Batch) : Option State :=
  if b.ring ≤ b.served then some s
  else
    let r : LaunchRec :=
      { next := 0, kdesc := rsEntry b.rs, dimx := 64, dimyz := 32, arg := rsRing b.rs + 64 * b.served, cbank := 0, signal := 0, dep := 0
        jcount := b.ring - b.served - 1, rsv := 0, flags := 1 }
    let session := ((cohortOf s b.uid).map (·.session)).getD false
    match beginLaunch s b.rcb 0 (some r) (some b.no) session with
    | none => none
    | some (s1, begun) =>
      let p := ringOf s1 b.root (rsRing b.rs)
      let s2 := putRing s1 { p with used := b.ring, grids := if begun then p.grids ++ [s1.nlaunch] else p.grids }
      some (putBatch s2 { b with served := b.ring })

/-- A triangle's record with its id (08 R154). -/
def ringBytes (bs : List Byte) (id : Word) : List Byte := bytesOf id.toNat 4 ++ bs.drop 4

/-- Classifying a batch from its next record on (08 R147, R152, R154); none while a translation is to be retried. -/
def classifyFrom (s : State) (b : Batch) : Nat → Option State
  | 0 => launchRing (putBatch s b) b
  | n + 1 =>
    let va := triAddr b.batch.toNat b.next
    match engBytes s fwCore b.root va 64 with
    | (none, _) => none
    | (some (.error e), s1) => some (putBatch s1 { b with err := some e })
    | (some (.ok bs), s1) =>
      let id := b.idbase + BitVec.ofNat 32 b.next
      let q := pickBit s1
      match classify q.1 b.no b.rs id (wordsOfBytes bs) with
      | .none => classifyFrom s1 { b with next := b.next + 1 } n
      | .fixed fs => classifyFrom { q.2 with frags := q.2.frags ++ fs } { b with next := b.next + 1 } n
      | .software =>
        if rsCap b.rs ≤ b.ring then launchRing (putBatch s1 { b with paused := true }) { b with paused := true }
        else
          match engPuts s1 fwCore b.root [(rsRing b.rs + 64 * b.ring, ringBytes bs id)] with
          | (none, _) => none
          | (some (some e), s2) => some (putBatch s2 { b with err := some e })
          | (some none, s2) =>
            let p := ringOf s2 b.root (rsRing b.rs)
            classifyFrom (putRing s2 { p with used := b.ring + 1 }) { b with next := b.next + 1, ring := b.ring + 1, done := b.done + 64 } n

/-- The batch's header and render state are read and checked, and the batch is classified (08 R146, R148; 19 R364). -/
def startBatch (s : State) (b : Batch) : Option State :=
  let fail (s : State) (e : Nat × Nat) : Option State := some (putBatch s { b with started := true, err := some e })
  let s0 := afterReleaseIn s b.core b.uid b.after
  if b.batch.toNat % 64 ≠ 0 then fail s0 (3, b.batch.toNat)
  else if b.state_.toNat % 64 ≠ 0 then fail s0 (3, b.state_.toNat)
  else
    match engBytes s0 fwCore b.root b.batch.toNat 64 with
    | (none, _) => none
    | (some (.error e), s1) => fail s1 e
    | (some (.ok hd), s1) =>
      match engBytes s1 fwCore b.root b.state_.toNat 64 with
      | (none, _) => none
      | (some (.error e), s2) => fail s2 e
      | (some (.ok rs), s2) =>
        let h := natOfBytes hd
        let x := natOfBytes rs
        match rsCheck x with
        | some k => fail s2 (k, b.state_.toNat)
        | none =>
          let used := if rsVisible x then (ringOf s2 b.root (rsRing x)).used else 0
          let c := { b with
            started := true, rs := x, idbase := BitVec.ofNat 32 (slice h 95 64), count := min (slice h 63 32) (slice h 31 0),
            ring := used, served := used }
          classifyFrom (putBatch s2 c) c c.count

/-- RASTER_BATCH (08 R146 to R148, R152; 19 R364): the first batch in submission order that has not been read, once the batches before
it are classified, the stores it must see are performed, and the earlier commands of its cohort have written their mileposts. -/
def execRasterBatch (s : State) : Out :=
  match s.batches.find? (fun b => !b.started || (b.err.isNone && decide (b.next < b.count))) with
  | none => .next s
  | some b =>
    let earlier := match cohortOf s b.uid with
      | some c => (openCmds s c).any (fun m => decide (m.1 < b.seq))
      | none => false
    if b.started || !(afterDoneIn s b.uid b.after) || earlier then .next s else .next ((startBatch s b).getD s)

/-- CLASSIFY_RESUME (08 R154). -/
def execClassifyResume (s : State) : Out :=
  match s.batches.find? (fun b => b.paused && b.err.isNone) with
  | none => .next s
  | some b =>
    let p := ringOf s b.root (rsRing b.rs)
    if s.launches.any (fun l => p.grids.any (· = l.no)) then .next s
    else
      let s1 := putRing s { p with used := 0, grids := [] }
      let c := { b with paused := false, ring := 0, served := 0 }
      .next ((classifyFrom (putBatch s1 c) c (c.count - c.next)).getD s)

/-- An FP32 channel converted to n8: 255 stands for 1 (08 R151). -/
def chanByte (w : Word) : Byte :=
  match f32v w with
  | .nan => 0#8
  | .inf neg => if neg then 0#8 else 255#8
  | .zero _ => 0#8
  | .fin x => BitVec.ofNat 8 (min (max (roundInt .rne (x.mul (Q.ofInt 255))) 0) 255).toNat

/-- The blend of a channel (08 R151). -/
def blendChan (mode : Nat) (sa src dst : Word) : Word :=
  match mode with
  | 0 => src
  | 1 => addF (mulF src sa) (mulF dst (subF 0x3F800000#32 sa))
  | _ => addF src dst

/-- The fragment's error, and the batch ends: what it has not drawn is dropped. -/
def failFrag (s : State) (b : Batch) (e : Nat × Nat) : State :=
  let s1 := { s with frags := s.frags.filter (fun f => f.batch ≠ b.no) }
  putBatch s1 { b with err := some e, paused := false }

/-- A pixel written: its error, if there is one (08 R151). -/
def putPixel (s : State) (b : Batch) (va : Nat) (bs : List Byte) : Option State :=
  match engPuts s fwCore b.root [(va, bs)] with
  | (none, _) => none
  | (some (some e), s1) => some (failFrag s1 b e)
  | (some none, s1) => some (putBatch s1 { b with done := b.done + bs.length })

/-- Reading an aligned pixel. -/
def getPixel (s : State) (b : Batch) (va n : Nat) : Option (Except (Nat × Nat) (List Byte)) × State :=
  if va % n ≠ 0 then (some (.error (3, va)), s) else engBytes s fwCore b.root va n

/-- A fragment in visibility mode (08 R153): an atomic maximum. -/
def drawVisible (s : State) (b : Batch) (f : Frag) : Option State :=
  let va := (rsTarget b.rs + f.y * rsPitch b.rs + 8 * f.x) % 2 ^ 64
  match getPixel s b va 8 with
  | (none, _) => none
  | (some (.error e), s1) => some (failFrag s1 b e)
  | (some (.ok bs), s1) =>
    let v := (0x3F800000 - f.z.toNat) * 2 ^ 32 + f.id.toNat
    putPixel s1 b va (bytesOf (max (natOfBytes bs) v) 8)

/-- The colour of a fragment in blend mode (08 R151). -/
def drawColour (s : State) (b : Batch) (f : Frag) : Option State :=
  let n := if rsFloat b.rs then 16 else 4
  let va := (rsTarget b.rs + f.y * rsPitch b.rs + n * f.x) % 2 ^ 64
  match getPixel s b va n with
  | (none, _) => none
  | (some (.error e), s1) => some (failFrag s1 b e)
  | (some (.ok bs), s1) =>
    let old (k : Nat) : Word :=
      if rsFloat b.rs then (wordsOfBytes bs).getD k 0#32 else unitChan ((wordsOfBytes bs).headD 0#32) k
    let new := (List.range 4).map (fun k => blendChan (rsBlend b.rs) (f.rgba.getD 3 0#32) (f.rgba.getD k 0#32) (old k))
    putPixel s1 b va (if rsFloat b.rs then (new.map (fun w => bytesOf w.toNat 4)).flatten else new.map chanByte)

/-- A fragment in blend mode: the depth test, where one is set, then the colour (08 R151). -/
def drawBlend (s : State) (b : Batch) (f : Frag) : Option State :=
  if rsDepth b.rs = 0 then drawColour s b f
  else
    let va := (rsDepth b.rs + f.y * rsPitch b.rs + 4 * f.x) % 2 ^ 64
    match getPixel s b va 4 with
    | (none, _) => none
    | (some (.error e), s1) => some (failFrag s1 b e)
    | (some (.ok bs), s1) =>
      let old := f32v (BitVec.ofNat 32 (natOfBytes bs))
      if old = .nan || flt old (f32v f.z) then some s1
      else
        match putPixel s1 b va (bytesOf f.z.toNat 4) with
        | none => none
        | some s2 =>
          match s2.batches.find? (fun x => x.no = b.no) with
          | some c => if c.err.isSome then some s2 else drawColour s2 c f
          | none => some s2

/-- The first fragments of the tiles of a backend: within a tile the order is the order of submission, and between tiles there is none
(08 R151). -/
def tileHeads : List Frag → List (Nat × Nat) → List Frag
  | [], _ => []
  | f :: fs, seen =>
    let t := (f.x / 16, f.y / 16)
    if seen.any (· = t) then tileHeads fs seen else f :: tileHeads fs (t :: seen)

/-- RB_FRAGMENT (08 R149 to R151, R153): backend rb draws the next fragment of one of its tiles. -/
def execRbFragment (rb : Nat) (s : State) : Out :=
  let fs := tileHeads (s.frags.filter (fun f => f.rb = rb)) []
  let k := if fs.length ≤ 1 then 0 else (Config.freeWord s.free).toNat % fs.length
  let s0 := if fs.length ≤ 1 then s else { s with free := s.free + 1 }
  match fs[k]? with
  | none => .next s
  | some f =>
    let s1 := { s0 with frags := s0.frags.erase f }
    match s1.batches.find? (fun b => b.no = f.batch) with
    | none => .next s1
    | some b => .next (((if rsVisible b.rs then drawVisible s1 b f else drawBlend s1 b f)).getD s)

end Sys2Proof.Machine
end

