-- ==== Sys2Proof/Machine/Replay.lean ====
section
/-! DEFINITION. The replay session (35 R524 to R530), and with it the take and the end of a launch (27 R417, R418, R424, R425). -/

namespace Sys2Proof.Machine

/-- Passes of a session (35 R524). -/
def Session.passes (x : Session) : Nat := (x.events.length + 3) / 4

/-- The event that counter k counts in a pass (35 R524). -/
def Session.eventAt (x : Session) (pass k : Nat) : Option Nat := x.events[4 * (pass - 1) + k]?

/-- The result record (35 R530). -/
def resultRecord (x : Session) (status : Nat) : List Byte :=
  let fit (n : Nat) (bs : List Byte) : List Byte := (bs ++ List.replicate n 0#8).take n
  let entry (i : Nat) : List Byte := match x.counts[i]? with
    | some c => bytesOf c.2.toNat 8 ++ bytesOf c.1 4 ++ bytesOf (i / 4 + 1) 4
    | none => bytesOf 0 16
  resultHeader status x.pass x.mask (b2n x.external) x.pages.length ++
    fit 52 ((x.signals.take 6).flatMap (fun w => bytesOf w.toNat 8)) ++ (List.range 32).flatMap entry ++
    fit 256 (x.digests.flatMap (fun d => bytesOf d.toNat 32))

/-- The session ends: its result record is written, then the active bit is cleared (35 R526). None while a translation is retried. -/
def endSession (s : State) (x : Session) (status : Nat) : Option State :=
  if writeRetry s x.root x.result.toNat || writeRetry s x.root (x.result.toNat + 831) then none
  else some { writeBytesAt s x.root x.result.toNat (resultRecord x status) with session := none }

/-- The sum of a counter over the cores (35 R526). -/
def counterSum (s : State) (k : Nat) : DWord := ((s.ctrs.filter (fun e => e.1 % 4 = k)).map (fun e => e.2.val)).foldl (· + ·) 0#64

/-- A pass ends with its launch (35 R526, R529): counts, digest, signal word and mismatch; and the session where it is the last, or where
the launch failed, the write set overflowed, or a mismatch stops it. -/
def endPass (s : State) (x : Session) (status lost : Nat) : Option State :=
  let n := x.pass
  let new := (List.range 4).filterMap (fun k => (x.eventAt n k).map (fun e => (e, counterSum s k)))
  let differs := decide (2 ≤ n) && decide (x.digests.head? ≠ some x.digest)
  let sig := BitVec.ofNat 64 (2 ^ 63 + status * 2 ^ 56 + min lost (2 ^ 32 - 1))
  let y : Session :=
    { x with
      running := none, counts := x.counts ++ new, digests := x.digests ++ [x.digest], signals := x.signals ++ [sig]
      mask := if differs then x.mask ||| 2 ^ (n - 1) else x.mask }
  let s1 := { s with session := some y, sessMis := s.sessMis || differs }
  if status ≠ 0 then endSession s1 y 4
  else if x.full then endSession s1 y 3
  else if x.stop && differs then endSession s1 y 5
  else if y.passes ≤ n then endSession s1 y 0
  else some s1

/-- LAUNCH_TAKE (27 R409, R415, R417, R418; 35 R526). -/
def execLaunchTake (rcb : Nat) (s : State) : Out :=
  let rec_ := rcbFld s rcb 1855 1792
  if (regionOf s rcb).isNone || rec_ = 0 then .next s
  else
    match readRec s fwCore (effRoot s rcb) rec_ 64 with
    | (none, true, _) => .next s
    | (x, _, s1) =>
      let r := x.map launchRec
      let mine := s.session.filter (fun y => y.rcb = rcb && y.launch.toNat = rec_ && y.running = some 0)
      if (r.map (·.serial)).getD false && lastRuns s1 rcb then .next s
      else
        match takeHead s1 rcb rec_ ((r.map (·.next)).getD 0) with
        | none => .next s
        | some s2 =>
          match beginLaunch s2 rcb rec_ r none mine.isSome with
          | none => .next s
          | some (s3, begun) =>
            match regionOf s3 rcb with
            | none => .next s3
            | some g =>
              let s4 := putRegion s3 { g with lastLaunch := if begun then s3.nlaunch else 0 }
              match mine with
              | none => .next s4
              | some y =>
                if begun then .next { s4 with session := some { y with running := some s4.nlaunch } }
                else .next ((endSession s4 y 4).getD s)

/-- LAUNCH_END (27 R424, R425; 35 R526): the launch with a number, once every cohort is accounted for. -/
def execLaunchEnd (k : Nat) (s : State) : Out :=
  match launchOf s k with
  | none => .next s
  | some l =>
    if l.ended < l.count || passDue s k || signalRetry s (effRoot s l.rcb) l.signal then .next s
    else
      let s1 := releaseOwned { s with passes := s.passes.filter (fun p => p.launch ≠ k) }
      let s2 := if l.commit then commitRegion s1 l.rcb else s1
      let s3 := writeSignal s2 (effRoot s2 l.rcb) l.signal l.status l.lost
      let s4 := { s3 with launches := s3.launches.filter (fun x => x.no ≠ k) }
      let s5 := match s4.session with
        | some x => if x.running = some k then endPass s4 x l.status l.lost else some s4
        | none => some s4
      fcGate s (if l.commit then commitLines s l.rcb else []) (.next (s5.getD s))

/-- The 4 KiB of a page at a virtual address: its bytes; none while a translation is retried, and nothing where it cannot be read. -/
def readPage (s : State) (root : DWord) (va : Nat) : Option (List Byte) × State :=
  match engAddr s fwCore root (BitVec.ofNat 64 va) false true with
  | (none, s1) => (none, s1)
  | (some (.error _), s1) => (some [], s1)
  | (some (.ok (pa, key)), s1) =>
    let s2 := (linesOf pa 4096).foldl (fun s l => rekey s l key) s1
    (some (memGet s2 pa 4096), s2)

/-- Writing 4 KiB at a page's address under its leaf's key (30 R469); none while a translation is retried. -/
def writePage (s : State) (root : DWord) (va : Nat) (bs : List Byte) : Option State :=
  match engAddr s fwCore root (BitVec.ofNat 64 va) true true with
  | (none, _) => none
  | (some (.error _), s1) => some s1
  | (some (.ok (pa, key)), s1) =>
    some ((List.range (bs.length / 128)).foldl (fun s i => writeCoherent s none (pa + 128 * i) key ((bs.drop (128 * i)).take 128)) s1)

/-- The captured pages restored in capture order (35 R526, R528). -/
def restorePages (s : State) (x : Session) : List (Nat × Nat) → Option State
  | [] => some s
  | (page, i) :: rest =>
    match readPage s x.root (x.wsbuf.toNat + 4096 * i) with
    | (none, _) => none
    | (some bs, s1) =>
      match writePage s1 x.root (4096 * page) bs with
      | none => none
      | some s2 => restorePages s2 x rest

/-- The package's caches written back and invalidated, and every translation removed (35 R526). -/
def flushAll (s : State) : State :=
  let s1 := registerAll s (fun _ => true)
  let s2 := (s1.l1.filter (fun l => l.priv)).foldl writeBackLine s1
  { s2 with l1 := [], owner := [], tlb := [] }

/-- The counters of every core set up for a pass (35 R526): 0 in each, and those without an event disabled. -/
def passCounters (x : Session) (pass : Nat) : NMap PmCtr :=
  (List.range 1408).filterMap (fun i => (x.eventAt pass (i % 4)).map (fun e => (i, { ev := BitVec.ofNat 6 e, en := true })))

/-- REPLAY_PASS_START (35 R526). -/
def execReplayPassStart (s : State) : Out :=
  match s.session with
  | none => .next s
  | some x =>
    if x.running.isSome || x.passes ≤ x.pass || linkRetry s x.rcb x.launch.toNat then .next s
    else
      let s1 := flushAll s
      let s2 := { s1 with gsu := s1.gsu.filter (fun e => e.rcb ≠ x.rcb), gspills := s1.gspills.filter (fun g => g.rcb ≠ x.rcb) }
      match (if x.pass = 0 then some s2 else restorePages s2 x x.pages.zipIdx) with
      | none => .next s
      | some s3 =>
        let s4 := linkRecord { s3 with ctrs := passCounters x (x.pass + 1) } x.rcb x.launch.toNat
        .next { s4 with session := some { x with pass := x.pass + 1, running := some 0, digest := 0#256 } }

/-- WRITESET_CAPTURE (35 R528): in pass 1 a page's contents are copied into the next free page of the write-set buffer; with none free the
write proceeds uncaptured, and the session ends after the pass. -/
def execWritesetCapture (page : Nat) (s : State) : Out :=
  match s.session with
  | none => .next s
  | some x =>
    if x.pass ≠ 1 || x.running.isNone || x.full || x.pages.any (· = page) then .next s
    else if x.wspages ≤ x.pages.length then .next { s with session := some { x with full := true } }
    else
      match readPage s x.root (4096 * page) with
      | (none, _) => .next s
      | (some bs, s1) =>
        match writePage s1 x.root (x.wsbuf.toNat + 4096 * x.pages.length) bs with
        | none => .next s
        | some s2 => .next { s2 with session := some { x with pages := x.pages ++ [page] } }

end Sys2Proof.Machine
end

