-- ==== Sys2Proof/Machine/Host.lean ====
section
/-! DEFINITION. The host link (31 R472 to R488), boot (31 R482, R483; 34 R515; 33 R509, R511), the key channel (30 R470, R471) and the
translation commands (30 R464 to R468). -/

namespace Sys2Proof.Machine

/-- Bytes cut or filled with zeros to a length. -/
def fitBytes (n : Nat) (bs : List Byte) : List Byte := (bs ++ List.replicate n 0#8).take n

/-- A BitVec's bytes, least significant first. -/
def bvBytes {w : Nat} (x : BitVec w) : List Byte := bytesOf x.toNat (w / 8)

/-- Whether the boot state is READY (31 R474, R483). -/
def hostReady (s : State) : Bool := decide (s.boot.state_ = 3)

/-- The boot status register (31 R483). -/
def bootStatus (b : Boot) : DWord :=
  b.image ++ (0#8 : BitVec 8) ++ BitVec.ofNat 8 b.error ++ (0#12 : BitVec 12) ++ BitVec.ofBool b.slotB ++ BitVec.ofNat 3 b.state_

/-- Extend (31 R482). -/
def extendMeasure (m : BitVec 512) (x : List Byte) : BitVec 512 := BitVec.ofNat 512 (natOfBytes (shake256 (bvBytes m ++ x) 64))

/-- The checks of an image slot (31 R482, R483): 0 where it passes, else its error. -/
def slotError (b : Bool) : Nat :=
  if (Config.imageBytes b).isEmpty then 1
  else if shake256 (Config.imageKey b) 64 ≠ bvBytes Config.rootHash then 2
  else if (Config.imageVersion b).toNat < Config.minVersion.toNat then 3
  else if !(Config.ed448Verify (Config.imageKey b) (Config.imageBytes b) (Config.imageSig b)) then 4
  else 0

/-- Whether a power record keeps its limits (34 R515). -/
def powerOk (x : BitVec 256) : Bool :=
  let n := x.toNat
  let fl := slice n 63 48
  let hard := slice n 47 40
  let soft := slice n 39 32
  let env := slice n 15 0
  decide (slice n 255 64 = 0) && decide (slice n 31 16 = 0) && decide (fl % 50 = 0) && decide (650 ≤ fl ∧ fl ≤ 1300) &&
    decide (70 ≤ soft ∧ soft ≤ 100) && decide (soft + 5 ≤ hard ∧ hard ≤ 110) && decide (1200 ≤ env ∧ env ≤ 2200)

/-- Whether the plane numbers of the ports are a legal configuration (32 R491). -/
def planesOk : Bool :=
  decide (36 % planes = 0) && (List.range planes).all (fun p =>
    decide (((List.range 36).filter (fun q => Config.portPlane q = p)).length = 36 / planes))

/-- The power settings of a record (34 R515). -/
def powerOf (x : BitVec 256) : Power :=
  let n := x.toNat
  { envelope := slice n 15 0, soft := slice n 39 32, hard := slice n 47 40, floor := slice n 63 48 }

/-- Physical core that boot gives a logical core (33 R511). -/
def bootCore (l : Nat) : Nat := 88 * (l / 80) + l % 80

/-- The remap table written at boot, the faulty cores of the repair record kept out (33 R511). -/
def bootRemap (s : State) : State :=
  let s1 := (List.range 320).foldl (fun s l => setRemap s l (bootCore l)) s
  let bad := (List.range 320).filter (fun l => s1.ras.faulty.any (· = (0, physOf s1 l)))
  bad.foldl (fun s l =>
    match replacement s (physOf s l) with
    | some c => setRemap s l c
    | none => s) s1

/-- A recorded repair applied at boot (33 R509). -/
def applyRepair (s : State) (r : Nat × Nat) : State :=
  let s1 := { s with ras := { s.ras with faulty := s.ras.faulty ++ [r] } }
  let bump (m : NMap Nat) (k : Nat) : NMap Nat := NMap.set 0 m k (NMap.get 0 m k + 1)
  match r.1 with
  | 1 => { s1 with ras := { s1.ras with arrays := bump s1.ras.arrays r.2 } }
  | 2 => { s1 with ras := { s1.ras with srams := bump s1.ras.srams r.2 } }
  | 3 => { s1 with ras := { s1.ras with ways := NMap.set false s1.ras.ways r.2 true } }
  | 4 => { s1 with ras := { s1.ras with banks := bump s1.ras.banks (Config.rowBank r.2) } }
  | 5 => { s1 with fab := { s1.fab with lanes := s1.fab.lanes ++ [r.2] } }
  | _ => s1

/-- Zeroing the out bits of this package's lines (32 R493). -/
def zeroOut (s : State) : State :=
  let base := s.pkg * 2 ^ 42
  { s with mem := NMap.keep (fun a => decide (a < base + 0x7F01000000 ∨ base + 0x7FA1000000 ≤ a)) s.mem }

/-- The measurements of a boot from a slot (31 R482). -/
def measure (b : Bool) : List (BitVec 512) :=
  [extendMeasure 0#512 (shake256 Config.romBytes 64), extendMeasure 0#512 (shake256 (Config.imageBytes b) 64),
    extendMeasure 0#512 (shake256 (Config.imageConfig b) 64), 0#512]

/-- TAMGAL_READY (31 R482, R483): the boot from ROM to READY, or to FAILED. -/
def execTamgalReady (s : State) : Out :=
  if s.boot.state_ ≠ 0 then .next s
  else
    let ea := slotError false
    let eb := slotError true
    let slot := decide (ea ≠ 0)
    if ea ≠ 0 && eb ≠ 0 then
      let m := [extendMeasure 0#512 (shake256 Config.romBytes 64), 0#512, 0#512, 0#512]
      .next (fire (fire { s with boot := { s.boot with state_ := 4, error := eb, m := m } } 0) 0)
    else
      let b := { s.boot with slotB := slot, image := Config.imageVersion slot, m := measure slot }
      if !(powerOk Config.powerRecord) || !planesOk then
        .next (fire (fire (fire { s with boot := { b with state_ := 4, error := 5 } } 0) 0) 0)
      else
        let s1 := s.ras.repair.foldl applyRepair (zeroOut { s with ras := { s.ras with errs := [] } })
        let s2 := bootRemap s1
        let key : KeySlot := { st := .loaded, key := Config.slot0Key b.boots }
        .next (fire (fire (fire
          { s2 with
            boot := { b with state_ := 3 }, keys := NMap.set {} s2.keys 0 key, power := powerOf Config.powerRecord
            regs := { s2.regs with keyNonce := 0#64 } } 0) 0) 0)

/-- The state after a reset of the package (31 R472, R482): what the model keeps for itself, the package's number, and the repair record
without package declarations. -/
def resetPackage (s : State) : State :=
  { State.reset with
    schedule := s.schedule, free := s.free, uids := s.uids, pkg := s.pkg
    boot := { boots := s.boot.boots + 1 }, ras := { repair := s.ras.repair.filter (fun r => r.1 ≠ 8) } }

/-- PACKAGE_RESET (31 R482). -/
def execPackageReset (s : State) : Out := .next (resetPackage s)

/-- FUNCTION_LEVEL_RESET (31 R472): the whole package is reset and boots again. -/
def execFunctionLevelReset (s : State) : Out := .next (resetPackage s)

/-- Physical address of a BAR2 offset (31 R477). -/
def barPa (s : State) (off : Nat) : Nat := s.pkg * 2 ^ 42 + (s.regs.window.toNat + off) % 2 ^ 42

/-- Whether a physical address is populated (30 R463). -/
def populated (s : State) (pa : Nat) : Bool := physKind s pa = .hbm || physKind s pa = .tier2

/-- Whether the host's writes to a physical address are dropped: the out bits and the reserved part of the fabric area (32 R493). -/
def hostLocked (pa : Nat) : Bool := decide (0x7F01000000 ≤ pa % 2 ^ 42 ∧ pa % 2 ^ 42 < 0x8000000000)

/-- What a host access returns: offset, bytes and EP. -/
def hostReply (s : State) (off : Nat) (bs : List Byte) (ep : Bool) : State :=
  { s with regs := { s.regs with replies := s.regs.replies ++ [(off, bs, ep)] } }

/-- The lines of a host access that lie in populated memory. -/
def barLines (s : State) (off len : Nat) : List Nat :=
  (linesOf (barPa s off) len).filter (fun l => populated s (128 * l))

/-- Whether an access lies in BAR2 (31 R474). -/
def inBar2 (off len : Nat) : Bool := decide (0 < len) && decide (off + len ≤ 0x1000000000)

/-- BAR2_READ (31 R474, R477): at the point of coherence, under key slot 0; all ones where there is no memory; EP where a line is
poisoned. -/
def execBar2Read (off len : Nat) (s : State) : Out :=
  if !(hostReady s) || !(inBar2 off len) then .next (hostReply s off (List.replicate len 0xFF#8) false)
  else
    let ls := barLines s off len
    let s1 := ls.foldl (fun s l => rekey s l 0) s
    let pa := barPa s off
    let bs := (List.range len).map (fun i => if populated s1 (pa + i) then memByte s1 (pa + i) else 0xFF#8)
    fcGate s (ls.map (fun l => (l, false))) (.next (hostReply s1 off bs (ls.any (poisoned s1))))

/-- One part of a host's write (31 R477). -/
def hostPut (ep : Bool) (s : State) (e : Nat × List Byte) : State :=
  if !(populated s e.1) || hostLocked e.1 then s
  else
    let s1 := writeCoherent s none e.1 0 e.2
    if ep then setPoison s1 (lineOf e.1) true else s1

/-- BAR2_WRITE (31 R474, R477). -/
def execBar2Write (off : Nat) (bytes : List Byte) (ep : Bool) (s : State) : Out :=
  if !(hostReady s) || !(inBar2 off bytes.length) then .next s
  else
    fcGate s ((barLines s off bytes.length).map (fun l => (l, true)))
      (.next ((lineParts (barPa s off) bytes).foldl (hostPut ep) s))

/-- A host AtomicOp on BAR2 (31 R472, R477; 03 R70): performed as an ATOM at the line's L2 slice under key slot 0. -/
def hostAtomic (op : AtomOp) (off : Nat) (wide : Bool) (x cmp : Nat) (s : State) : Out :=
  let n := if wide then 8 else 4
  let ones := List.replicate n 0xFF#8
  if !(hostReady s) || !(inBar2 off n) || off % n ≠ 0 || !(populated s (barPa s off)) then .next (hostReply s off ones false)
  else
    let pa := barPa s off
    let s1 := rekeyAt s pa n 0
    let old := memNat s1 pa n
    let bad := poisonedRange s1 pa n
    let s2 := if bad || hostLocked pa then s1
      else writeCoherent s1 none pa 0 (bytesOf (atomNew op wide old (x % 2 ^ (8 * n)) (cmp % 2 ^ (8 * n))) n)
    fcGate s [(lineOf pa, true)] (.next (hostReply s2 off (bytesOf old n) bad))

/-- ATOMICOP_FETCHADD (31 R472). -/
def execAtomicopFetchadd (off : Nat) (wide : Bool) (x : DWord) (s : State) : Out := hostAtomic .add off wide x.toNat 0 s

/-- ATOMICOP_SWAP (31 R472). -/
def execAtomicopSwap (off : Nat) (wide : Bool) (x : DWord) (s : State) : Out := hostAtomic .exch off wide x.toNat 0 s

/-- ATOMICOP_CAS (31 R472): the operand is compared, and the new value written where it is equal. -/
def execAtomicopCas (off : Nat) (wide : Bool) (cmp new : DWord) (s : State) : Out := hostAtomic .cas off wide cmp.toNat new.toNat s

/-- QUEUE_NOTIFY (31 R478): both registers are written and a notification joins the FIFO, which the link holds back while it is full. -/
def execQueueNotify (record rcb : DWord) (s : State) : Out :=
  if !(hostReady s) || decide (256 ≤ s.regs.fifo.length) then .next s
  else .next { s with regs := { s.regs with rec_ := record, rcb := rcb, fifo := s.regs.fifo ++ [(record, rcb)] } }

/-- NOTIFY_LINK (31 R478): the oldest notification is taken, and linked or refused. -/
def execNotifyLink (s : State) : Out :=
  match s.regs.fifo with
  | [] => .next s
  | (r, b) :: rest =>
    let s1 := { s with regs := { s.regs with fifo := rest, accepted := s.regs.accepted + 1#64 } }
    if r.toNat % 64 ≠ 0 then .next (logRefused s1 b.toNat 5)
    else if (regionOf s b.toNat).isNone then .next (logRefused s1 b.toNat 4)
    else if linkRetry s b.toNat r.toNat then .next s
    else .next (linkRecord s1 b.toNat r.toNat)

/-- EVENT_LOG_CONFIG_WRITE (31 R480): base, or size in events; dropped unless head equals tail, and where the value is no legal one. -/
def execEventLogConfigWrite (size : Bool) (x : DWord) (s : State) : Out :=
  let g := s.regs
  let ok := if size then decide (64 ≤ x.toNat ∧ x.toNat ≤ 65536 ∧ 2 ^ x.toNat.log2 = x.toNat) else decide (x.toNat % 4096 = 0)
  if !(hostReady s) || g.logHead ≠ g.logTail || !ok then .next s
  else .next { s with regs := if size then { g with logSize := x } else { g with logBase := x } }

/-- EVENT_LOG_TAIL_WRITE (31 R480). -/
def execEventLogTailWrite (x : DWord) (s : State) : Out :=
  .next (if hostReady s then { s with regs := { s.regs with logTail := x } } else s)

/-- A doorbell of the mailbox (31 R479): a request begins, and one of an undefined service ends at once (28 R440). -/
def ringMailbox (s : State) : State :=
  if s.regs.busy then s
  else
    let s1 := { s with regs := { s.regs with busy := true, status := 0#64 } }
    if 6 < s.regs.service.toNat then mailboxDone s1 0xFFFFFFFF else s1

/-- An attestation command (31 R485). -/
def startAttest (s : State) (x : DWord) : State :=
  if s.regs.attBusy then s
  else
    let g := { s.regs with attCmd := x, report := 0#5120 }
    if x = 1#64 || x = 2#64 then { s with regs := { g with attBusy := true, attStat := 0#64 } }
    else fire { s with regs := { g with attStat := 0x8000000000000001#64 } } 3

/-- Part i, of 64 bits, of a wide register replaced. -/
def setPart {w : Nat} (x : BitVec w) (i : Nat) (v : DWord) : BitVec w :=
  (x &&& ~~~((0xFFFFFFFFFFFFFFFF#64).setWidth w <<< (64 * i))) ||| (v.setWidth w <<< (64 * i))

/-- REGISTER_WRITE (31 R474 to R488): an 8-byte write to a register of BAR0. -/
def execRegisterWrite (off : Nat) (x : DWord) (s : State) : Out :=
  let g := s.regs
  if !(hostReady s) || off % 8 ≠ 0 then .next s
  else if off = 0x1008 then .next { s with regs := { g with rec_ := x } }
  else if off = 0x1010 then execQueueNotify g.rec_ x s
  else if 0x2020 ≤ off ∧ off < 0x2040 then .next { s with regs := { g with cmdWin := setPart g.cmdWin ((off - 0x2020) / 8) x } }
  else if off = 0x3008 then .next (if g.busy then s else { s with regs := { g with service := x } })
  else if off = 0x3010 then .next (if g.busy then s else { s with regs := { g with arg := x } })
  else if off = 0x3020 then .next (ringMailbox s)
  else if off = 0x4008 then execEventLogConfigWrite false x s
  else if off = 0x4010 then execEventLogConfigWrite true x s
  else if off = 0x4020 then execEventLogTailWrite x s
  else if off = 0x5008 then .next { s with regs := { g with window := x &&& 0x3F000000000#64 } }
  else if off = 0x6008 then .next (if g.keyBusy then s else { s with regs := { g with keyBusy := true, keyStat := 0#64 } })
  else if 0x6100 ≤ off ∧ off < 0x6200 then
    .next (if g.keyBusy then s else { s with regs := { g with keyReq := setPart g.keyReq ((off - 0x6100) / 8) x } })
  else if 0x7008 ≤ off ∧ off < 0x7048 then .next { s with regs := { g with attNonce := setPart g.attNonce ((off - 0x7008) / 8) x } }
  else if 0x7048 ≤ off ∧ off < 0x7088 then .next { s with regs := { g with attExt := setPart g.attExt ((off - 0x7048) / 8) x } }
  else if off = 0x7088 then .next (startAttest s x)
  else .next s

/-- A capability header (31 R475). -/
def capHeader (id next len : Nat) : DWord := BitVec.ofNat 64 (id + 2 ^ 8 + 2 ^ 16 * next + 2 ^ 32 * len)

/-- The 8 bytes of a wide register at part i. -/
def getPart {w : Nat} (x : BitVec w) (i : Nat) : DWord := x.extractLsb' (64 * i) 64

/-- What a host's 8-byte read of BAR0 returns (31 R474 to R488). -/
def bar0Read (s : State) (off : Nat) : DWord :=
  let g := s.regs
  if off = 0 then capHeader 1 0x1000 0x10
  else if off = 8 then bootStatus s.boot
  else if !(hostReady s) then 0xFFFFFFFFFFFFFFFF#64
  else if off = 0x1000 then capHeader 2 0x2000 0x20
  else if off = 0x1008 then g.rec_
  else if off = 0x1010 then g.rcb
  else if off = 0x1018 then g.accepted
  else if off = 0x2000 then capHeader 3 0x3000 0x40
  else if 0x2020 ≤ off ∧ off < 0x2040 then getPart g.cmdWin ((off - 0x2020) / 8)
  else if off = 0x3000 then capHeader 4 0x4000 0x28
  else if off = 0x3008 then g.service
  else if off = 0x3010 then g.arg
  else if off = 0x3018 then g.status
  else if off = 0x4000 then capHeader 5 0x5000 0x30
  else if off = 0x4008 then g.logBase
  else if off = 0x4010 then g.logSize
  else if off = 0x4018 then g.logHead
  else if off = 0x4020 then g.logTail
  else if off = 0x4028 then g.logLost
  else if off = 0x5000 then capHeader 6 0x6000 0x10
  else if off = 0x5008 then g.window
  else if off = 0x6000 then capHeader 7 0x7000 0x200
  else if off = 0x6010 then g.keyStat
  else if off = 0x6018 then g.keyNonce
  else if 0x6100 ≤ off ∧ off < 0x6200 then getPart g.keyReq ((off - 0x6100) / 8)
  else if off = 0x7000 then capHeader 8 0 0x380
  else if 0x7008 ≤ off ∧ off < 0x7048 then getPart g.attNonce ((off - 0x7008) / 8)
  else if 0x7048 ≤ off ∧ off < 0x7088 then getPart g.attExt ((off - 0x7048) / 8)
  else if off = 0x7088 then g.attCmd
  else if off = 0x7090 then g.attStat
  else if 0x7100 ≤ off ∧ off < 0x7380 then getPart g.report ((off - 0x7100) / 8)
  else 0#64

/-- The report before its signature (31 R486). -/
def reportBody (s : State) : List Byte :=
  bytesOf 1 4 ++ bytesOf ((bootStatus s.boot).toNat % 2 ^ 32) 4 ++ bvBytes Config.romVersion ++ bvBytes s.boot.image ++
    fitBytes 64 (Config.identityKey.take 57) ++ (s.boot.m.map bvBytes).flatten ++ fitBytes 64 ((Config.channelKey s.boot.boots).take 56) ++
    bvBytes s.regs.keyNonce ++ bytesOf s.ns 8 ++ bvBytes s.regs.attNonce ++ bytesOf 0 32

/-- An attestation command ends (31 R481, R485). -/
def attestDone (s : State) : State := fire { s with regs := { s.regs with attBusy := false, attStat := 0x8000000000000000#64 } } 3

/-- ATTEST_REPORT (31 R485, R486). -/
def execAttestReport (s : State) : Out :=
  if !s.regs.attBusy || s.regs.attCmd ≠ 1#64 then .next s
  else
    let body := reportBody s
    let r := BitVec.ofNat 5120 (natOfBytes (body ++ fitBytes 128 ((Config.ed448Sign body).take 114)))
    .next (attestDone { s with regs := { s.regs with report := r } })

/-- ATTEST_EXTEND (31 R485). -/
def execAttestExtend (s : State) : Out :=
  if !s.regs.attBusy || s.regs.attCmd ≠ 2#64 then .next s
  else
    let m3 := extendMeasure (s.boot.m.getD 3 0#512) (bvBytes s.regs.attExt)
    .next (attestDone { s with boot := { s.boot with m := s.boot.m.set 3 m3 } })

/-- A key channel request ends with a status (31 R481, R488). -/
def keyDone (s : State) (x : Nat) : State :=
  fire { s with regs := { s.regs with keyBusy := false, keyClear := none, keyStat := BitVec.ofNat 64 (2 ^ 63 + x) } } 3

/-- Fields of a key channel request (31 R487). -/
def keyOp (q : BitVec 2048) : Nat := slice q.toNat 31 0
def keySlotNo (q : BitVec 2048) : Nat := slice q.toNat 63 32

/-- The first two checks of a request (31 R488): its status where one fails. -/
def keyAuth (s : State) : Option Nat :=
  let bs := bvBytes s.regs.keyReq
  let msg := bs.take 80 ++ fitBytes 56 (Config.channelKey s.boot.boots)
  if !(Config.ed448Verify Config.ownerKey msg ((bs.drop 80).take 114)) then some 1
  else if getPart s.regs.keyReq 1 ≠ s.regs.keyNonce then some 2
  else none

/-- Whether the fields of a request are legal (31 R487, R488). -/
def keyFieldsOk (s : State) : Bool :=
  let bs := bvBytes s.regs.keyReq
  let q := s.regs.keyReq
  (bs.drop 194).all (· = 0#8) && decide (keyOp q ≤ 1) && decide (1 ≤ keySlotNo q ∧ keySlotNo q ≤ 2047) &&
    (keyOp q = 0 || ((bs.drop 16).take 64).all (· = 0#8))

/-- A request that is running and does not wait for a write-back: its slot's state; a CLEARING slot makes it wait (30 R471). -/
def keyWaits (s : State) : Bool :=
  !s.regs.keyBusy || s.regs.keyClear.isSome || decide ((NMap.get {} s.keys (keySlotNo s.regs.keyReq)).st = .clearing)

/-- The nonce after a request that has passed the first two checks (31 R488). -/
def nextNonce (s : State) : State := { s with regs := { s.regs with keyNonce := s.regs.keyNonce + 1#64 } }

/-- KEY_LOAD (30 R471; 31 R487, R488); a request of an undefined op ends here too. -/
def execKeyLoad (s : State) : Out :=
  let q := s.regs.keyReq
  if keyWaits s || keyOp q = 1 then .next s
  else
    match keyAuth s with
    | some k => .next (keyDone s k)
    | none =>
      let s1 := nextNonce s
      let slot := keySlotNo q
      if !(keyFieldsOk s) || decide ((NMap.get {} s.keys slot).st = .loaded) then .next (keyDone s1 3)
      else
        let bs := bvBytes q
        let pad := shake256 (Config.sharedSecret s.boot.boots ++ bs.take 16) 64
        let key := List.zipWith (· ^^^ ·) ((bs.drop 16).take 64) pad
        let k : KeySlot := { st := .loaded, key := BitVec.ofNat 512 (natOfBytes key) }
        .next (keyDone { s1 with keys := NMap.set {} s1.keys slot k } 0)

/-- KEY_CLEAR (30 R471; 31 R487, R488). -/
def execKeyClear (s : State) : Out :=
  let q := s.regs.keyReq
  if keyWaits s || keyOp q ≠ 1 then .next s
  else
    match keyAuth s with
    | some k => .next (keyDone s k)
    | none =>
      let s1 := nextNonce s
      let slot := keySlotNo q
      let k : KeySlot := NMap.get {} s.keys slot
      if !(keyFieldsOk s) then .next (keyDone s1 3)
      else if k.st = .empty then .next (keyDone s1 0)
      else .next { s1 with keys := NMap.set {} s1.keys slot { k with st := .clearing }, regs := { s1.regs with keyClear := some slot } }

/-- KEY_CLEAR_DONE (30 R469, R471): the lines cached under the slot have been written back, the key is zeroed, and the request ends. -/
def execKeyClearDone (slot : Nat) (s : State) : Out :=
  if (NMap.get {} s.keys slot).st ≠ .clearing then .next s
  else
    let s1 := (s.ltag.filter (fun e => e.2 = slot)).foldl (fun s e => rekey s e.1 0) s
    let s2 := { s1 with keys := NMap.set {} s1.keys slot {} }
    .next (if s2.regs.keyClear = some slot then keyDone s2 0 else s2)

/-- PAGE_WALK (30 R459, R464): a walk for a core, which caches what it finds; a retryable one is stalled. The line it leads to is asked
for where coherence messages are needed (32 R496), the line of an entry likewise. -/
def execPageWalk (core root va : Nat) (s : State) : Out :=
  let r := BitVec.ofNat 64 root
  match translate s core r va with
  | (.ok pte level _, s1) =>
    let l := lineOf (leafPa pte level va)
    .next (if homeOf l ≠ s.pkg && !(pte.getLsbD 5) then s1 else fcAsk s1 l (pte.getLsbD 2))
  | (.retry, s1) =>
    let w : StalledWalk := { core := core, root := r, va := va }
    let s2 := if s1.walks.any (· = w) then s1 else { s1 with walks := s1.walks ++ [w] }
    .next (askWalk s2 va 5 root)
  | (_, s1) => .next s1
where
  /-- The lines of a walk's entries, asked for down to the first that waits. -/
  askWalk (s : State) (va : Nat) : Nat → Nat → State
    | 0, _ => s
    | level + 1, table =>
      let pa := table + 8 * ((va >>> (12 + 9 * level)) % 512)
      let e : DWord := BitVec.ofNat 64 (memNat s pa 8)
      if fcWaits s (lineOf pa) false then fcAsk s (lineOf pa) false
      else if !(e.getLsbD 0) || e.getLsbD 1 then fcAsk s (lineOf pa) true
      else askWalk s va level ((e.extractLsb' 12 40).toNat * 4096)

/-- A stalled walk is made again (30 R464). -/
def retryWalk (s : State) (w : StalledWalk) : State :=
  match translate s w.core w.root w.va with
  | (.retry, s1) => s1
  | (_, s1) => { s1 with walks := s1.walks.filter (· ≠ w) }

/-- WALK_RETRY_TIMER (30 R464): 100 µs after it stalled at the latest, a stalled walk is made again. -/
def execWalkRetryTimer (core root va : Nat) (s : State) : Out :=
  match s.walks.find? (fun w => w.core = core && w.root = BitVec.ofNat 64 root && w.va = va) with
  | some w => .next (retryWalk s w)
  | none => .next s

/-- Fields of a translation command (30 R466). -/
def tcDone (c : BitVec 256) : Nat := slice c.toNat 255 192
def tcA (c : BitVec 256) : Nat := slice c.toNat 191 128
def tcB (c : BitVec 256) : Nat := slice c.toNat 127 64
def tcCount (c : BitVec 256) : Nat := slice c.toNat 63 32
def tcKey (c : BitVec 256) : Nat := slice c.toNat 19 9
def tcKind (c : BitVec 256) : Nat := slice c.toNat 3 0

/-- Whether a frame range is local memory that can be mapped (30 R463, 32 R493). -/
def framesOk (s : State) (a n : Nat) : Bool :=
  decide (a % 4096 = 0) && populated s a && populated s (a + 4096 * n - 1) && decide (physKind s a = physKind s (a + 4096 * n - 1)) &&
    decide (a % 2 ^ 42 + 4096 * n ≤ 0x7F00000000 ∨ 0x8000000000 ≤ a % 2 ^ 42)

/-- Whether a command keeps its limits (30 R466). -/
def tcOk (s : State) (c : BitVec 256) : Bool :=
  let a := tcA c
  let b := tcB c
  let n := tcCount c
  decide (slice c.toNat 31 20 = 0) && decide (slice c.toNat 8 4 = 0) && decide (tcDone c % 8 = 0) &&
    (match tcKind c with
      | 0 => decide (b % 4096 = 0) && decide (1 ≤ n) && decide (tcKey c = 0)
      | 1 => decide (b = 0 ∧ n = 0 ∧ tcKey c = 0)
      | 2 => decide (a = 0 ∧ b = 0 ∧ n = 0 ∧ tcKey c = 0)
      | 3 => decide (1 ≤ n) && framesOk s a n && framesOk s b n && keyLoaded s (tcKey c)
      | _ => false)

/-- The completion word of a command (30 R466). -/
def tcComplete (s : State) (c : BitVec 256) (ok : Bool) : State :=
  let d := tcDone c
  if d = 0 || d % 8 ≠ 0 || !(populated s d) then s
  else writeCoherent s none d 0 (bytesOf (if ok then 0x8000000000000000 else 0x8000000000000001) 8)

/-- Whether a unit has pieces in memory at addresses that pass a test, through a root (30 R467). -/
def unitUses (c : Cohort) (root : DWord) (hit : Nat → Nat → Bool) (u : Pending) : Bool :=
  u.pieces.any (fun p => !p.scr && decide (0 < p.n) && decide ((if p.priv then c.proot else c.root) = root) && hit p.va p.n)

/-- Whether every access that used a translation has been performed: no unit of the range is outstanding, and no engine write of the
root's cohorts is on its way (30 R467). -/
def accessesDone (s : State) (roots : DWord → Bool) (hit : Nat → Nat → Bool) : Bool :=
  (allCohorts s).all (fun c =>
    !((roots c.root || roots c.proot) && (c.convoys.any (fun v => v.units.any (fun u =>
      (roots c.root && unitUses c c.root hit u) || (roots c.proot && unitUses c c.proot hit u))))) &&
    !(roots c.root && c.writes.any (fun w => match w.place with
      | .mem _ _ => true
      | _ => false)))

/-- The stores of a root's cohorts are registered and their private lines written back (30 R467, 04 R82). -/
def settleRoots (s : State) (roots : DWord → Bool) : State :=
  let mine (uid : Nat) : Bool := (allCohorts s).any (fun c => c.uid = uid && (roots c.root || roots c.proot))
  let s1 := registerAll s (fun p => mine p.uid)
  (s1.l1.filter (fun l => l.priv && mine l.uid)).foldl writeBackLine s1

/-- The removal of translations and the retry of the walks that they cover (30 R464, R467). -/
def invalidate (s : State) (roots : DWord → Bool) (lo hi : Nat) : State :=
  let hitT (t : TlbEntry) : Bool :=
    let k := leafShift t.pte t.level
    roots t.root && decide (t.vpage * 2 ^ k < hi) && decide (lo < (t.vpage + 1) * 2 ^ k)
  let s1 := { settleRoots s roots with tlb := s.tlb.filter (fun t => !(hitT t)) }
  (s1.walks.filter (fun w => roots w.root && decide (lo ≤ w.va ∧ w.va < hi))).foldl retryWalk s1

/-- A translation command of a kind: checked, performed and completed; one of an undefined kind fails, whichever event brings it
(30 R466). -/
def command (c : BitVec 256) (kind : Nat) (f : State → Option State) (s : State) : Out :=
  if !(hostReady s) || (tcKind c ≠ kind && decide (tcKind c ≤ 3)) then .next s
  else if !(tcOk s c) then .next (tcComplete s c false)
  else
    match f s with
    | none => .next s
    | some s1 => .next (tcComplete s1 c true)

/-- An invalidation, which waits for the accesses that used what it removes. -/
def invalidation (roots : DWord → Bool) (lo hi : Nat) (s : State) : Option State :=
  if accessesDone s roots (fun va n => decide (va < hi) && decide (lo < va + n)) then some (invalidate s roots lo hi) else none

/-- INVPAGE (30 R466, R467). -/
def execInvpage (cmd : BitVec 256) (s : State) : Out :=
  command cmd 0 (invalidation (· = BitVec.ofNat 64 (tcA cmd)) (tcB cmd) (tcB cmd + 4096 * tcCount cmd)) s

/-- INVSPACE (30 R466, R467). -/
def execInvspace (cmd : BitVec 256) (s : State) : Out :=
  command cmd 1 (invalidation (· = BitVec.ofNat 64 (tcA cmd)) 0 (2 ^ 64)) s

/-- INVALL (30 R466, R467). -/
def execInvall (cmd : BitVec 256) (s : State) : Out := command cmd 2 (invalidation (fun _ => true) 0 (2 ^ 64)) s

/-- One line of a MIGRATE (30 R468): owned words and dirty lines are recalled, and poison travels with the data. -/
def migrateLine (key : Nat) (s : State) (e : Nat × Nat) : State :=
  let s1 := (s.l1.filter (fun l => l.priv && l.line = e.1)).foldl writeBackLine (recallLine s e.1)
  let s2 := rekey s1 e.1 key
  setPoison (writeCoherent s2 none (128 * e.2) key (memGet s2 (128 * e.1) 128)) e.2 (poisoned s2 e.1)

/-- MIGRATE (30 R466, R468); it waits for lines that other packages hold. -/
def execMigrate (cmd : BitVec 256) (s : State) : Out :=
  let ls := (List.range (32 * tcCount cmd)).map (fun i => (lineOf (tcA cmd) + i, lineOf (tcB cmd) + i))
  let go := command cmd 3 (fun s => some (ls.foldl (migrateLine (tcKey cmd)) s)) s
  if hostReady s && tcKind cmd = 3 && tcOk s cmd then fcGate s (ls.flatMap (fun e => [(e.1, false), (e.2, true)])) go else go

end Sys2Proof.Machine
end

