-- ==== Sys2Proof/Machine/Issue.lean ====
section
/-! DEFINITION. The issue of instructions: fetching the next instruction's words from the clause, the fault of words that
do not decode (12 R218), the round-robin choice of a track (01 R19), and what goes on when nothing else is scheduled. -/

namespace Sys2Proof.Machine

/-- The next instruction of the clause, with the words it takes (10 R183, 12 R218). -/
def nextInstr (s : State) : Except DecodeFault (Instr × Nat) :=
  match s.cv.clause with
  | none => .error .clauseFormat
  | some k =>
    let h := Header.unpack k.hdr
    Sys2Proof.decode (clsOf h.cls) h.uni (decide (k.nxt = 0)) (k.words.drop k.nxt)

/-- The fault of a word that does not decode (10 R184, R191; 12 R218). -/
def decodeFault (s : State) (e : DecodeFault) : FaultRec :=
  let k : Nat := match e with
    | .clauseFormat => 0x02
    | .illegal => 0x01
    | .reserved => 0x04
  { kind := k, mask := activeMask s }

/-- The clause moves past the instruction's n words; the first instruction of a clause begins its count of
opportunities (01 R32). -/
def beginInstr (s : State) (n : Nat) : State :=
  { s with cv := { s.cv with
      stalled := false, donate := none, accept := none, peek := [], bad := 0#32,
      clause := s.cv.clause.map (fun k =>
        { k with cur := k.nxt, nxt := k.nxt + n, age0 := if k.fresh then s.cv.opp else k.age0 }) } }

/-- The opportunities left of a STALL count pass (10 R196). -/
def passStall (s : State) : State := if s.cv.stall = 0 then s else passTrack s s.cv.stall

/-- The convoys bound to a track of a core, by slot × 32 + convoy (01 R17). -/
def trackConvoys (s : State) (core track : Nat) : List Nat :=
  (allCohorts s).flatMap (fun d => if d.core = core then
    (d.convoys.filter (fun c => c.track = track)).map (fun c => 32 * d.slot + c.id) else [])

/-- The first value of a list above a bound, or the least (round robin). -/
def nextAfter (n : Nat) (xs : List Nat) : Option Nat :=
  match (xs.filter (n < ·)).min? with
  | some x => some x
  | none => xs.min?

/-- The focus on the convoy that a track issues from (01 R19), and whether there is one. -/
def chooseConvoy (s : State) (core track : Nat) : Bool × State :=
  let ok (x : Nat) : Bool :=
    let t := focusOn s core (x / 32) (x % 32)
    eligible t && decide (t.cv.stall = 0)
  let all := trackConvoys s core track
  let last := NMap.get 0 s.lastIssue (16 * core + track)
  match nextAfter (last - 1) (if last = 0 then [] else (all.filter ok)) with
  | some x => (true, focusOn s core (x / 32) (x % 32))
  | none =>
    match (all.filter ok).min? with
    | some x => (true, focusOn s core (x / 32) (x % 32))
    | none =>
      match all.min? with
      | some x => (false, focusOn s core (x / 32) (x % 32))
      | none => (false, s)

/-- The event that the matrix unit's entry of a unit waits for. -/
def matrixEvent (s : State) (k : Nat) (u : Pending) : Option Instr :=
  let at_ : SlotRef := { core := s.ch.core, slot := s.ch.slot }
  match s.ch.mq.find? (fun e => e.convoy = s.cv.id && e.unit = some u.seq) with
  | none => none
  | some e =>
    match e.op with
    | .mma _ _ _ _ _ _ _ =>
      some (if (NMap.get {} s.arrays s.ch.core).mode = .up then .matrixRampUpEnd s.ch.core else .mmaPassComplete at_ false)
    | .ldw _ _ => some (.mldwLatchComplete at_)
    | _ => some (.tokenUnitComplete k)

/-- The event that completes a unit. -/
def unitEvent (s : State) (k : Nat) (u : Pending) : Option Instr :=
  match u.kind with
  | .value => some (.tokenUnitComplete k)
  | .load => some (.memRequestComplete k false)
  | .store => some (.memRequestComplete k false)
  | .scrLoad _ _ => some (.memRequestComplete k false)
  | .scrStore _ => some (.memRequestComplete k false)
  | .atom _ _ => some (.atomicPerform k)
  | .scrAtom _ _ => some (.atomicPerform k)
  | .scadd => some (.gsuAddend k)
  | .fence _ => some (.memRequestComplete k false)
  | .pref => some (.memRequestComplete k false)
  | .cctl _ => some (.tokenUnitComplete k)
  | .travr _ _ _ => some (.tokenUnitComplete k)
  | .trava _ _ _ _ => some (.tokenUnitComplete k)
  | .scall _ => none
  | .sysRead _ => some (.tokenUnitComplete k)
  | .sysSet _ _ => some (.tokenUnitComplete k)
  | .absorb _ _ _ _ => some (.tokenUnitComplete k)
  | .lnch _ _ => some (.tokenUnitComplete k)
  | .replayReq _ => some (.tokenUnitComplete k)
  | .texture _ _ _ _ => some (.textureSample s.ch.core)
  | .texGrad _ _ _ _ _ => some (.tokenUnitComplete k)
  | .radj _ _ => some (.tokenUnitComplete k)
  | .engine => some (.tokenUnitComplete k)
  | .spawn _ _ _ _ => some (.tokenUnitComplete k)
  | .binit _ _ _ => some (.tokenUnitComplete k)
  | .barv _ _ => some (.tokenUnitComplete k)
  | .matrix _ => matrixEvent s k u
  | .gscom => some (.gsuCommit k)

/-- Whether the focused convoy stands at a boundary that has something to do. -/
def boundaryDue (s : State) : Bool :=
  clauseOver s.cv ||
  (match s.cv.clause with
    | some k => k.fresh && (!(s.cv.bfaults.isEmpty) || held s.ch)
    | none => !(s.cv.bfaults.isEmpty) || (!(held s.ch) && (selectEntry s).isSome))

/-- The event that goes on with the focused convoy when it cannot issue and nothing is scheduled. -/
def defaultEvent (s : State) : Option Instr :=
  if !s.focus || s.cv.halt ≠ .run then none
  else if boundaryDue s && !(s.ch.faulting && s.cv.clause.isNone) then some .clauseBoundary
  else if (match s.cv.clause with
    | some k => k.words.isEmpty
    | none => false) then some .clauseFetch
  else (s.cv.units.zipIdx).findSome? (fun e => unitEvent s e.2 e.1)

/-- Time passes: every core counts n cycles and the clock t nanoseconds (20 R386). -/
def elapse (s : State) (n t : Nat) : State :=
  { s with
    ns := s.ns + t
    cyc := (distinct ((allCohorts s).map (·.core))).foldl (fun m c => NMap.set 0 m c (NMap.get 0 m c + n)) s.cyc }

/-- A convoy that issues one clause of the given header and words in all its threads. -/
def clauseConvoy (h : Word) (ws : List Word) : Convoy :=
  { live := 0xFFFFFFFF#32, budget := 24, clause := some { pc := 0, hdr := h, words := ws, mask := 0xFFFFFFFF#32 } }

/-- A clause header of a class over n words (10 R181). -/
def headerFor (c : Cls) (n : Nat) : Word :=
  Header.pack
    { count := BitVec.ofNat 4 n, cls := clsCode c, wait := 0#8, rm := 0#2, uni := false, yld := false, prio := 0#8 }

/-- The words of an instruction of nbits bits in the class its word is read in, the words above being zero. -/
def placedWords (nbits w : Nat) : Cls × List Word :=
  match tableCls nbits w with
  | some (c, _, n) => (c, (wordsOf w 8).take n)
  | none => (.int, wordsOf w ((nbits + 31) / 32))

/-- The state with the convoy of a cohort in slot 0 of core 0 about to issue the word. -/
def placeWord (s : State) (nbits w : Nat) : State :=
  let p := placedWords nbits w
  { s with
    schedule := [], focus := true, cv := clauseConvoy (headerFor p.1 p.2.length) p.2,
    ch := { desc := { scratch := 1, priv := 48, spawn := true }, ctx := 0x1000 } }

end Sys2Proof.Machine
end

