-- ==== Sys2Proof/Machine/Count.lean ====
section
/-! DEFINITION. The counters (20 R385; 35 R523, R527) and the control-path digest (35 R529): what a step adds, read off the states before
and after it. With every counter disabled and no session a step adds nothing. -/

namespace Sys2Proof.Machine

/-- The source operands of an instruction. -/
def operandsOf : Instr → List Src
  | .iadd _ _ a b _ => [a, b]
  | .isub _ _ a b _ => [a, b]
  | .imul _ _ a b _ => [a, b]
  | .imad _ _ a b c _ => [a, b, c]
  | .imin _ _ a b _ => [a, b]
  | .imax _ _ a b _ => [a, b]
  | .iabs _ _ a => [a]
  | .andb _ _ a b => [a, b]
  | .orb _ _ a b => [a, b]
  | .xorb _ _ a b => [a, b]
  | .andn _ _ a b => [a, b]
  | .shf _ _ a b _ => [a, b]
  | .fshf _ _ a b c _ => [a, b, c]
  | .bfe _ _ a b _ => [a, b]
  | .bfi _ _ a b c => [a, b, c]
  | .bits _ _ a _ => [a]
  | .icmp _ _ a b _ => [a, b]
  | .sel _ _ a b _ => [a, b]
  | .mov _ _ a => [a]
  | .lea _ _ a b _ => [a, b]
  | .iaddx _ _ a b => [a, b]
  | .pmovFromr _ a b => [a, b]
  | .xset _ a _ _ => [a]
  | .iaddi _ _ a _ => [a]
  | .shfi _ _ a _ _ => [a]
  | .icmpi _ _ _ a _ => [a]
  | .fadd _ _ a b _ => [a, b]
  | .fsub _ _ a b _ => [a, b]
  | .fmul _ _ a b _ => [a, b]
  | .ffma _ _ a b c _ => [a, b, c]
  | .fmin _ _ a b _ _ => [a, b]
  | .fmax _ _ a b _ _ => [a, b]
  | .fcmp _ _ a b _ => [a, b]
  | .fnegabs _ _ a _ => [a]
  | .frnd _ _ a _ _ => [a]
  | .fcvti _ _ a _ _ _ => [a]
  | .icvtf _ _ a _ _ _ => [a]
  | .frcp _ _ a _ _ _ => [a]
  | .frsq _ _ a _ _ _ => [a]
  | .fsqrt _ _ a _ _ _ => [a]
  | .fexp2 _ _ a _ _ _ => [a]
  | .flog2 _ _ a _ _ _ => [a]
  | .fsin _ _ a _ _ _ => [a]
  | .fcos _ _ a _ _ _ => [a]
  | .fdiv _ _ a b _ _ => [a, b]
  | .dadd _ _ a b _ => [a, b]
  | .dmul _ _ a b _ => [a, b]
  | .dfma _ _ a b c _ => [a, b, c]
  | .dminmax _ _ a b _ _ _ => [a, b]
  | .dcmp _ _ a b _ => [a, b]
  | .dcvt _ _ a _ _ _ => [a]
  | .dsqrt _ _ a _ _ => [a]
  | .ddiv _ _ a b _ _ => [a, b]
  | .fclass _ _ a => [a]
  | .fscale _ _ a b _ => [a, b]
  | .hadd2 _ _ a b _ _ => [a, b]
  | .hmul2 _ _ a b _ _ => [a, b]
  | .hfma2 _ _ a b c _ _ => [a, b, c]
  | .hminmax2 _ _ a b _ _ _ _ => [a, b]
  | .dot2h _ _ a b c _ _ _ _ => [a, b, c]
  | .dot4i8 _ _ a b c _ _ _ => [a, b, c]
  | .dot8i4 _ _ a b c _ _ _ => [a, b, c]
  | .dot4f8 _ _ a b c _ _ _ _ => [a, b, c]
  | .dot8f4 _ _ a b c _ _ => [a, b, c]
  | .pack _ _ a b c _ _ _ => [a, b, c]
  | .unpack _ _ a _ _ _ => [a]
  | .scl _ _ a b _ _ => [a, b]
  | .prmt _ _ a b c _ => [a, b, c]
  | .hcvt _ _ a _ _ _ => [a]
  | .ld _ _ a b _ _ _ _ _ => [a, b]
  | .stg _ a b c _ _ _ _ _ => [a, b, c]
  | .lds _ _ a b _ _ _ _ => [a, b]
  | .sts _ a b c _ _ _ _ => [a, b, c]
  | .ldp _ _ a b _ _ => [a, b]
  | .stp _ a b c _ _ => [a, b, c]
  | .ldc _ _ a b _ _ => [a, b]
  | .atom _ _ a b c _ _ _ _ _ => [a, b, c]
  | .atoms _ _ a b c _ _ _ _ => [a, b, c]
  | .scadd _ a b _ => [a, b]
  | .pref _ a b _ _ => [a, b]
  | .brx _ a _ => [a]
  | .callx _ a _ => [a]
  | .joinw _ _ a => [a]
  | .shfl _ _ a b _ => [a, b]
  | .matchl _ _ a b => [a, b]
  | .redu _ _ a _ _ _ _ _ => [a]
  | .binit _ _ a b _ => [a, b]
  | .barv _ _ a b _ => [a, b]
  | .bwait _ _ a b => [a, b]
  | .ticket _ _ a _ => [a]
  | .spawn _ a b _ _ _ => [a, b]
  | .spawnt _ _ a b _ _ _ => [a, b]
  | .junc _ _ a => [a]
  | .jwait _ _ a => [a]
  | .mclaim _ _ a _ => [a]
  | .mfree _ a _ => [a]
  | .mrd _ _ b _ _ _ => [b]
  | .mwr _ a b _ _ _ => [a, b]
  | .mst _ a b _ _ _ _ _ _ => [a, b]
  | .mld _ a b _ _ _ _ _ _ => [a, b]
  | .mslotw _ a b _ _ _ => [a, b]
  | .mslotr _ _ b _ _ _ => [b]
  | .ecopy _ a b c _ _ _ _ _ => [a, b, c]
  | .ecopys _ a b c _ _ _ _ _ => [a, b, c]
  | .echain _ a b _ => [a, b]
  | .eadv _ a _ => [a]
  | .ewait _ _ a b => [a, b]
  | .coll _ a b _ _ _ => [a, b]
  | .travs _ _ a b c _ _ => [a, b, c]
  | .travr _ _ a _ _ => [a]
  | .trava _ _ a b c _ => [a, b, c]
  | .txs _ _ a b _ => [a, b]
  | .txg _ _ a b c _ => [a, b, c]
  | .rsub _ a b c _ => [a, b, c]
  | .radj _ _ a b c _ => [a, b, c]
  | .edge _ _ a b c _ => [a, b, c]
  | .pemit _ _ a _ _ => [a]
  | .swr _ a _ _ => [a]
  | .cctl _ a _ _ => [a]
  | .tlbh _ a _ _ => [a]
  | .scall _ _ a _ _ => [a]
  | .digestAbsorb _ a b c _ _ => [a, b, c]
  | .digestStep _ a _ => [a]
  | .qwr _ a _ _ => [a]
  | .lnch _ a b _ => [a, b]
  | _ => []

/-- Whether an instruction is a branch (10 R195). -/
def isBranch : Instr → Bool
  | .bra _ _ _ _ => true
  | .brx _ _ _ => true
  | .call _ _ _ _ => true
  | .callx _ _ _ => true
  | .ret _ => true
  | _ => false

/-- Occurrences of events, by code (35 R523). -/
abbrev Events := List (Nat × Nat)

/-- The focused convoy after a step, if it is still there. -/
def convoyAfter (s t : State) : Option Convoy :=
  if t.focus && decide (t.ch.uid = s.ch.uid) then (convoysOf t).find? (fun v => v.id = s.cv.id) else none

/-- Whether an instruction that was tried has issued, rather than waiting at issue. -/
def hasIssued (s t : State) : Bool :=
  match convoyAfter s t with
  | none => true
  | some v =>
    match v.clause, s.cv.clause with
    | some k, some k0 => decide (v.halt ≠ .run) || !(decide (k.pc = k0.pc) && decide (k.nxt = k0.nxt))
    | _, _ => true

/-- Threads of a mask. -/
def popcount (m : Word) : Nat := (lanes m).length

/-- The entries that the active threads of a branch end in, and the threads that joined an entry that was there (01 R29, 10 R195). -/
def branchEvents (s t : State) : Events :=
  match convoyAfter s t with
  | none => []
  | some v =>
    let m := activeMask s
    let mine := (v.fr ++ v.spill).filter (fun e => e.mask &&& m ≠ 0#32)
    let on := match v.clause with
      | some k => b2n (decide (k.mask &&& m ≠ 0#32))
      | none => 0
    let joined := mine.filter (fun e => (s.cv.fr ++ s.cv.spill).any (fun o => o.pc = e.pc && o.mask &&& e.mask = o.mask))
    [(8, mine.length + on - 1), (9, (joined.map (fun e => popcount (e.mask &&& m))).sum)]

/-- Tops of a convoy's tapes. -/
def tapeTops (v : Convoy) : Nat := (v.tapes.map (fun e => e.2.top)).sum

/-- The events of an instruction that issued (35 R523). -/
def issueEvents (s t : State) (i : Instr) : Events :=
  let h : Header := match s.cv.clause with
    | some k => Header.unpack k.hdr
    | none => Header.unpack 0#32
  let first := match s.cv.clause with
    | some k => k.fresh && k.wait.isNone
    | none => false
  let b := beats s
  let ops := operandsOf i
  let latches := (ops.filter (fun x => match x with
    | .latch _ => true
    | _ => false)).length
  let opfs := (ops.filter (fun x => match x with
    | .opf _ => true
    | _ => false)).length
  let fresh (v : Convoy) : Nat := (v.units.filter (fun u => u.kind = .scadd && decide (s.cv.useq ≤ u.seq))).length
  let after := convoyAfter s t
  [(1, b2n first), (2, 1), (3, b), (4, if h.uni then 0 else 4 - b), (5, b2n h.uni), (6, s.cv.stall), (14, latches), (15, opfs), (16 + h.cls.toNat, 1),
    (41, (after.map fresh).getD 0), (51, t.colls.length - s.colls.length)] ++
  (if isBranch i then branchEvents s t else []) ++
  (match i, after with
    | .trec _ _ _ _, some v => [(52, tapeTops v - tapeTops s.cv)]
    | .tspan _ _ _ _ _, some v => [(52, tapeTops v - tapeTops s.cv)]
    | .travs _ _ _ _ _ _ _, some _ => [(56, t.ch.rays.length - s.ch.rays.length)]
    | _, none => [(63, 1)]
    | _, _ => [])

/-- Units of a cohort that pass a test. -/
def unitsOf (c : Cohort) (p : Pending → Bool) : List Pending := c.convoys.flatMap (fun v => v.units.filter p)

/-- How many of a cohort's units have gone, by a weight. -/
def gone (c d : Cohort) (w : Pending → Nat) : Nat :=
  ((unitsOf c (fun _ => true)).map w).sum - ((unitsOf d (fun _ => true)).map w).sum

/-- Spilled tape: bytes and stubs. -/
def tapeSpills (c : Cohort) : Nat × Nat :=
  let ss := c.convoys.flatMap (·.tspill)
  (((ss.filter (fun x => !x.stub)).map (fun x => x.bytes.length)).sum, (ss.filter (·.stub)).length)

/-- Threads that are refilling. -/
def refilling (c : Cohort) : Nat := (c.convoys.map (fun v => (v.tapes.filter (fun e => e.2.refill)).length)).sum

/-- Bytes landed by a cohort's copy commands. -/
def landedBytes (c d : Cohort) : Nat :=
  (d.cq.map (fun m => m.done - ((c.cq.find? (fun x => x.seq = m.seq)).map (·.done)).getD 0)).sum

/-- Commands that have started. -/
def startedCmds (c d : Cohort) : Nat :=
  (d.cq.filter (fun m => m.started && c.cq.any (fun x => x.seq = m.seq && !x.started))).length

/-- Engine errors (29 R447). -/
def engineErrors (c d : Cohort) : Nat :=
  if c.efault.code = 0#8 then b2n (d.efault.code ≠ 0#8) else d.efault.later.toNat - c.efault.later.toNat

/-- Threads of a unit's memory pieces. -/
def atomThreads (ms : Bool) (u : Pending) : Nat :=
  match u.kind with
  | .atom _ _ => (u.pieces.filter (fun p => p.ms = ms)).length
  | _ => 0

/-- Weights of the units that the counters tell apart. -/
def scrUnit (u : Pending) : Nat :=
  match u.kind with
  | .scrLoad _ _ => 1
  | .scrStore _ => 1
  | .scrAtom _ _ => 1
  | _ => b2n (u.pieces.any (fun p => p.scr && decide (0 < p.n)))
def privUnit (u : Pending) : Nat := b2n (u.pieces.any (·.priv))
def texUnit (u : Pending) : Nat :=
  match u.kind with
  | .texture _ _ _ _ => 1
  | .texGrad _ _ _ _ _ => 1
  | _ => 0
def spawnUnit (u : Pending) : Nat :=
  match u.kind with
  | .spawn _ _ _ cs => cs.length
  | _ => 0

/-- The events of a cohort that show in what it holds before and after a step (35 R523). -/
def cohortEvents (s t : State) (c d : Cohort) (i : Instr) : Events :=
  let spilled (x : Cohort) : Nat := (x.convoys.map (fun v => v.spill.length)).sum
  let ran := cycles t c.core - cycles s c.core
  [ (0, ran), (10, spilled d - spilled c), (32, gone c d scrUnit), (35, gone c d privUnit), (39, gone c d (atomThreads false)),
    (40, gone c d (atomThreads true)), (48, startedCmds c d), (49, landedBytes c d), (50, engineErrors c d),
    (53, (tapeSpills d).1 / 256 - (tapeSpills c).1 / 256), (54, (tapeSpills d).2 - (tapeSpills c).2), (55, refilling d - refilling c),
    (59, (d.rays.filter (·.restarted)).length - (c.rays.filter (·.restarted)).length), (60, gone c d texUnit), (61, gone c d spawnUnit),
    (62, d.phases - c.phases), (63, d.charged - c.charged) ] ++
  (match i with
    | .mmaPassComplete r _ =>
      if r.core = c.core && r.slot = c.slot && decide (d.mq.length < c.mq.length) then [(43, 1), (44, ran)] else []
    | .mldwLatchComplete r => if r.core = c.core && r.slot = c.slot && decide (d.mq.length < c.mq.length) then [(46, 1)] else []
    | .travNodeStep r _ => if r.core = c.core && r.slot = c.slot && decide (c.rays ≠ d.rays) then [(57, 1)] else []
    | .travPrimitiveTest r _ => if r.core = c.core && r.slot = c.slot && decide (c.rays ≠ d.rays) then [(58, 1)] else []
    | .clauseBoundary =>
      (c.convoys.filterMap (fun v => (v.clause.filter (·.yld)).bind (fun _ =>
        (d.convoys.find? (fun w => w.id = v.id && w.clause.isNone)).map (fun _ => (12, 1)))))
    | _ => [])

/-- Events that count time, or what the model does not resolve: caches, translation and queues (35 R527). -/
def openEvent (e : Nat) : Bool :=
  decide (e = 7 ∨ e = 11 ∨ e = 13 ∨ (24 ≤ e ∧ e ≤ 31) ∨ e = 33 ∨ e = 34 ∨ (36 ≤ e ∧ e ≤ 38) ∨ e = 42 ∨ e = 45 ∨ e = 47)

/-- Events of a cohort added to the counters of its core that count it (20 R385; 35 R523, R527). -/
def bump (core uid : Nat) (counted : Bool) (evs : Events) (t : State) : State :=
  let add (e : Nat × PmCtr) : Nat × PmCtr :=
    let k := e.2
    if e.1 / 4 = core && k.en && (k.own.isNone || k.own = some uid) && counted then
      (e.1, { k with val := k.val + BitVec.ofNat 64 ((evs.filter (fun x => x.1 = k.ev.toNat)).map (·.2)).sum })
    else e
  { t with ctrs := t.ctrs.map add }

/-- The counters of open events move by free values. -/
def bumpOpen (t : State) : State :=
  if t.ctrs.any (fun e => e.2.en && openEvent e.2.ev.toNat) then
    let add (e : Nat × PmCtr) : Nat × PmCtr :=
      if e.2.en && openEvent e.2.ev.toNat then
        (e.1, { e.2 with val := e.2.val + (Config.freeWord (t.free + e.1)).setWidth 64 })
      else e
    { t with ctrs := t.ctrs.map add, free := t.free + 1408 }
  else t

/-- The key of a thread in the digest (35 R529). -/
def digestKey (c : Cohort) (convoy lane : Nat) : List Byte :=
  if c.payloads.isEmpty then bytesOf c.linear 8 ++ bytesOf (32 * convoy + lane) 8
  else
    let x := c.payloads.getD lane 0
    bytesOf (x - slice x 383 352 * 2 ^ 352) 64

/-- The clause that the focused session convoy has begun is added to the digest (35 R529). -/
def digestClause (s t : State) : State :=
  match t.session, s.cv.clause with
  | some x, some k =>
    if !(s.ch.session) || x.running.isNone || !(k.fresh && k.wait.isNone) then t
    else
      let ls := lanes k.mask
      let n (l : Nat) : Nat := NMap.get 0 s.cv.dig l
      let h (l : Nat) : BitVec 256 :=
        BitVec.ofNat 256 (natOfBytes (shake256 (digestKey s.ch s.cv.id l ++ bytesOf k.pc 8 ++ bytesOf (n l) 4) 32))
      let d := (ls.map h).foldl (· + ·) x.digest
      let f (v : Convoy) : Convoy := { v with dig := ls.foldl (fun m l => NMap.set 0 m l (n l + 1)) v.dig }
      let t1 := { t with session := some { x with digest := d } }
      if t1.focus && decide (t1.ch.uid = s.ch.uid) then mapConvoy t1 s.cv.id f else t1
  | _, _ => t

/-- Whether nothing counts. -/
def quietCounters (t : State) : Bool := t.session.isNone && !(t.ctrs.any (fun e => e.2.en))

/-- What a step adds to the counters and the digest: `tried` is set where the focused convoy tried to issue the instruction. -/
def tally (s : State) (i : Instr) (tried : Bool) (t : State) : State :=
  if quietCounters t then t
  else
    let counts (c : Cohort) : Bool := t.session.isNone || c.session
    let issued := tried && hasIssued s t
    let t1 := if issued then bump s.ch.core s.ch.uid (counts s.ch) (issueEvents s t i) t else t
    let t2 := (allCohorts s).foldl (fun u c =>
      match (allCohorts t).find? (fun d => d.uid = c.uid) with
      | some d => bump c.core c.uid (counts c) (cohortEvents s t c d i) u
      | none => u) t1
    bumpOpen (if issued then digestClause s t2 else t2)

/-- The outcome of a step with what it counts. -/
def counted (s : State) (i : Instr) (tried : Bool) (o : Out) : Out :=
  match o with
  | .next t => .next (tally s i tried t)
  | .fault f => .fault f
  | .refused r => .refused r

end Sys2Proof.Machine
end

