-- ==== Sys2Proof/Machine/Flt.lean ====
section
/-! DEFINITION. The FLT and PKD classes (14 R254 to R277): float arithmetic, compares, conversions, the special functions,
packed arithmetic, dot products and the packing of narrow formats. -/

namespace Sys2Proof.Machine

/-- FVal of a 32-bit register read as binary32, flushed (14 R259). -/
def f32In (ftzi : Bool) (x : Word) : FV := flush .f32 ftzi (fval .f32 x.toNat)

/-- FVal of a pair read as binary64, flushed (14 R259). -/
def f64In (ftzi : Bool) (x : DWord) : FV := flush .f64 ftzi (fval .f64 x.toNat)

/-- Enc of FResult in a format (14 R258). -/
def outF (fmt : Fmt) (rm : RMode) (sat ftzo : Bool) (v : FV) : DWord :=
  BitVec.ofNat 64 (enc fmt (fresult fmt rm sat ftzo v))

/-- An FP32 instruction of one operand, of fixed latency. -/
def fltOp1 (st : Stall) (d : Dst) (a : Src) (g : RMode → Word → DWord) (s : State) : Out :=
  fixedOp st 4 [⟨0, a, 1⟩] [] d 1 (fun s t => g (clauseRm s) (rd32 s a t)) s

/-- An FP32 instruction of two operands, of fixed latency. -/
def fltOp2 (st : Stall) (d : Dst) (a b : Src) (g : RMode → Word → Word → DWord) (s : State) : Out :=
  fixedOp st 4 [⟨0, a, 1⟩, ⟨1, b, 1⟩] [] d 1 (fun s t => g (clauseRm s) (rd32 s a t) (rd32 s b t)) s

/-- An instruction of three 32-bit operands, of fixed latency. -/
def fltOp3 (st : Stall) (lat : Nat) (d : Dst) (a b c : Src) (g : RMode → Word → Word → Word → DWord) (s : State) : Out :=
  fixedOp st lat [⟨0, a, 1⟩, ⟨1, b, 1⟩, ⟨2, c, 1⟩] [] d 1
    (fun s t => g (clauseRm s) (rd32 s a t) (rd32 s b t) (rd32 s c t)) s

/-- An FP64 instruction of two operands, of fixed latency. -/
def dblOp2 (st : Stall) (d : Dst) (a b : Src) (g : RMode → DWord → DWord → DWord) (s : State) : Out :=
  fixedOp st 6 [⟨0, a, 2⟩, ⟨1, b, 2⟩] [] d 2 (fun s t => g (clauseRm s) (rd64 s a t) (rd64 s b t)) s

/-- FADD (14 R259). -/
def faddV (f : FFlags) (rm : RMode) (a b : Word) : DWord := outF .f32 rm f.sat f.ftzo (fsum rm (f32In f.ftzi a) (f32In f.ftzi b))

/-- FSUB (14 R259). -/
def fsubV (f : FFlags) (rm : RMode) (a b : Word) : DWord :=
  outF .f32 rm f.sat f.ftzo (fsum rm (f32In f.ftzi a) (f32In f.ftzi b).flip)

/-- FMUL (14 R259). -/
def fmulV (f : FFlags) (rm : RMode) (a b : Word) : DWord := outF .f32 rm f.sat f.ftzo (fprod (f32In f.ftzi a) (f32In f.ftzi b))

/-- FFMA (14 R259). -/
def ffmaV (f : FFlags) (rm : RMode) (a b c : Word) : DWord :=
  outF .f32 rm f.sat f.ftzo (fsum rm (fprod (f32In f.ftzi a) (f32In f.ftzi b)) (f32In f.ftzi c))

/-- DADD (14 R259). -/
def daddV (f : FFlags) (rm : RMode) (a b : DWord) : DWord := outF .f64 rm f.sat f.ftzo (fsum rm (f64In f.ftzi a) (f64In f.ftzi b))

/-- DMUL (14 R259). -/
def dmulV (f : FFlags) (rm : RMode) (a b : DWord) : DWord := outF .f64 rm f.sat f.ftzo (fprod (f64In f.ftzi a) (f64In f.ftzi b))

/-- DFMA (14 R259). -/
def dfmaV (f : FFlags) (rm : RMode) (a b c : DWord) : DWord :=
  outF .f64 rm f.sat f.ftzo (fsum rm (fprod (f64In f.ftzi a) (f64In f.ftzi b)) (f64In f.ftzi c))

/-- FMIN, FMAX and DMINMAX on encodings of a format (14 R260). -/
def minmaxV (fmt : Fmt) (ftzi ftzo max : Bool) (a b : Nat) : Nat :=
  enc fmt (flush fmt ftzo (fminmax max (flush fmt ftzi (fval fmt a)) (flush fmt ftzi (fval fmt b))))

/-- FNEGABS (14 R262). -/
def negabsV (op : NegOp) (a : Word) : Word :=
  match fval .f32 a.toNat, op with
  | .nan, _ => BitVec.ofNat 32 (Fmt.canonNaN .f32)
  | _, .neg => a ^^^ 0x80000000#32
  | _, .abs => a &&& 0x7FFFFFFF#32
  | _, .nabs => a ||| 0x80000000#32

/-- FSCALE (14 R265). Beyond ±1000 the exponent changes no rounded result. -/
def fscaleV (f : FFlags) (rm : RMode) (a b : Word) : DWord :=
  let n : Int := min (max (sx b) (-1000)) 1000
  outF .f32 rm f.sat f.ftzo (match f32In f.ftzi a with
    | .fin x => .fin (x.shift n)
    | v => v)

/-- Registers a format takes (14 R254). -/
def fmtWords (f : Fmt) : Nat := if f.width = 64 then 2 else 1

/-- A scalar result in its register: integers extended, 16-bit floats with zeros above (14 R254). -/
def extend (f : Fmt) (x : Nat) : DWord :=
  if f.width = 64 then BitVec.ofNat 64 x
  else if f.signed then (wordOfInt (sextN f.width x)).setWidth 64 else BitVec.ofNat 64 x

/-- FCVTI, ICVTF and DCVT on a source value (14 R266). -/
def convertV (src tgt : Fmt) (rm : RMode) (f : FFlags) (x : DWord) : DWord :=
  extend tgt (convert src tgt rm f (x.toNat % 2 ^ src.width))

/-- A scalar conversion (14 R266). -/
def convOp (st : Stall) (d : Dst) (a : Src) (src tgt : Fmt) (f : FFlags) (s : State) : Out :=
  fixedOp st 4 [⟨0, a, fmtWords src⟩] [] d (fmtWords tgt) (fun s t => convertV src tgt (clauseRm s) f (rd64 s a t)) s

/-- A special function of one FP32 operand, always rounded to nearest (14 R268). -/
def specialOp (st : Stall) (d : Dst) (a : Src) (ftzi ftzo : Bool) (t : Tok) (g : FV → FV) (s : State) : Out :=
  valueOp st t [⟨0, a, 1⟩] d 1
    (fun s k => BitVec.ofNat 64 (enc .f32 (specialOut ftzo (g (f32In ftzi (rd32 s a k)))))) s

/-- One element of a packed register (14 R270). -/
def elem (w x k : Nat) : Nat := (x >>> (w * k)) % 2 ^ w

/-- A packed register from its elements, lowest first. -/
def packed (w : Nat) (xs : List Nat) : DWord :=
  BitVec.ofNat 64 ((xs.zipIdx).foldl (fun acc e => acc + (e.1 % 2 ^ w) * 2 ^ (w * e.2)) 0)

/-- A 16-bit element read and flushed (14 R270). -/
def halfIn (fa : Fmt) (ftzi : Bool) (x : Word) (k : Nat) : FV := flush fa ftzi (fval fa (elem 16 x.toNat k))

/-- The two results of a packed 16-bit instruction (14 R270). -/
def halves (fa : Fmt) (rm : RMode) (f : FFlags) (g : Nat → FV) : DWord :=
  packed 16 [enc fa (fresult fa rm f.sat f.ftzo (g 0)), enc fa (fresult fa rm f.sat f.ftzo (g 1))]

/-- HADD2 (14 R270). -/
def hadd2V (fa : Fmt) (f : FFlags) (rm : RMode) (a b : Word) : DWord :=
  halves fa rm f (fun k => fsum rm (halfIn fa f.ftzi a k) (halfIn fa f.ftzi b k))

/-- HMUL2 (14 R270). -/
def hmul2V (fa : Fmt) (f : FFlags) (rm : RMode) (a b : Word) : DWord :=
  halves fa rm f (fun k => fprod (halfIn fa f.ftzi a k) (halfIn fa f.ftzi b k))

/-- HFMA2 (14 R270). -/
def hfma2V (fa : Fmt) (f : FFlags) (rm : RMode) (a b c : Word) : DWord :=
  halves fa rm f (fun k => fsum rm (fprod (halfIn fa f.ftzi a k) (halfIn fa f.ftzi b k)) (halfIn fa f.ftzi c k))

/-- The float dot products: n elements of width w (14 R271). -/
def dotF (n w : Nat) (fa fb : Fmt) (ftzi ftzo : Bool) (rm : RMode) (a b c : Word) : DWord :=
  let ps := (List.range n).map (fun k =>
    fprod (flush fa ftzi (fval fa (elem w a.toNat k))) (flush fb ftzi (fval fb (elem w b.toNat k))))
  BitVec.ofNat 64 (enc .f32 (alignedSum ps (fval .f32 c.toNat) 40 .f32 rm ftzi ftzo))

/-- The integer dot products (14 R272). -/
def dotI (n w : Nat) (fa fb : Fmt) (sat : Bool) (a b c : Word) : DWord :=
  let x := (List.range n).foldl (fun acc k => acc + ival fa (elem w a.toNat k) * ival fb (elem w b.toNat k)) (sx c)
  (wordOfInt (if sat then clampI32 x else x)).setWidth 64

/-- One element of PACK (14 R273). -/
def packElem (fa : Fmt) (rm : RMode) (f : FFlags) (x : Word) : Nat :=
  if fa.isFloat then convert .f32 fa rm f x.toNat else convert .i32 fa rm f x.toNat

/-- PACK (14 R273). -/
def packV (fa : Fmt) (f : FFlags) (e : Nat) (rm : RMode) (a b c : Word) : DWord :=
  let w := fa.width
  packed w ((List.range (32 / w)).map (fun k =>
    if k = 2 * e then packElem fa rm f a else if k = 2 * e + 1 then packElem fa rm f b else elem w c.toNat k))

/-- UNPACK (14 R274). -/
def unpackV (fa : Fmt) (ftzi : Bool) (j : Nat) (a : Word) : DWord :=
  let x := elem fa.width a.toNat j
  if fa.isFloat then BitVec.ofNat 64 (convert fa .f32 .rne ⟨ftzi, false, false⟩ x) else extend fa x

/-- SCL (14 R275). -/
def sclV (fa : Fmt) (f : FFlags) (rm : RMode) (a b : Word) : DWord :=
  let w := fa.width
  packed w ((List.range (32 / w)).map (fun k =>
    enc fa (convFF fa fa rm ⟨false, f.ftzo, f.sat⟩ (fprod (flush fa f.ftzi (fval fa (elem w a.toNat k))) (f32In f.ftzi b)))))

/-- HCVT (14 R277). -/
def hcvtV (fa fb : Fmt) (f : FFlags) (rm : RMode) (a : Word) : DWord :=
  packed 16 [convert fa fb rm f (elem 16 a.toNat 0), convert fa fb rm f (elem 16 a.toNat 1)]

/-- FADD (14 R259). -/
def execFadd (st : Stall) (d : Dst) (a b : Src) (f : FFlags) (s : State) : Out :=
  fltOp2 st d a b (faddV f) s

/-- FSUB (14 R259). -/
def execFsub (st : Stall) (d : Dst) (a b : Src) (f : FFlags) (s : State) : Out :=
  fltOp2 st d a b (fsubV f) s

/-- FMUL (14 R259). -/
def execFmul (st : Stall) (d : Dst) (a b : Src) (f : FFlags) (s : State) : Out :=
  fltOp2 st d a b (fmulV f) s

/-- FFMA (14 R259). -/
def execFfma (st : Stall) (d : Dst) (a b c : Src) (f : FFlags) (s : State) : Out :=
  fltOp3 st 4 d a b c (ffmaV f) s

/-- FMIN (14 R260). -/
def execFmin (st : Stall) (d : Dst) (a b : Src) (ftzi ftzo : Bool) (s : State) : Out :=
  fltOp2 st d a b (fun _ x y => BitVec.ofNat 64 (minmaxV .f32 ftzi ftzo false x.toNat y.toNat)) s

/-- FMAX (14 R260). -/
def execFmax (st : Stall) (d : Dst) (a b : Src) (ftzi ftzo : Bool) (s : State) : Out :=
  fltOp2 st d a b (fun _ x y => BitVec.ofNat 64 (minmaxV .f32 ftzi ftzo true x.toNat y.toNat)) s

/-- FCMP (14 R261). -/
def execFcmp (st : Stall) (p : Pn) (a b : Src) (cond : Cond) (s : State) : Out :=
  predOp st 4 [⟨0, a, 1⟩, ⟨1, b, 1⟩] [] p.toNat
    (fun s t => fcond cond (fval .f32 (rd32 s a t).toNat) (fval .f32 (rd32 s b t).toNat)) s

/-- FNEGABS (14 R262). -/
def execFnegabs (st : Stall) (d : Dst) (a : Src) (op : NegOp) (s : State) : Out :=
  fltOp1 st d a (fun _ x => (negabsV op x).setWidth 64) s

/-- FRND (14 R264). -/
def execFrnd (st : Stall) (d : Dst) (a : Src) (ftzi ftzo : Bool) (s : State) : Out :=
  fltOp1 st d a (fun rm x => outF .f32 rm false ftzo (frndV rm (f32In ftzi x))) s

/-- FCVTI (14 R266). -/
def execFcvti (st : Stall) (d : Dst) (a : Src) (src dst : Fmt) (f : FFlags) (s : State) : Out :=
  convOp st d a src dst f s

/-- ICVTF (14 R266). -/
def execIcvtf (st : Stall) (d : Dst) (a : Src) (src dst : Fmt) (f : FFlags) (s : State) : Out :=
  convOp st d a src dst f s

/-- DCVT (14 R266). -/
def execDcvt (st : Stall) (d : Dst) (a : Src) (src dst : Fmt) (f : FFlags) (s : State) : Out :=
  convOp st d a src dst f s

/-- FRCP (14 R267). -/
def execFrcp (st : Stall) (d : Dst) (a : Src) (ftzi ftzo : Bool) (t : Tok) (s : State) : Out :=
  valueOp st t [⟨0, a, 1⟩] d 1
    (fun s k => outF .f32 (clauseRm s) false ftzo (fquot (.fin (Q.ofInt 1)) (f32In ftzi (rd32 s a k)))) s

/-- FSQRT (14 R267). -/
def execFsqrt (st : Stall) (d : Dst) (a : Src) (ftzi ftzo : Bool) (t : Tok) (s : State) : Out :=
  valueOp st t [⟨0, a, 1⟩] d 1
    (fun s k => outF .f32 (clauseRm s) false ftzo (fsqrtV 300 (f32In ftzi (rd32 s a k)))) s

/-- FRSQ (14 R268). -/
def execFrsq (st : Stall) (d : Dst) (a : Src) (ftzi ftzo : Bool) (t : Tok) (s : State) : Out :=
  specialOp st d a ftzi ftzo t frsqV s

/-- FEXP2 (14 R268). -/
def execFexp2 (st : Stall) (d : Dst) (a : Src) (ftzi ftzo : Bool) (t : Tok) (s : State) : Out :=
  specialOp st d a ftzi ftzo t fexp2V s

/-- FLOG2 (14 R268). -/
def execFlog2 (st : Stall) (d : Dst) (a : Src) (ftzi ftzo : Bool) (t : Tok) (s : State) : Out :=
  specialOp st d a ftzi ftzo t flog2V s

/-- FSIN (14 R268). -/
def execFsin (st : Stall) (d : Dst) (a : Src) (ftzi ftzo : Bool) (t : Tok) (s : State) : Out :=
  specialOp st d a ftzi ftzo t fsinV s

/-- FCOS (14 R268). -/
def execFcos (st : Stall) (d : Dst) (a : Src) (ftzi ftzo : Bool) (t : Tok) (s : State) : Out :=
  specialOp st d a ftzi ftzo t fcosV s

/-- FDIV (14 R267). -/
def execFdiv (st : Stall) (d : Dst) (a b : Src) (f : FFlags) (t : Tok) (s : State) : Out :=
  valueOp st t [⟨0, a, 1⟩, ⟨1, b, 1⟩] d 1
    (fun s k => outF .f32 (clauseRm s) f.sat f.ftzo (fquot (f32In f.ftzi (rd32 s a k)) (f32In f.ftzi (rd32 s b k)))) s

/-- DADD (14 R259). -/
def execDadd (st : Stall) (d : Dst) (a b : Src) (f : FFlags) (s : State) : Out :=
  dblOp2 st d a b (daddV f) s

/-- DMUL (14 R259). -/
def execDmul (st : Stall) (d : Dst) (a b : Src) (f : FFlags) (s : State) : Out :=
  dblOp2 st d a b (dmulV f) s

/-- DFMA (14 R259). -/
def execDfma (st : Stall) (d : Dst) (a b c : Src) (f : FFlags) (s : State) : Out :=
  fixedOp st 6 [⟨0, a, 2⟩, ⟨1, b, 2⟩, ⟨2, c, 2⟩] [] d 2
    (fun s t => dfmaV f (clauseRm s) (rd64 s a t) (rd64 s b t) (rd64 s c t)) s

/-- DMINMAX (14 R260). -/
def execDminmax (st : Stall) (d : Dst) (a b : Src) (ftzi ftzo max : Bool) (s : State) : Out :=
  dblOp2 st d a b (fun _ x y => BitVec.ofNat 64 (minmaxV .f64 ftzi ftzo max x.toNat y.toNat)) s

/-- DCMP (14 R261). -/
def execDcmp (st : Stall) (p : Pn) (a b : Src) (cond : Cond) (s : State) : Out :=
  predOp st 6 [⟨0, a, 2⟩, ⟨1, b, 2⟩] [] p.toNat
    (fun s t => fcond cond (fval .f64 (rd64 s a t).toNat) (fval .f64 (rd64 s b t).toNat)) s

/-- DSQRT (14 R267). -/
def execDsqrt (st : Stall) (d : Dst) (a : Src) (f : FFlags) (t : Tok) (s : State) : Out :=
  valueOp st t [⟨0, a, 2⟩] d 2
    (fun s k => outF .f64 (clauseRm s) false f.ftzo (fsqrtV 1300 (f64In f.ftzi (rd64 s a k)))) s

/-- DDIV (14 R267). -/
def execDdiv (st : Stall) (d : Dst) (a b : Src) (f : FFlags) (t : Tok) (s : State) : Out :=
  valueOp st t [⟨0, a, 2⟩, ⟨1, b, 2⟩] d 2
    (fun s k => outF .f64 (clauseRm s) f.sat f.ftzo (fquot (f64In f.ftzi (rd64 s a k)) (f64In f.ftzi (rd64 s b k)))) s

/-- FCLASS (14 R263). -/
def execFclass (st : Stall) (d : Dst) (a : Src) (s : State) : Out :=
  fltOp1 st d a (fun _ x => (fclassW x).setWidth 64) s

/-- FSCALE (14 R265). -/
def execFscale (st : Stall) (d : Dst) (a b : Src) (f : FFlags) (s : State) : Out :=
  fltOp2 st d a b (fscaleV f) s

/-- HADD2 (14 R270). -/
def execHadd2 (st : Stall) (d : Dst) (a b : Src) (fa : Fmt) (f : FFlags) (s : State) : Out :=
  fltOp2 st d a b (hadd2V fa f) s

/-- HMUL2 (14 R270). -/
def execHmul2 (st : Stall) (d : Dst) (a b : Src) (fa : Fmt) (f : FFlags) (s : State) : Out :=
  fltOp2 st d a b (hmul2V fa f) s

/-- HFMA2 (14 R270). -/
def execHfma2 (st : Stall) (d : Dst) (a b c : Src) (fa : Fmt) (f : FFlags) (s : State) : Out :=
  fltOp3 st 4 d a b c (hfma2V fa f) s

/-- HMINMAX2 (14 R270). -/
def execHminmax2 (st : Stall) (d : Dst) (a b : Src) (fa : Fmt) (ftzi ftzo max : Bool) (s : State) : Out :=
  fltOp2 st d a b (fun _ x y => packed 16 ((List.range 2).map (fun k =>
    minmaxV fa ftzi ftzo max (elem 16 x.toNat k) (elem 16 y.toNat k)))) s

/-- DOT2H (14 R271). -/
def execDot2h (st : Stall) (d : Dst) (a b c : Src) (fa fb : Fmt) (ftzi ftzo : Bool) (s : State) : Out :=
  fltOp3 st 5 d a b c (dotF 2 16 fa fb ftzi ftzo) s

/-- DOT4F8 (14 R271). -/
def execDot4f8 (st : Stall) (d : Dst) (a b c : Src) (fa fb : Fmt) (ftzi ftzo : Bool) (s : State) : Out :=
  fltOp3 st 5 d a b c (dotF 4 8 fa fb ftzi ftzo) s

/-- DOT8F4 (14 R271). -/
def execDot8f4 (st : Stall) (d : Dst) (a b c : Src) (ftzi ftzo : Bool) (s : State) : Out :=
  fltOp3 st 5 d a b c (dotF 8 4 .f4 .f4 ftzi ftzo) s

/-- DOT4I8 (14 R272). -/
def execDot4i8 (st : Stall) (d : Dst) (a b c : Src) (fa fb : Fmt) (sat : Bool) (s : State) : Out :=
  fltOp3 st 5 d a b c (fun _ => dotI 4 8 fa fb sat) s

/-- DOT8I4 (14 R272). -/
def execDot8i4 (st : Stall) (d : Dst) (a b c : Src) (fa fb : Fmt) (sat : Bool) (s : State) : Out :=
  fltOp3 st 5 d a b c (fun _ => dotI 8 4 fa fb sat) s

/-- PACK (14 R273). -/
def execPack (st : Stall) (d : Dst) (a b c : Src) (fa : Fmt) (f : FFlags) (pair : Fin 4) (s : State) : Out :=
  fltOp3 st 4 d a b c (packV fa f pair.val) s

/-- UNPACK (14 R274). -/
def execUnpack (st : Stall) (d : Dst) (a : Src) (fa : Fmt) (ftzi : Bool) (el : Fin 8) (s : State) : Out :=
  fltOp1 st d a (fun _ x => unpackV fa ftzi el.val x) s

/-- SCL (14 R275). -/
def execScl (st : Stall) (d : Dst) (a b : Src) (fa : Fmt) (f : FFlags) (s : State) : Out :=
  fltOp2 st d a b (sclV fa f) s

/-- PRMT (14 R276). -/
def execPrmt (st : Stall) (d : Dst) (a b c : Src) (sgn : Bool) (s : State) : Out :=
  fltOp3 st 4 d a b c (fun _ x y z => (prmtW sgn x y z).setWidth 64) s

/-- HCVT (14 R277). -/
def execHcvt (st : Stall) (d : Dst) (a : Src) (fa fb : Fmt) (f : FFlags) (s : State) : Out :=
  fltOp1 st d a (hcvtV fa fb f) s

end Sys2Proof.Machine
end

