-- ==== Sys2Proof/Machine/Int.lean ====
section
/-! DEFINITION. The INT class (13 R234 to R253): integer arithmetic, logic, shifts, bit fields, compares, selection, address
formation, predicate logic and the index registers. Fixed latency 2 (10 R197), but for XGET. -/

namespace Sys2Proof.Machine

/-- An INT instruction with one 32-bit source and a 32-bit result. -/
def intOp1 (st : Stall) (d : Dst) (a : Src) (f : Word → Word) (s : State) : Out :=
  fixedOp st 2 [⟨0, a, 1⟩] [] d 1 (fun s t => (f (rd32 s a t)).setWidth 64) s

/-- An INT instruction with two 32-bit sources and a 32-bit result. -/
def intOp2 (st : Stall) (d : Dst) (a b : Src) (f : Word → Word → Word) (s : State) : Out :=
  fixedOp st 2 [⟨0, a, 1⟩, ⟨1, b, 1⟩] [] d 1 (fun s t => (f (rd32 s a t) (rd32 s b t)).setWidth 64) s

/-- An INT instruction with three 32-bit sources and a 32-bit result. -/
def intOp3 (st : Stall) (d : Dst) (a b c : Src) (f : Word → Word → Word → Word) (s : State) : Out :=
  fixedOp st 2 [⟨0, a, 1⟩, ⟨1, b, 1⟩, ⟨2, c, 1⟩] [] d 1
    (fun s t => (f (rd32 s a t) (rd32 s b t) (rd32 s c t)).setWidth 64) s

/-- IADD (13 R237). -/
def execIadd (st : Stall) (d : Dst) (a b : Src) (sat : Bool) (s : State) : Out :=
  intOp2 st d a b (addSat sat) s

/-- ISUB (13 R237). -/
def execIsub (st : Stall) (d : Dst) (a b : Src) (sat : Bool) (s : State) : Out :=
  intOp2 st d a b (subSat sat) s

/-- IADDI (13 R237). -/
def execIaddi (st : Stall) (d : Dst) (a : Src) (imm : BitVec 10) (s : State) : Out :=
  intOp1 st d a (fun x => addSat false x (imm.signExtend 32)) s

/-- IMUL (13 R238). -/
def execImul (st : Stall) (d : Dst) (a b : Src) (v : MulVar) (s : State) : Out :=
  match v with
  | .wide => fixedOp st 2 [⟨0, a, 1⟩, ⟨1, b, 1⟩] [] d 2 (fun s t => mulAddWide (rd32 s a t) (rd32 s b t) 0#64) s
  | .lo => intOp2 st d a b (fun x y => mulAdd32 .lo x y 0#32) s
  | .hi => intOp2 st d a b (fun x y => mulAdd32 .hi x y 0#32) s
  | .hin => intOp2 st d a b (fun x y => mulAdd32 .hin x y 0#32) s

/-- IMAD (13 R238). -/
def execImad (st : Stall) (d : Dst) (a b c : Src) (v : MulVar) (s : State) : Out :=
  match v with
  | .wide =>
    fixedOp st 2 [⟨0, a, 1⟩, ⟨1, b, 1⟩, ⟨2, c, 2⟩] [] d 2
      (fun s t => mulAddWide (rd32 s a t) (rd32 s b t) (rd64 s c t)) s
  | .lo => intOp3 st d a b c (mulAdd32 .lo) s
  | .hi => intOp3 st d a b c (mulAdd32 .hi) s
  | .hin => intOp3 st d a b c (mulAdd32 .hin) s

/-- IMIN (13 R239). -/
def execImin (st : Stall) (d : Dst) (a b : Src) (n : Bool) (s : State) : Out :=
  intOp2 st d a b (minW n) s

/-- IMAX (13 R239). -/
def execImax (st : Stall) (d : Dst) (a b : Src) (n : Bool) (s : State) : Out :=
  intOp2 st d a b (maxW n) s

/-- IABS (13 R239). -/
def execIabs (st : Stall) (d : Dst) (a : Src) (s : State) : Out :=
  intOp1 st d a absW s

/-- AND (13 R240). -/
def execAndb (st : Stall) (d : Dst) (a b : Src) (s : State) : Out :=
  intOp2 st d a b (fun x y => x &&& y) s

/-- OR (13 R240). -/
def execOrb (st : Stall) (d : Dst) (a b : Src) (s : State) : Out :=
  intOp2 st d a b (fun x y => x ||| y) s

/-- XOR (13 R240). -/
def execXorb (st : Stall) (d : Dst) (a b : Src) (s : State) : Out :=
  intOp2 st d a b (fun x y => x ^^^ y) s

/-- ANDN (13 R240). -/
def execAndn (st : Stall) (d : Dst) (a b : Src) (s : State) : Out :=
  intOp2 st d a b (fun x y => x &&& ~~~y) s

/-- SHF (13 R241). -/
def execShf (st : Stall) (d : Dst) (a b : Src) (op : ShOp) (s : State) : Out :=
  intOp2 st d a b (fun x y => shiftW op x y.toNat) s

/-- SHFI (13 R242). -/
def execShfi (st : Stall) (d : Dst) (a : Src) (op : ShOp) (n : BitVec 5) (s : State) : Out :=
  intOp1 st d a (fun x => shiftW op x n.toNat) s

/-- FSHF (13 R243). -/
def execFshf (st : Stall) (d : Dst) (a b c : Src) (right : Bool) (s : State) : Out :=
  intOp3 st d a b c (funnelW right) s

/-- BFE (13 R244). -/
def execBfe (st : Stall) (d : Dst) (a b : Src) (sgn : Bool) (s : State) : Out :=
  intOp2 st d a b (bfeW sgn) s

/-- BFI (13 R244). -/
def execBfi (st : Stall) (d : Dst) (a b c : Src) (s : State) : Out :=
  intOp3 st d a b c bfiW s

/-- BITS (13 R245). -/
def execBits (st : Stall) (d : Dst) (a : Src) (op : BitOp) (s : State) : Out :=
  intOp1 st d a (bitsW op) s

/-- ICMP (13 R246). -/
def execIcmp (st : Stall) (p : Pn) (a b : Src) (cond : Cond) (s : State) : Out :=
  predOp st 2 [⟨0, a, 1⟩, ⟨1, b, 1⟩] [] p.toNat (fun s t => icond cond (rd32 s a t) (rd32 s b t)) s

/-- ICMPI (13 R246). -/
def execIcmpi (st : Stall) (p : Pn) (cond : Cond) (a : Src) (imm : BitVec 10) (s : State) : Out :=
  predOp st 2 [⟨0, a, 1⟩] [] p.toNat (fun s t => icond cond (rd32 s a t) (imm.signExtend 32)) s

/-- SEL (13 R247). -/
def execSel (st : Stall) (d : Dst) (a b : Src) (k : Pn) (s : State) : Out :=
  fixedOp st 2 [⟨0, a, 1⟩, ⟨1, b, 1⟩] [k.toNat] d 1
    (fun s t => (if pred s k.toNat t then rd32 s a t else rd32 s b t).setWidth 64) s

/-- MOV (13 R240). -/
def execMov (st : Stall) (d : Dst) (a : Src) (s : State) : Out :=
  intOp1 st d a id s

/-- LEA (13 R248). -/
def execLea (st : Stall) (d : Dst) (a b : Src) (sh : Fin 5) (s : State) : Out :=
  fixedOp st 2 [⟨0, a, 2⟩, ⟨1, b, 1⟩] [] d 2 (fun s t => leaW sh.val (rd64 s a t) (rd32 s b t)) s

/-- IADDX (13 R248). -/
def execIaddx (st : Stall) (d : Dst) (a b : Src) (s : State) : Out :=
  fixedOp st 2 [⟨0, a, 2⟩, ⟨1, b, 2⟩] [] d 2 (fun s t => addX (rd64 s a t) (rd64 s b t)) s

/-- PLOP (13 R249). -/
def execPlop (st : Stall) (p : Pn) (na : Bool) (pa : Pn) (nb : Bool) (pb : Pn) (fn : LogFn) (s : State) : Out :=
  predOp st 2 [] [pa.toNat, pb.toNat] p.toNat
    (fun s t => logFn fn (pred s pa.toNat t ^^ na) (pred s pb.toNat t ^^ nb)) s

/-- PMOV.tor (13 R250). -/
def execPmovTor (st : Stall) (d : Dst) (s : State) : Out :=
  fixedOp st 2 [] [0, 1, 2, 3, 4, 5, 6] d 1 (fun s t => BitVec.ofNat 64 (predByte s t)) s

/-- The predicates that PMOV.fromr sets in a thread (13 R250). -/
def fromrWrites (a b : Word) (t : Nat) : List (Loc × DWord) :=
  ((List.range 7).filter (fun k => b.getLsbD k)).map (fun k => (Loc.pred k t, BitVec.ofNat 64 (b2n (a.getLsbD k))))

/-- PMOV.fromr (13 R250). -/
def execPmovFromr (st : Stall) (a b : Src) (s : State) : Out :=
  let us : List Use := [⟨0, a, 1⟩, ⟨1, b, 1⟩]
  let s := settleIdx s us none
  match checkUses s us none with
  | some e => faultOut s e
  | none =>
    let ls := (actLanes s).flatMap (fun t => (fromrWrites 0#32 (rd32 s b t) t).map (·.1))
    match checkReady s (useLocs s us ++ ls) with
    | some e => faultOut s e
    | none =>
      let s1 := settleReads s us []
      .next (retire st (writeFixed s1 2
        (((actLanes s1).filter (clean s1)).flatMap (fun t => fromrWrites (rd32 s1 a t) (rd32 s1 b t) t))))

/-- XSET (13 R251, R253). -/
def execXset (st : Stall) (a : Src) (idx : Bool) (x : Fin 4) (s : State) : Out :=
  let us : List Use := [⟨0, a, 1⟩]
  let s := settleIdx s us none
  match checkUses s us none with
  | some e => faultOut s e
  | none =>
    let s1 := settleReads s us []
    let v := rd32 s1 a (lowest s1)
    if !idx && (192 < v.toNat % 256 || 192 < v.toNat / 256 % 256) then
      faultOut s
        { kind := 0x06, sub := 0, mask := activeMask s
          aux := if 192 < v.toNat % 256 then v.toNat % 256 else v.toNat / 256 % 256 }
    else
      let ls : List Loc := if idx then (actLanes s).map (fun t => .idx x.val t) else [.lim x.val]
      match checkReady s (useLocs s us ++ ls) with
      | some e => faultOut s e
      | none =>
        let ws : List (Loc × DWord) :=
          if idx then ((actLanes s1).filter (clean s1)).map (fun t => (.idx x.val t, (rd32 s1 a t).setWidth 64))
          else if clean s1 (lowest s1) then [(.lim x.val, BitVec.ofNat 64 ((rd32 s1 a (lowest s1)).toNat % 65536))] else []
        .next (retire st (writeFixed s1 2 ws))

/-- XGET (13 R252). -/
def execXget (st : Stall) (d : Dst) (idx : Bool) (x : Fin 4) (t : Tok) (s : State) : Out :=
  let ls := (actLanes s).map (fun l => if idx then Loc.idx x.val l else .lim x.val)
  match checkReady s ls with
  | some e => faultOut s e
  | none =>
    valueOp st t [] d 1 (fun s l => BitVec.ofNat 64 (if idx then xIndex s x.val l else xBase s x.val + 256 * xLimit s x.val))
      (settleLocs s ls)

end Sys2Proof.Machine
end

