-- ==== Sys2Proof/Machine/MemIns.lean ====
section
/-! DEFINITION. The MEM class (15 R286 to R295) and the events of the memory system (03 R60, R63; 04 R82, R541). -/

namespace Sys2Proof.Machine

/-- No further check. -/
def noCheck (_ : State) : Option FaultRec := none

/-- LD (15 R286, R290). -/
def execLd (st : Stall) (d : Dst) (a b : Src) (w : MWidth) (acq : Bool) (l : Layout) (c : CacheOp) (t : Tok) (s : State) : Out :=
  memOp st t [⟨0, a, 2⟩, ⟨1, b, 1⟩] (some (d, widthWords w)) false false false false false noCheck
    (genAccs (widthBytes w) a (some b))
    (fun s as ps => groupUnits lineKey { newUnit s t .load with acq := acq, cache := c }
      (cleanPieces s (loadPieces s d (widthSigned w) l as ps))) s

/-- ST (15 R287, R290). -/
def execStg (st : Stall) (a b c : Src) (w : MWidth) (rel : Bool) (l : Layout) (k : CacheOp) (t : Tok) (s : State) : Out :=
  memOp st t [⟨0, a, 2⟩, ⟨1, b, 1⟩, ⟨2, c, widthWords w⟩] none true false false false false noCheck
    (genAccs (widthBytes w) a (some b))
    (fun s as ps => groupUnits lineKey { newUnit s t .store with rel := rel, cache := k }
      (cleanPieces s (storePieces s c l as ps))) s

/-- LDS (15 R286, R288): one unit for each bank request; a full-empty load makes one request for each thread. -/
def execLds (st : Stall) (d : Dst) (a b : Src) (w : MWidth) (l : Layout) (fe : FeQual) (t : Tok) (s : State) : Out :=
  memOp st t [⟨0, a, 1⟩, ⟨1, b, 1⟩] (some (d, widthWords w)) false false false false false noCheck
    (scrAccs (widthBytes w) a (some b))
    (fun s as ps =>
      let pieces := cleanPieces s (loadPieces s d (widthSigned w) l as ps)
      match fe with
      | .none => groupUnits wordKey (newUnit s t (.scrLoad false false)) (pieces.flatMap bankWords)
      | .fe => groupUnits (·.lane) { newUnit s t (.scrLoad true false) with acq := true } pieces
      | .feClr => groupUnits (·.lane) { newUnit s t (.scrLoad true true) with acq := true } pieces) s

/-- STS (15 R287, R288). -/
def execSts (st : Stall) (a b c : Src) (w : MWidth) (l : Layout) (setFull : Bool) (t : Tok) (s : State) : Out :=
  memOp st t [⟨0, a, 1⟩, ⟨1, b, 1⟩, ⟨2, c, widthWords w⟩] none true false false false false noCheck
    (scrAccs (widthBytes w) a (some b))
    (fun s as ps => groupUnits wordKey { newUnit s t (.scrStore setFull) with rel := setFull }
      ((cleanPieces s (storePieces s c l as ps)).flatMap bankWords)) s

/-- LDP (15 R286; 03 R64 to R66). -/
def execLdp (st : Stall) (d : Dst) (a b : Src) (w : MWidth) (t : Tok) (s : State) : Out :=
  memOp st t [⟨0, a, 1⟩, ⟨1, b, 1⟩] (some (d, widthWords w)) false false false false false noCheck
    (privAccs (widthBytes w) a b)
    (fun s as ps => groupUnits lineKey (newUnit s t .load) (cleanPieces s (loadPieces s d (widthSigned w) .lin as ps))) s

/-- STP (15 R287; 03 R64 to R66). -/
def execStp (st : Stall) (a b c : Src) (w : MWidth) (t : Tok) (s : State) : Out :=
  memOp st t [⟨0, a, 1⟩, ⟨1, b, 1⟩, ⟨2, c, widthWords w⟩] none true false false false false noCheck
    (privAccs (widthBytes w) a b)
    (fun s as ps => groupUnits lineKey (newUnit s t .store) (cleanPieces s (storePieces s c .lin as ps))) s

/-- LDC (15 R286, R290; 03 R56). -/
def execLdc (st : Stall) (d : Dst) (a b : Src) (w : MWidth) (t : Tok) (s : State) : Out :=
  memOp st t [⟨0, a, 1⟩, ⟨1, b, 1⟩] (some (d, widthWords w)) false false false false false
    (fun s => constCheck s (constAccs (widthBytes w) a b s))
    (constAccs (widthBytes w) a b)
    (fun s as ps => groupUnits lineKey (newUnit s t .load) (cleanPieces s (loadPieces s d (widthSigned w) .lin as ps))) s

/-- The Determinism check of a float-add atomic (15 R283 check 6, 09 R179). -/
def strictCheck (op : AtomOp) (accs : State → List Acc) (s : State) : Option FaultRec :=
  if op = .fadd && s.ch.strict then accFault 0x13 0 (accs s) else none

/-- The pieces of an atomic (15 R292). -/
def atomPieces (s : State) (d : Dst) (b c : Src) (wide : Bool) (l : Layout) (as : List Acc) (ps : List PSpan) : List Piece :=
  let n := if wide then 8 else 4
  (cleanPieces s (storePieces s b l as ps)).map (fun p =>
    { p with data := bytesOf (rd64 s b p.lane).toNat n, cmp := if wide then rd64 s c p.lane else (rd32 s c p.lane).setWidth 64,
             dst := spanDst s d p.lane 0 n })

/-- Bytes of an atomic. -/
def atomBytes (wide : Bool) : Nat := if wide then 8 else 4

/-- Registers of an atomic operand. -/
def atomWords (wide : Bool) : Nat := if wide then 2 else 1

/-- ATOM (15 R291, R292). -/
def execAtom (st : Stall) (d : Dst) (a b c : Src) (op : AtomOp) (wide : Bool) (o : MOrder) (l : Layout) (t : Tok) (s : State) :
    Out :=
  memOp st t [⟨0, a, 2⟩, ⟨1, b, atomWords wide⟩, ⟨2, c, atomWords wide⟩] (some (d, atomWords wide)) true true false true false
    (strictCheck op (genAccs (atomBytes wide) a none)) (genAccs (atomBytes wide) a none)
    (fun s as ps => (atomPieces s d b c wide l as ps).map (fun p =>
      { newUnit s t (if p.scr then .scrAtom op wide else .atom op wide) with
        pieces := [p], mask := unitMask (newUnit s t .value) [p.lane], acq := decide (o = .acq ∨ o = .acqrel), rel := decide (o = .rel ∨ o = .acqrel) })) s

/-- The scratch offsets of ATOMS compare under the layout (03 R71). -/
def execAtoms (st : Stall) (d : Dst) (a b c : Src) (op : AtomOp) (wide : Bool) (l : Layout) (t : Tok) (s : State) : Out :=
  memOp st t [⟨0, a, 1⟩, ⟨1, b, atomWords wide⟩, ⟨2, c, atomWords wide⟩] (some (d, atomWords wide)) true true false true false
    (strictCheck op (scrAccs (atomBytes wide) a none)) (scrAccs (atomBytes wide) a none)
    (fun s as ps => (atomPieces s d b c wide l as ps).map (fun p =>
      { newUnit s t (.scrAtom op wide) with pieces := [p], mask := unitMask (newUnit s t .value) [p.lane] })) s

/-- SCADD (15 R293): one addend of each thread for the gradient unit. -/
def execScadd (st : Stall) (a b : Src) (t : Tok) (s : State) : Out :=
  memOp st t [⟨0, a, 2⟩, ⟨1, b, 1⟩] none true true true false true noCheck (genAccs 4 a none)
    (fun s as ps => (cleanPieces s (storePieces s b .lin as ps)).map (fun p =>
      { newUnit s t .scadd with pieces := [p], mask := unitMask (newUnit s t .value) [p.lane] })) s

/-- FENCE (15 R294, 04 R85). -/
def execFence (st : Stall) (o : MOrder) (t : Tok) (s : State) : Out :=
  memOp st t [] none false false false false false noCheck (fun _ => []) (fun s _ _ => [newUnit s t (.fence o)]) s

/-- PREF (15 R295): refused addresses are dropped. -/
def execPref (st : Stall) (a b : Src) (cg : Bool) (t : Tok) (s : State) : Out :=
  memOp st t [⟨0, a, 2⟩, ⟨1, b, 1⟩] none false false false false false noCheck (fun _ => [])
    (fun s _ _ => groupUnits lineKey { newUnit s t .pref with cache := if cg then .cg else .ca }
      (cleanPieces s (prefPieces s (genAccs 1 a (some b) s)))) s

/-- MEM_REQUEST_COMPLETE (03 R60, 15 R284): unit k of the focused convoy. -/
def execMemRequestComplete (k : Nat) (stale : Bool) (s : State) : Out :=
  match s.cv.units[k]? with
  | none => .next s
  | some u =>
    if !(mayComplete s.cv u) then .next s
    else
      match u.kind with
      | .load => fcGate s (pieceLines false u.pieces) (.next (performLoad s u stale))
      | .store => fcGate s (pieceLines true u.pieces) (.next (performStore s u))
      | .scrLoad false _ => .next (performLoad s u false)
      | .scrLoad true clr =>
        if s.ch.feWait.any (· = (s.cv.id, u.seq)) || feEarly s u then .next s
        else if feBehind s u || !(feReady s u) then
          .next { s with ch := { s.ch with feWait := s.ch.feWait ++ [(s.cv.id, u.seq)] } }
        else .next (performFe s u clr)
      | .scrStore _ => .next (performStore s u)
      | .fence o => .next (performFence s u o)
      | .pref => fcGate s (pieceLines false u.pieces) (.next (performPref s u))
      | _ => .next s

/-- FE_WAIT_RETRY (03 R63): the first waiting load of a granule is served once its bit is set. -/
def execFeWaitRetry (granule : Nat) (s : State) : Out :=
  let on (w : Nat × Nat) : Bool :=
    (getConvoy s w.1).units.any (fun u => u.seq = w.2 && u.pieces.any (fun p => p.addr / 16 = granule))
  match s.ch.feWait.find? on with
  | none => .next s
  | some w =>
    let s1 := if s.cv.id = w.1 then s else focusConvoy s w.1
    match s1.cv.units.find? (fun u => u.seq = w.2) with
    | some u =>
      match u.kind with
      | .scrLoad true clr => if feReady s1 u && mayComplete s1.cv u then .next (performFe s1 u clr) else .next s
      | _ => .next s
    | none => .next s

/-- OWNERSHIP_REGISTER (04 R82, R541): store k of a core becomes visible. -/
def execOwnershipRegister (core k : Nat) (s : State) : Out :=
  match (s.pstores.filter (fun p => p.core = core))[k]? with
  | some p =>
    if storeFirst s p then fcGate s ((linesOf p.addr p.bytes.length).map (fun l => (l, true))) (.next (registerStore s p)) else .next s
  | none => .next s

/-- L1_COPY_EXPIRY (04 R541): a word that a core holds and does not own is dropped. -/
def execL1CopyExpiry (core addr : Nat) (s : State) : Out := .next (dropCopy s core (addr / 4 * 4) 4)

/-- ATOMIC_PERFORM (03 R70, 15 R292): unit k of the focused convoy. -/
def execAtomicPerform (k : Nat) (s : State) : Out :=
  match s.cv.units[k]? with
  | none => .next s
  | some u =>
    if !(mayComplete s.cv u) then .next s
    else
      match u.kind with
      | .atom op wide => fcGate s (pieceLines true u.pieces) (.next (performAtom s u op wide))
      | .scrAtom op wide => .next (performAtom s u op wide)
      | _ => .next s

end Sys2Proof.Machine
end

