-- ==== Sys2Proof/Machine/Dispatch.lean ====
section
/-! DEFINITION. The dispatcher: one arm per constructor, each one direct call of its meaning. -/

namespace Sys2Proof.Machine

def exec (i : Instr) (s : State) : Host.Outcome State Fault Refusal :=
  match i with
  | .iadd st d a b sat => Sys2Proof.Machine.execIadd st d a b sat s
  | .isub st d a b sat => Sys2Proof.Machine.execIsub st d a b sat s
  | .imul st d a b v => Sys2Proof.Machine.execImul st d a b v s
  | .imad st d a b c v => Sys2Proof.Machine.execImad st d a b c v s
  | .imin st d a b n => Sys2Proof.Machine.execImin st d a b n s
  | .imax st d a b n => Sys2Proof.Machine.execImax st d a b n s
  | .iabs st d a => Sys2Proof.Machine.execIabs st d a s
  | .andb st d a b => Sys2Proof.Machine.execAndb st d a b s
  | .orb st d a b => Sys2Proof.Machine.execOrb st d a b s
  | .xorb st d a b => Sys2Proof.Machine.execXorb st d a b s
  | .andn st d a b => Sys2Proof.Machine.execAndn st d a b s
  | .shf st d a b op => Sys2Proof.Machine.execShf st d a b op s
  | .fshf st d a b c right => Sys2Proof.Machine.execFshf st d a b c right s
  | .bfe st d a b sgn => Sys2Proof.Machine.execBfe st d a b sgn s
  | .bfi st d a b c => Sys2Proof.Machine.execBfi st d a b c s
  | .bits st d a op => Sys2Proof.Machine.execBits st d a op s
  | .icmp st p a b cond => Sys2Proof.Machine.execIcmp st p a b cond s
  | .sel st d a b k => Sys2Proof.Machine.execSel st d a b k s
  | .mov st d a => Sys2Proof.Machine.execMov st d a s
  | .lea st d a b sh => Sys2Proof.Machine.execLea st d a b sh s
  | .iaddx st d a b => Sys2Proof.Machine.execIaddx st d a b s
  | .plop st p na pa nb pb fn => Sys2Proof.Machine.execPlop st p na pa nb pb fn s
  | .pmovTor st d => Sys2Proof.Machine.execPmovTor st d s
  | .pmovFromr st a b => Sys2Proof.Machine.execPmovFromr st a b s
  | .xset st a idx x => Sys2Proof.Machine.execXset st a idx x s
  | .xget st d idx x t => Sys2Proof.Machine.execXget st d idx x t s
  | .iaddi st d a imm => Sys2Proof.Machine.execIaddi st d a imm s
  | .shfi st d a op n => Sys2Proof.Machine.execShfi st d a op n s
  | .icmpi st p cond a imm => Sys2Proof.Machine.execIcmpi st p cond a imm s
  | .fadd st d a b f => Sys2Proof.Machine.execFadd st d a b f s
  | .fsub st d a b f => Sys2Proof.Machine.execFsub st d a b f s
  | .fmul st d a b f => Sys2Proof.Machine.execFmul st d a b f s
  | .ffma st d a b c f => Sys2Proof.Machine.execFfma st d a b c f s
  | .fmin st d a b ftzi ftzo => Sys2Proof.Machine.execFmin st d a b ftzi ftzo s
  | .fmax st d a b ftzi ftzo => Sys2Proof.Machine.execFmax st d a b ftzi ftzo s
  | .fcmp st p a b cond => Sys2Proof.Machine.execFcmp st p a b cond s
  | .fnegabs st d a op => Sys2Proof.Machine.execFnegabs st d a op s
  | .frnd st d a ftzi ftzo => Sys2Proof.Machine.execFrnd st d a ftzi ftzo s
  | .fcvti st d a src dst f => Sys2Proof.Machine.execFcvti st d a src dst f s
  | .icvtf st d a src dst f => Sys2Proof.Machine.execIcvtf st d a src dst f s
  | .frcp st d a ftzi ftzo t => Sys2Proof.Machine.execFrcp st d a ftzi ftzo t s
  | .frsq st d a ftzi ftzo t => Sys2Proof.Machine.execFrsq st d a ftzi ftzo t s
  | .fsqrt st d a ftzi ftzo t => Sys2Proof.Machine.execFsqrt st d a ftzi ftzo t s
  | .fexp2 st d a ftzi ftzo t => Sys2Proof.Machine.execFexp2 st d a ftzi ftzo t s
  | .flog2 st d a ftzi ftzo t => Sys2Proof.Machine.execFlog2 st d a ftzi ftzo t s
  | .fsin st d a ftzi ftzo t => Sys2Proof.Machine.execFsin st d a ftzi ftzo t s
  | .fcos st d a ftzi ftzo t => Sys2Proof.Machine.execFcos st d a ftzi ftzo t s
  | .fdiv st d a b f t => Sys2Proof.Machine.execFdiv st d a b f t s
  | .dadd st d a b f => Sys2Proof.Machine.execDadd st d a b f s
  | .dmul st d a b f => Sys2Proof.Machine.execDmul st d a b f s
  | .dfma st d a b c f => Sys2Proof.Machine.execDfma st d a b c f s
  | .dminmax st d a b ftzi ftzo max => Sys2Proof.Machine.execDminmax st d a b ftzi ftzo max s
  | .dcmp st p a b cond => Sys2Proof.Machine.execDcmp st p a b cond s
  | .dcvt st d a src dst f => Sys2Proof.Machine.execDcvt st d a src dst f s
  | .dsqrt st d a f t => Sys2Proof.Machine.execDsqrt st d a f t s
  | .ddiv st d a b f t => Sys2Proof.Machine.execDdiv st d a b f t s
  | .fclass st d a => Sys2Proof.Machine.execFclass st d a s
  | .fscale st d a b f => Sys2Proof.Machine.execFscale st d a b f s
  | .hadd2 st d a b fa f => Sys2Proof.Machine.execHadd2 st d a b fa f s
  | .hmul2 st d a b fa f => Sys2Proof.Machine.execHmul2 st d a b fa f s
  | .hfma2 st d a b c fa f => Sys2Proof.Machine.execHfma2 st d a b c fa f s
  | .hminmax2 st d a b fa ftzi ftzo max => Sys2Proof.Machine.execHminmax2 st d a b fa ftzi ftzo max s
  | .dot2h st d a b c fa fb ftzi ftzo => Sys2Proof.Machine.execDot2h st d a b c fa fb ftzi ftzo s
  | .dot4i8 st d a b c fa fb sat => Sys2Proof.Machine.execDot4i8 st d a b c fa fb sat s
  | .dot8i4 st d a b c fa fb sat => Sys2Proof.Machine.execDot8i4 st d a b c fa fb sat s
  | .dot4f8 st d a b c fa fb ftzi ftzo => Sys2Proof.Machine.execDot4f8 st d a b c fa fb ftzi ftzo s
  | .dot8f4 st d a b c ftzi ftzo => Sys2Proof.Machine.execDot8f4 st d a b c ftzi ftzo s
  | .pack st d a b c fa f pair => Sys2Proof.Machine.execPack st d a b c fa f pair s
  | .unpack st d a fa ftzi el => Sys2Proof.Machine.execUnpack st d a fa ftzi el s
  | .scl st d a b fa f => Sys2Proof.Machine.execScl st d a b fa f s
  | .prmt st d a b c sgn => Sys2Proof.Machine.execPrmt st d a b c sgn s
  | .hcvt st d a fa fb f => Sys2Proof.Machine.execHcvt st d a fa fb f s
  | .ld st d a b w acq l c t => Sys2Proof.Machine.execLd st d a b w acq l c t s
  | .stg st a b c w rel l k t => Sys2Proof.Machine.execStg st a b c w rel l k t s
  | .lds st d a b w l fe t => Sys2Proof.Machine.execLds st d a b w l fe t s
  | .sts st a b c w l setFull t => Sys2Proof.Machine.execSts st a b c w l setFull t s
  | .ldp st d a b w t => Sys2Proof.Machine.execLdp st d a b w t s
  | .stp st a b c w t => Sys2Proof.Machine.execStp st a b c w t s
  | .ldc st d a b w t => Sys2Proof.Machine.execLdc st d a b w t s
  | .atom st d a b c op wide o l t => Sys2Proof.Machine.execAtom st d a b c op wide o l t s
  | .atoms st d a b c op wide l t => Sys2Proof.Machine.execAtoms st d a b c op wide l t s
  | .scadd st a b t => Sys2Proof.Machine.execScadd st a b t s
  | .fence st o t => Sys2Proof.Machine.execFence st o t s
  | .pref st a b cg t => Sys2Proof.Machine.execPref st a b cg t s
  | .bra st p neg off => Sys2Proof.Machine.execBra st p neg off s
  | .brx st a p => Sys2Proof.Machine.execBrx st a p s
  | .call st p neg off => Sys2Proof.Machine.execCall st p neg off s
  | .callx st a p => Sys2Proof.Machine.execCallx st a p s
  | .ret st => Sys2Proof.Machine.execRet st s
  | .exit st => Sys2Proof.Machine.execExit st s
  | .yield st => Sys2Proof.Machine.execYield st s
  | .joinw st p a => Sys2Proof.Machine.execJoinw st p a s
  | .vote st d inv pa => Sys2Proof.Machine.execVote st d inv pa s
  | .shfl st d a b op => Sys2Proof.Machine.execShfl st d a b op s
  | .matchl st d a b => Sys2Proof.Machine.execMatchl st d a b s
  | .redu st d a op fmt ftzi ftzo t => Sys2Proof.Machine.execRedu st d a op fmt ftzi ftzo t s
  | .binit st range a b t => Sys2Proof.Machine.execBinit st range a b t s
  | .barv st d a b t => Sys2Proof.Machine.execBarv st d a b t s
  | .bwait st p a b => Sys2Proof.Machine.execBwait st p a b s
  | .ticket st d a t => Sys2Proof.Machine.execTicket st d a t s
  | .tkwait st p => Sys2Proof.Machine.execTkwait st p s
  | .tkdone st p => Sys2Proof.Machine.execTkdone st p s
  | .spawn st a b first count t => Sys2Proof.Machine.execSpawn st a b first count t s
  | .spawnt st p a b first count t => Sys2Proof.Machine.execSpawnt st p a b first count t s
  | .junc st d a => Sys2Proof.Machine.execJunc st d a s
  | .jwait st p a => Sys2Proof.Machine.execJwait st p a s
  | .handoff st a b => Sys2Proof.Machine.execHandoff st a b s
  | .donate st p n tag => Sys2Proof.Machine.execDonate st p n tag s
  | .accept st p tag => Sys2Proof.Machine.execAccept st p tag s
  | .trap st code => Sys2Proof.Machine.execTrap st code s
  | .bpt st code => Sys2Proof.Machine.execBpt st code s
  | .nop st => Sys2Proof.Machine.execNop st s
  | .waitt st mask => Sys2Proof.Machine.execWaitt st mask s
  | .mclaim st p a t => Sys2Proof.Machine.execMclaim st p a t s
  | .mfree st a t => Sys2Proof.Machine.execMfree st a t s
  | .mldw st fmt slot t => Sys2Proof.Machine.execMldw st fmt slot t s
  | .mma st fmt slot acc ftzi ftzo t => Sys2Proof.Machine.execMma st fmt slot acc ftzi ftzo t s
  | .mzero st mask t => Sys2Proof.Machine.execMzero st mask t s
  | .mrd st d b acc wide t => Sys2Proof.Machine.execMrd st d b acc wide t s
  | .mwr st a b acc wide t => Sys2Proof.Machine.execMwr st a b acc wide t s
  | .mst st a b fmt l f acc kind t => Sys2Proof.Machine.execMst st a b fmt l f acc kind t s
  | .mld st a b fmt l f acc kind t => Sys2Proof.Machine.execMld st a b fmt l f acc kind t s
  | .mburst st n t => Sys2Proof.Machine.execMburst st n t s
  | .msync st t => Sys2Proof.Machine.execMsync st t s
  | .mslotw st a b slot wide t => Sys2Proof.Machine.execMslotw st a b slot wide t s
  | .mslotr st d b slot wide t => Sys2Proof.Machine.execMslotr st d b slot wide t s
  | .mredn st on t => Sys2Proof.Machine.execMredn st on t s
  | .ecopy st a b c follow bind rel acq t => Sys2Proof.Machine.execEcopy st a b c follow bind rel acq t s
  | .ecopys st a b c l bind rel acq t => Sys2Proof.Machine.execEcopys st a b c l bind rel acq t s
  | .echain st a b t => Sys2Proof.Machine.execEchain st a b t s
  | .eadv st a t => Sys2Proof.Machine.execEadv st a t s
  | .ewait st p a b => Sys2Proof.Machine.execEwait st p a b s
  | .coll st a b rel acq t => Sys2Proof.Machine.execColl st a b rel acq t s
  | .trec st v mask t => Sys2Proof.Machine.execTrec st v mask t s
  | .tpop st v p t => Sys2Proof.Machine.execTpop st v p t s
  | .tspan st v detour mask t => Sys2Proof.Machine.execTspan st v detour mask t s
  | .tseek st d t => Sys2Proof.Machine.execTseek st d t s
  | .travs st d a b c mode t => Sys2Proof.Machine.execTravs st d a b c mode t s
  | .travr st d a keep t => Sys2Proof.Machine.execTravr st d a keep t s
  | .trava st d a b c t => Sys2Proof.Machine.execTrava st d a b c t s
  | .txs st d a b t => Sys2Proof.Machine.execTxs st d a b t s
  | .txg st d a b c t => Sys2Proof.Machine.execTxg st d a b c t s
  | .rsub st a b c t => Sys2Proof.Machine.execRsub st a b c t s
  | .radj st d a b c t => Sys2Proof.Machine.execRadj st d a b c t s
  | .edge st d a b c t => Sys2Proof.Machine.execEdge st d a b c t s
  | .gscom st t => Sys2Proof.Machine.execGscom st t s
  | .pemit st p a b t => Sys2Proof.Machine.execPemit st p a b t s
  | .srd st d reg t => Sys2Proof.Machine.execSrd st d reg t s
  | .swr st a reg t => Sys2Proof.Machine.execSwr st a reg t s
  | .cctl st a op t => Sys2Proof.Machine.execCctl st a op t s
  | .pmc st ev k enable clear own t => Sys2Proof.Machine.execPmc st ev k enable clear own t s
  | .pmr st d k t => Sys2Proof.Machine.execPmr st d k t s
  | .clk st d ns t => Sys2Proof.Machine.execClk st d ns t s
  | .tlbh st a evict t => Sys2Proof.Machine.execTlbh st a evict t s
  | .scall st d a service t => Sys2Proof.Machine.execScall st d a service t s
  | .digestAbsorb st a b c slot t => Sys2Proof.Machine.execDigestAbsorb st a b c slot t s
  | .digestStep st a slot => Sys2Proof.Machine.execDigestStep st a slot s
  | .mode st op t => Sys2Proof.Machine.execMode st op t s
  | .eflt st op t => Sys2Proof.Machine.execEflt st op t s
  | .pwrh st level t => Sys2Proof.Machine.execPwrh st level t s
  | .qrd st d q t => Sys2Proof.Machine.execQrd st d q t s
  | .qwr st a q t => Sys2Proof.Machine.execQwr st a q t s
  | .lnch st a b t => Sys2Proof.Machine.execLnch st a b t s
  | .replay st op t => Sys2Proof.Machine.execReplay st op t s
  | .clauseFetch => Sys2Proof.Machine.execClauseFetch s
  | .clauseBoundary => Sys2Proof.Machine.execClauseBoundary s
  | .frontierAgeExpiry => Sys2Proof.Machine.execFrontierAgeExpiry s
  | .joinwTimeout pc => Sys2Proof.Machine.execJoinwTimeout pc s
  | .memRequestComplete k stale => Sys2Proof.Machine.execMemRequestComplete k stale s
  | .tokenUnitComplete k => Sys2Proof.Machine.execTokenUnitComplete k s
  | .feWaitRetry granule => Sys2Proof.Machine.execFeWaitRetry granule s
  | .ownershipRegister core k => Sys2Proof.Machine.execOwnershipRegister core k s
  | .l1CopyExpiry core addr => Sys2Proof.Machine.execL1CopyExpiry core addr s
  | .atomicPerform k => Sys2Proof.Machine.execAtomicPerform k s
  | .engineWriteLand k => Sys2Proof.Machine.execEngineWriteLand k s
  | .ticketAutoPass counter => Sys2Proof.Machine.execTicketAutoPass counter s
  | .copyCommandStart at_ => Sys2Proof.Machine.execCopyCommandStart at_ s
  | .copyElementRead at_ seq => Sys2Proof.Machine.execCopyElementRead at_ seq s
  | .milepostWrite at_ seq => Sys2Proof.Machine.execMilepostWrite at_ seq s
  | .followOnMmaHandover at_ seq => Sys2Proof.Machine.execFollowOnMmaHandover at_ seq s
  | .chainRecordTake at_ => Sys2Proof.Machine.execChainRecordTake at_ s
  | .mldwLatchComplete at_ => Sys2Proof.Machine.execMldwLatchComplete at_ s
  | .mmaPassComplete at_ differ => Sys2Proof.Machine.execMmaPassComplete at_ differ s
  | .matrixRampUpEnd core => Sys2Proof.Machine.execMatrixRampUpEnd core s
  | .matrixRampDownEnd core => Sys2Proof.Machine.execMatrixRampDownEnd core s
  | .mburstIdleExpiry core => Sys2Proof.Machine.execMburstIdleExpiry core s
  | .collCommandStart k => Sys2Proof.Machine.execCollCommandStart k s
  | .spawnQueueIdleTimeout core q => Sys2Proof.Machine.execSpawnQueueIdleTimeout core q s
  | .cohortRetire at_ => Sys2Proof.Machine.execCohortRetire at_ s
  | .handoffRendezvous at_ => Sys2Proof.Machine.execHandoffRendezvous at_ s
  | .rasterBatch => Sys2Proof.Machine.execRasterBatch s
  | .classifyResume => Sys2Proof.Machine.execClassifyResume s
  | .rbFragment rb => Sys2Proof.Machine.execRbFragment rb s
  | .textureSample core => Sys2Proof.Machine.execTextureSample core s
  | .travNodeStep at_ ray => Sys2Proof.Machine.execTravNodeStep at_ ray s
  | .travPrimitiveTest at_ ray => Sys2Proof.Machine.execTravPrimitiveTest at_ ray s
  | .gsuAddend k => Sys2Proof.Machine.execGsuAddend k s
  | .gsuCommit k => Sys2Proof.Machine.execGsuCommit k s
  | .pageWalk core root va => Sys2Proof.Machine.execPageWalk core root va s
  | .walkRetryTimer core root va => Sys2Proof.Machine.execWalkRetryTimer core root va s
  | .invpage cmd => Sys2Proof.Machine.execInvpage cmd s
  | .invspace cmd => Sys2Proof.Machine.execInvspace cmd s
  | .invall cmd => Sys2Proof.Machine.execInvall cmd s
  | .migrate cmd => Sys2Proof.Machine.execMigrate cmd s
  | .keyLoad => Sys2Proof.Machine.execKeyLoad s
  | .keyClear => Sys2Proof.Machine.execKeyClear s
  | .keyClearDone slot => Sys2Proof.Machine.execKeyClearDone slot s
  | .attestReport => Sys2Proof.Machine.execAttestReport s
  | .attestExtend => Sys2Proof.Machine.execAttestExtend s
  | .bar2Read off len => Sys2Proof.Machine.execBar2Read off len s
  | .bar2Write off bytes ep => Sys2Proof.Machine.execBar2Write off bytes ep s
  | .atomicopFetchadd off wide x => Sys2Proof.Machine.execAtomicopFetchadd off wide x s
  | .atomicopSwap off wide x => Sys2Proof.Machine.execAtomicopSwap off wide x s
  | .atomicopCas off wide cmp new => Sys2Proof.Machine.execAtomicopCas off wide cmp new s
  | .functionLevelReset => Sys2Proof.Machine.execFunctionLevelReset s
  | .packageReset => Sys2Proof.Machine.execPackageReset s
  | .tamgalReady => Sys2Proof.Machine.execTamgalReady s
  | .queueNotify record rcb => Sys2Proof.Machine.execQueueNotify record rcb s
  | .notifyLink => Sys2Proof.Machine.execNotifyLink s
  | .eventLogConfigWrite size x => Sys2Proof.Machine.execEventLogConfigWrite size x s
  | .eventLogTailWrite x => Sys2Proof.Machine.execEventLogTailWrite x s
  | .registerWrite off x => Sys2Proof.Machine.execRegisterWrite off x s
  | .version req => Sys2Proof.Machine.execVersion req s
  | .yieldq req => Sys2Proof.Machine.execYieldq req s
  | .sleep req => Sys2Proof.Machine.execSleep req s
  | .sleepExpiry cohort => Sys2Proof.Machine.execSleepExpiry cohort s
  | .log req => Sys2Proof.Machine.execLog req s
  | .regionupd req => Sys2Proof.Machine.execRegionupd req s
  | .halt req => Sys2Proof.Machine.execHalt req s
  | .kill req => Sys2Proof.Machine.execKill req s
  | .scallStatusDelivery k => Sys2Proof.Machine.execScallStatusDelivery k s
  | .slotBind at_ => Sys2Proof.Machine.execSlotBind at_ s
  | .slotEvict at_ => Sys2Proof.Machine.execSlotEvict at_ s
  | .slotGrowGrant at_ ctx => Sys2Proof.Machine.execSlotGrowGrant at_ ctx s
  | .bindRecordOtherWrite at_ state => Sys2Proof.Machine.execBindRecordOtherWrite at_ state s
  | .evictComplete at_ => Sys2Proof.Machine.execEvictComplete at_ s
  | .launchTake rcb => Sys2Proof.Machine.execLaunchTake rcb s
  | .bindDecision logical at_ tmask => Sys2Proof.Machine.execBindDecision logical at_ tmask s
  | .deadlinePassed rcb => Sys2Proof.Machine.execDeadlinePassed rcb s
  | .quantumCheck at_ => Sys2Proof.Machine.execQuantumCheck at_ s
  | .launchEnd k => Sys2Proof.Machine.execLaunchEnd k s
  | .energyDeduction at_ => Sys2Proof.Machine.execEnergyDeduction at_ s
  | .powerSample milliwatts temps => Sys2Proof.Machine.execPowerSample milliwatts temps s
  | .correctedError cls index => Sys2Proof.Machine.execCorrectedError cls index s
  | .uncorrectableError cls index unit => Sys2Proof.Machine.execUncorrectableError cls index unit s
  | .arrayRowMapOut core row => Sys2Proof.Machine.execArrayRowMapOut core row s
  | .hbmRowRepairDone row => Sys2Proof.Machine.execHbmRowRepairDone row s
  | .patrolScrub line bad => Sys2Proof.Machine.execPatrolScrub line bad s
  | .portRetrainDone port => Sys2Proof.Machine.execPortRetrainDone port s
  | .reads h => Sys2Proof.Machine.execReads h s
  | .reado h => Sys2Proof.Machine.execReado h s
  | .upgr h => Sys2Proof.Machine.execUpgr h s
  | .wback h data => Sys2Proof.Machine.execWback h data s
  | .fwd h data => Sys2Proof.Machine.execFwd h data s
  | .inv h => Sys2Proof.Machine.execInv h s
  | .recall h => Sys2Proof.Machine.execRecall h s
  | .censusStart h => Sys2Proof.Machine.execCensusStart h s
  | .censusLine h => Sys2Proof.Machine.execCensusLine h s
  | .censusEnd h => Sys2Proof.Machine.execCensusEnd h s
  | .censusClose h => Sys2Proof.Machine.execCensusClose h s
  | .fabricTimeout tag => Sys2Proof.Machine.execFabricTimeout tag s
  | .censusEndTimeout plane pkg => Sys2Proof.Machine.execCensusEndTimeout plane pkg s
  | .collData h seq data => Sys2Proof.Machine.execCollData h seq data s
  | .collAck h seq => Sys2Proof.Machine.execCollAck h seq s
  | .atomicRequest h seq data => Sys2Proof.Machine.execAtomicRequest h seq data s
  | .atomicResponse h seq old refused => Sys2Proof.Machine.execAtomicResponse h seq old refused s
  | .replayPassStart => Sys2Proof.Machine.execReplayPassStart s
  | .writesetCapture page => Sys2Proof.Machine.execWritesetCapture page s
  | .traversalContextReset at_ => Sys2Proof.Machine.execTraversalContextReset at_ s
  | .completionRingRead die n => Sys2Proof.Machine.execCompletionRingRead die n s
  | .l2WayWritebackDone way => Sys2Proof.Machine.execL2WayWritebackDone way s

end Sys2Proof.Machine
end

