-- ==== Sys2Proof/Machine/Step.lean ====
section
/-! DEFINITION. One step of the machine: the next choice of the schedule, or, with none, what the focused convoy
does next (01 R19, 10 R183, R185). -/

namespace Sys2Proof.Machine

/-- The issue of the focused convoy's next instruction (01 R19, 10 R183, R196; 12 R218), with what it counts (35 R523). -/
def issue (s : State) : Host.Outcome State Fault Refusal :=
  if eligible s then
    let s1 := passStall s
    match nextInstr s1 with
    | .error e => counted s .clauseFetch false (.next (takeFault (beginInstr s1 0) (decodeFault s1 e)))
    | .ok (i, n) => counted s i true (exec i (beginInstr s1 n))
  else .next s

/-- What one choice of the schedule does. An instruction runs only where it is issued: one that stands as an event does nothing. -/
def act (s : State) : Choice → Host.Outcome State Fault Refusal
  | .issue core track =>
    let r := chooseConvoy s core track
    if r.1 then issue r.2 else .next (if r.2.focus then passTrack r.2 1 else r.2)
  | .event i => if (encFields i).isNone then counted s i false (exec i s) else .next s
  | .focus core slot convoy => .next (focusOn s core slot convoy)
  | .elapse n t => .next (elapse s n t)

/-- The step. -/
def step (s : State) : Host.Outcome State Fault Refusal :=
  match s.schedule with
  | c :: cs => act { s with schedule := cs } c
  | [] =>
    if eligible s then issue s
    else
      match defaultEvent s with
      | some i => counted s i false (exec i s)
      | none => .next s

/-- The state with an instruction placed where the next step fetches: as the first word of the clause that a cohort
bound to slot 0 of core 0 is issuing, in a clause of the class that the word is read in. -/
def State.withFetchWord (s : State) (nbits w : Nat) : State := placeWord s nbits w

end Sys2Proof.Machine
end

