-- ==== Sys2Proof/Safety.lean ====
section
/-! DEFINITION. What a safe run is, in the terms the statements use: operands that are ready, what an instruction leaves alone, and what
the shapes of instruction (10 R199, 13 R234, 16 R297) do. -/

namespace Sys2Proof.Machine

/-- The memory is in canonical form. -/
def Memory.wf (m : NMap Byte) : Bool := NMap.wf 0#8 m

/-- A convoy's registers are in canonical form. -/
def Convoy.canonical (c : Convoy) : Bool :=
  NMap.wf 0#32 c.main && NMap.wf 0#32 c.opf && NMap.wf 0#32 c.uni && NMap.wf false c.preds

/-- A step that goes on. -/
def goesOn (s : State) : Prop := ∃ t, step s = .next t

/-- No result is on its way to a location (10 R196, R198). -/
def Settled (c : Convoy) (l : Loc) : Prop := pendAt c l = none ∧ unitAt c l = none

/-- An instruction's operands are in bounds, settled and not poisoned (02 R39 to R44, 10 R198, 29 R458): the sources, other locations
that are read, and the destination of n words. -/
structure Ready (s : State) (us : List Use) (ps : List Loc) (d : Option (Dst × Nat)) : Prop where
  bounds : checkUses s us d = none
  settled : ∀ l ∈ useLocs s us ++ ps, Settled s.cv l
  settledDst : ∀ x n, d = some (x, n) → ∀ l ∈ dstLocs s x n, Settled s.cv l
  clean : poisonedLanes s us = 0#32

/-- The same state with no thread marked as having met poison: the mark lives only within one instruction (29 R458). -/
def calm (s : State) : State := { s with cv := { s.cv with bad := 0#32 } }

/-- The convoy's registers and predicates, its result records and its place in the clause may differ; nothing else does (02 R38). -/
def ConvoyKept (c t : Convoy) : Prop :=
  t = { c with
    main := t.main, opf := t.opf, uni := t.uni, preds := t.preds, latch := t.latch, idx := t.idx, xlim := t.xlim, rpoison := t.rpoison
    pend := t.pend, opp := t.opp, stall := t.stall, peek := t.peek, bad := t.bad, clause := t.clause }

/-- As before, and the convoy may have gained units; its registers and predicates are as they were. -/
def UnitsKept (c t : Convoy) : Prop :=
  t = { c with
    units := t.units, tok := t.tok, useq := t.useq
    pend := t.pend, opp := t.opp, stall := t.stall, peek := t.peek, bad := t.bad, clause := t.clause }

/-- Outside the focused convoy only the opportunities that have passed (01 R19), the cycle counts and the tracks' turns differ. -/
def RestKept (s t : State) : Prop :=
  t = { s with
    cv := t.cv, ch := { s.ch with convoys := t.ch.convoys }, others := t.others, cyc := t.cyc, lastIssue := t.lastIssue }

/-- Every byte of memory reads as before. -/
def MemoryKept (s t : State) : Prop := ∀ a, memByte t a = memByte s a

/-- The convoy has moved past the instruction, which took one issue opportunity, with the STALL count that it names (10 R196). -/
def MovedOn (st : Stall) (s t : State) : Prop :=
  t.cv.stall = st.toNat ∧ t.cv.opp = s.cv.opp + 1 ∧ t.cv.clause = s.cv.clause.map (fun k => { k with cur := k.nxt })

/-- A location of one of the 32 threads. -/
def realLoc (l : Loc) : Prop :=
  match l with
  | .main _ t => t < 32
  | .opf _ t => t < 32
  | .uni _ => True
  | .pred _ t => t < 32
  | .latch _ t => t < 32
  | .idx _ t => t < 32
  | .lim _ => True

/-- Where an instruction's destination lies in its acting threads. -/
def isDst (s : State) (d : Dst) (n : Nat) (l : Loc) : Prop := ∃ t ∈ actLanes s, ∃ k < n, dstLoc s d t k = some l

/-- A latch of an acting thread. -/
def isLatch (s : State) (l : Loc) : Prop := ∃ t ∈ actLanes s, l = .latch 0 t ∨ l = .latch 1 t

/-- Each acting thread's destination holds the thread's value, word by word. -/
def Holds (s t : State) (d : Dst) (n : Nat) (f : Nat → DWord) : Prop :=
  ∀ x ∈ actLanes s, ∀ k < n, ∀ l, dstLoc s d x k = some l → (getLoc t.cv l).lo = (f x >>> (32 * k)).setWidth 32

/-- The results of fixed latency are not ready before their time (10 R196). -/
def ReadyAfter (lat : Nat) (s t : State) (l : Loc) : Prop :=
  ∃ p ∈ t.cv.pend, p.ready = s.cv.opp + lat + 1 ∧ ∃ e ∈ p.olds, e.1 = l

/-- What an instruction of fixed latency with a data result does: the destination and, outside a uniform clause, the latches take
the values (02 R42, 13 R234), and nothing else changes. -/
structure FixedEffect (st : Stall) (lat : Nat) (d : Dst) (n : Nat) (f : Nat → DWord) (s t : State) : Prop where
  result : Holds s t d n f
  later : ∀ l, isDst s d n l → ReadyAfter lat s t l
  latch0 : uniform s = false → ∀ x ∈ actLanes s,
    NMap.get {} t.cv.latch x = { val := if n = 1 then (f x).lo.setWidth 64 else f x, wide := decide (n = 2), valid := true }
  latch1 : uniform s = false → ∀ x ∈ actLanes s, NMap.get {} t.cv.latch (32 + x) = NMap.get {} s.cv.latch x
  others : ∀ l, realLoc l → ¬ isDst s d n l → (uniform s = false → ¬ isLatch s l) → getLoc t.cv l = getLoc s.cv l
  moved : MovedOn st s t
  convoy : ConvoyKept s.cv t.cv
  rest : RestKept s t
  memory : MemoryKept s t

/-- What an instruction of fixed latency that writes predicate k does (02 R47): p7 takes no value. -/
structure PredEffect (st : Stall) (lat k : Nat) (f : Nat → Bool) (s t : State) : Prop where
  result : k ≠ 7 → ∀ x ∈ actLanes s, NMap.get false t.cv.preds (32 * k + x) = f x
  later : k ≠ 7 → ∀ x ∈ actLanes s, ReadyAfter lat s t (.pred k x)
  others : ∀ l, realLoc l → (k = 7 ∨ ∀ x ∈ actLanes s, l ≠ .pred k x) → getLoc t.cv l = getLoc s.cv l
  moved : MovedOn st s t
  convoy : ConvoyKept s.cv t.cv
  rest : RestKept s t
  memory : MemoryKept s t

/-- What a hold instruction does: the result is in the destination for the next instruction (16 R297). -/
structure HoldEffect (st : Stall) (d : Dst) (n : Nat) (f : Nat → DWord) (s t : State) : Prop where
  result : Holds s t d n f
  others : ∀ l, realLoc l → ¬ isDst s d n l → getLoc t.cv l = getLoc s.cv l
  moved : MovedOn st s t
  convoy : ConvoyKept s.cv t.cv
  rest : RestKept s t
  memory : MemoryKept s t

/-- The convoy has gained units, and its token has counted them (05 R109). -/
structure Counted (tok : Nat) (new : List Pending) (s t : State) : Prop where
  units : t.cv.units = s.cv.units ++ new.zipIdx.map (fun e => { e.1 with seq := s.cv.useq + e.2 })
  token : tokCount t.cv tok = tokCount s.cv tok + new.length
  others : ∀ k, k ≠ tok → tokCount t.cv k = tokCount s.cv k

/-- The instruction has issued and has added units to its token, and nothing else has changed (05 R109, 15 R284). -/
structure Issued (st : Stall) (tok : Tok) (new : List Pending) (s t : State) : Prop where
  units : Counted tok.toNat new s t
  moved : MovedOn st s t
  convoy : UnitsKept s.cv t.cv
  rest : RestKept s t
  memory : MemoryKept s t

/-- The pieces of an access, shared out to units so that two of them share a unit exactly where their keys agree (15 R284). -/
structure Grouped (key : Piece → Nat) (pieces : List Piece) (new : List Pending) : Prop where
  all : ∀ p, p ∈ new.flatMap (·.pieces) ↔ p ∈ pieces
  one : ∀ u ∈ new, ∀ p ∈ u.pieces, ∀ q ∈ u.pieces, key p = key q
  apart : new.Pairwise (fun u v => ∀ p ∈ u.pieces, ∀ q ∈ v.pieces, key p ≠ key q)

/-- What address checks that pass may change: cached translations, the D bits of page table entries with the lines that hold them
(30 R462, R464), and a boundary fault of a walk that met poison (30 R459). -/
structure ChecksKept (s t : State) : Prop where
  state : t = { s with
    tlb := t.tlb, mem := t.mem, fab := { s.fab with lines := t.fab.lines }, cv := { s.cv with bfaults := t.cv.bfaults } }
  dirty : ∀ a, memByte t a = memByte s a ∨ memByte t a = memByte s a ||| 0x10#8

/-- What a variable-latency instruction whose result is known at issue does: one unit on its token that is to write the values
(10 R199, 05 R109). -/
structure ValueEffect (st : Stall) (tok : Tok) (d : Dst) (n : Nat) (f : Nat → DWord) (s t : State) : Prop where
  unit : ∃ u : Pending, u.kind = .value ∧ u.tok = some tok.toNat ∧ Counted tok.toNat [u] s t ∧
    (∀ x ∈ actLanes s, ∀ k < n, ∀ l, dstLoc s d x k = some l → ∃ e ∈ u.writes, e.1 = l ∧ e.2.lo = (f x >>> (32 * k)).setWidth 32) ∧
    (∀ e ∈ u.writes, isDst s d n e.1)
  moved : MovedOn st s t
  convoy : UnitsKept s.cv t.cv
  rest : RestKept s t
  memory : MemoryKept s t

end Sys2Proof.Machine
end

