-- ==== Sys2Proof/Rules.lean ====
section
/-! DEFINITION. The rules of the specification as values: for each shape of instruction, what its operands, its destination and
the values it writes are said to be. The statements are made of these. -/

namespace Sys2Proof.Machine

/-- A Word from its bits. -/
def bitsWord (f : Nat → Bool) : Word := BitVec.ofFnLE (fun i : Fin 32 => f i.val)

/-- What an instruction of fixed latency with a data result is said to do: latency, sources, predicates read, destination and its words,
STALL, and the value in a thread. -/
structure DataForm where
  lat   : Nat
  uses  : List Use
  preds : List Nat := []
  dst   : Dst
  words : Nat := 1
  stall : Stall
  val   : State → Nat → DWord

/-- The same of an instruction that writes a predicate. -/
structure PredForm where
  lat   : Nat
  uses  : List Use := []
  preds : List Nat := []
  p     : Nat
  stall : Stall
  val   : State → Nat → Bool

/-- The same of an instruction of variable latency whose results are known at issue. -/
structure ValueForm where
  uses  : List Use := []
  /-- other locations that it reads -/
  reads : State → List Loc := fun _ => []
  dst   : Dst
  words : Nat := 1
  tok   : Tok
  stall : Stall
  val   : State → Nat → DWord

/-- One 32-bit source and a 32-bit result. -/
def form1 (lat : Nat) (st : Stall) (d : Dst) (a : Src) (f : Word → Word) : DataForm :=
  { lat := lat, uses := [⟨0, a, 1⟩], dst := d, stall := st, val := fun s t => (f (rd32 s a t)).setWidth 64 }

/-- Two 32-bit sources and a 32-bit result. -/
def form2 (lat : Nat) (st : Stall) (d : Dst) (a b : Src) (f : Word → Word → Word) : DataForm :=
  { lat := lat, uses := [⟨0, a, 1⟩, ⟨1, b, 1⟩], dst := d, stall := st
    val := fun s t => (f (rd32 s a t) (rd32 s b t)).setWidth 64 }

/-- Three 32-bit sources and a 32-bit result. -/
def form3 (lat : Nat) (st : Stall) (d : Dst) (a b c : Src) (f : Word → Word → Word → Word) : DataForm :=
  { lat := lat, uses := [⟨0, a, 1⟩, ⟨1, b, 1⟩, ⟨2, c, 1⟩], dst := d, stall := st
    val := fun s t => (f (rd32 s a t) (rd32 s b t) (rd32 s c t)).setWidth 64 }

/-- IMUL and IMAD as 13 R238 gives them, of signed and unsigned 32-bit values and c. -/
def mulRule (v : MulVar) (a b : Word) (c : Int) : Int :=
  match v with
  | .lo => a.toInt * b.toInt + c
  | .hi => a.toInt * b.toInt / 2 ^ 32 + c
  | .hin => (a.toNat * b.toNat : Int) / 2 ^ 32 + c
  | .wide => a.toInt * b.toInt + c

/-- The shifts of 13 R241. -/
def shiftRule (op : ShOp) (a : Word) (n : Nat) : Word :=
  match op with
  | .shl => BitVec.ofNat 32 (a.toNat * 2 ^ n)
  | .shr => BitVec.ofNat 32 (a.toNat / 2 ^ n)
  | .sar => BitVec.ofInt 32 (a.toInt / 2 ^ n)
  | .rol => bitsWord (fun i => a.getLsbD ((i + 32 - n % 32) % 32))
  | .ror => bitsWord (fun i => a.getLsbD ((i + n % 32) % 32))

/-- The bit fields of 13 R244: position and width. -/
def fieldPos (b : Word) : Nat := b.toNat % 256
def fieldLen (b : Word) : Nat := min (b.toNat / 256 % 256) 32

/-- BFE of 13 R244, bit by bit: above the field, zeros or its highest bit. -/
def extractRule (sgn : Bool) (a b : Word) : Word :=
  let w := fieldLen b
  let f (i : Nat) : Bool := a.getLsbD (fieldPos b + i)
  if w = 0 then 0#32 else bitsWord (fun i => if i < w then f i else sgn && f (w - 1))

/-- BFI of 13 R244, bit by bit. -/
def insertRule (a b c : Word) : Word :=
  bitsWord (fun i => if fieldPos b ≤ i ∧ i < fieldPos b + fieldLen b then a.getLsbD (i - fieldPos b) else c.getLsbD i)

/-- BITS of 13 R245. -/
def countRule (op : BitOp) (a : Word) : Word :=
  match op with
  | .popc => BitVec.ofNat 32 ((List.range 32).countP (fun i => a.getLsbD i))
  | .clz => BitVec.ofNat 32 ((List.range 32).takeWhile (fun i => !(a.getLsbD (31 - i)))).length
  | .ctz => BitVec.ofNat 32 ((List.range 32).takeWhile (fun i => !(a.getLsbD i))).length
  | .brev => bitsWord (fun i => a.getLsbD (31 - i))
  | .bswap => bitsWord (fun i => a.getLsbD (8 * (3 - i / 8) + i % 8))

/-- What the INT instructions with a data result write (13 R237 to R248, R250). -/
def intForm : Instr → Option DataForm
  | .iadd st d a b sat => some (form2 2 st d a b (fun x y =>
      let z := x.toInt + y.toInt
      BitVec.ofInt 32 (if sat then min (max z (-2 ^ 31)) (2 ^ 31 - 1) else z)))
  | .isub st d a b sat => some (form2 2 st d a b (fun x y =>
      let z := x.toInt - y.toInt
      BitVec.ofInt 32 (if sat then min (max z (-2 ^ 31)) (2 ^ 31 - 1) else z)))
  | .iaddi st d a imm => some (form1 2 st d a (fun x => BitVec.ofInt 32 (x.toInt + imm.toInt)))
  | .imul st d a b .wide => some
      { lat := 2, uses := [⟨0, a, 1⟩, ⟨1, b, 1⟩], dst := d, words := 2, stall := st
        val := fun s t => BitVec.ofInt 64 (mulRule .wide (rd32 s a t) (rd32 s b t) 0) }
  | .imul st d a b v => some (form2 2 st d a b (fun x y => BitVec.ofInt 32 (mulRule v x y 0)))
  | .imad st d a b c .wide => some
      { lat := 2, uses := [⟨0, a, 1⟩, ⟨1, b, 1⟩, ⟨2, c, 2⟩], dst := d, words := 2, stall := st
        val := fun s t => BitVec.ofInt 64 (mulRule .wide (rd32 s a t) (rd32 s b t) (rd64 s c t).toInt) }
  | .imad st d a b c v => some (form3 2 st d a b c (fun x y z => BitVec.ofInt 32 (mulRule v x y z.toInt)))
  | .imin st d a b n => some (form2 2 st d a b (fun x y =>
      if n then BitVec.ofNat 32 (min x.toNat y.toNat) else BitVec.ofInt 32 (min x.toInt y.toInt)))
  | .imax st d a b n => some (form2 2 st d a b (fun x y =>
      if n then BitVec.ofNat 32 (max x.toNat y.toNat) else BitVec.ofInt 32 (max x.toInt y.toInt)))
  | .iabs st d a => some (form1 2 st d a (fun x => BitVec.ofNat 32 x.toInt.natAbs))
  | .andb st d a b => some (form2 2 st d a b (fun x y => bitsWord (fun i => x.getLsbD i && y.getLsbD i)))
  | .orb st d a b => some (form2 2 st d a b (fun x y => bitsWord (fun i => x.getLsbD i || y.getLsbD i)))
  | .xorb st d a b => some (form2 2 st d a b (fun x y => bitsWord (fun i => x.getLsbD i ^^ y.getLsbD i)))
  | .andn st d a b => some (form2 2 st d a b (fun x y => bitsWord (fun i => x.getLsbD i && !(y.getLsbD i))))
  | .mov st d a => some (form1 2 st d a (fun x => x))
  | .shf st d a b op => some (form2 2 st d a b (fun x y => shiftRule op x y.toNat))
  | .shfi st d a op n => some (form1 2 st d a (fun x => shiftRule op x n.toNat))
  | .fshf st d a b c right => some (form3 2 st d a b c (fun x y z =>
      let w := x.toNat * 2 ^ 32 + y.toNat
      let n := min z.toNat 32
      BitVec.ofNat 32 (if right then w / 2 ^ n else w * 2 ^ n / 2 ^ 32)))
  | .bfe st d a b sgn => some (form2 2 st d a b (extractRule sgn))
  | .bfi st d a b c => some (form3 2 st d a b c insertRule)
  | .bits st d a op => some (form1 2 st d a (countRule op))
  | .sel st d a b k => some
      { lat := 2, uses := [⟨0, a, 1⟩, ⟨1, b, 1⟩], preds := [k.toNat], dst := d, stall := st
        val := fun s t => (if pred s k.toNat t then rd32 s a t else rd32 s b t).setWidth 64 }
  | .lea st d a b sh => some
      { lat := 2, uses := [⟨0, a, 2⟩, ⟨1, b, 1⟩], dst := d, words := 2, stall := st
        val := fun s t => BitVec.ofInt 64 ((rd64 s a t).toNat + (rd32 s b t).toInt * 2 ^ sh.val) }
  | .iaddx st d a b => some
      { lat := 2, uses := [⟨0, a, 2⟩, ⟨1, b, 2⟩], dst := d, words := 2, stall := st
        val := fun s t => BitVec.ofNat 64 ((rd64 s a t).toNat + (rd64 s b t).toNat) }
  | .pmovTor st d => some
      { lat := 2, uses := [], preds := [0, 1, 2, 3, 4, 5, 6], dst := d, stall := st
        val := fun s t => (BitVec.ofFnLE (fun k : Fin 8 => pred s k.val t)).setWidth 64 }
  | _ => none

/-- FlushIn of FVal of a register in a format (14 R254). -/
def fin_ (fmt : Fmt) (ftzi : Bool) (x : Nat) : FV := flush fmt ftzi (fval fmt x)

/-- Enc of FResult in a format (14 R258). -/
def fout (fmt : Fmt) (rm : RMode) (sat ftzo : Bool) (v : FV) : DWord := BitVec.ofNat 64 (enc fmt (fresult fmt rm sat ftzo v))

/-- FP32 arithmetic on two operands (14 R259). -/
def fpForm2 (st : Stall) (d : Dst) (a b : Src) (f : FFlags) (g : RMode → FV → FV → FV) : DataForm :=
  { lat := 4, uses := [⟨0, a, 1⟩, ⟨1, b, 1⟩], dst := d, stall := st
    val := fun s t => fout .f32 (clauseRm s) f.sat f.ftzo
      (g (clauseRm s) (fin_ .f32 f.ftzi (rd32 s a t).toNat) (fin_ .f32 f.ftzi (rd32 s b t).toNat)) }

/-- FP64 arithmetic on two operands (14 R259). -/
def dpForm2 (st : Stall) (d : Dst) (a b : Src) (f : FFlags) (g : RMode → FV → FV → FV) : DataForm :=
  { lat := 6, uses := [⟨0, a, 2⟩, ⟨1, b, 2⟩], dst := d, words := 2, stall := st
    val := fun s t => fout .f64 (clauseRm s) f.sat f.ftzo
      (g (clauseRm s) (fin_ .f64 f.ftzi (rd64 s a t).toNat) (fin_ .f64 f.ftzi (rd64 s b t).toNat)) }

/-- The minimum and maximum of 14 R260, on encodings. -/
def minmaxRule (fmt : Fmt) (ftzi ftzo max : Bool) (x y : Nat) : Nat :=
  enc fmt (flush fmt ftzo (fminmax max (fin_ fmt ftzi x) (fin_ fmt ftzi y)))

/-- FNEGABS of 14 R262, on the sign bit. -/
def signRule (op : NegOp) (x : Word) : Word :=
  if fval .f32 x.toNat = .nan then 0x7FC00000#32
  else bitsWord (fun i => if i = 31 then (match op with
    | .neg => !(x.getLsbD 31)
    | .abs => false
    | .nabs => true) else x.getLsbD i)

/-- FCLASS of 14 R263: the bit that is set. -/
def classBit (x : Word) : Nat :=
  let e := (x.extractLsb' 23 8).toNat
  let f := (x.extractLsb' 0 23).toNat
  match x.getLsbD 31, decide (e = 255), decide (e = 0), decide (f = 0) with
  | true, true, _, true => 0
  | true, false, false, _ => 1
  | true, false, true, false => 2
  | true, false, true, true => 3
  | false, false, true, true => 4
  | false, false, true, false => 5
  | false, false, false, _ => 6
  | false, true, _, true => 7
  | _, true, _, false => if x.getLsbD 22 then 9 else 8

/-- FSCALE of 14 R265 before rounding: x × 2ⁿ exactly. -/
def scaleRule (v : FV) (n : Int) : FV :=
  match v with
  | .fin x => .fin (x.shift n)
  | w => w

/-- A scalar conversion (14 R254, R266). -/
def convForm (st : Stall) (d : Dst) (a : Src) (src dst : Fmt) (f : FFlags) : DataForm :=
  { lat := 4, uses := [⟨0, a, if src.width = 64 then 2 else 1⟩], dst := d, words := if dst.width = 64 then 2 else 1, stall := st
    val := fun s t =>
      let y := convert src dst (clauseRm s) f ((rd64 s a t).toNat % 2 ^ src.width)
      if dst.width = 64 then BitVec.ofNat 64 y
      else if dst.signed then (BitVec.ofInt 32 (sextN dst.width y)).setWidth 64 else BitVec.ofNat 64 y }

/-- What the FLT instructions of fixed latency with a data result write (14 R259 to R266). -/
def fltForm : Instr → Option DataForm
  | .fadd st d a b f => some (fpForm2 st d a b f fsum)
  | .fsub st d a b f => some (fpForm2 st d a b f (fun rm x y => fsum rm x y.flip))
  | .fmul st d a b f => some (fpForm2 st d a b f (fun _ => fprod))
  | .ffma st d a b c f => some
      { lat := 4, uses := [⟨0, a, 1⟩, ⟨1, b, 1⟩, ⟨2, c, 1⟩], dst := d, stall := st
        val := fun s t => fout .f32 (clauseRm s) f.sat f.ftzo (fsum (clauseRm s)
          (fprod (fin_ .f32 f.ftzi (rd32 s a t).toNat) (fin_ .f32 f.ftzi (rd32 s b t).toNat)) (fin_ .f32 f.ftzi (rd32 s c t).toNat)) }
  | .dadd st d a b f => some (dpForm2 st d a b f fsum)
  | .dmul st d a b f => some (dpForm2 st d a b f (fun _ => fprod))
  | .dfma st d a b c f => some
      { lat := 6, uses := [⟨0, a, 2⟩, ⟨1, b, 2⟩, ⟨2, c, 2⟩], dst := d, words := 2, stall := st
        val := fun s t => fout .f64 (clauseRm s) f.sat f.ftzo (fsum (clauseRm s)
          (fprod (fin_ .f64 f.ftzi (rd64 s a t).toNat) (fin_ .f64 f.ftzi (rd64 s b t).toNat)) (fin_ .f64 f.ftzi (rd64 s c t).toNat)) }
  | .fmin st d a b ftzi ftzo => some
      { lat := 4, uses := [⟨0, a, 1⟩, ⟨1, b, 1⟩], dst := d, stall := st
        val := fun s t => BitVec.ofNat 64 (minmaxRule .f32 ftzi ftzo false (rd32 s a t).toNat (rd32 s b t).toNat) }
  | .fmax st d a b ftzi ftzo => some
      { lat := 4, uses := [⟨0, a, 1⟩, ⟨1, b, 1⟩], dst := d, stall := st
        val := fun s t => BitVec.ofNat 64 (minmaxRule .f32 ftzi ftzo true (rd32 s a t).toNat (rd32 s b t).toNat) }
  | .dminmax st d a b ftzi ftzo max => some
      { lat := 6, uses := [⟨0, a, 2⟩, ⟨1, b, 2⟩], dst := d, words := 2, stall := st
        val := fun s t => BitVec.ofNat 64 (minmaxRule .f64 ftzi ftzo max (rd64 s a t).toNat (rd64 s b t).toNat) }
  | .fnegabs st d a op => some (form1 4 st d a (signRule op))
  | .fclass st d a => some (form1 4 st d a (fun x => BitVec.twoPow 32 (classBit x)))
  | .frnd st d a ftzi ftzo => some
      { lat := 4, uses := [⟨0, a, 1⟩], dst := d, stall := st
        val := fun s t => fout .f32 (clauseRm s) false ftzo (frndV (clauseRm s) (fin_ .f32 ftzi (rd32 s a t).toNat)) }
  | .fscale st d a b f => some
      { lat := 4, uses := [⟨0, a, 1⟩, ⟨1, b, 1⟩], dst := d, stall := st
        val := fun s t => fout .f32 (clauseRm s) f.sat f.ftzo (scaleRule (fin_ .f32 f.ftzi (rd32 s a t).toNat) (rd32 s b t).toInt) }
  | .fcvti st d a src dst f => some (convForm st d a src dst f)
  | .icvtf st d a src dst f => some (convForm st d a src dst f)
  | .dcvt st d a src dst f => some (convForm st d a src dst f)
  | _ => none

/-- Compare conditions on integer words (12 R222). -/
def wordCond (c : Cond) (a b : Word) : Bool :=
  match c with
  | .eq => decide (a = b)
  | .ne => decide (a ≠ b)
  | .lt => decide (a.toInt < b.toInt)
  | .le => decide (a.toInt ≤ b.toInt)
  | .gt => decide (a.toInt > b.toInt)
  | .ge => decide (a.toInt ≥ b.toInt)
  | .ltn => decide (a.toNat < b.toNat)
  | .gen => decide (a.toNat ≥ b.toNat)

/-- PLOP of 13 R249. -/
def logicRule (f : LogFn) (x y : Bool) : Bool :=
  match f, x, y with
  | .and, x, y => x && y
  | .or, x, y => x || y
  | .xor, x, y => x != y
  | .andn, x, y => x && !y
  | .orn, x, y => x || !y
  | .nand, x, y => !(x && y)
  | .nor, x, y => !(x || y)
  | .xnor, x, y => x == y

/-- Element k of width w of a packed register (14 R270). -/
def elemOf (w : Nat) (x : Word) (k : Nat) : Nat := x.toNat / 2 ^ (w * k) % 2 ^ w

/-- A packed register of 32 ÷ w elements. -/
def packOf (w : Nat) (e : Nat → Nat) : Word := bitsWord (fun i => (e (i / w)).testBit (i % w))

/-- Packed 16-bit arithmetic (14 R270): the two elements, each by itself. -/
def halfForm (st : Stall) (d : Dst) (uses : List Use) (f : FFlags) (fa : Fmt) (g : State → Nat → Nat → FV) : DataForm :=
  { lat := 4, uses := uses, dst := d, stall := st
    val := fun s t => (packOf 16 (fun k => enc fa (fresult fa (clauseRm s) f.sat f.ftzo (g s t k)))).setWidth 64 }

/-- A 16-bit element of a register, flushed. -/
def half (fa : Fmt) (ftzi : Bool) (x : Word) (k : Nat) : FV := fin_ fa ftzi (elemOf 16 x k)

/-- The aligned sum of the products of n elements of width w and c (14 R271). -/
def dotForm (st : Stall) (d : Dst) (a b c : Src) (n w : Nat) (fa fb : Fmt) (ftzi ftzo : Bool) : DataForm :=
  { lat := 5, uses := [⟨0, a, 1⟩, ⟨1, b, 1⟩, ⟨2, c, 1⟩], dst := d, stall := st
    val := fun s t =>
      let ps := (List.range n).map (fun k =>
        fprod (fin_ fa ftzi (elemOf w (rd32 s a t) k)) (fin_ fb ftzi (elemOf w (rd32 s b t) k)))
      BitVec.ofNat 64 (enc .f32 (alignedSum ps (fval .f32 (rd32 s c t).toNat) 40 .f32 (clauseRm s) ftzi ftzo)) }

/-- The exact sum of c and the products of n integer elements of width w (14 R272). -/
def dotIntForm (st : Stall) (d : Dst) (a b c : Src) (n w : Nat) (fa fb : Fmt) (sat : Bool) : DataForm :=
  form3 5 st d a b c (fun x y z =>
    let v := z.toInt + ((List.range n).map (fun k => ival fa (elemOf w x k) * ival fb (elemOf w y k))).sum
    BitVec.ofInt 32 (if sat then min (max v (-2 ^ 31)) (2 ^ 31 - 1) else v))

/-- Byte i of PRMT (14 R276): the source byte that the selector nibble chooses, or the fill. -/
def permuteByte (sgn : Bool) (a b c : Word) (i : Nat) : Nat :=
  let sel := elemOf 4 c i
  let x := if sel % 8 < 4 then elemOf 8 a (sel % 8) else elemOf 8 b (sel % 8 - 4)
  if sel < 8 then x else if sgn ∧ 128 ≤ x then 255 else 0

/-- PRMT of 14 R276. -/
def permuteRule (sgn : Bool) (a b c : Word) : Word := packOf 8 (permuteByte sgn a b c)

/-- What the PKD instructions write (14 R270 to R277). -/
def pkdForm : Instr → Option DataForm
  | .hadd2 st d a b fa f => some (halfForm st d [⟨0, a, 1⟩, ⟨1, b, 1⟩] f fa (fun s t k =>
      fsum (clauseRm s) (half fa f.ftzi (rd32 s a t) k) (half fa f.ftzi (rd32 s b t) k)))
  | .hmul2 st d a b fa f => some (halfForm st d [⟨0, a, 1⟩, ⟨1, b, 1⟩] f fa (fun s t k =>
      fprod (half fa f.ftzi (rd32 s a t) k) (half fa f.ftzi (rd32 s b t) k)))
  | .hfma2 st d a b c fa f => some (halfForm st d [⟨0, a, 1⟩, ⟨1, b, 1⟩, ⟨2, c, 1⟩] f fa (fun s t k =>
      fsum (clauseRm s) (fprod (half fa f.ftzi (rd32 s a t) k) (half fa f.ftzi (rd32 s b t) k)) (half fa f.ftzi (rd32 s c t) k)))
  | .hminmax2 st d a b fa ftzi ftzo max => some (form2 4 st d a b (fun x y =>
      packOf 16 (fun k => minmaxRule fa ftzi ftzo max (elemOf 16 x k) (elemOf 16 y k))))
  | .dot2h st d a b c fa fb ftzi ftzo => some (dotForm st d a b c 2 16 fa fb ftzi ftzo)
  | .dot4f8 st d a b c fa fb ftzi ftzo => some (dotForm st d a b c 4 8 fa fb ftzi ftzo)
  | .dot8f4 st d a b c ftzi ftzo => some (dotForm st d a b c 8 4 .f4 .f4 ftzi ftzo)
  | .dot4i8 st d a b c fa fb sat => some (dotIntForm st d a b c 4 8 fa fb sat)
  | .dot8i4 st d a b c fa fb sat => some (dotIntForm st d a b c 8 4 fa fb sat)
  | .pack st d a b c fa f pair => some
      { lat := 4, uses := [⟨0, a, 1⟩, ⟨1, b, 1⟩, ⟨2, c, 1⟩], dst := d, stall := st
        val := fun s t =>
          let one (x : Word) : Nat := convert (if fa.isFloat then .f32 else .i32) fa (clauseRm s) f x.toNat
          (packOf fa.width (fun k =>
            if k = 2 * pair.val then one (rd32 s a t) else if k = 2 * pair.val + 1 then one (rd32 s b t)
            else elemOf fa.width (rd32 s c t) k)).setWidth 64 }
  | .unpack st d a fa ftzi el => some
      { lat := 4, uses := [⟨0, a, 1⟩], dst := d, stall := st
        val := fun s t =>
          let y := elemOf fa.width (rd32 s a t) el.val
          if fa.isFloat then BitVec.ofNat 64 (convert fa .f32 .rne ⟨ftzi, false, false⟩ y)
          else if fa.signed then (BitVec.ofInt 32 (sextN fa.width y)).setWidth 64 else BitVec.ofNat 64 y }
  | .scl st d a b fa f => some
      { lat := 4, uses := [⟨0, a, 1⟩, ⟨1, b, 1⟩], dst := d, stall := st
        val := fun s t => (packOf fa.width (fun k =>
          let p := fprod (fin_ fa f.ftzi (elemOf fa.width (rd32 s a t) k)) (fin_ .f32 f.ftzi (rd32 s b t).toNat)
          enc fa (convFF fa fa (clauseRm s) ⟨false, f.ftzo, f.sat⟩ p))).setWidth 64 }
  | .prmt st d a b c sgn => some (form3 4 st d a b c (permuteRule sgn))
  | .hcvt st d a fa fb f => some
      { lat := 4, uses := [⟨0, a, 1⟩], dst := d, stall := st
        val := fun s t => (packOf 16 (fun k => convert fa fb (clauseRm s) f (elemOf 16 (rd32 s a t) k))).setWidth 64 }
  | _ => none

/-- What the instructions that compare write into a predicate (13 R246, R249; 14 R261; 12 R222). -/
def predForm : Instr → Option PredForm
  | .icmp st p a b cond => some
      { lat := 2, uses := [⟨0, a, 1⟩, ⟨1, b, 1⟩], p := p.toNat, stall := st
        val := fun s t => wordCond cond (rd32 s a t) (rd32 s b t) }
  | .icmpi st p cond a imm => some
      { lat := 2, uses := [⟨0, a, 1⟩], p := p.toNat, stall := st
        val := fun s t => wordCond cond (rd32 s a t) (imm.signExtend 32) }
  | .fcmp st p a b cond => some
      { lat := 4, uses := [⟨0, a, 1⟩, ⟨1, b, 1⟩], p := p.toNat, stall := st
        val := fun s t => fcond cond (fval .f32 (rd32 s a t).toNat) (fval .f32 (rd32 s b t).toNat) }
  | .dcmp st p a b cond => some
      { lat := 6, uses := [⟨0, a, 2⟩, ⟨1, b, 2⟩], p := p.toNat, stall := st
        val := fun s t => fcond cond (fval .f64 (rd64 s a t).toNat) (fval .f64 (rd64 s b t).toNat) }
  | .plop st p na pa nb pb fn => some
      { lat := 2, preds := [pa.toNat, pb.toNat], p := p.toNat, stall := st
        val := fun s t => logicRule fn (pred s pa.toNat t ^^ na) (pred s pb.toNat t ^^ nb) }
  | _ => none

/-- A special function of one FP32 operand, rounded to nearest (14 R268). -/
def funForm (st : Stall) (d : Dst) (a : Src) (ftzi ftzo : Bool) (t : Tok) (g : FV → FV) : ValueForm :=
  { uses := [⟨0, a, 1⟩], dst := d, tok := t, stall := st, val := fun s k => fout .f32 .rne false ftzo (g (fin_ .f32 ftzi (rd32 s a k).toNat)) }

/-- What the instructions whose values are known at issue write later (13 R252; 14 R267, R268). -/
def valueForm : Instr → Option ValueForm
  | .xget st d idx x t => some
      { reads := fun s => (actLanes s).map (fun y => if idx then Loc.idx x.val y else .lim x.val)
        dst := d, tok := t, stall := st
        val := fun s y => BitVec.ofNat 64 (if idx then xIndex s x.val y else xBase s x.val + 256 * xLimit s x.val) }
  | .frcp st d a ftzi ftzo t => some
      { uses := [⟨0, a, 1⟩], dst := d, tok := t, stall := st
        val := fun s k => fout .f32 (clauseRm s) false ftzo (fquot (.fin (Q.ofInt 1)) (fin_ .f32 ftzi (rd32 s a k).toNat)) }
  | .fsqrt st d a ftzi ftzo t => some
      { uses := [⟨0, a, 1⟩], dst := d, tok := t, stall := st
        val := fun s k => fout .f32 (clauseRm s) false ftzo (fsqrtV 300 (fin_ .f32 ftzi (rd32 s a k).toNat)) }
  | .frsq st d a ftzi ftzo t => some (funForm st d a ftzi ftzo t frsqV)
  | .fexp2 st d a ftzi ftzo t => some (funForm st d a ftzi ftzo t fexp2V)
  | .flog2 st d a ftzi ftzo t => some (funForm st d a ftzi ftzo t flog2V)
  | .fsin st d a ftzi ftzo t => some (funForm st d a ftzi ftzo t fsinV)
  | .fcos st d a ftzi ftzo t => some (funForm st d a ftzi ftzo t fcosV)
  | .fdiv st d a b f t => some
      { uses := [⟨0, a, 1⟩, ⟨1, b, 1⟩], dst := d, tok := t, stall := st
        val := fun s k => fout .f32 (clauseRm s) f.sat f.ftzo
          (fquot (fin_ .f32 f.ftzi (rd32 s a k).toNat) (fin_ .f32 f.ftzi (rd32 s b k).toNat)) }
  | .ddiv st d a b f t => some
      { uses := [⟨0, a, 2⟩, ⟨1, b, 2⟩], dst := d, words := 2, tok := t, stall := st
        val := fun s k => fout .f64 (clauseRm s) f.sat f.ftzo
          (fquot (fin_ .f64 f.ftzi (rd64 s a k).toNat) (fin_ .f64 f.ftzi (rd64 s b k).toNat)) }
  | .dsqrt st d a f t => some
      { uses := [⟨0, a, 2⟩], dst := d, words := 2, tok := t, stall := st
        val := fun s k => fout .f64 (clauseRm s) false f.ftzo (fsqrtV 1300 (fin_ .f64 f.ftzi (rd64 s a k).toNat)) }
  | _ => none

end Sys2Proof.Machine
end

