-- ==== Sys2Proof/Issues.lean ====
section
/-! DEFINITION. What the instructions that add units name, as the statements say it: their operands, what has to hold, and the units. -/

namespace Sys2Proof.Machine

/-- Each piece has a unit of its own. -/
def Single (pieces : List Piece) (new : List Pending) : Prop := new.map (·.pieces) = pieces.map (fun p => [p])

/-- A memory instruction (15 R278 to R295): its operands, the accesses of its threads with the checks that they are put to, the pieces
of those accesses, and how the pieces share units of which kind. -/
structure MemForm where
  stall  : Stall
  tok    : Tok
  uses   : List Use
  dst    : Option (Dst × Nat) := none
  write  : Bool := false
  noPriv : Bool := false
  noScr  : Bool := false
  atom   : Bool := false
  scadd  : Bool := false
  /-- a check before those of the addresses -/
  extra  : State → Prop := fun _ => True
  accs   : State → List Acc
  pieces : State → List Acc → List PSpan → List Piece
  share  : List Piece → List Pending → Prop
  count  : List Piece → Nat
  kind   : Piece → UKind
  acq    : Bool := false
  rel    : Bool := false
  cache  : CacheOp := .ca

/-- A form whose pieces share units by a key. -/
def MemForm.keyed (f : MemForm) (key : Piece → Nat) : MemForm :=
  { f with share := Grouped key, count := fun ps => (distinct (ps.map key)).length }

/-- A load with a form to begin from. -/
def loadBase (st : Stall) (d : Dst) (us : List Use) (w : MWidth) (l : Layout) (t : Tok) (accs : State → List Acc) : MemForm :=
  { stall := st, tok := t, uses := us, dst := some (d, widthWords w), accs := accs
    pieces := fun s => loadPieces s d (widthSigned w) l, share := Single, count := List.length, kind := fun _ => .load }

/-- A store with a form to begin from. -/
def storeBase (st : Stall) (us : List Use) (c : Src) (l : Layout) (t : Tok) (accs : State → List Acc) : MemForm :=
  { stall := st, tok := t, uses := us, write := true, accs := accs
    pieces := fun s => storePieces s c l, share := Single, count := List.length, kind := fun _ => .store }

/-- An atomic with a form to begin from: each thread's operands are b, and c for a compare and swap (15 R291, R292). -/
def atomBase (st : Stall) (d : Dst) (a b c : Src) (op : AtomOp) (wide : Bool) (l : Layout) (t : Tok) (accs : State → List Acc) : MemForm :=
  let n := if wide then 8 else 4
  { stall := st, tok := t, uses := [⟨0, a, 2⟩, ⟨1, b, n / 4⟩, ⟨2, c, n / 4⟩], dst := some (d, n / 4)
    write := true, noPriv := true, atom := true, accs := accs
    extra := fun s => op = .fadd → s.ch.strict = false
    pieces := fun s as ps => (storePieces s b l as ps).map (fun p =>
      { p with data := bytesOf (rd64 s b p.lane).toNat n, cmp := if wide then rd64 s c p.lane else (rd32 s c p.lane).setWidth 64
               dst := spanDst s d p.lane 0 n })
    share := Single, count := List.length, kind := fun p => if p.scr then .scrAtom op wide else .atom op wide }

/-- The memory instructions. A unit is one line of a load or a store, one bank word of scratch, one thread of an atomic, of a SCADD or
of a full-empty load, one line of a PREF, and one for a FENCE (15 R284, R288, R292 to R295; 03 R58). -/
def memForm : Instr → Option MemForm
  | .ld st d a b w acq l c t =>
    some { (loadBase st d [⟨0, a, 2⟩, ⟨1, b, 1⟩] w l t (genAccs (widthBytes w) a (some b))).keyed lineKey with acq := acq, cache := c }
  | .ldp st d a b w t => some ((loadBase st d [⟨0, a, 1⟩, ⟨1, b, 1⟩] w .lin t (privAccs (widthBytes w) a b)).keyed lineKey)
  | .ldc st d a b w t =>
    some { (loadBase st d [⟨0, a, 1⟩, ⟨1, b, 1⟩] w .lin t (constAccs (widthBytes w) a b)).keyed lineKey with
      extra := fun s => ∀ x ∈ constAccs (widthBytes w) a b s, s.ch.cbank ≠ 0 ∧ x.ea + x.n ≤ 65536 }
  | .lds st d a b w l fe t =>
    let f := loadBase st d [⟨0, a, 1⟩, ⟨1, b, 1⟩] w l t (scrAccs (widthBytes w) a (some b))
    match fe with
    | .none =>
      some { f.keyed wordKey with
        kind := fun _ => .scrLoad false false, pieces := fun s as ps => (loadPieces s d (widthSigned w) l as ps).flatMap bankWords }
    | .fe => some { f.keyed (·.lane) with kind := fun _ => .scrLoad true false, acq := true }
    | .feClr => some { f.keyed (·.lane) with kind := fun _ => .scrLoad true true, acq := true }
  | .stg st a b c w rel l k t =>
    some { (storeBase st [⟨0, a, 2⟩, ⟨1, b, 1⟩, ⟨2, c, widthWords w⟩] c l t (genAccs (widthBytes w) a (some b))).keyed lineKey with
      rel := rel, cache := k }
  | .stp st a b c w t =>
    some ((storeBase st [⟨0, a, 1⟩, ⟨1, b, 1⟩, ⟨2, c, widthWords w⟩] c .lin t (privAccs (widthBytes w) a b)).keyed lineKey)
  | .sts st a b c w l full t =>
    some { (storeBase st [⟨0, a, 1⟩, ⟨1, b, 1⟩, ⟨2, c, widthWords w⟩] c l t (scrAccs (widthBytes w) a (some b))).keyed wordKey with
      kind := fun _ => .scrStore full, rel := full, pieces := fun s as ps => (storePieces s c l as ps).flatMap bankWords }
  | .atom st d a b c op wide o l t =>
    some { atomBase st d a b c op wide l t (genAccs (if wide then 8 else 4) a none) with
      acq := decide (o = .acq ∨ o = .acqrel), rel := decide (o = .rel ∨ o = .acqrel) }
  | .atoms st d a b c op wide l t =>
    let f := atomBase st d a b c op wide l t (scrAccs (if wide then 8 else 4) a none)
    some { f with uses := ⟨0, a, 1⟩ :: f.uses.drop 1, kind := fun _ => .scrAtom op wide }
  | .scadd st a b t =>
    some { storeBase st [⟨0, a, 2⟩, ⟨1, b, 1⟩] b .lin t (genAccs 4 a none) with
      noPriv := true, noScr := true, scadd := true, kind := fun _ => .scadd }
  | .fence st o t =>
    some
      { stall := st, tok := t, uses := [], accs := fun _ => [], pieces := fun _ _ _ => [], count := fun _ => 1, kind := fun _ => .fence o
        share := fun _ new => ∃ u, new = [u] ∧ u.pieces = [] ∧ u.kind = .fence o }
  | .pref st a b cg t =>
    some (MemForm.keyed
      { stall := st, tok := t, uses := [⟨0, a, 2⟩, ⟨1, b, 1⟩], accs := fun _ => [], share := Single, count := List.length
        kind := fun _ => .pref, cache := if cg then .cg else .ca
        pieces := fun s _ _ => prefPieces s (genAccs 1 a (some b) s) } lineKey)
  | _ => none

/-- What the issue of a memory instruction adds, in a state s whose checks gave s2 and the places ps. -/
structure MemIssued (f : MemForm) (s s2 t : State) (ps : List PSpan) (new : List Pending) : Prop where
  issued : Issued f.stall f.tok new s2 t
  share : f.share (f.pieces s2 (f.accs (calm s)) ps) new
  units : ∀ u ∈ new, (∀ p ∈ u.pieces, u.kind = f.kind p) ∧ u.tok = some f.tok.toNat ∧ u.acq = f.acq ∧ u.rel = f.rel ∧
    u.cache = f.cache ∧ u.writes = [] ∧ u.pc = curPc s
  checks : ChecksKept (calm s) s2

/-- The byte at offset j of a piece as its core reads it: scratch, a private line, a memory-side page, or the core's own newest store over
memory (03 R54, R66, R69; 04 R79). -/
def placeByte (s : State) (p : Piece) (j : Nat) : Byte :=
  if p.scr then scrByte s.ch (p.addr + j)
  else if p.priv then privByte s s.ch.core (p.addr + j)
  else if p.ms then memByte s (p.addr + j)
  else (pstoreByte s s.ch.core (p.addr + j)).getD (memByte s (p.addr + j))

/-- Word i that a load piece delivers (15 R286): the low byte first, a narrow value extended as its width says. -/
def loadWord (s : State) (p : Piece) (i : Nat) : Word :=
  let b (j : Nat) : Byte := placeByte s p (4 * i + j)
  if p.n = 1 then (if p.sgn then (b 0).signExtend 32 else (b 0).setWidth 32)
  else if p.n = 2 then
    (let h : BitVec 16 := b 1 ++ b 0
     if p.sgn then h.signExtend 32 else h.setWidth 32)
  else b 3 ++ b 2 ++ b 1 ++ b 0

/-- The places a load may have: a width of 15 R278, and no more destination words than it fills. -/
def LoadPiece (p : Piece) : Prop :=
  (p.n = 1 ∨ p.n = 2 ∨ p.n = 4 ∨ p.n = 8 ∨ p.n = 16) ∧ p.dst.length ≤ (p.n + 3) / 4 ∧ ∀ l ∈ p.dst, realLoc l ∧ ∀ j x, l ≠ .pred j x

/-- A piece's lines are held under the key of its page, so that reading them leaves them alone (30 R469). -/
def Keyed (s : State) (p : Piece) : Prop :=
  p.scr = true ∨ p.priv = true ∨
    ∀ a, a = p.addr ∨ a = p.addr + p.n - 1 → NMap.get 0 s.ltag (lineOf a) = p.key ∨ homeOf (lineOf a) ≠ s.pkg

/-- A unit of the focused convoy may take effect now (04 R77, R79, R83 to R85), and every line it needs is held as it needs it (32 R494). -/
structure MayGo (s : State) (k : Nat) (u : Pending) (write : Bool) : Prop where
  unit : s.cv.units[k]? = some u
  order : mayComplete s.cv u = true
  held : ∀ x ∈ pieceLines write u.pieces, fcWaits s x.1 x.2 = false
  keyed : ∀ p ∈ u.pieces, Keyed s p

/-- A unit has gone and its token has counted it down (03 R60, 05 R109). -/
structure UnitGone (s t : State) (u : Pending) : Prop where
  units : t.cv.units = s.cv.units.filter (fun v => v.seq ≠ u.seq)
  token : ∀ j, u.tok = some j → tokCount t.cv j = tokCount s.cv j - 1
  others : ∀ j, u.tok ≠ some j → tokCount t.cv j = tokCount s.cv j

/-- The new value of an atomic (15 R291) on words of w bits, f being the float format of the width. -/
def atomRule {w : Nat} (op : AtomOp) (f : Fmt) (old b c : BitVec w) : BitVec w :=
  match op with
  | .add => old + b
  | .min => if old.sle b then old else b
  | .max => if old.sle b then b else old
  | .minn => if old.ule b then old else b
  | .maxn => if old.ule b then b else old
  | .and => old &&& b
  | .or => old ||| b
  | .xor => old ^^^ b
  | .exch => b
  | .cas => if old = b then c else old
  | .fadd => BitVec.ofNat w (enc f (fresult f .rne false false (fsum .rne (fval f old.toNat) (fval f b.toNat))))
  | .fmin => BitVec.ofNat w (minmaxRule f false false false old.toNat b.toNat)
  | .fmax => BitVec.ofNat w (minmaxRule f false false true old.toNat b.toNat)

/-- The targets of threads that branch can be reached: each is a header (10 R194), and the frontier has room (01 R30). -/
structure TargetsOk (s : State) (tgt : List (Nat × Nat)) : Prop where
  checks : ∀ e ∈ (checkTargets s (distinct (tgt.map (·.2)))).1, ∃ prio, e.2 = .ok prio
  room : residents s.cv + (distinct (tgt.map (·.2))).length ≤ 8

/-- The state after the targets have been read. -/
def afterChecks (s : State) (tgt : List (Nat × Nat)) : State := (checkTargets s (distinct (tgt.map (·.2)))).2

/-- Threads have moved to their targets, each to an entry that stands there; the others stay in the clause, which goes on after the instruction,
and which ends where none is left (01 R29, 10 R195). Registers, predicates, latches, units, tokens and live threads are as they were. -/
structure Moves (tgt : List (Nat × Nat)) (s t : State) : Prop where
  stand : ∀ e ∈ tgt, ∃ f ∈ t.cv.fr, f.pc = e.2 ∧ f.mask.getLsbD e.1 = true
  stay : ∀ k, s.cv.clause = some k →
    let left := k.mask &&& ~~~(maskOf (tgt.map (·.1)))
    t.cv.clause = if left = 0#32 then none else some { k with mask := left, cur := k.nxt }
  regs : ∀ l, getLoc t.cv l = getLoc s.cv l
  kept : t.cv.units = s.cv.units ∧ t.cv.tok = s.cv.tok ∧ t.cv.live = s.cv.live ∧ t.cv.halt = s.cv.halt ∧ t.cv.bfaults = s.cv.bfaults
  rest : RestKept s t

/-- An instruction that only moves on: registers, predicates, units, frontier and memory are as they were. -/
structure Passed (st : Stall) (s t : State) : Prop where
  moved : MovedOn st s t
  convoy : t.cv = { s.cv with
    pend := t.cv.pend, opp := t.cv.opp, stall := t.cv.stall, peek := t.cv.peek, clause := t.cv.clause }
  rest : RestKept s t

/-- The instruction waits at issue and is tried again; nothing else has happened (05 R109). -/
def Waits (s t : State) : Prop :=
  t = { s with cv := { s.cv with peek := [], clause := s.cv.clause.map (fun k => { k with nxt := k.cur }) } }

/-- No result is on its way to a predicate of the active threads. -/
def PredFree (s : State) (p : Pn) : Prop := ∀ x ∈ lanes (activeMask s), Settled s.cv (.pred p.toNat x)

/-- An instruction ends with a predicate of every active thread set or clear, ready for the next instruction (16 R297); p7 takes no value. The
core's L1 may have dropped copies, as an acquire does. -/
structure PredDone (st : Stall) (p : Pn) (b : Bool) (s t : State) : Prop where
  value : p ≠ 7#3 → ∀ x ∈ lanes (activeMask s), NMap.get false t.cv.preds (32 * p.toNat + x) = b
  others : ∀ l, realLoc l → (p = 7#3 ∨ ∀ x ∈ lanes (activeMask s), l ≠ .pred p.toNat x) → getLoc t.cv l = getLoc s.cv l
  moved : MovedOn st s t
  convoy : ConvoyKept s.cv t.cv
  rest : RestKept { s with l1 := t.l1 } t

/-- An instruction puts its entry into the waiting state at its header (01 R34, 05 R97). -/
structure Parks (w : Wait) (s t : State) : Prop where
  entry : ∀ k, s.cv.clause = some k →
    ∃ e ∈ t.cv.fr ++ t.cv.spill, e.pc = k.pc ∧ e.prio = k.prio ∧ e.mask = k.mask ∧ e.wait = some w
  ended : t.cv.clause = none
  regs : ∀ l, getLoc t.cv l = getLoc s.cv l
  rest : t = { s with cv := t.cv }

/-- An entry comes first in the order of 01 R28 among a list of entries. -/
def FirstAmong (e : Entry) (es : List Entry) : Prop := e ∈ es ∧ ∀ f ∈ es, f.prio < e.prio ∨ (f.prio = e.prio ∧ e.pc ≤ f.pc)

/-- A clause of an entry has been selected and none of its words has been read (01 R28, 10 R185). -/
def Selected (e : Entry) (t : State) : Prop :=
  ∃ k, t.cv.clause = some k ∧ k.pc = e.pc ∧ k.mask = e.mask ∧ k.prio = e.prio ∧ k.words = [] ∧ k.fresh = true ∧ k.wait = e.wait

/-- A convoy at a clause boundary that is free to select a clause (01 R28; 29 R442, R443). -/
structure AtBoundary (s : State) : Prop where
  focus : s.focus = true
  dying : s.ch.dying = false
  run : s.cv.halt = .run
  clause : s.cv.clause = none
  faults : s.cv.bfaults = []
  held : held s.ch = false

/-- The lines of n bytes are held under a key slot, or belong to another package, so that a write under it leaves their other bytes alone
(30 R469). -/
def KeyedAt (s : State) (a n key : Nat) : Prop :=
  ∀ b, b = a ∨ b = a + n - 1 → NMap.get 0 s.ltag (lineOf b) = key ∨ homeOf (lineOf b) ≠ s.pkg

/-- Every byte of memory outside a range reads as before. -/
def MemoryKeptOutside (a n : Nat) (s t : State) : Prop := ∀ b, ¬ (a ≤ b ∧ b < a + n) → memByte t b = memByte s b

/-- An MTX instruction that joins the matrix queue (17 R322 to R332): its operands, the slots that the cohort has to have claimed, its entry, the
places its unit delivers to, and what changes in the cohort at issue. -/
structure MtxForm where
  stall  : Stall
  tok    : Tok
  uses   : List Use := []
  dst    : Option (Dst × Nat) := none
  slots  : Word := 0#32
  extra  : State → Prop := fun _ => True
  op     : State → MOp
  num    : Cohort → Nat := fun _ => 0
  plane  : Cohort → Nat := fun _ => 0
  /-- format and slot of the plane that an MMA uses -/
  latch  : Cohort → Fmt × Nat := fun _ => (.f32, 0)
  pieces : State → List Piece := fun _ => []
  after  : Cohort → Cohort := id

/-- The entry of a form. -/
def MtxForm.entry (f : MtxForm) (s : State) : MEntry :=
  { op := f.op s, convoy := s.cv.id, unit := some s.cv.useq, num := f.num s.ch, redn := s.ch.redn, pc := curPc s, plane := f.plane s.ch,
    bfmt := (f.latch s.ch).1, bslot := (f.latch s.ch).2 }

/-- The element that an index operand names, row b[9:5] and column b[4:0] (17 R328). -/
def elementRule (b : Word) : Nat := 32 * (b.extractLsb' 5 5).toNat + (b.extractLsb' 0 5).toNat

/-- The offsets of MSLOTW and MSLOTR lie in the slot and are multiples of the width (17 R332). -/
def offsetsOk (b : Src) (n : Nat) (s : State) : Prop := ∀ x ∈ actLanes s, (rd32 s b x).toNat < 16384 ∧ (rd32 s b x).toNat % n = 0

/-- The MTX instructions that join the queue, MST and MLD apart. -/
def mtxForm : Instr → Option MtxForm
  | .mfree st a t => some
      { stall := st, tok := t, uses := [⟨0, a, 1⟩], op := fun s => .free (rd32 s a (lowest s)) }
  | .mldw st fmt slot t => some
      { stall := st, tok := t, slots := 1#32 <<< slot.val, op := fun _ => .ldw fmt slot.val, plane := fun c => c.nldw + 1
        after := fun c => { c with lastLdw := some (fmt, slot.val), nldw := c.nldw + 1 } }
  | .mma st fmt slot acc ftzi ftzo t => some
      { stall := st, tok := t, slots := 1#32 <<< slot.val, op := fun s => .mma fmt slot.val acc.val ftzi ftzo (clauseRm s) none
        extra := fun s => ∃ b m, s.ch.lastLdw = some (b, m) ∧ fmt.width = b.width ∧ fmtMmaInt fmt = fmtMmaInt b ∧ (fmt = .f64 → acc.val % 2 = 0)
        num := fun c => c.mnum + 1, plane := fun c => c.nldw, latch := fun c => c.lastLdw.getD (.f32, 0)
        after := fun c => { c with mnum := c.mnum + 1 } }
  | .mzero st mask t => some { stall := st, tok := t, op := fun _ => .zero mask }
  | .mrd st d b acc wide t => some
      { stall := st, tok := t, uses := [⟨1, b, 1⟩], dst := some (d, if wide then 2 else 1), extra := fun _ => wide = true → acc.val % 2 = 0
        op := fun _ => .rd acc.val wide
        pieces := fun s => (actLanes s).map (fun x =>
          { lane := x, scr := false, addr := 0, va := elementRule (rd32 s b x), n := 0
            dst := spanDst s d x 0 (if wide then 8 else 4) }) }
  | .mwr st a b acc wide t => some
      { stall := st, tok := t, uses := [⟨0, a, if wide then 2 else 1⟩, ⟨1, b, 1⟩], extra := fun _ => wide = true → acc.val % 2 = 0
        op := fun s => .wr acc.val wide ((actLanes s).map (fun x =>
          (elementRule (rd32 s b x), if wide then rd64 s a x else (rd32 s a x).setWidth 64))) }
  | .msync st t => some { stall := st, tok := t, op := fun _ => .sync }
  | .mslotw st a b slot wide t => some
      { stall := st, tok := t, uses := [⟨0, a, if wide then 2 else 1⟩, ⟨1, b, 1⟩], slots := 1#32 <<< slot.val
        extra := offsetsOk b (if wide then 8 else 4)
        op := fun s => .slotw slot.val ((actLanes s).map (fun x =>
          ((rd32 s b x).toNat, if wide then bytesOf (rd64 s a x).toNat 8 else bytesOf (rd32 s a x).toNat 4))) }
  | .mslotr st d b slot wide t => some
      { stall := st, tok := t, uses := [⟨1, b, 1⟩], dst := some (d, if wide then 2 else 1), slots := 1#32 <<< slot.val
        extra := offsetsOk b (if wide then 8 else 4), op := fun _ => .slotr slot.val wide
        pieces := fun s => (actLanes s).map (fun x =>
          { lane := x, scr := false, addr := 0, va := (rd32 s b x).toNat, n := 0, dst := spanDst s d x 0 (if wide then 8 else 4) }) }
  | _ => none

/-- An MTX instruction may go on: its convoy's role, the hold and the claims of its cohort (02 R48, R49; 17 R323). -/
def MtxGranted (s : State) (drain : Bool) (slots : Word) : Prop :=
  (s.cv.role = .general ∨ s.cv.role = .compute ∨ (drain = true ∧ s.cv.role = .drain)) ∧ s.ch.hold = true ∧ slots &&& ~~~s.ch.claim = 0#32

/-- An element of an MMA (17 R327): the exact integer sum, wrapped, or the aligned sum of the products with the element. -/
def mmaRule (fa fb : Fmt) (rm : RMode) (ftzi ftzo : Bool) (k : Nat) (a b : Nat → Nat) (c : Nat) : Nat :=
  if fmtMmaInt fa then
    (BitVec.ofInt 32 ((BitVec.ofNat 32 c).toInt + ((List.range k).map (fun j => ival fa (a j) * ival fb (b j))).sum)).toNat
  else
    let f : Fmt := if fa = .f64 then .f64 else .f32
    enc f (alignedSum ((List.range k).map (fun j => fprod (fin_ fa ftzi (a j)) (fin_ fb ftzi (b j)))) (fval f c) (guardWidth fa) f rm ftzi ftzo)

/-- The slot of the focused cohort. -/
def slotOf (s : State) : SlotRef := { core := s.ch.core, slot := s.ch.slot }

/-- The byte at offset j of a place of an engine's element (06 R113). -/
def engByte (s : State) (p : Place) (j : Nat) : Byte :=
  match p with
  | .mem pa _ => memByte s (pa + j)
  | .scr off => scrByte s.ch (off + j)
  | .slot m off => NMap.get 0#8 s.ch.slots (16384 * m + off + j)

/-- A place in memory is held under its key, and its lines are not waited for (30 R469, 32 R494). -/
def PlaceKeyed (s : State) (p : Place) (n : Nat) : Prop :=
  match p with
  | .mem pa key => KeyedAt s pa n key ∧ fcWaits s (lineOf pa) true = false
  | _ => True

/-- The threads of an instruction, with the units that their convoy had issued (04 R87). -/
def whoIssues (s : State) : List (Nat × Nat × Nat) := (lanes (activeMask s)).map (fun y => (s.cv.id, y, s.cv.useq))

/-- The tapes' shares lie in scratch (09 R166). -/
def SharesFit (s : State) : Prop := s.cv.id < s.ch.desc.convoys ∧ 32 * s.ch.desc.convoys * tapeBytes s.ch.desc ≤ scrSize s.ch

/-- A tape instruction has issued: one unit for each acting thread, which is to make the thread's writes; scratch changes in the acting
threads' shares alone, and the tapes of other threads are as they were (09 R166; 18 R337). -/
structure TapeIssued (st : Stall) (tok : Tok) (writes : Nat → List (Loc × DWord)) (s t : State) : Prop where
  units : ∃ new : List Pending, new.map (·.writes) = (actLanes s).map writes ∧ (∀ u ∈ new, u.kind = .value) ∧
    Issued st tok new { s with
      ch := { s.ch with scratch := t.ch.scratch, spoison := t.ch.spoison }, cv := { s.cv with tapes := t.cv.tapes, tspill := t.cv.tspill } } t
  shares : ∀ a, (∀ x ∈ actLanes s, ¬ (shareBase s x ≤ a ∧ a < shareBase s x + tapeBytes s.ch.desc)) → scrByte t.ch a = scrByte s.ch a
  others : ∀ x, x ∉ actLanes s → NMap.get {} t.cv.tapes x = NMap.get {} s.cv.tapes x

/-- The tape of a thread that has appended bytes at its top and now reads as `after` (09 R167). -/
def Appended (s t : State) (x : Nat) (bs : List Byte) (after : Tape) : Prop :=
  let v := viewTape s x
  let w := viewTape t x
  w.t = after ∧ w.read v.t.top bs.length = bs ∧ (∀ o, v.t.low ≤ o → o < v.t.top → w.read o 1 = v.read o 1) ∧ w.spill = v.spill

/-- A SYS instruction of one unit (20 R379 to R392): its operands, the checks of R381 from 6 on, its unit's kind, the value that the
unit is to write (word numbers, where the value is read when the unit completes), and what changes at issue. -/
structure SysForm where
  stall : Stall
  tok   : Tok
  uses  : List Use := []
  dst   : Option (Dst × Nat) := none
  ok    : State → Prop := fun _ => True
  kind  : State → UKind := fun _ => .value
  val   : State → Nat → DWord := fun _ _ => 0#64
  acq   : Bool := false
  rel   : Bool := false
  after : State → State := id

/-- The writes of a form's unit. -/
def SysForm.writes (f : SysForm) (s : State) : List (Loc × DWord) :=
  match f.dst with
  | some (d, n) => (actLanes s).flatMap (fun x => dstWrites s d n x (f.val s x))
  | none => []

/-- In place of a value that is read when the unit completes: the words' numbers. -/
def wordNumbers : DWord := 1#64 <<< (32 : Nat)

/-- The SYS instructions of one unit; those of several, of none, or that store, apart. -/
def sysForm : Instr → Option SysForm
  | .srd st d reg t =>
    let n := if reg = 0x12#8 ∨ reg = 0x22#8 ∨ reg = 0x23#8 ∨ reg = 0x24#8 then 2 else 1
    if reg = 0x24#8 then some { stall := st, tok := t, dst := some (d, 2), kind := fun _ => .sysRead 6, val := fun _ _ => wordNumbers }
    else some { stall := st, tok := t, dst := some (d, n), val := fun s x => special s reg.toNat x }
  | .swr st a reg t => some
      { stall := st, tok := t, uses := [⟨0, a, 2⟩], ok := fun s => reg = 0x23#8 ∧ (rd64 s a (lowest s)).toNat % 512 = 0
        kind := fun s => .sysSet 0 (rd64 s a (lowest s)) }
  | .pmc st ev k enable clear own t => some
      { stall := st, tok := t, ok := fun s => s.ch.pmacc = true ∧ s.session = none
        after := fun s =>
          let i := 4 * s.ch.core + k.toNat
          let c : PmCtr :=
            { ev := ev, en := enable, own := if own then some s.ch.uid else none, val := if clear then 0#64 else (NMap.get {} s.ctrs i).val }
          { s with ctrs := NMap.set {} s.ctrs i c } }
  | .pmr st d k t => some
      { stall := st, tok := t, dst := some (d, 2), ok := fun s => s.ch.pmacc = true, kind := fun _ => .sysRead k.toNat, val := fun _ _ => wordNumbers }
  | .clk st d ns t => some
      { stall := st, tok := t, dst := some (d, 2), kind := fun _ => .sysRead (if ns then 5 else 4), val := fun _ _ => wordNumbers }
  | .scall st d a service t => some
      { stall := st, tok := t, uses := [⟨0, a, 2⟩], dst := some (d, 1), acq := true, rel := true
        kind := fun s => .scall (2 ^ 32 * service.toNat + (s.nscall + 1) % 2 ^ 32)
        after := fun s => { s with
          nscall := s.nscall + 1
          scalls := s.scalls ++ [{ no := s.nscall + 1, uid := s.ch.uid, convoy := s.cv.id, unit := s.cv.useq, rcb := s.ch.rcb, root := s.ch.root
                                   service := service.toNat, arg := rd64 s a (lowest s)
                                   status := if 6 < service.toNat then some 0xFFFFFFFF#32 else none }] } }
  | .digestAbsorb st a b c slot t => some
      { stall := st, tok := t, uses := [⟨0, a, 2⟩, ⟨1, b, 2⟩, ⟨2, c, 1⟩], rel := true
        ok := fun s => (rd64 s b (lowest s)).toNat < 2 ^ 57 ∧ (rd64 s b (lowest s)).toNat + (rd32 s c (lowest s)).toNat ≤ 2 ^ 57
        kind := fun s => .absorb slot.toNat (rd64 s a (lowest s)) (rd64 s b (lowest s)) (rd32 s c (lowest s)).toNat }
  | .mode st (.rd d) t => some
      { stall := st, tok := t, dst := some (d, 1)
        val := fun s _ => BitVec.ofNat 64 ((if s.ch.eftrap then 256 else 0) + (if s.ch.pmacc then 8 else 0) + (if s.ch.check then 4 else 0) +
          (if s.ch.strict then 2 else 0) + (if s.ch.det then 1 else 0)) }
  | .mode st (.set a) t => some
      { stall := st, tok := t, uses := [⟨0, a, 1⟩], ok := fun s => rd32 s a (lowest s) &&& ~~~0x100#32 = 0#32
        kind := fun s => if (rd32 s a (lowest s)).getLsbD 8 then .sysSet 2 1#64 else .value }
  | .mode st (.clr a) t => some
      { stall := st, tok := t, uses := [⟨0, a, 1⟩], ok := fun s => rd32 s a (lowest s) &&& ~~~0x100#32 = 0#32
        kind := fun s => if (rd32 s a (lowest s)).getLsbD 8 then .sysSet 2 0#64 else .value }
  | .eflt st .clr t => some { stall := st, tok := t, after := fun s => { s with ch := { s.ch with efault := {} } } }
  | .pwrh st level t => some { stall := st, tok := t, kind := fun _ => .sysSet 1 (level.setWidth 64) }
  | .qrd st d q t => some
      { stall := st, tok := t, dst := some (d, 1), val := fun s _ => (NMap.get 0#32 s.cv.qview q.toNat).setWidth 64 }
  | .lnch st a b t => some
      { stall := st, tok := t, uses := [⟨0, a, 2⟩, ⟨1, b, 2⟩], rel := true
        ok := fun s => below s s.ch.rcb treeFuel (lnchTarget s b) = true ∧ (rd64 s a (lowest s)).toNat % 64 = 0
        kind := fun s => .lnch (rd64 s a (lowest s)) (lnchTarget s b) }
  | .replay st (.rd d) t => some
      { stall := st, tok := t, dst := some (d, 1)
        val := fun s _ => match s.session with
          | none => 0#64
          | some x => BitVec.ofNat 64 (x.pass % 256 + 256 + if s.sessMis then 512 else 0) }
  | .replay st (.req a) t => some
      { stall := st, tok := t, uses := [⟨0, a, 2⟩], ok := fun s => s.ch.pmacc = true, kind := fun s => .replayReq (rd64 s a (lowest s)) }
  | _ => none

/-- An event joins the event log (31 R480, R481): in a ring with room its 64 bytes stand at the head, which moves on, and vector 2 fires where the ring was empty; a
full ring drops it and counts it. -/
def Logged (e : BitVec 512) (s t : State) : Prop :=
  let g := s.regs
  let used := g.logHead.toNat - g.logTail.toNat
  let a := g.logBase.toNat + 64 * (g.logHead.toNat % g.logSize.toNat)
  (g.logSize.toNat ≤ used → t = { s with regs := { g with logLost := g.logLost + 1#64 } }) ∧
  (used < g.logSize.toNat →
    t.regs = { g with logHead := g.logHead + 1#64, msix := g.msix ++ if g.logHead = g.logTail then [2] else [] } ∧
    memGet t a 64 = bytesOf e.toNat 64 ∧ (KeyedAt s a 64 0 → MemoryKeptOutside a 64 s t))

/-- The fields of an event (33 R510): its time, region, type and class. -/
structure EventIs (e : BitVec 512) (ns rcb type cls : Nat) : Prop where
  time : e.extractLsb' 448 64 = BitVec.ofNat 64 ns
  region : e.extractLsb' 384 64 = BitVec.ofNat 64 rcb
  type : e.extractLsb' 376 8 = BitVec.ofNat 8 type
  cls : e.extractLsb' 368 8 = BitVec.ofNat 8 cls

/-- A request of SCALL has its status (20 R387). -/
def Answered (no x : Nat) (s t : State) : Prop :=
  t = { s with scalls := s.scalls.map (fun r => if r.no = no then { r with status := some (BitVec.ofNat 32 x) } else r) }

/-- The mailbox's request has ended: status, valid bit, vector 1 (31 R479, R481). -/
def MailAnswered (x : Nat) (s t : State) : Prop :=
  t = { s with regs := { s.regs with busy := false, status := BitVec.ofNat 64 (2 ^ 63 + x % 2 ^ 32), msix := s.regs.msix ++ [1] } }

/-- A request of a service of SCALL that waits to be served: its release may be performed (20 R387). -/
structure Asked (s : State) (k : Nat) (r : Scall) (service : Nat) : Prop where
  req : s.scalls[k]? = some r
  service : r.service = service
  status : r.status = none
  sent : scallSent s r = true

/-- A request of a service in the mailbox (31 R479). -/
structure Mailed (s : State) (service : Nat) : Prop where
  busy : s.regs.busy = true
  service : (s.regs.service.extractLsb' 0 12).toNat = service

/-- A message of the fabric has been sent (32 R495). -/
structure Sent (s t : State) (m : FabMsg) (kind : Nat) : Prop where
  out : t.fab.out = s.fab.out ++ [m]
  kind : m.kind = kind
  src : m.h.src = s.pkg

/-- The cohorts that a decision for a logical core and a track mask may bind (28 R434): ready, passed over by no rule, and such that some core takes them. -/
def bindable (s : State) (logical : Nat) (tmask : BitVec 16) : List Cand :=
  ((parkedCands s ++ spawnCands s ++ (launchCands s logical s.launches).1).filter (passable s)).filter (fun c =>
    (List.range 320).any (fun l =>
      logicalOk c.co l && (coreFits s (physOf s l) l tmask c.co || coreFits s (physOf s l) l 0xFFFF#16 c.co)))

/-- The state in which a bind decision has looked at its candidates: dependences have been read, and whether one was passed over for headroom has been noted (34 R520). -/
def decisionState (s : State) (logical : Nat) : State :=
  let q := launchCands s logical s.launches
  let all := (parkedCands s ++ spawnCands s ++ q.1).filter (passable s)
  let tight := all.any (fun c => (List.range 320).all (fun l => !(fitsPower s (physOf s l) (countedLevel c.co))))
  if tight then { q.2 with power := { q.2.power with passed := s.ns } } else q.2

/-- The fields of a bind record in state BIND (28 R427). -/
structure BindIs (r : BitVec 256) (tmask : BitVec 16) (prio linear logical : Nat) (fresh : Bool) : Prop where
  state : r.extractLsb' 0 2 = 1#2
  tmask : r.extractLsb' 168 16 = tmask
  prio : r.extractLsb' 160 8 = BitVec.ofNat 8 prio
  linear : r.extractLsb' 184 32 = BitVec.ofNat 32 linear
  logical : r.extractLsb' 150 10 = BitVec.ofNat 10 logical
  fresh : r.getLsbD 130 = fresh
  zeros : r.extractLsb' 2 30 = 0#30 ∧ r.extractLsb' 64 48 = 0#48 ∧ r.extractLsb' 128 2 = 0#2

/-- The state of a slot (28 R429). -/
def slotSt (s : State) (core slot : Nat) : BitVec 2 := (NMap.get 0#256 s.slotTab (16 * core + slot)).extractLsb' 0 2

end Sys2Proof.Machine
end

