-- ==== Sys2Proof/Certificates/Slice0/Obligations.lean ====
section
/-! DEFINITION. The statements for the provers. -/

section
open Sys2Proof Sys2Proof.Machine

/-! The whole machine -/

/-- Right after package reset no cohort is bound or known, no key slot is loaded, the measurement registers, the boot state, the slot
tables, the clocks, the translation caches, the completion rings and the registers of the host link hold zero or nothing (28 R427, R431;
30 R464, R471; 31 R476, R482, R483; 20 R386; 35 R523).
At reset memory lists nothing, in canonical form; that an unlisted byte reads 0 is the model's choice (log 3). -/
def Obligations.resetState : Prop :=
  (let s := State.reset
  s.focus = false ∧ s.others = [] ∧ s.regions = [] ∧ s.launches = [] ∧ s.parked = [] ∧ s.binds = [] ∧ s.ring = [] ∧ s.tlb = [] ∧
  (∀ core slot, NMap.get 0#256 s.slotTab (16 * core + slot) = 0#256) ∧
  (∀ k, keyLoaded s k = false) ∧
  s.boot.m = [0#512, 0#512, 0#512, 0#512] ∧ s.boot.state_ = 0 ∧ s.boot.error = 0 ∧
  s.ns = 0 ∧ (∀ core, cycles s core = 0) ∧
  s.regs.fifo = [] ∧ s.regs.rec_ = 0#64 ∧ s.regs.rcb = 0#64 ∧ s.regs.status = 0#64 ∧ s.regs.logBase = 0#64 ∧ s.regs.logSize = 0#64 ∧
  (∀ line, poisoned s line = false)) ∧
  (Memory.wf State.reset.mem = true ∧ ∀ a, memByte State.reset a = 0#8)

/-- A step that goes on keeps the canonical form of memory: ascending addresses, and no byte listed that reads as an unlisted one. -/
def Obligations.memoryStaysCanonical : Prop :=
  ∀ s t : State, Memory.wf s.mem = true → step s = .next t → Memory.wf t.mem = true

/-- Every step of the machine goes on: the faults of 29 R441 are states, and no instruction or event is refused. -/
def Obligations.everyStepGoesOn : Prop := ∀ s : State, goesOn s

/-- When nothing is scheduled, the focused convoy may issue, and the words at its place in the clause decode to an instruction of n words,
a step is that instruction's meaning at the state in which the convoy's STALL opportunities have passed and its clause has moved past
the n words, registers and memory being as they were, with what the performance counters count added (01 R19, 10 R183, R196, 35 R523). -/
def Obligations.stepRunsTheDecodedInstruction : Prop :=
  ∀ (s : State) (k : Clause) (i : Instr) (n : Nat), s.schedule = [] → eligible s = true → s.cv.clause = some k →
    decode (clsOf (Header.unpack k.hdr).cls) (Header.unpack k.hdr).uni (decide (k.nxt = 0)) (k.words.drop k.nxt) = .ok (i, n) →
    step s = counted s i true (exec i (beginInstr (passStall s) n)) ∧
    (beginInstr (passStall s) n).cv.clause =
      some { k with cur := k.nxt, nxt := k.nxt + n, age0 := if k.fresh then (passStall s).cv.opp else k.age0 } ∧
    (beginInstr (passStall s) n).cv.bad = 0#32 ∧ (beginInstr (passStall s) n).cv.peek = [] ∧
    (∀ l, getLoc (beginInstr (passStall s) n).cv l = getLoc s.cv l) ∧ MemoryKept s (beginInstr (passStall s) n)

/-- Where the words do not decode, the step takes the Clause Format, Illegal Instruction or Reserved Bits fault of 12 R218 (kinds 0x02,
0x01 and 0x04 of 29 R441), which names every active thread and moves past no word. -/
def Obligations.wordsThatDoNotDecodeFault : Prop :=
  ∀ (s : State) (k : Clause) (e : DecodeFault), s.schedule = [] → eligible s = true → s.cv.clause = some k →
    decode (clsOf (Header.unpack k.hdr).cls) (Header.unpack k.hdr).uni (decide (k.nxt = 0)) (k.words.drop k.nxt) = .error e →
    step s = counted s .clauseFetch false (.next (takeFault (beginInstr (passStall s) 0)
      { kind := match e with
          | .clauseFormat => 0x02
          | .illegal => 0x01
          | .reserved => 0x04
        mask := k.mask }))

/-- Decoding the encoding of a well-formed instruction gives the instruction back, with every operand, flag and literal, and takes exactly
its words, whatever words follow (10 R183, R186 to R193; 12 R219 to R224). -/
def Obligations.decodeOfEncode : Prop :=
  ∀ (i : Instr) (c : Cls) (ws rest : List Word), i.wf = true → encode i = some (c, ws) →
    decode c false true (ws ++ rest) = .ok (i, ws.length)

/-- An instruction that decodes is well-formed, is one of those that have an encoding, and takes at least one of the words and no more
than there are. -/
def Obligations.decodedIsWellFormed : Prop :=
  ∀ (c : Cls) (uni first : Bool) (ws : List Word) (i : Instr) (n : Nat), decode c uni first ws = .ok (i, n) →
    i.wf = true ∧ (encode i).isSome = true ∧ 1 ≤ n ∧ n ≤ ws.length

/-! Arithmetic -/

/-- INT instructions with a data result, on ready operands: each acting thread's destination takes the value of the rules R237 to R248 and
R250 with the latency 2 of R197, outside a uniform clause latch 0 takes it too (R42, R234), and no other register, predicate, latch,
special register, unit, other convoy or byte of memory changes. The zero code takes no value. -/
def Obligations.integerResults : Prop :=
  ∀ (i : Instr) (f : DataForm) (s : State), intForm i = some f → Ready s f.uses (f.preds.flatMap (predLocs s)) (some (f.dst, f.words)) →
    ∃ t, exec i s = .next t ∧ FixedEffect f.stall f.lat f.dst f.words (f.val s) s t

/-- R247: SEL takes a where the thread's predicate is set and b elsewhere; p7 makes it a MOV of a. -/
def Obligations.selectByPredicate : Prop :=
  ∀ (st : Stall) (d : Dst) (a b : Src) (k : Pn) (s : State), Ready s [⟨0, a, 1⟩, ⟨1, b, 1⟩] (predLocs s k.toNat) (some (d, 1)) →
    ∃ t, exec (.sel st d a b k) s = .next t ∧ FixedEffect st 2 d 1
      (fun x => (if k = 7#3 then rd32 s a x else if pred s k.toNat x then rd32 s a x else rd32 s b x).setWidth 64) s t

/-- Instructions that compare, and PLOP: each acting thread's predicate takes the condition of R222 or the function of R249; p7 takes no
value and reads as set (R47); no latch, register or byte of memory changes. -/
def Obligations.predicateResults : Prop :=
  ∀ (i : Instr) (f : PredForm) (s : State), predForm i = some f → Ready s f.uses (f.preds.flatMap (predLocs s)) none →
    (∀ l ∈ predLocs s f.p, Settled s.cv l) →
    ∃ t, exec i s = .next t ∧ PredEffect f.stall f.lat f.p (f.val s) s t ∧ ∀ x, pred t 7 x = true

/-- FLT instructions of fixed latency, on ready operands, write the values of R259 to R266 under the clause RM.
Well-formed PKD instructions, on ready operands, write the values of R270 to R277 under the clause RM, element by element. -/
def Obligations.floatResults : Prop :=
  (∀ (i : Instr) (f : DataForm) (s : State), fltForm i = some f → Ready s f.uses (f.preds.flatMap (predLocs s)) (some (f.dst, f.words)) →
    ∃ t, exec i s = .next t ∧ FixedEffect f.stall f.lat f.dst f.words (f.val s) s t) ∧
  (∀ (i : Instr) (f : DataForm) (s : State), pkdForm i = some f → i.wf = true →
    Ready s f.uses (f.preds.flatMap (predLocs s)) (some (f.dst, f.words)) →
    ∃ t, exec i s = .next t ∧ FixedEffect f.stall f.lat f.dst f.words (f.val s) s t)

/-- PMOV.fromr: in each acting thread predicate k of p0 to p6 takes bit k of a where bit k of b is set; nothing else changes (R250).
XSET on a ready source: .idx sets the index of each acting thread; .lim sets base and limit from the lowest thread's a[7:0] and a[15:8],
and where either exceeds 192 takes a Register Bounds fault, with which the limits stay as they are (R251). -/
def Obligations.predicatesAndIndexesSet : Prop :=
  (∀ (st : Stall) (a b : Src) (s : State), Ready s [⟨0, a, 1⟩, ⟨1, b, 1⟩] [] none →
    (∀ k x, Settled s.cv (.pred k x)) →
    ∃ t, exec (.pmovFromr st a b) s = .next t ∧
      (∀ x ∈ actLanes s, ∀ k < 7, NMap.get false t.cv.preds (32 * k + x) =
        if (rd32 s b x).getLsbD k then (rd32 s a x).getLsbD k else NMap.get false s.cv.preds (32 * k + x)) ∧
      (∀ l, realLoc l → (∀ k x, l = .pred k x → x ∉ actLanes s) → getLoc t.cv l = getLoc s.cv l) ∧
      MovedOn st s t ∧ ConvoyKept s.cv t.cv ∧ RestKept s t ∧ MemoryKept s t) ∧
  (∀ (st : Stall) (a : Src) (x : Fin 4) (s : State), Ready s [⟨0, a, 1⟩] [] none →
    (∀ l ∈ (actLanes s).map (fun y => Loc.idx x.val y) ++ [Loc.lim x.val], Settled s.cv l) →
    (∃ t, exec (.xset st a true x) s = .next t ∧
      (∀ y ∈ actLanes s, xIndex t x.val y = (rd32 s a y).toNat) ∧
      (∀ l, realLoc l → (∀ y ∈ actLanes s, l ≠ .idx x.val y) → getLoc t.cv l = getLoc s.cv l) ∧
      MovedOn st s t ∧ ConvoyKept s.cv t.cv ∧ RestKept s t ∧ MemoryKept s t) ∧
    (let v := (rd32 s a (lowest s)).toNat
     (v % 256 ≤ 192 ∧ v / 256 % 256 ≤ 192 →
       ∃ t, exec (.xset st a false x) s = .next t ∧ xBase t x.val = v % 256 ∧ xLimit t x.val = v / 256 % 256 ∧
         (∀ l, realLoc l → l ≠ .lim x.val → getLoc t.cv l = getLoc s.cv l) ∧
         MovedOn st s t ∧ ConvoyKept s.cv t.cv ∧ RestKept s t ∧ MemoryKept s t) ∧
     (¬ (v % 256 ≤ 192 ∧ v / 256 % 256 ≤ 192) →
       ∃ f, exec (.xset st a false x) s = .next (takeFault s f) ∧ f.kind = 0x06 ∧ f.mask = activeMask s)))

/-- XGET, the special functions, the roots and the quotients, on ready operands and with room on the token: the values of R252, R267 and
R268 are on their way in one unit, and nothing else changes until it completes (R199, R269, 05 R109).
REDU on ready operands with room on the token: one unit is to write every active thread's destination with the reduction of the active
threads' values; an integer one of a single active thread is that thread's value (R309, R310). -/
def Obligations.laterResults : Prop :=
  (∀ (i : Instr) (f : ValueForm) (s : State), valueForm i = some f → Ready s f.uses (f.reads s) (some (f.dst, f.words)) →
    tokRoom s.cv f.tok.toNat 1 = true →
    ∃ t, exec i s = .next t ∧ ValueEffect f.stall f.tok f.dst f.words (f.val s) s t) ∧
  (∀ (st : Stall) (d : Dst) (a : Src) (op : ReduOp) (fmt : Fmt) (ftzi ftzo : Bool) (tok : Tok) (s : State),
    Ready s [⟨0, a, if fmt.width = 64 then 2 else 1⟩] [] (some (d, if fmt.width = 64 then 2 else 1)) → tokRoom s.cv tok.toNat 1 = true →
    ∃ t, exec (.redu st d a op fmt ftzi ftzo tok) s = .next t ∧
      ValueEffect st tok d (if fmt.width = 64 then 2 else 1) (fun _ => reduValue op fmt ftzi ftzo a s) s t ∧
      (∀ x, lanes (activeMask s) = [x] → fmt.isFloat = false → fmt.width = 32 →
        reduValue op fmt ftzi ftzo a s = (rd32 s a x).setWidth 64))

/-- The event that completes a unit of known values, where unit k of the focused convoy is one: its writes are made in order, so that the
last write to a location stays, and its token counts one down (03 R60, 05 R109, 14 R269). -/
def Obligations.valueUnitCompletes : Prop :=
  ∀ (k : Nat) (u : Pending) (s : State), s.cv.units[k]? = some u → u.kind = .value → (∀ e ∈ u.writes, realLoc e.1) →
    ∃ t, exec (.tokenUnitComplete k) s = .next t ∧
      (∀ l v, u.writes.reverse.find? (fun e => e.1 = l) = some (l, v) → (∀ j x, l ≠ .pred j x) → (getLoc t.cv l).lo = v.lo) ∧
      (∀ j x v, j ≠ 7 → u.writes.reverse.find? (fun e => e.1 = .pred j x) = some (.pred j x, v) →
        NMap.get false t.cv.preds (32 * j + x) = v.getLsbD 0) ∧
      (∀ l, realLoc l → (∀ e ∈ u.writes, e.1 ≠ l) → getLoc t.cv l = getLoc s.cv l) ∧
      t.cv.units = s.cv.units.filter (fun v => v.seq ≠ u.seq) ∧
      (∀ j, u.tok = some j → tokCount t.cv j = tokCount s.cv j - 1) ∧
      MemoryKept s t ∧ t.ch = s.ch ∧ t.others = s.others

/-! Exchange among threads -/

/-- SHFL: a thread takes a of the thread that its b selects where that thread is active and exists, and its own a otherwise (R307). MATCH: the
mask of the active threads with the same pair (R308). VOTE.ballot: the mask of the active threads whose predicate, after inversion, is set
(R306). On ready operands each acting thread's destination takes it, ready for the next instruction (R297), and nothing else changes.
VOTE.all and VOTE.any: every active thread's pd takes whether all, or any, of the active threads have the predicate set after inversion
(R306); p7 takes no value. No register and no byte of memory changes. -/
def Obligations.laneExchange : Prop :=
  (∀ (st : Stall) (d : Dst) (s : State),
    (∀ (a b : Src) (op : ShflOp), Ready s [⟨0, a, 1⟩, ⟨1, b, 1⟩] [] (some (d, 1)) →
      ∃ t, exec (.shfl st d a b op) s = .next t ∧ HoldEffect st d 1 (fun x =>
        let n := (rd32 s b x).toNat
        let from_ : Option Nat := match op with
          | .idx => some (n % 32)
          | .up => if n ≤ x then some (x - n) else none
          | .down => if x + n ≤ 31 then some (x + n) else none
          | .xor => some (x ^^^ (n % 32))
        (match from_ with
          | some y => if (activeMask s).getLsbD y then rd32 s a y else rd32 s a x
          | none => rd32 s a x).setWidth 64) s t) ∧
    (∀ (a b : Src), Ready s [⟨0, a, 1⟩, ⟨1, b, 1⟩] [] (some (d, 1)) →
      ∃ t, exec (.matchl st d a b) s = .next t ∧ HoldEffect st d 1 (fun x =>
        (bitsWord (fun y => (activeMask s).getLsbD y && decide (rd32 s a y = rd32 s a x ∧ rd32 s b y = rd32 s b x))).setWidth 64) s t) ∧
    (∀ (inv : Bool) (pa : Pn), Ready s [] (predLocs s pa.toNat) (some (d, 1)) →
      ∃ t, exec (.vote st (.ballot d) inv pa) s = .next t ∧ HoldEffect st d 1 (fun _ =>
        (bitsWord (fun y => (activeMask s).getLsbD y && (pred s pa.toNat y ^^ inv))).setWidth 64) s t)) ∧
  (∀ (st : Stall) (p pa : Pn) (inv : Bool) (s : State), (∀ l ∈ predLocs s pa.toNat ++ (lanes (activeMask s)).map (Loc.pred p.toNat), Settled s.cv l) →
    uniform s = false →
    let all := decide (∀ y ∈ lanes (activeMask s), (pred s pa.toNat y ^^ inv) = true)
    let any := decide (∃ y ∈ lanes (activeMask s), (pred s pa.toNat y ^^ inv) = true)
    ∀ b : Bool, ∃ t, exec (.vote st (if b then .all p else .any p) inv pa) s = .next t ∧
      (p ≠ 7#3 → ∀ x ∈ lanes (activeMask s), NMap.get false t.cv.preds (32 * p.toNat + x) = if b then all else any) ∧
      (∀ l, realLoc l → (p = 7#3 ∨ ∀ x ∈ lanes (activeMask s), l ≠ .pred p.toNat x) → getLoc t.cv l = getLoc s.cv l) ∧
      MovedOn st s t ∧ RestKept s t ∧ MemoryKept s t)

/-! Memory -/

/-- Loads (LD, LDS, LDP, LDC), FENCE and PREF, on ready operands whose address checks pass, with room on the token: the units of R284, R288,
R294 and R295 are outstanding, with their threads, places, destinations and order; registers, predicates and every byte of memory are as
before (the checks write no D bit for a read).
Stores (ST, STS, STP), atomics (ATOM, ATOMS) and SCADD, likewise: the units of R284, R287, R288, R292 and R293 are outstanding; no byte of memory
changes yet but D bits of page table entries (30 R462). -/
def Obligations.memoryInstructionsIssue : Prop :=
  (∀ (i : Instr) (f : MemForm) (s s2 : State) (ps : List PSpan), memForm i = some f → f.write = false →
    Ready s f.uses [] f.dst → f.extra (calm s) →
    accessChecks (calm s) false f.noPriv f.noScr f.atom f.scadd (f.accs (calm s)) = .go s2 ps →
    tokRoom s.cv f.tok.toNat (f.count (f.pieces s2 (f.accs (calm s)) ps)) = true →
    ∃ t new, exec i s = .next t ∧ MemIssued f s s2 t ps new ∧ MemoryKept s t) ∧
  (∀ (i : Instr) (f : MemForm) (s s2 : State) (ps : List PSpan), memForm i = some f → f.write = true →
    Ready s f.uses [] f.dst → f.extra (calm s) →
    accessChecks (calm s) true f.noPriv f.noScr f.atom f.scadd (f.accs (calm s)) = .go s2 ps →
    tokRoom s.cv f.tok.toNat (f.count (f.pieces s2 (f.accs (calm s)) ps)) = true →
    ∃ t new, exec i s = .next t ∧ MemIssued f s s2 t ps new)

/-- The address checks of a memory instruction in their order (R283): window, alignment, private bound, equal addresses of one atomic.
The first that fails is the fault, with the kind and subcode of 29 R446, the address of the lowest failing thread, and
exactly the threads whose access fails; nothing of the instruction happens. -/
def Obligations.addressChecks : Prop :=
  ∀ (i : Instr) (f : MemForm) (s : State), memForm i = some f → Ready s f.uses [] f.dst → f.extra (calm s) →
    let as := f.accs (calm s)
    let bad (p : Acc → Bool) : Word := maskOf ((as.filter p).map (·.lane))
    let window := as.filter (fun a => (windowSub s f.noPriv f.noScr a).isSome)
    let align := as.filter (fun a => a.ea % a.n ≠ 0)
    (∀ a, window.head? = some a → ∃ r, exec i s = .next (takeFault (calm s) r) ∧ r.kind = 0x0E ∧
      some r.sub = windowSub s f.noPriv f.noScr a ∧ r.addr = a.ea ∧ r.mask = bad (fun a => (windowSub s f.noPriv f.noScr a).isSome)) ∧
    (∀ a, window = [] → align.head? = some a → ∃ r, exec i s = .next (takeFault (calm s) r) ∧ r.kind = 0x0C ∧ r.addr = a.ea ∧
      r.mask = bad (fun a => a.ea % a.n ≠ 0)) ∧
    (∀ a, window = [] → align = [] → (as.filter (fun a => (privBad s a).isSome)).head? = some a →
      ∃ r, exec i s = .next (takeFault (calm s) r) ∧ r.kind = 0x09 ∧ r.mask = bad (fun a => (privBad s a).isSome)) ∧
    (window = [] → align = [] → (∀ a ∈ as, privBad s a = none) → f.atom = true →
      ∀ a ∈ as, ∀ b ∈ as, a.lane ≠ b.lane → a.win = b.win →
        ∃ r, exec i s = .next (takeFault (calm s) r) ∧ r.kind = 0x0B ∧ r.mask.getLsbD a.lane = true ∧ r.mask.getLsbD b.lane = true)

/-- MEM_REQUEST_COMPLETE on a load unit (R285, R286) that may go: every destination word of a piece that is not poisoned takes the bytes of its
place, unless a later piece writes the same location; other locations keep their values, those of poisoned pieces among them; the unit is gone,
and no byte of memory and no byte of scratch changes. A poisoned piece leaves a Poison Consumed fault (kind 0x15) for the next boundary. -/
def Obligations.loadUnitDelivers : Prop :=
  ∀ (k : Nat) (u : Pending) (s : State), MayGo s k u false →
    (u.kind = .load ∨ ∃ clr, u.kind = .scrLoad false clr) → (∀ p ∈ u.pieces, LoadPiece p) →
    ∃ t, exec (.memRequestComplete k false) s = .next t ∧
      (∀ (n i : Nat) (p : Piece) (l : Loc), u.pieces[n]? = some p → piecePoison s p = false → p.dst[i]? = some l →
        (∀ j, i < j → p.dst[j]? ≠ some l) → (∀ m q, n < m → u.pieces[m]? = some q → l ∉ q.dst) →
        (getLoc t.cv l).lo = loadWord s p i) ∧
      (∀ l, realLoc l → (∀ p ∈ u.pieces, piecePoison s p = false → l ∉ p.dst) → getLoc t.cv l = getLoc s.cv l) ∧
      (∀ p ∈ u.pieces, piecePoison s p = true → ∃ f ∈ t.cv.bfaults, f.kind = 0x15 ∧ f.pc = some u.pc) ∧
      UnitGone s t u ∧ t.ch = s.ch ∧ t.others = s.others ∧ MemoryKept s t

/-- MEM_REQUEST_COMPLETE on a store unit that may go and is no release, by where its pieces lie (R287, R288; 03 R69, 04 R82): in scratch each byte takes the
byte of the last piece, in ascending thread number, that covers it, and STS.f sets the full-empty bits of its granules; at a memory-side page
the same holds of memory; at a cached page the stores wait in the core's L1 unregistered, and memory is as it was. -/
def Obligations.storeUnitLands : Prop :=
  ∀ (k : Nat) (u : Pending) (s : State), MayGo s k u true → u.writes = [] → u.rel = false → (∀ p ∈ u.pieces, p.data.length = p.n) →
    let winner (a : Nat) : Option Piece := (u.pieces.filter (fun p => decide (p.addr ≤ a ∧ a < p.addr + p.n))).getLast?
    ((u.kind = .store ∨ ∃ full, u.kind = .scrStore full) → (∀ p ∈ u.pieces, p.scr = true) →
      ∃ t, exec (.memRequestComplete k false) s = .next t ∧ UnitGone s t u ∧ MemoryKept s t ∧
        (∀ a, scrByte t.ch a = match winner a with
          | some p => p.data.getD (a - p.addr) 0#8
          | none => scrByte s.ch a) ∧
        (∀ g, feBit t.ch g = (feBit s.ch g || (decide (u.kind = .scrStore true) && u.pieces.any (fun p => decide (p.addr / 16 = g)))))) ∧
    (u.kind = .store → (∀ p ∈ u.pieces, p.scr = false ∧ p.priv = false ∧ p.ms = true) →
      ∃ t, exec (.memRequestComplete k false) s = .next t ∧ UnitGone s t u ∧ t.ch = s.ch ∧ t.pstores = s.pstores ∧
        (∀ a, memByte t a = match winner a with
          | some p => p.data.getD (a - p.addr) 0#8
          | none => memByte s a)) ∧
    (u.kind = .store → (∀ p ∈ u.pieces, p.scr = false ∧ p.priv = false ∧ p.ms = false ∧ 0 < p.n) →
      ∃ t, exec (.memRequestComplete k false) s = .next t ∧ UnitGone s t u ∧ t.ch = s.ch ∧ MemoryKept s t ∧
        (∀ a, (∀ q ∈ s.pstores, q.core = s.ch.core → ¬ (q.addr ≤ a ∧ a < q.addr + q.bytes.length)) →
          pstoreByte t s.ch.core a = (winner a).map (fun p => p.data.getD (a - p.addr) 0#8)) ∧
        (∀ c a, c ≠ s.ch.core → pstoreByte t c a = pstoreByte s c a))

/-- A store or an atomic that is a release, and FENCE.rel and FENCE.acqrel, leave no unregistered store of their threads when they take effect, those of the release
itself among them (04 R83, R85; 15 R294).
After an acquire (LD.acq, FENCE.acq, FENCE.acqrel) the core's L1 holds no copy of a word that the core does not own (04 R84, R85). -/
def Obligations.releasesAndAcquires : Prop :=
  (∀ (k : Nat) (u : Pending) (s : State), MayGo s k u true →
    (((u.kind = .store ∨ u.kind = .scrStore true) ∧ u.rel = true) ∨ u.kind = .fence .rel ∨ u.kind = .fence .acqrel) →
    ∃ t, exec (.memRequestComplete k false) s = .next t ∧ UnitGone s t u ∧
      ∀ p ∈ t.pstores, ¬ (p.core = s.ch.core ∧ p.uid = s.ch.uid ∧ p.convoy = s.cv.id ∧ u.mask.getLsbD p.lane = true)) ∧
  (∀ (k : Nat) (u : Pending) (s : State), MayGo s k u false →
    ((u.kind = .load ∧ u.acq = true) ∨ u.kind = .fence .acq ∨ u.kind = .fence .acqrel) →
    ∃ t, exec (.memRequestComplete k false) s = .next t ∧ UnitGone s t u ∧ ∀ a, copyByte t s.ch.core a = none)

/-- OWNERSHIP_REGISTER (04 R82) of a store that no earlier store of its core overlaps, its line held: the store leaves the list of unregistered stores, its bytes are
in memory and no other byte of memory changes, and its words are owned by its core, or by none for a .cg store. L1_COPY_EXPIRY
(04 R541): the core no longer holds a copy of the word; other copies, and memory, stay. -/
def Obligations.storesBecomeVisible : Prop :=
  (∀ (core k : Nat) (p : PStore) (s : State), (s.pstores.filter (fun q => q.core = core))[k]? = some p → storeFirst s p = true →
    0 < p.bytes.length → (∀ l ∈ linesOf p.addr p.bytes.length, fcWaits s l true = false ∧ NMap.get 0 s.ltag l = p.key) →
    ∃ t, exec (.ownershipRegister core k) s = .next t ∧ t.pstores = s.pstores.erase p ∧
      (∀ i < p.bytes.length, memByte t (p.addr + i) = p.bytes.getD i 0#8) ∧
      (∀ a, ¬ (p.addr ≤ a ∧ a < p.addr + p.bytes.length) → memByte t a = memByte s a) ∧
      (∀ i < p.bytes.length, NMap.get 0 t.owner ((p.addr + i) / 4) = if p.cg then 0 else core + 1) ∧
      t.cv = s.cv ∧ t.ch = s.ch ∧ t.others = s.others) ∧
  (∀ (core addr : Nat) (s : State),
    ∃ t, exec (.l1CopyExpiry core addr) s = .next t ∧ (∀ a, a / 4 = addr / 4 → copyByte t core a = none) ∧
      (∀ c a, ¬ (c = core ∧ a / 4 = addr / 4) → copyByte t c a = copyByte s c a) ∧ t = { s with l1 := t.l1 })

/-- ATOMIC_PERFORM (R291, R292; 03 R70): the unit's one piece, not poisoned. Against the state in which a release's stores and, in memory, the core's earlier
stores to the place are registered, the place takes the new value and each destination word the old one, in one step; no other byte of memory or scratch and no other
location changes.
Full-empty loads (03 R62, R63): a request whose granule is empty joins the line of those that wait, and nothing else changes; one whose granule is
full, with nobody waiting there and none of its convoy to arrive before it, is served, with .clr the bit is clear afterwards; FE_WAIT_RETRY serves
the first that waits once the bit is set. -/
def Obligations.atomicsPerform : Prop :=
  (∀ (k : Nat) (u : Pending) (p : Piece) (op : AtomOp) (wide : Bool) (s : State), MayGo s k u true → u.pieces = [p] →
    p.n = (if wide then 8 else 4) → p.data.length = p.n → (∀ l ∈ p.dst, realLoc l ∧ ∀ j x, l ≠ .pred j x) → p.dst.Nodup →
    let old (f : Nat → Byte) : DWord := BitVec.ofNat 64 (natOfBytes ((List.range p.n).map f))
    let new (x : DWord) : DWord :=
      let b : DWord := BitVec.ofNat 64 (natOfBytes p.data)
      if wide then atomRule op .f64 x b p.cmp else (atomRule op .f32 x.lo b.lo p.cmp.lo).setWidth 64
    let delivers (t : State) (x : DWord) : Prop :=
      (∀ i l, i < p.n / 4 → p.dst[i]? = some l → (getLoc t.cv l).lo = (x >>> (32 * i)).setWidth 32) ∧
      (∀ l, realLoc l → l ∉ p.dst → getLoc t.cv l = getLoc s.cv l) ∧ UnitGone s t u
    let s0 := if u.rel then releaseStores s u.mask else s
    (u.kind = .scrAtom op wide → p.scr = true → piecePoison s p = false →
      let x := old (fun j => scrByte s.ch (p.addr + j))
      ∃ t, exec (.atomicPerform k) s = .next t ∧ delivers t x ∧ MemoryKept s0 t ∧
        (∀ j < p.n, scrByte t.ch (p.addr + j) = ((new x) >>> (8 * j)).setWidth 8) ∧
        (∀ a, ¬ (p.addr ≤ a ∧ a < p.addr + p.n) → scrByte t.ch a = scrByte s.ch a)) ∧
    (u.kind = .atom op wide → p.scr = false →
      let s1 := registerRange s0 s.ch.core p.addr p.n
      piecePoison s1 p = false → Keyed s1 p → p.priv = false →
      let x := old (fun j => memByte s1 (p.addr + j))
      ∃ t, exec (.atomicPerform k) s = .next t ∧ delivers t x ∧ t.ch = s.ch ∧
        (∀ j < p.n, memByte t (p.addr + j) = ((new x) >>> (8 * j)).setWidth 8) ∧
        (∀ a, ¬ (p.addr ≤ a ∧ a < p.addr + p.n) → memByte t a = memByte s1 a))) ∧
  (∀ (k : Nat) (u : Pending) (p : Piece) (clr : Bool) (s : State), MayGo s k u false → u.kind = .scrLoad true clr → u.pieces = [p] → p.scr = true →
    piecePoison s p = false → LoadPiece p → p.dst.Nodup →
    let g := p.addr / 16
    let served (t : State) : Prop :=
      (∀ i l, p.dst[i]? = some l → (getLoc t.cv l).lo = loadWord s p i) ∧ (∀ l, realLoc l → l ∉ p.dst → getLoc t.cv l = getLoc s.cv l) ∧
      (∀ h, feBit t.ch h = (feBit s.ch h && !(clr && decide (h = g)))) ∧ (∀ a, scrByte t.ch a = scrByte s.ch a) ∧ UnitGone s t u ∧ MemoryKept s t
    (feBit s.ch g = false → (s.cv.id, u.seq) ∉ s.ch.feWait → feEarly s u = false →
      exec (.memRequestComplete k false) s = .next { s with ch := { s.ch with feWait := s.ch.feWait ++ [(s.cv.id, u.seq)] } }) ∧
    (feBit s.ch g = true → (s.cv.id, u.seq) ∉ s.ch.feWait → feEarly s u = false → feBehind s u = false →
      ∃ t, exec (.memRequestComplete k false) s = .next t ∧ served t) ∧
    (feBit s.ch g = true → s.ch.feWait.head? = some (s.cv.id, u.seq) → (∀ v ∈ s.cv.units, v.seq = u.seq → v = u) →
      ∃ t, exec (.feWaitRetry g) s = .next t ∧ served t ∧ (s.cv.id, u.seq) ∉ t.ch.feWait))

/-! Control -/

/-- The operand checks of an instruction with a data result, in the order A, B, C, D (13 R236, 14 R257): the first direct register that leaves the window of
8 × the budget or does not start where its size allows is a Register Bounds fault, and a latch that does not hold the operand an Operand Level
fault (02 R39, R40, R43); both name the operand, the register and every active thread (29 R446). In a region with CHECK set, an operand whose result is
still on its way is a Stall Underrun fault (10 R200). Nothing of the instruction happens.
Taking a precise fault while another convoy of the cohort has not stopped (R443 to R446): the cohort's fault record, byte 256 of its context block, takes the fault's
fields at the places of R445, no other byte of memory changes, the convoy stops at its instruction with its registers, frontier and units as they
were, and the cohort is faulting, so that its convoys stop at their next boundaries. A fault that finds a record counts in the record's overflow field and
stays pending. -/
def Obligations.takingAFault : Prop :=
  (∀ (i : Instr) (f : DataForm) (s : State), (intForm i = some f ∨ fltForm i = some f ∨ (pkdForm i = some f ∧ i.wf = true)) →
    (∀ u ∈ f.uses, ∀ x, u.src ≠ .idx x) → (∀ x, f.dst ≠ .idx x) →
    let leaves (r n : Nat) : Prop := 8 * s.cv.budget < r + n ∨ (n = 2 ∧ r % 2 = 1)
    (∀ pre u post (r : Fin 96), f.uses = pre ++ u :: post → (∀ v ∈ pre, checkSrc s v = none) → u.src = .main r → leaves r.val u.n →
      exec i s = .next (takeFault s { kind := 0x06, sub := u.pos, aux := r.val, mask := activeMask s })) ∧
    (∀ pre u post (k : Fin 2), f.uses = pre ++ u :: post → (∀ v ∈ pre, checkSrc s v = none) → u.src = .latch k →
      ((latchOf s k.val (lowest s)).valid = false ∨ (u.n = 2 ∧ (latchOf s k.val (lowest s)).wide = false)) →
      exec i s = .next (takeFault s { kind := 0x05, sub := u.pos, aux := 104 + k.val, mask := activeMask s })) ∧
    (∀ r : Fin 96, (∀ u ∈ f.uses, checkSrc s u = none) → f.dst = .main r → leaves r.val f.words →
      exec i s = .next (takeFault s { kind := 0x06, sub := 3, aux := r.val, mask := activeMask s })) ∧
    (∀ l ∈ useLocs s f.uses ++ f.preds.flatMap (predLocs s) ++ dstLocs s f.dst f.words, checkUses s f.uses (some (f.dst, f.words)) = none →
      s.ch.check = true → ¬ Settled s.cv l →
      ∃ r, exec i s = .next (takeFault s r) ∧ r.kind = 0x07 ∧ r.mask = activeMask s)) ∧
  (∀ (s : State) (f : FaultRec) (k : Clause), s.cv.clause = some k → (Header.unpack k.hdr).uni = false → f.pc = none → (∃ c ∈ s.ch.convoys, stopped c = false) →
    KeyedAt s (s.ch.ctx + 256) 64 s.ch.ckey → KeyedAt s (s.ch.ctx + 256) 3 s.ch.ckey →
    let t := takeFault s f
    (recordKind s s.ch = 0 → f.kind < 256 → f.sub < 256 → f.addr < 2 ^ 64 → f.aux < 2 ^ 64 →
      let r : BitVec 512 := BitVec.ofNat 512 (natOfBytes (memGet t (s.ch.ctx + 256) 64))
      r.extractLsb' 448 64 = BitVec.ofNat 64 (k.pc + 4 * (1 + k.cur)) ∧ (r.extractLsb' 384 64).toNat = f.addr ∧ (r.extractLsb' 320 64).toNat = f.aux ∧
      r.extractLsb' 288 32 = f.mask ∧ r.extractLsb' 256 32 = k.words.getD k.cur 0#32 ∧ r.extractLsb' 192 64 = BitVec.ofNat 64 s.ns ∧
      r.extractLsb' 160 32 = s.ch.handoffs ∧ (r.extractLsb' 152 8).toNat = f.kind ∧ (r.extractLsb' 144 8).toNat = f.sub ∧
      r.extractLsb' 139 5 = BitVec.ofNat 5 s.cv.id ∧ r.extractLsb' 135 4 = BitVec.ofNat 4 s.cv.track ∧ r.extractLsb' 0 135 = 0#135 ∧
      t.cv = { s.cv with halt := .atInstr }) ∧
    (recordKind s s.ch ≠ 0 →
      memNat t (s.ch.ctx + 256) 3 = min (memNat s (s.ch.ctx + 256) 3 + 1) (2 ^ 24 - 1) ∧
      t.cv = { s.cv with halt := .atInstr, bfaults := s.cv.bfaults ++ [f] }) ∧
    (∀ a, ¬ (s.ch.ctx + 256 ≤ a ∧ a < s.ch.ctx + 320) → memByte t a = memByte s a) ∧
    t.ch.faulting = true ∧ t.others = s.others)

/-- TRAP and BPT take their exception (16 R319, 29 R446) with their code in aux and every active thread.
NOP; WAITT, which passes once every token of its mask is clear and waits until then; YIELD, which marks the clause; and EXIT of threads that are
no children with a junction left, which leave the frontier and are no longer live (R303, R305, R319; 05 R110). -/
def Obligations.controlWithoutBranch : Prop :=
  (∀ (st : Stall) (code : BitVec 8) (s : State),
    exec (.trap st code) s = .next (takeFault s { kind := 0x16, aux := code.toNat, mask := activeMask s }) ∧
    exec (.bpt st code) s = .next (takeFault s { kind := 0x17, aux := code.toNat, mask := activeMask s })) ∧
  (∀ (st : Stall) (s : State) (k : Clause), s.cv.clause = some k → s.cv.bad = 0#32 →
    (∃ t, exec (.nop st) s = .next t ∧ Passed st s t) ∧
    (∀ mask : BitVec 8,
      ((∀ j < 8, mask.getLsbD j = true → tokCount s.cv j = 0) → ∃ t, exec (.waitt st mask) s = .next t ∧ Passed st s t) ∧
      (∀ j < 8, mask.getLsbD j = true → tokCount s.cv j ≠ 0 → ∃ t, exec (.waitt st mask) s = .next t ∧ Waits s t)) ∧
    (∃ t, exec (.yield st) s = .next t ∧ t.cv.clause = some { k with cur := k.nxt, yld := true } ∧
      Passed st { s with cv := { s.cv with clause := some { k with yld := true } } } t) ∧
    ((∀ x ∈ lanes k.mask, NMap.get 0 s.cv.junc x = 0 ∨ s.cv.juncDone.getLsbD x = true) →
      ∃ t, exec (.exit st) s = .next t ∧ t.cv.clause = none ∧ t.cv.live = s.cv.live &&& ~~~k.mask ∧
        (∀ l, getLoc t.cv l = getLoc s.cv l) ∧ t.cv.units = s.cv.units ∧ t.cv.tok = s.cv.tok ∧ RestKept s t))

/-- BRA and BRX (R300, 01 R29): the taking threads, each active thread by its own predicate and in a uniform clause all of them or none, move to
header + 4 × offset, or to their a; the call depth stays.
A branch to a word that is no header takes a Clause Target fault, and one whose new entry would be a 65th spilled one a Frontier Overflow
fault; no thread moves (R299, 01 R31, 10 R194). -/
def Obligations.branches : Prop :=
  (∀ (st : Stall) (p : Pn) (s : State) (k : Clause), s.cv.clause = some k → s.cv.bad = 0#32 → (∀ l ∈ predLocs s p.toNat, Settled s.cv l) → k.mask ≠ 0#32 →
    let takes (neg : Bool) (x : Nat) : Bool := pred s p.toNat (if uniform s then lowest s else x) ^^ neg
    (∀ (neg : Bool) (off : BitVec 20),
      let tgt := ((lanes k.mask).filter (takes neg)).map (fun x => (x, (((k.pc : Int) + 4 * off.toInt) % 2 ^ 64).toNat))
      TargetsOk s tgt →
      ∃ t, exec (.bra st p neg off) s = .next t ∧ Moves tgt (afterChecks s tgt) t ∧ t.cv.depth = s.cv.depth) ∧
    (∀ a : Src, Ready s [⟨0, a, 2⟩] (predLocs s p.toNat) none →
      let tgt := ((lanes k.mask).filter (takes false)).map (fun x => (x, (rd64 s a (if uniform s then lowest s else x)).toNat))
      TargetsOk s tgt →
      ∃ t, exec (.brx st a p) s = .next t ∧ Moves tgt (afterChecks s tgt) t ∧ t.cv.depth = s.cv.depth)) ∧
  (∀ (st : Stall) (p : Pn) (neg : Bool) (off : BitVec 20) (s s1 : State) (k : Clause), s.cv.clause = some k → s.cv.bad = 0#32 →
    (∀ l ∈ predLocs s p.toNat, Settled s.cv l) → takeMask s p.toNat neg ≠ 0#32 →
    let pc := (((k.pc : Int) + 4 * off.toInt) % 2 ^ 64).toNat
    (checkTarget s pc = (.bad, s1) →
      exec (.bra st p neg off) s = .next (takeFault s1 { kind := 0x03, addr := pc, mask := takeMask s p.toNat neg })) ∧
    (∀ prio, checkTarget s pc = (.ok prio, s1) → joinEntry s1.cv pc prio (takeMask s p.toNat neg) = none →
      exec (.bra st p neg off) s = .next (takeFault s1 { kind := 0x0A, addr := pc, mask := takeMask s p.toNat neg })) ∧
    (∀ f, (∃ x ∈ s1.ch.convoys, stopped x = false) →
      let c := (takeFault s1 f).cv
      c.fr = s1.cv.fr ∧ c.spill = s1.cv.spill ∧ c.clause = s1.cv.clause ∧ ∀ l, getLoc c l = getLoc s1.cv l))

/-- CALL and CALLX (R301): the taking threads' frames take the return point, the header after the clause, their depths grow by one, and they move to
their targets. RET (R302): every active thread's depth falls by one, and it moves to the address in its frame. -/
def Obligations.callsAndReturns : Prop :=
  ∀ (st : Stall) (p : Pn) (s s1 : State) (ps : List PSpan) (k : Clause), s.cv.clause = some k → s.cv.bad = 0#32 → k.mask ≠ 0#32 →
    let frames (xs : List Nat) (up : Nat) : List Acc :=
      xs.map (fun x => { lane := x, ea := 4 * (s.ch.desc.priv - up - 2 * depthOf s x), win := .priv (4 * (s.ch.desc.priv - up - 2 * depthOf s x)), n := 8 })
    let apart : Prop := ps.Pairwise (fun p q => p.pa + p.n ≤ q.pa ∨ q.pa + q.n ≤ p.pa)
    let calls (i : Instr) (tgt : List (Nat × Nat)) : Prop :=
      (∀ e ∈ tgt, 10 + 2 * depthOf s e.1 ≤ s.ch.desc.priv) → pageChecks s true false (frames (tgt.map (·.1)) 10) = .go s1 ps → apart →
      TargetsOk s1 tgt →
      ∃ t, exec i s = .next t ∧ Moves tgt { afterChecks s1 tgt with l1 := t.l1 } t ∧
        (∀ x, depthOf t x = depthOf s x + if x ∈ tgt.map (·.1) then 1 else 0) ∧
        (∀ q ∈ ps, ∀ i < q.n, privByte t s.ch.core (q.pa + i) = (bytesOf (k.pc + 4 * (k.words.length + 1)) 8).getD (q.off + i) 0#8)
    let takes (neg : Bool) (x : Nat) : Bool := pred s p.toNat (if uniform s then lowest s else x) ^^ neg
    (∀ (neg : Bool) (off : BitVec 20), (∀ l ∈ predLocs s p.toNat, Settled s.cv l) →
      calls (.call st p neg off)
        (((lanes k.mask).filter (takes neg)).map (fun x => (x, (((k.pc : Int) + 4 * off.toInt) % 2 ^ 64).toNat)))) ∧
    (∀ a : Src, Ready s [⟨0, a, 2⟩] (predLocs s p.toNat) none →
      calls (.callx st a p)
        (((lanes k.mask).filter (takes false)).map (fun x => (x, (rd64 s a (if uniform s then lowest s else x)).toNat)))) ∧
    ((∀ x ∈ lanes k.mask, 0 < depthOf s x) → pageChecks s false false (frames (lanes k.mask) 8) = .go s1 ps →
      let tgt := (lanes k.mask).map (fun x => (x, frameTarget s1 ps x))
      TargetsOk s1 tgt →
      ∃ t, exec (.ret st) s = .next t ∧ Moves tgt (afterChecks s1 tgt) t ∧
        ∀ x, depthOf t x = depthOf s x - if x ∈ lanes k.mask then 1 else 0)

/-- CLAUSE_BOUNDARY (01 R28, R32, R33) of a convoy that is free to select: while no entry has aged to 4,096 and none has yielded, the entry that comes first by
priority, then by the lower PC, among those that do not wait leaves the frontier and its clause is selected; the others stay. Where
entries have aged to 4,096, CLAUSE_BOUNDARY and FRONTIER_AGE_EXPIRY alike select the first of them.
CLAUSE_FETCH (R181, R184, R185; 02 R42): the header's words are read, the latches are empty, every other register keeps its value; a word that is no header,
or a header of no words, is a Clause Format fault at the header. -/
def Obligations.clauseSelection : Prop :=
  (∀ s : State, AtBoundary s →
    ((∀ e ∈ s.cv.fr ++ s.cv.spill, e.age < 4096) → s.cv.yielded = none → (∃ e ∈ s.cv.fr, e.wait = none) → (∀ e ∈ s.cv.fr, waitDone s e = e.wait.isNone) →
      ∃ t e, exec .clauseBoundary s = .next t ∧ FirstAmong e (s.cv.fr.filter (fun f => f.wait.isNone)) ∧ Selected e t ∧ t.cv.fr = s.cv.fr.erase e ∧
        t.cv.spill = s.cv.spill ∧ ∀ l, getLoc t.cv l = getLoc s.cv l) ∧
    ((∃ e ∈ s.cv.fr ++ s.cv.spill, e.wait = none ∧ 4096 ≤ e.age) → ∀ i, i = .clauseBoundary ∨ i = .frontierAgeExpiry →
      ∃ t e, exec i s = .next t ∧ FirstAmong e ((s.cv.fr ++ s.cv.spill).filter (fun f => f.wait.isNone && decide (4096 ≤ f.age))) ∧ Selected e t ∧
        (∀ f ∈ s.cv.fr ++ s.cv.spill, f ≠ e → f ∈ t.cv.fr ++ t.cv.spill) ∧ ∀ l, getLoc t.cv l = getLoc s.cv l)) ∧
  (∀ (s s1 : State) (k : Clause) (w : Word), s.focus = true → s.cv.halt = .run → s.cv.clause = some k → k.words = [] → k.fresh = true →
    readCode { s with cv := { s.cv with stalled := false } } k.pc true = (.word w, s1) →
    (∀ ws s2, isHeader w = true → (Header.unpack w).count ≠ 0#4 → readWords s1 (k.pc + 4) (Header.unpack w).count.toNat = (.ok ws, s2) →
      ∃ t, exec .clauseFetch s = .next t ∧
        (∃ c, t.cv.clause = some c ∧ c.pc = k.pc ∧ c.mask = k.mask ∧ c.hdr = w ∧ c.words = ws ∧ ws.length = (Header.unpack w).count.toNat ∧ c.cur = 0 ∧ c.nxt = 0) ∧
        (∀ j x, (latchOf t j x).valid = false) ∧ (∀ l, (∀ j x, l ≠ .latch j x) → getLoc t.cv l = getLoc s.cv l) ∧ t.cv.fr = s.cv.fr) ∧
    ((isHeader w = false ∨ (Header.unpack w).count = 0#4) →
      ∃ c, exec .clauseFetch s = .next (takeBoundaryFault { s1 with cv := c } { kind := 0x02, mask := k.mask } k.pc) ∧ c.clause = none ∧
        (∀ l, getLoc c l = getLoc s1.cv l) ∧ ∃ e ∈ c.fr ++ c.spill, e.pc = k.pc ∧ e.mask = k.mask))

/-- JOINW (01 R34, R35) with a ready timeout: where the entry holds every live thread of the convoy that is not spilled, pd is clear; a timeout of 0 ends at once with
pd set; otherwise the entry waits at its header with a deadline that many cycles on. After its deadline it ends with pd set. JOINW_TIMEOUT ends
the wait of an entry, at its deadline or later. -/
def Obligations.boundedJoins : Prop :=
  (∀ (st : Stall) (p : Pn) (a : Src) (s : State) (k : Clause), s.cv.clause = some k → s.cv.bad = 0#32 → Ready s [⟨0, a, 1⟩] [] none → PredFree s p →
    let here : Prop := s.cv.live &&& ~~~(spilledThreads s.cv) &&& ~~~k.mask = 0#32
    let n := (rd32 s a (lowest s)).toNat
    ((k.wait = none ∨ ∃ d, k.wait = some (.join d false)) → here → ∃ t, exec (.joinw st p a) s = .next t ∧ PredDone st p false s t) ∧
    (k.wait = none → ¬ here → n = 0 → ∃ t, exec (.joinw st p a) s = .next t ∧ PredDone st p true s t) ∧
    (k.wait = none → ¬ here → n ≠ 0 → ∃ t, exec (.joinw st p a) s = .next t ∧ Parks (.join (cycles s s.ch.core + n) false) s t) ∧
    (∀ d, k.wait = some (.join d false) → ¬ here → ∃ t, exec (.joinw st p a) s = .next t ∧ Parks (.join d false) s t) ∧
    (∀ d, k.wait = some (.join d true) → ∃ t, exec (.joinw st p a) s = .next t ∧ PredDone st p true s t)) ∧
  (∀ (pc d : Nat) (e : Entry) (s : State), e ∈ s.cv.fr → e.pc = pc → e.wait = some (.join d false) →
    (∀ f ∈ s.cv.fr ++ s.cv.spill, f.pc = pc → f = e) →
    ∃ t, exec (.joinwTimeout pc) s = .next t ∧ { e with wait := some (.join d true) } ∈ t.cv.fr ∧ d ≤ cycles t s.ch.core ∧
      (∀ f ∈ s.cv.fr, f ≠ e → f ∈ t.cv.fr) ∧ (∀ l, getLoc t.cv l = getLoc s.cv l) ∧ t = { s with cv := t.cv, cyc := t.cyc })

/-! Barriers and tickets -/

/-- BINIT and BARV on ready operands, their barrier's offset a multiple of 16 within scratch, or the range within it, with room on the token: one unit that names the
barrier (R311, R312). BWAIT (05 R102): with (int16)(phase − target) ≥ 0 it ends with pd clear, otherwise with pd set where faulted or
poisoned is set, and otherwise it waits.
The unit of a BINIT or of a BARV completes (R100, R101): the barrier afterwards. BINIT: n = 0, or n above 65,535, poisons it, any other n re-arms it, and its
phase stays. BARV: d takes the phase; a barrier that is faulted or poisoned stays as it is; one with no arrival missing, or whose bytes would pass 2³¹ − 1, is
poisoned and keeps its counts; otherwise the arrival and the bytes count, the phase is complete when both are 0, and bytes below 0 with no
arrival missing poison it. -/
def Obligations.barriers : Prop :=
  (∀ (st : Stall) (a b : Src) (s : State), s.cv.bad = 0#32 →
    let x := (rd32 s a (lowest s)).toNat
    let n := (rd32 s b (lowest s)).toNat
    let fits : Prop := x % 16 = 0 ∧ x + 16 ≤ scrSize s.ch
    (∀ (range : Bool) (t : Tok), Ready s [⟨0, a, 1⟩, ⟨1, b, 1⟩] [] none → tokRoom s.cv t.toNat 1 = true →
      (if range then x + n ≤ scrSize s.ch else fits) →
      ∃ v u, exec (.binit st range a b t) s = .next v ∧ u.kind = .binit range x n ∧ u.mask = activeMask s ∧ Issued st t [u] s v) ∧
    (∀ (d : Dst) (t : Tok), Ready s [⟨0, a, 1⟩, ⟨1, b, 1⟩] [] (some (d, 1)) → tokRoom s.cv t.toNat 1 = true → fits →
      ∃ v u, exec (.barv st d a b t) s = .next v ∧ u.kind = .barv x n ∧ u.mask = activeMask s ∧ u.rel = true ∧
        (∀ y ∈ actLanes s, ∀ l, dstLoc s d y 0 = some l → ∃ q ∈ u.pieces, q.dst = [l]) ∧ Issued st t [u] s v) ∧
    (∀ p : Pn, Ready s [⟨0, a, 1⟩, ⟨1, b, 1⟩] [] none → PredFree s p → fits →
      let w := getBarrier s.ch x
      let target : BitVec 16 := (rd32 s b (lowest s)).setWidth 16
      (0 ≤ (w.phase - target).toInt → ∃ v, exec (.bwait st p a b) s = .next v ∧ PredDone st p false s v ∧ ∀ y, copyByte v s.ch.core y = none) ∧
      ((w.phase - target).toInt < 0 → (w.faulted = true ∨ w.poisoned = true) → ∃ v, exec (.bwait st p a b) s = .next v ∧ PredDone st p true s v) ∧
      ((w.phase - target).toInt < 0 → w.faulted = false → w.poisoned = false →
        ∃ v, exec (.bwait st p a b) s = .next v ∧ Parks (.bwait x target) s v)) ∧
    (∀ (p : Pn) (t : Tok) (d : Dst), Ready s [⟨0, a, 1⟩, ⟨1, b, 1⟩] [] (some (d, 1)) → x % 16 ≠ 0 →
      let f : FaultRec := { kind := 0x0C, addr := x, mask := activeMask s }
      exec (.binit st false a b t) s = .next (takeFault s f) ∧ exec (.barv st d a b t) s = .next (takeFault s f) ∧ exec (.bwait st p a b) s = .next (takeFault s f))) ∧
  (∀ (k off n : Nat) (u : Pending) (s : State), s.cv.units[k]? = some u → mayComplete s.cv u = true → u.writes = [] →
    let b := getBarrier s.ch off
    (u.kind = .binit false off n →
      ∃ t, exec (.tokenUnitComplete k) s = .next t ∧ UnitGone s t u ∧ feBit t.ch (off / 16) = false ∧
        let c := getBarrier t.ch off
        c.phase = b.phase ∧ c.bytes = 0#32 ∧ c.faulted = false ∧ c.rest = 0#32 ∧ c.hi = 0#14 ∧ c.poisoned = decide (n = 0 ∨ 65535 < n) ∧
        (1 ≤ n ∧ n ≤ 65535 → c.expected.toNat = n ∧ c.pending.toNat = n)) ∧
    (u.kind = .binit true off n →
      ∃ t, exec (.tokenUnitComplete k) s = .next t ∧ UnitGone s t u ∧
        (∀ g, feBit t.ch g = if 0 < n ∧ off / 16 ≤ g ∧ g ≤ (off + n - 1) / 16 then false else feBit s.ch g) ∧ ∀ a, scrByte t.ch a = scrByte s.ch a) ∧
    (u.kind = .barv off n → (∀ p ∈ u.pieces, p.n = 16 ∧ ∀ l ∈ p.dst, realLoc l ∧ ∀ j x, l ≠ .pred j x) →
      ∃ t, exec (.tokenUnitComplete k) s = .next t ∧ UnitGone s t u ∧
        (∀ p ∈ u.pieces, ∀ l, p.dst = [l] → (∀ q ∈ u.pieces, l ∈ q.dst → q.dst = [l]) → (getLoc t.cv l).lo = b.phase.setWidth 32) ∧
        (∀ a, ¬ (off ≤ a ∧ a < off + 16) → scrByte t.ch a = scrByte s.ch a) ∧
        let c := getBarrier t.ch off
        let bytes := b.bytes + BitVec.ofNat 32 n
        if b.faulted || b.poisoned then c = b
        else if b.pending = 0#16 ∨ 2147483647 < b.bytes.toInt + n then c = { b with poisoned := true }
        else if b.pending ≠ 1#16 then c = { b with bytes := bytes, pending := b.pending - 1#16 }
        else if bytes = 0#32 then c = { b with bytes := 0#32, pending := b.expected, phase := b.phase + 1#16 }
        else c = { b with bytes := bytes, pending := 0#16, poisoned := decide (bytes.toInt < 0) }))

/-- TICKET (R106): with no other counter held, the counter is registered and one unit is to write the cohort's linear id to d; naming another counter than the one held is
a Protection fault, subcode 6. TKWAIT and TKDONE on the held counter (R107), by its poisoned bit and its serving field against the linear
id; with none held they take a Protection fault. TKDONE of the cohort whose turn it is passes the turn, as a release. TICKET_AUTO_PASS (R108) passes
a retired cohort's turn once the counter serves it, and drops a pass that is behind. -/
def Obligations.tickets : Prop :=
  (∀ (st : Stall) (d : Dst) (a : Src) (t : Tok) (s s2 : State) (pa key : Nat), s.cv.bad = 0#32 → Ready s [⟨0, a, 2⟩] [] (some (d, 1)) →
    wholeAddr s (rd64 s a (lowest s)) 8 true = .ok s2 pa key →
    ((s.ch.ticket = none ∨ s.ch.ticket = some (pa, key)) → tokRoom s.cv t.toNat 1 = true →
      ∃ v u, exec (.ticket st d a t) s = .next v ∧ Issued st t [u] { s2 with ch := { s2.ch with ticket := some (pa, key) } } v ∧ u.kind = .value ∧
        (∀ y ∈ actLanes s, ∀ l, dstLoc s d y 0 = some l → ∃ e ∈ u.writes, e.1 = l ∧ e.2.lo = BitVec.ofNat 32 s.ch.linear)) ∧
    (∀ other, s.ch.ticket = some other → other ≠ (pa, key) →
      exec (.ticket st d a t) s =
        .next (takeFault s2 { kind := 0x0E, sub := 6, addr := (rd64 s a (lowest s)).toNat, mask := activeMask s }))) ∧
  (∀ (st : Stall) (p : Pn) (s : State) (pa key : Nat), s.cv.bad = 0#32 → PredFree s p → s.ch.ticket = some (pa, key) →
    let x : DWord := BitVec.ofNat 64 (memNat s pa 8)
    let now := (x.setWidth 33).toNat
    let id := s.ch.linear
    (x.getLsbD 63 = true →
      (∃ t, exec (.tkwait st p) s = .next t ∧ PredDone st p true s t) ∧ ∃ t, exec (.tkdone st p) s = .next t ∧ PredDone st p true s t) ∧
    (x.getLsbD 63 = false → id ≤ now →
      ∃ t, exec (.tkwait st p) s = .next t ∧ PredDone st p false s t ∧ ∀ y, copyByte t s.ch.core y = none) ∧
    (x.getLsbD 63 = false → now < id →
      (∃ t, exec (.tkwait st p) s = .next t ∧ Parks .tkwait s t) ∧ ∃ t, exec (.tkdone st p) s = .next t ∧ Parks .tkdone s t) ∧
    (x.getLsbD 63 = false → id < now → ∃ t, exec (.tkdone st p) s = .next t ∧ PredDone st p false { s with ch := { s.ch with passed := true } } t) ∧
    (x.getLsbD 63 = false → now = id → id < 2 ^ 33 - 1 → accessPending s.cv (activeMask s) = false → (∀ q ∈ s.pstores, q.core ≠ s.ch.core) →
      KeyedAt s pa 8 key →
      ∃ t, exec (.tkdone st p) s = .next t ∧ t.ch.passed = true ∧ (p ≠ 7#3 → ∀ y ∈ lanes (activeMask s), NMap.get false t.cv.preds (32 * p.toNat + y) = false) ∧
        MovedOn st s t ∧ (let y : DWord := BitVec.ofNat 64 (memNat t pa 8)
          (y.setWidth 33).toNat = id + 1 ∧ y.extractLsb' 33 31 = x.extractLsb' 33 31) ∧
        MemoryKeptOutside pa 8 s t)) ∧
  (∀ (st : Stall) (p : Pn) (s : State), s.ch.ticket = none →
    let f : FaultRec := { kind := 0x0E, sub := 6, mask := activeMask s }
    exec (.tkwait st p) s = .next (takeFault s f) ∧ exec (.tkdone st p) s = .next (takeFault s f)) ∧
  (∀ (s : State) (q : TicketPass) (rest : List TicketPass), s.passes = q :: rest → KeyedAt s q.pa 8 q.key →
    let x : DWord := BitVec.ofNat 64 (memNat s q.pa 8)
    let now := (x.setWidth 33).toNat
    (now < q.id → q.id < 2 ^ 33 - 1 → (∀ r ∈ rest, r.pa = q.pa → now < r.id) → exec (.ticketAutoPass q.pa) s = .next s) ∧
    (q.id ≤ now → (now ≠ q.id ∨ x.getLsbD 63 = true) → exec (.ticketAutoPass q.pa) s = .next { s with passes := rest }) ∧
    (now = q.id → q.id < 2 ^ 33 - 1 → x.getLsbD 63 = false →
      ∃ t, exec (.ticketAutoPass q.pa) s = .next t ∧ t.passes = rest ∧ ((BitVec.ofNat 64 (memNat t q.pa 8) : DWord).setWidth 33).toNat = q.id + 1 ∧
        MemoryKeptOutside q.pa 8 s t))

/-! Spawning -/

/-- SPAWN and SPAWNT (07 R128, R129; 16 R314, R315) on ready operands, their descriptor a spawn entry and their junction 0 or usable, with room in a queue and on the
token: one release unit names the descriptor, the junction and a child with its payload for each thread that creates one, and the cohort's count grows.
SPAWN creates one for every active thread or, past the budget, takes a Spawn Budget fault; SPAWNT for the first threads the budget leaves,
and its unit is to set pd in those and to clear it in the others. A descriptor that may not be named is a Protection fault, subcode 7, and a
junction that is not aligned to 16 a Misaligned fault. -/
def Obligations.spawnInstructions : Prop :=
  ∀ (st : Stall) (a b : Src) (first : BitVec 8) (count : Fin 9) (t : Tok) (s s2 s3 : State) (at_ : Option (Nat × Nat)), s.cv.bad = 0#32 →
    Ready s [⟨0, a, 2⟩, ⟨1, b, 2⟩] (payloadLocs s first count) none →
    (count.val = 0 ∨ (first.toNat + count.val ≤ 8 * s.cv.budget ∧ first.toNat + count.val ≤ 192)) →
    let desc := rd64 s a (lowest s)
    let j := rd64 s b (lowest s)
    let made := s.ch.spawnk
    let limit := s.ch.desc.spawnb
    let act := actLanes s
    let child (x : Nat) : Nat × List Word := (x, (List.range count.val).map (fun i => (readLoc s (.main (first.toNat + i) x)).lo))
    let after (n : Nat) : State := { s3 with ch := { s3.ch with spawnk := made + n } }
    (j.toNat % 16 ≠ 0 → exec (.spawn st a b first count t) s = .next (takeFault s { kind := 0x0C, addr := j.toNat, mask := activeMask s })) ∧
    (j.toNat % 16 = 0 → spawnDesc s desc = (some false, s2) →
      exec (.spawn st a b first count t) s = .next (takeFault s2 { kind := 0x0E, sub := 7, addr := desc.toNat, mask := activeMask s })) ∧
    (j.toNat % 16 = 0 → spawnDesc s desc = (some true, s2) →
      ((j = 0#64 ∧ s3 = s2 ∧ at_ = none) ∨ (j ≠ 0#64 ∧ ∃ pa key, wholeAddr s2 j 16 true = .ok s3 pa key ∧ at_ = some (pa, key))) →
      (limit < made + act.length →
        exec (.spawn st a b first count t) s =
          .next (takeFault s3 { kind := 0x12, aux := made + 2 ^ 32 * limit, mask := activeMask s })) ∧
      (tokRoom s.cv t.toNat 1 = true → (∀ n, 0 < n → n ≤ act.length → canSpawn s3 s.ch.core desc.toNat s.ch.rcb n = true) →
        (made + act.length ≤ limit →
          ∃ v u, exec (.spawn st a b first count t) s = .next v ∧ u.kind = .spawn desc j at_ (act.map child) ∧ u.rel = true ∧ u.writes = [] ∧
            Issued st t [u] (after act.length) v) ∧
        (∀ p : Pn, (∀ l ∈ predLocs s p.toNat, Settled s.cv l) →
          let mine := act.take (limit - made)
          ∃ v u, exec (.spawnt st p a b first count t) s = .next v ∧ u.kind = .spawn desc j at_ (mine.map child) ∧ u.rel = true ∧
            (p ≠ 7#3 → u.writes = act.map (fun x => (Loc.pred p.toNat x, if x ∈ mine then 1#64 else 0#64))) ∧ (p = 7#3 → u.writes = []) ∧
            Issued st t [u] (after mine.length) v)))

/-- The unit of a SPAWN of one child completes (R131, R132, R135), its queue free or serving its descriptor and region and below 31 records: the record is written in the
next place of the cohort's reservation, the junction's pending grows by one, or is poisoned where it would pass 2³² − 1, the record joins the
queue, and the unit is gone. SPAWN_QUEUE_IDLE_TIMEOUT (R132): the records of a queue go to a free list buffer, and a SPAWN entry is
posted, no less than 512 cycles after the last record joined.
JUNC (R316) on a ready, usable address: pending and the poisoned bit become 0 in one step, the old word goes to the pair d, ready at once, and the other bits of
the word and the other bytes of memory stay. JWAIT (R135), once the queues with the cohort's records are flushed: pd is set where the
junction is poisoned, clear where nothing is pending, and it waits otherwise. The first EXIT of a child lane takes one from its
junction's pending, or poisons it where nothing is pending. -/
def Obligations.childrenAndJunctions : Prop :=
  ((∀ (k y r : Nat) (u : Pending) (desc j : DWord) (at_ : Option (Nat × Nat)) (ws : List Word) (x : SpawnQ) (rs : List Nat) (s : State),
    s.cv.units[k]? = some u → mayComplete s.cv u = true → u.kind = .spawn desc j at_ [(y, ws)] → u.writes = [] → ws.length ≤ 8 →
    chooseQ s s.ch.core desc.toNat s.ch.rcb = some x → (x.used = false ∨ (x.desc = desc.toNat ∧ x.rcb = s.ch.rcb)) → x.recs.length < 31 →
    s.ch.recs = r :: rs → (∀ q ∈ s.pstores, q.core ≠ s.ch.core) →
    (∀ pa key, at_ = some (pa, key) → KeyedAt s pa 8 key ∧ (pa + 8 ≤ r ∨ r + 64 ≤ pa)) →
    ∃ t, exec (.tokenUnitComplete k) s = .next t ∧ UnitGone s t u ∧ t.ch.recs = rs ∧
      (let z : BitVec 512 := BitVec.ofNat 512 (natOfBytes (memGet t r 64))
       z.extractLsb' 448 64 = j ∧ z.extractLsb' 384 64 = desc ∧ z.extractLsb' 352 32 = BitVec.ofNat 32 s.ch.linear ∧ z.extractLsb' 324 28 = 0#28 ∧
       (z.extractLsb' 320 4).toNat = ws.length ∧ z.extractLsb' 256 64 = 0#64 ∧ ∀ i < 8, z.extractLsb' (32 * i) 32 = ws.getD i 0#32) ∧
      (∀ pa key, at_ = some (pa, key) →
        memNat t pa 8 = if memNat s pa 8 % 2 ^ 32 = 2 ^ 32 - 1 then memNat s pa 8 ||| 2 ^ 63 else memNat s pa 8 + 1) ∧
      (∀ a, ¬ (r ≤ a ∧ a < r + 64) → (∀ pa key, at_ = some (pa, key) → ¬ (pa ≤ a ∧ a < pa + 8)) → memByte t a = memByte s a) ∧
      (let q := getQ t s.ch.core x.q
       q.recs = x.recs ++ [(r, s.ch.uid)] ∧ q.desc = desc.toNat ∧ q.rcb = s.ch.rcb ∧ q.used = true ∧ q.last = cycles s s.ch.core)) ∧
  (∀ (core q : Nat) (s : State), let x := getQ s core q
    x.used = true → x.recs ≠ [] → canDispatch s x = true →
    ∃ t b e, exec (.spawnQueueIdleTimeout core q) s = .next t ∧ x.last + 512 ≤ cycles t core ∧ (getQ t core q).recs = [] ∧
      (some b = (getQ t core q).bufA ∨ some b = (getQ t core q).bufB) ∧ b.desc = x.desc ∧ b.rcb = x.rcb ∧ b.recs = x.recs.map (·.1) ∧
      t.ring = s.ring ++ [(dieOf core, e)] ∧ MemoryKept s t ∧ t.cv = s.cv)) ∧
  ((∀ (st : Stall) (d : Dst) (a : Src) (s s2 : State) (pa key : Nat), s.cv.bad = 0#32 → Ready s [⟨0, a, 2⟩] [] (some (d, 2)) →
    wholeAddr s (rd64 s a (lowest s)) 16 true = .ok s2 pa key → (∀ q ∈ s.pstores, q.core ≠ s.ch.core) → KeyedAt s2 pa 8 key →
    let old : DWord := BitVec.ofNat 64 (memNat s2 pa 8)
    ∃ t, exec (.junc st d a) s = .next t ∧ Holds s t d 2 (fun _ => old) ∧
      (BitVec.ofNat 64 (memNat t pa 8) : DWord) = old &&& 0x7FFFFFFF00000000#64 ∧ MemoryKeptOutside pa 8 s2 t ∧
      (∀ l, realLoc l → ¬ isDst s d 2 l → getLoc t.cv l = getLoc s.cv l) ∧ MovedOn st s t) ∧
  (∀ (st : Stall) (p : Pn) (a : Src) (s s1 : State) (pa key : Nat), s.cv.bad = 0#32 → Ready s [⟨0, a, 2⟩] [] none → PredFree s p →
    wholeAddr s (rd64 s a (lowest s)) 16 false = .ok s1 pa key →
    let s2 := flushSpawns s1 s.ch.uid
    let x := memNat s2 pa 8
    (x.testBit 63 = true → ∃ t, exec (.jwait st p a) s = .next t ∧ PredDone st p true s2 t) ∧
    (x.testBit 63 = false → x % 2 ^ 32 = 0 → ∃ t, exec (.jwait st p a) s = .next t ∧ PredDone st p false s2 t ∧ ∀ y, copyByte t s.ch.core y = none) ∧
    (x.testBit 63 = false → x % 2 ^ 32 ≠ 0 → ∃ t, exec (.jwait st p a) s = .next t ∧ Parks (.jwait pa) s2 t)) ∧
  (∀ (st : Stall) (s s2 : State) (k : Clause) (x j pa key : Nat), s.cv.clause = some k → s.cv.bad = 0#32 → x < 32 → k.mask = 1#32 <<< x → NMap.get 0 s.cv.junc x = j →
    j ≠ 0 → s.cv.juncDone.getLsbD x = false → accessPending s.cv k.mask = false → (∀ q ∈ s.pstores, q.core ≠ s.ch.core) →
    atomicAddr { s with cv := { s.cv with junc := NMap.set 0 s.cv.junc x 0, juncDone := s.cv.juncDone ||| (1#32 <<< x) } } s.ch.core s.ch.root j =
      (some (pa, key), s2) → KeyedAt s2 pa 8 key →
    ∃ t, exec (.exit st) s = .next t ∧ t.cv.live = s.cv.live &&& ~~~k.mask ∧ t.cv.juncDone.getLsbD x = true ∧ MemoryKeptOutside pa 8 s2 t ∧
      memNat t pa 8 = if memNat s2 pa 8 % 2 ^ 32 = 0 then memNat s2 pa 8 ||| 2 ^ 63 else memNat s2 pa 8 - 1))

/-- HANDOFF (R317) with ready operands: its entry waits at its header with the successor and the inheritance word; a word with a reserved bit is a Reserved Bits fault.
HANDOFF_RENDEZVOUS (07 R139 to R142) of a cohort all of whose convoys have arrived with one successor, with nothing outstanding, a
descriptor that may be read and fits, and a context block that is large enough: the successor stands in the slot, every lane that
was ever live is live at the successor's entry, the registers below 8 × granules keep their values and the others read 0, predicates and
call stacks are empty, the spawn count is 0, and %handoff.count has grown by one. -/
def Obligations.handoffs : Prop :=
  (∀ (st : Stall) (a b : Fin 8) (s : State), s.cv.bad = 0#32 →
    let ua : Src := .uni ⟨2 * a.val, by omega⟩
    let ub : Src := .uni ⟨2 * b.val, by omega⟩
    (∀ l ∈ useLocs s [⟨0, ua, 2⟩, ⟨1, ub, 2⟩], Settled s.cv l) → poisonedLanes s [⟨0, ua, 2⟩, ⟨1, ub, 2⟩] = 0#32 →
    let inh := rd64 s ub (lowest s)
    (inh &&& 0xFFC0000000000020#64 = 0#64 → ∃ t, exec (.handoff st a b) s = .next t ∧ Parks (.handoff (rd64 s ua (lowest s)) inh) s t) ∧
    (inh &&& 0xFFC0000000000020#64 ≠ 0#64 → exec (.handoff st a b) s = .next (takeFault s { kind := 0x04, mask := activeMask s }))) ∧
  (∀ (r : SlotRef) (c : Cohort) (dp w : DWord) (x : Nat) (s s2 : State),
    (unfocus s).others.find? (fun d => d.core = r.core && d.slot = r.slot) = some c → c.faulting = false → c.stopping = false → c.dying = false →
    (c.convoys.map (·.id)).Nodup → c.convoys ≠ [] → (∀ d ∈ (unfocus s).others, d.uid = c.uid → d = c) →
    arrival c = .all dp w →
    let s1 := flushSpawns (unfocus s) c.uid
    handoffDrained s1 c = true → readRec s1 c.core c.root dp.toNat 64 = (some x, false, s2) →
    let d := descOf x
    descOk x = true → tapeFits d = true → shapeItem s2 c d w = none → (savedPages d ≤ c.ctxPages ∨ c.grown = true) →
    ∃ t c', exec (.handoffRendezvous r) s = .next t ∧ c' ∈ allCohorts t ∧ c'.uid = c.uid ∧ c'.core = c.core ∧ c'.slot = c.slot ∧ c'.desc = d ∧
      c'.handoffs = c.handoffs + 1#32 ∧ c'.spawnk = 0 ∧ c'.ticket = c.ticket ∧
      ∀ v ∈ c.convoys, ∃ v' ∈ c'.convoys, v'.id = v.id ∧ v'.live = ~~~(neverLive c) ∧ v'.budget = granulesOf d v.id ∧ v'.role = roleOf d v.id ∧
        (∃ e, v'.fr = [e] ∧ e.pc = d.entry ∧ e.mask = ~~~(neverLive c) ∧ e.wait = none) ∧ v'.spill = [] ∧ v'.preds = [] ∧ v'.depth = [] ∧
        (∀ n y, y < 32 → NMap.get 0#32 v'.main (32 * n + y) = if n < 8 * inhGranules w then NMap.get 0#32 v.main (32 * n + y) else 0#32))

/-- DONATE and ACCEPT (02 R51 to R53). A count of 0 or above the budget less 2 is a Register Bounds fault. Alone in its cohort, each ends with pd clear. Without a partner
DONATE waits. With the lowest convoy that waits in ACCEPT on the tag, where the receiver's window and track have room, the donor's
top n granules become the receiver's next ones with their values, and pd is set, for the receiver at its next try; otherwise neither window
changes and pd is clear. -/
def Obligations.registerDonation : Prop :=
  ∀ (st : Stall) (p : Pn) (n : Fin 25) (tag : BitVec 4) (s : State), s.cv.bad = 0#32 → PredFree s p →
    (s.cv.xfer = none → (n.val = 0 ∨ s.cv.budget < n.val + 2) →
      exec (.donate st p n tag) s = .next (takeFault s { kind := 0x06, sub := 1, aux := n.val, mask := activeMask s })) ∧
    (s.cv.xfer = none → (∀ c ∈ s.ch.convoys, c.live = 0#32) →
      (∃ t, exec (.accept st p tag) s = .next t ∧ PredDone st p false s t) ∧
      (1 ≤ n.val → n.val + 2 ≤ s.cv.budget → ∃ t, exec (.donate st p n tag) s = .next t ∧ PredDone st p false s t)) ∧
    (∀ b, s.cv.xfer = some b →
      let s' : State := { s with cv := { s.cv with xfer := none } }
      (∃ t, exec (.accept st p tag) s = .next t ∧ PredDone st p b s' t) ∧ ∃ t, exec (.donate st p n tag) s = .next t ∧ PredDone st p b s' t) ∧
    (s.cv.xfer = none → 1 ≤ n.val → n.val + 2 ≤ s.cv.budget → (∃ c ∈ s.ch.convoys, c.live ≠ 0#32) → writesAbove s.cv (8 * (s.cv.budget - n.val)) = false →
      ((∀ c ∈ s.ch.convoys, c.accept ≠ some tag.toNat) →
        ∃ t, exec (.donate st p n tag) s = .next t ∧ Waits { s with cv := { s.cv with donate := some (tag.toNat, n.val) } } t) ∧
      (∀ r ∈ s.ch.convoys, r.accept = some tag.toNat → r.xfer = none → r.live ≠ 0#32 → r.id ≠ s.cv.id → (s.ch.convoys.map (·.id)).Nodup →
        (∀ c ∈ s.ch.convoys, c.accept = some tag.toNat → r.id ≤ c.id) → (∀ c ∈ s.ch.convoys, c.donate = none) →
        ∃ t r', exec (.donate st p n tag) s = .next t ∧ r' ∈ t.ch.convoys ∧ r'.id = r.id ∧ r'.accept = none ∧ MovedOn st s t ∧ MemoryKept s t ∧
          let ok := decide (r.budget + n.val ≤ 24 ∧ (r.track = s.cv.track ∨ trackGranules s s.ch.core r.track + n.val ≤ 64))
          r'.xfer = some ok ∧ (p ≠ 7#3 → ∀ x ∈ lanes (activeMask s), NMap.get false t.cv.preds (32 * p.toNat + x) = ok) ∧
          t.cv.budget = (if ok then s.cv.budget - n.val else s.cv.budget) ∧ r'.budget = (if ok then r.budget + n.val else r.budget) ∧
          (∀ q x, x < 32 → q < r.budget * 8 → NMap.get 0#32 r'.main (32 * q + x) = NMap.get 0#32 r.main (32 * q + x)) ∧
          (∀ q x, x < 32 → q < 8 * (s.cv.budget - n.val) → NMap.get 0#32 t.cv.main (32 * q + x) = NMap.get 0#32 s.cv.main (32 * q + x)) ∧
          (ok = true → ∀ q x, x < 32 → q < 8 * n.val →
            NMap.get 0#32 r'.main (32 * (8 * r.budget + q) + x) = NMap.get 0#32 s.cv.main (32 * (8 * (s.cv.budget - n.val) + q) + x))))

/-- COHORT_RETIRE (R304; 28 R429, R431) of a cohort whose threads have all exited and which has nothing outstanding: it is bound no longer, its pool units are returned, its
slot is FREE, an entry with reason 0 is in its die's ring, and its launch counts it as ended. -/
def Obligations.retirement : Prop :=
  ∀ (r : SlotRef) (c : Cohort) (s : State),
    (unfocus s).others.find? (fun d => d.core = r.core && d.slot = r.slot) = some c → (∀ v ∈ c.convoys, v.live = 0#32 ∧ v.units = []) →
    c.faulting = false → c.stopping = false → c.dying = false → cmdsDone (unfocus s) c = true → chainsIdle c = true → c.mq = [] →
    (∀ y ∈ c.rays, y.status.isSome = true) → bitmapRetry (unfocus s) c = false →
    let s1 := flushSpawns (unfocus s) c.uid
    recordsQueued s1 c.uid = false → ringRoom s1 (dieOf c.core) = true →
    ∃ t, exec (.cohortRetire r) s = .next t ∧ (∀ d ∈ allCohorts t, d.uid ≠ c.uid) ∧ (∀ a ∈ t.allocs, a.uid ≠ c.uid) ∧
      (NMap.get 0#256 t.slotTab (16 * c.core + c.slot)).extractLsb' 0 2 = 0#2 ∧ (dieOf c.core, ringEntry c.gen c.linear c.core c.slot 0 0#32) ∈ t.ring ∧
      ∀ l, launchOf s c.launch = some l → l.handles = none → ∃ l', launchOf t c.launch = some l' ∧ l'.ended = l.ended + 1

/-! The matrix unit -/

/-- The MTX instructions that join the matrix queue (R322, R324 to R328, R331, R332), granted, on ready operands with room on the token, an MMA with a latched format that
matches: one entry stands last in the queue with the slot, tile, formats, operands and numbers of its rule, its unit is outstanding, and
registers and memory are as they were. MFREE takes its slots out of the claim set.
MCLAIM (06 R117, R324): it waits while another cohort of the core holds the unit. Otherwise the cohort holds the unit afterwards; MCLAIM claims its slots; MCLAIM.p
claims them unless one of them is claimed already, and its unit is to say which in pd. MBURST and MREDN set their registers at issue (R331,
R333). A convoy whose role does not grant MTX takes a Role fault, and an instruction without the hold or the claim a Protection fault, subcode 8. -/
def Obligations.matrixQueue : Prop :=
  (∀ (i : Instr) (f : MtxForm) (s : State), mtxForm i = some f → s.cv.bad = 0#32 → Ready s f.uses [] f.dst → MtxGranted s false f.slots → f.extra s →
    tokRoom s.cv f.tok.toNat 1 = true →
    ∃ t u c, exec i s = .next t ∧ u.kind = .matrix s.cv.useq ∧ u.pieces = f.pieces s ∧
      c = { f.after s.ch with mq := s.ch.mq ++ [f.entry s], claim := t.ch.claim } ∧ Issued f.stall f.tok [u] { s with ch := c, arrays := t.arrays } t ∧
      (t.ch.claim = match f.op s with
        | .free m => s.ch.claim &&& ~~~m
        | _ => s.ch.claim) ∧
      ((∀ st fmt slot acc x y k, i ≠ .mma st fmt slot acc x y k) → t.arrays = s.arrays)) ∧
  (∀ (st : Stall) (a : Src) (t : Tok) (s : State), s.cv.bad = 0#32 →
    (∀ p : Option Pn, Ready s [⟨0, a, 1⟩] [] none → (s.cv.role = .general ∨ s.cv.role = .compute) → (∀ k, p = some k → ∀ l ∈ predLocs s k.toNat, Settled s.cv l) →
      let m := rd32 s a (lowest s)
      (s.ch.hold = false → unitHeld s s.ch.core = true → ∃ v, exec (.mclaim st p a t) s = .next v ∧ Waits s v) ∧
      ((s.ch.hold = true ∨ unitHeld s s.ch.core = false) → tokRoom s.cv t.toNat 1 = true →
        ∃ v u c, exec (.mclaim st p a t) s = .next v ∧ u.kind = .value ∧ Issued st t [u] { s with ch := c } v ∧ c.hold = true ∧
          let old := if s.ch.hold then s.ch.claim else 0#32
          c.claim = (if p.isSome ∧ old &&& m ≠ 0#32 then old else old ||| m) ∧
          (s.ch.hold = false → c.planes = [] ∧ c.lastLdw = none ∧ c.redn = false) ∧
          (∀ k, p = some k → k ≠ 7#3 → ∀ x ∈ actLanes s, (Loc.pred k.toNat x, if old &&& m = 0#32 then 0#64 else 1#64) ∈ u.writes) ∧
          (p = none → u.writes = []))) ∧
    (MtxGranted s false 0#32 → tokRoom s.cv t.toNat 1 = true →
      (∀ n : BitVec 16, ∃ v u, exec (.mburst st n t) s = .next v ∧ u.kind = .value ∧
        Issued st t [u] { s with ch := { s.ch with burst := n.toNat }, arrays := v.arrays } v) ∧
      (∀ on : Bool, ∃ v u, exec (.mredn st on t) s = .next v ∧ u.kind = .value ∧ Issued st t [u] { s with ch := { s.ch with redn := on } } v)) ∧
    (∀ (i : Instr) (f : MtxForm), mtxForm i = some f → Ready s f.uses [] f.dst →
      (s.cv.role = .feed → exec i s = .next (takeFault s { kind := 0x08, aux := 1, mask := activeMask s })) ∧
      (s.cv.role = .drain → exec i s = .next (takeFault s { kind := 0x08, aux := 3, mask := activeMask s })) ∧
      ((s.cv.role = .general ∨ s.cv.role = .compute) → (s.ch.hold = false ∨ f.slots &&& ~~~s.ch.claim ≠ 0#32) →
        exec i s = .next (takeFault s { kind := 0x0E, sub := 8, mask := activeMask s }))))

/-- MST and MLD (R329, R330), granted (MST to DRAIN convoys too), on ready operands, with addresses and a pitch that are multiples of 16, an even tile for binary64, and rows that
are all accessible: one entry stands last in the queue with the tile, the formats and the clause RM, and its unit has a piece for each 16
bytes of the tile, in order of rows. A row address or pitch that is no multiple of 16 is a Misaligned fault.
What an entry of the matrix queue does when it may take effect, no word it reads being poisoned. MZERO zeroes the tiles of its mask. MRD delivers its elements, MWR writes
them, for binary64 over a pair of tiles. MSLOTW writes its bytes, MSLOTR delivers them. MSYNC and MFREE only end. MLDW_LATCH_COMPLETE latches
the tile of a slot with its format, in place of the older of two planes (06 R120). The entry leaves the queue, its unit goes, and nothing else of the
tiles and slots changes. -/
def Obligations.matrixTiles : Prop :=
  (∀ (st : Stall) (a b : Src) (fmt : Fmt) (l : Layout) (f : FFlags) (acc : Fin 8) (kind : AccKind) (t : Tok) (mst : Bool) (s s1 s2 : State) (ps : List PSpan),
    s.cv.bad = 0#32 → Ready s [⟨0, a, 2⟩, ⟨1, b, 1⟩] [] none → MtxGranted s mst 0#32 →
    let base := (rd64 s a (lowest s)).toNat
    let pitch := (rd32 s b (lowest s)).toNat
    let as := tileAccs s base pitch fmt
    windowCheck s true false as = none → pageProtect s mst as = (none, s1) → (kind = .f64 → acc.val % 2 = 0) →
    let i : Instr := if mst then .mst st a b fmt l f acc kind t else .mld st a b fmt l f acc kind t
    ((base % 16 ≠ 0 ∨ pitch % 16 ≠ 0) → exec i s = .next (takeFault s1 { kind := 0x0C, addr := base, mask := activeMask s })) ∧
    (base % 16 = 0 → pitch % 16 = 0 → pageChecks s1 mst false as = .go s2 ps → tokRoom s.cv t.toNat 1 = true →
      ∃ v u e, exec i s = .next v ∧ u.kind = .matrix s.cv.useq ∧ u.pieces = tilePieces l as ps ∧
        e.op = (if mst then .st acc.val kind fmt f (clauseRm s) else .ld acc.val kind fmt f (clauseRm s)) ∧ e.convoy = s.cv.id ∧ e.unit = some s.cv.useq ∧
        Issued st t [u] { s2 with ch := { s2.ch with mq := s.ch.mq ++ [e] } } v)) ∧
  (∀ (k : Nat) (u : Pending) (e : MEntry) (s : State), s.cv.units[k]? = some u → u.kind = .matrix u.seq → (∀ v ∈ s.cv.units, v.seq = u.seq → v = u) →
    s.ch.mq.find? (fun x => x.convoy = s.cv.id && x.unit = some u.seq) = some e → entryReady s.ch e = true → s.ch.mpoison = [] →
    mayComplete s.cv u = true →
    let gone (t : State) : Prop := t.ch.mq = s.ch.mq.erase e ∧ UnitGone s t u ∧ MemoryKept s t
    let tiles (t : State) (p : Nat → Prop) : Prop := ∀ n, ¬ p n → NMap.get 0#32 t.ch.acc n = NMap.get 0#32 s.ch.acc n
    let places : Prop := ∀ p ∈ u.pieces, p.n = 0 ∧ p.sgn = false ∧ p.dst.Nodup ∧ (∀ l ∈ p.dst, realLoc l ∧ ∀ j x, l ≠ .pred j x) ∧ ∀ q ∈ u.pieces, ∀ l ∈ p.dst, l ∈ q.dst → q = p
    let delivered (t : State) (wide : Bool) (val : Nat → Nat → Word) : Prop :=
      ∀ p ∈ u.pieces, ∀ j l, p.dst[j]? = some l → j < (if wide then 2 else 1) → (getLoc t.cv l).lo = val p.va j
    (∀ mask, e.op = .zero mask →
      ∃ t, exec (.tokenUnitComplete k) s = .next t ∧ gone t ∧ tiles t (fun n => mask.getLsbD (n / 1024) = true) ∧
        ∀ n, mask.getLsbD (n / 1024) = true → NMap.get 0#32 t.ch.acc n = 0#32) ∧
    (∀ acc wide, e.op = .rd acc wide → places → u.pieces.Nodup →
      ∃ t, exec (.tokenUnitComplete k) s = .next t ∧ gone t ∧ tiles t (fun _ => False) ∧
        delivered t wide (fun el j => accWord s.ch (acc + j) el)) ∧
    (∀ acc wide els, e.op = .wr acc wide els → (∀ x ∈ els, x.1 < 1024) →
      ∃ t, exec (.tokenUnitComplete k) s = .next t ∧ gone t ∧
        tiles t (fun n => ∃ x ∈ els, n = 1024 * acc + x.1 ∨ (wide = true ∧ n = 1024 * (acc + 1) + x.1)) ∧
        ∀ x ∈ els, (∀ y ∈ els, y.1 = x.1 → y = x) → accWord t.ch acc x.1 = x.2.lo ∧ (wide = true → accWord t.ch (acc + 1) x.1 = x.2.hi)) ∧
    (∀ m ws, e.op = .slotw m ws → (∀ w ∈ ws, w.1 + w.2.length ≤ 16384) →
      ∃ t, exec (.tokenUnitComplete k) s = .next t ∧ gone t ∧ tiles t (fun _ => False) ∧
        ∀ n, NMap.get 0#8 t.ch.slots n =
          match (ws.filter (fun w => decide (16384 * m + w.1 ≤ n ∧ n < 16384 * m + w.1 + w.2.length))).getLast? with
          | some w => w.2.getD (n - 16384 * m - w.1) 0#8
          | none => NMap.get 0#8 s.ch.slots n) ∧
    (∀ m wide, e.op = .slotr m wide → places → u.pieces.Nodup →
      ∃ t, exec (.tokenUnitComplete k) s = .next t ∧ gone t ∧ tiles t (fun _ => False) ∧ t.ch.slots = s.ch.slots ∧
        delivered t wide (fun off j =>
          let b (n : Nat) : Byte := NMap.get 0#8 s.ch.slots (16384 * m + off + 4 * j + n)
          b 3 ++ b 2 ++ b 1 ++ b 0)) ∧
    ((e.op = .sync ∨ ∃ mask, e.op = .free mask) →
      ∃ t, exec (.tokenUnitComplete k) s = .next t ∧ gone t ∧ t.ch.acc = s.ch.acc ∧ t.ch.slots = s.ch.slots) ∧
    (∀ fmt m, e.op = .ldw fmt m → s.focus = true → s.ch.mq.find? (fun x => x.op.isLdw) = some e →
      ∃ t p, exec (.mldwLatchComplete { core := s.ch.core, slot := s.ch.slot }) s = .next t ∧ gone t ∧ t.ch.planes.getLast? = some p ∧ p.fmt = fmt ∧
        p.seq = e.plane ∧ t.ch.planes.length = min 2 s.ch.planes.length + (if s.ch.planes.length < 2 then 1 else s.ch.planes.length - 2) ∧
        ∀ n < tileSize fmt, NMap.get 0#8 p.tile n = NMap.get 0#8 s.ch.slots (16384 * m + n)))

/-- MMA_PASS_COMPLETE (R327; 06 R121 to R124) of the first MMA of the queue, ready, with its plane and a running array, no word it reads being poisoned: every element of its tile takes
the rule's value from row i of A and column j of B, other tiles keep theirs, the entry leaves the queue, and the cycles of the pass have passed.
Two redundant passes that differ leave the tile as it was and a Matrix Redundancy fault for the convoy's boundary (R123). -/
def Obligations.matrixMultiply : Prop :=
  ∀ (e : MEntry) (p : Plane) (fmt : Fmt) (m acc : Nat) (ftzi ftzo : Bool) (rm : RMode) (s : State), s.focus = true → s.ch.mpoison = [] →
    e.op = .mma fmt m acc ftzi ftzo rm none → s.ch.mq.find? (fun x => x.op.isMma) = some e → entryReady s.ch e = true →
    (arrayOf s s.ch.core).mode = .run → s.ch.planes.find? (fun q => q.seq = e.plane) = some p → e.convoy = s.cv.id →
    let r : SlotRef := { core := s.ch.core, slot := s.ch.slot }
    let wide := decide (fmt = .f64)
    let k := tileK fmt
    (∃ t, exec (.mmaPassComplete r false) s = .next t ∧
      (∀ i < 32, ∀ j < 32, accEl t.ch acc wide (32 * i + j) =
        mmaRule fmt p.fmt rm ftzi ftzo k (fun x => packedEl (fun n => NMap.get 0#8 s.ch.slots (16384 * m + n)) fmt.width (i * k + x))
          (fun x => packedEl (NMap.get 0#8 p.tile) p.fmt.width (32 * x + j)) (accEl s.ch acc wide (32 * i + j))) ∧
      (∀ tile n, n < 1024 → tile ∉ accTiles wide acc → accWord t.ch tile n = accWord s.ch tile n) ∧ t.ch.mq = s.ch.mq.erase e ∧
      (arrayOf s s.ch.core).start + passCycles fmt e.redn ≤ cycles t s.ch.core ∧ t.ch.slots = s.ch.slots ∧ MemoryKept s t) ∧
    (e.redn = true → ∃ t f, exec (.mmaPassComplete r true) s = .next t ∧ t.ch.acc = s.ch.acc ∧ f ∈ t.cv.bfaults ∧ f.kind = 0x10 ∧ f.addr = e.num ∧
      f.aux = m + 32 * e.bslot + 1024 * acc ∧ (s.ch.mq.Nodup → e ∉ t.ch.mq))

/-- The ramps of a core's array (R124). An MMA that reaches an array at rest after 256 idle cycles starts a ramp-up, and otherwise runs; MATRIX_RAMP_UP_END comes 64
cycles after the ramp-up began, MATRIX_RAMP_DOWN_END 64 cycles after the ramp-down; MBURST_IDLE_EXPIRY ends a burst after 256 idle cycles with a ramp-down. -/
def Obligations.arrayRamps : Prop :=
  (∀ (st : Stall) (fmt : Fmt) (slot : Fin 32) (acc : Fin 8) (ftzi ftzo : Bool) (k : Tok) (f : MtxForm) (s : State),
    mtxForm (.mma st fmt slot acc ftzi ftzo k) = some f → s.cv.bad = 0#32 → MtxGranted s false f.slots → f.extra s → tokRoom s.cv k.toNat 1 = true →
    let a := arrayOf s s.ch.core
    ∃ t, exec (.mma st fmt slot acc ftzi ftzo k) s = .next t ∧
      (a.mode = .rest → (arrayOf t s.ch.core).mode = (if 256 ≤ cycles s s.ch.core - a.idle then .up else .run) ∧ (arrayOf t s.ch.core).start = cycles s s.ch.core) ∧
      (a.mode = .down → (arrayOf t s.ch.core).mode = .run) ∧ ((a.mode = .up ∨ a.mode = .run) → arrayOf t s.ch.core = a)) ∧
  (∀ (core : Nat) (s : State), (arrayOf s core).mode = .up →
    ∃ t, exec (.matrixRampUpEnd core) s = .next t ∧ (arrayOf s core).start + 64 ≤ cycles t core ∧
      (arrayOf t core).mode = (if (allCohorts s).any (fun c => c.core = core && c.mq.any (fun e => e.op.isMma)) then .run else .rest) ∧
      t = { s with arrays := t.arrays, cyc := t.cyc }) ∧
  (∀ (core : Nat) (s : State), (arrayOf s core).mode = .down →
    ∃ t, exec (.matrixRampDownEnd core) s = .next t ∧ (arrayOf s core).start + 64 ≤ cycles t core ∧ (arrayOf t core).mode = .rest ∧
      t = { s with arrays := t.arrays, cyc := t.cyc }) ∧
  (∀ s : State, s.focus = true → s.ch.hold = true → s.ch.burst ≠ 0 → (arrayOf s s.ch.core).mode = .rest →
    ∃ t, exec (.mburstIdleExpiry s.ch.core) s = .next t ∧ t.ch.burst = 0 ∧ (arrayOf s s.ch.core).idle + 256 ≤ cycles t s.ch.core ∧
      (arrayOf t s.ch.core).mode = .down ∧ t.cv = s.cv)

/-! The engines -/

/-- ECOPY, ECOPYS, ECHAIN, EADV and COLL, granted to FEED and GENERAL convoys, on ready operands with room on the token: the command stands last in its queue with the operands
of the lowest thread and the next number of the cohort, or the chain is recorded, and one unit is outstanding (06 R111, R126; R337 to R344, R346). A
full queue, or a pending chain, makes the instruction wait. A reserved bit of a quad gives the command the error RESERVED. EADV changes nothing
without a running chain or where it names the last record taken.
EWAIT (06 R112, R345): with bits 62:0 of the milepost at least k[62:0] it completes with pd as bit 63, as an acquire; otherwise its entry waits. The checks 4 and 6
of R339: a convoy of another role takes a Role fault from the commands, and a misaligned milepost a Misaligned fault. -/
def Obligations.engineCommands : Prop :=
  (∀ (st : Stall) (a b c : Src) (t : Tok) (s : State), s.cv.bad = 0#32 → (s.cv.role = .general ∨ s.cv.role = .feed) → tokRoom s.cv t.toNat 1 = true →
    let x := lowest s
    let q (j : Nat) : Word := (rdQuad s c x).getD j 0#32
    let adds (i : Instr) (base : State) : Prop := ∃ v u, exec i s = .next v ∧ u.kind = .value ∧ u.writes = [] ∧ Issued st t [u] base v
    let queued (m : Cmd) : State := { s with ch := { s.ch with cq := s.ch.cq ++ [m], nextCmd := s.ch.nextCmd + 1 } }
    let bar (on : Bool) (w : Word) : Option Nat := if on then some (16 * (w.extractLsb' 0 16).toNat) else none
    let reserved (on : Bool) (w : Word) : Prop := w.extractLsb' 16 16 ≠ 0#16 ∨ (on = false ∧ w.extractLsb' 0 16 ≠ 0#16)
    (∀ follow bind rel acq : Bool, Ready s [⟨0, a, 2⟩, ⟨1, b, 2⟩, ⟨2, c, 4⟩] [] none →
      (s.ch.cq.length < 64 → ∀ e : Option (Nat × Nat), (e = some (1, 0) ↔ (reserved bind (q 2) ∨ q 3 ≠ 0#32)) → (e = some (1, 0) ∨ e = none) →
        adds (.ecopy st a b c follow bind rel acq t) (queued
          { seq := s.ch.nextCmd, kind := .tensor, src := rd64 s a x, dst := 0#64, mile := rd64 s b x, bind := bar bind (q 2),
            follow := if follow then some (q 0, q 1) else none, acq := acq, rel := rel, err := e, convoy := s.cv.id, after := whoIssues s })) ∧
      (64 ≤ s.ch.cq.length → ∃ v, exec (.ecopy st a b c follow bind rel acq t) s = .next v ∧ Waits s v)) ∧
    (∀ (l : Layout) (bind rel acq : Bool), Ready s [⟨0, a, 2⟩, ⟨1, b, 2⟩, ⟨2, c, 4⟩] [] none →
      (s.ch.cq.length < 64 → ∀ e : Option (Nat × Nat), (e = some (1, 0) ↔ reserved bind (q 3)) → (e = some (1, 0) ∨ e = none) →
        adds (.ecopys st a b c l bind rel acq t) (queued
          { seq := s.ch.nextCmd, kind := .linear, source := 1, src := rd64 s a x, dst := rd64 s b x, mile := DWord.ofWords (q 0) (q 1),
            len := (q 2).toNat, slayout := l, dlayout := l, bind := bar bind (q 3), acq := acq, rel := rel, err := e, convoy := s.cv.id
            after := whoIssues s })) ∧
      (64 ≤ s.ch.cq.length → ∃ v, exec (.ecopys st a b c l bind rel acq t) s = .next v ∧ Waits s v)) ∧
    (Ready s [⟨0, a, 2⟩, ⟨1, b, 2⟩] [] none →
      let y : Chain :=
        { no := s.ch.nchain + 1, head := (rd64 s a x).toNat, resume := (rd64 s a x).toNat, tail := (rd64 s b x).toNat, convoy := s.cv.id
          after := whoIssues s }
      (s.ch.chain = none → s.ch.pchain = none →
        adds (.echain st a b t) { s with ch := { s.ch with nchain := s.ch.nchain + 1, chain := some y } }) ∧
      (s.ch.chain.isSome = true → s.ch.pchain = none →
        adds (.echain st a b t) { s with ch := { s.ch with nchain := s.ch.nchain + 1, pchain := some y } }) ∧
      (s.ch.pchain.isSome = true → ∃ v, exec (.echain st a b t) s = .next v ∧ Waits s v)) ∧
    (Ready s [⟨0, a, 2⟩] [] none →
      let va := (rd64 s a x).toNat
      (s.ch.chain = none → adds (.eadv st a t) s) ∧
      (∀ y, s.ch.chain = some y → y.last = some va → adds (.eadv st a t) s) ∧
      (∀ y, s.ch.chain = some y → y.last ≠ some va →
        adds (.eadv st a t) { s with ch := { s.ch with chain := some { y with tail := va, after := y.after ++ whoIssues s } } })) ∧
    (∀ rel acq : Bool, Ready s [⟨0, a, 2⟩, ⟨1, b, 2⟩] [] none → s.session = none →
      ∃ y : Coll, adds (.coll st a b rel acq t) { s with colls := s.colls ++ [y], ch := { s.ch with nextCmd := s.ch.nextCmd + 1 } } ∧
        y.recVa = rd64 s a x ∧ y.mile = rd64 s b x ∧ y.seq = s.ch.nextCmd ∧ y.uid = s.ch.uid ∧ y.convoy = s.cv.id ∧ y.acq = acq ∧ y.rel = rel ∧
        y.started = false)) ∧
  ((∀ (st : Stall) (p : Pn) (a b : Src) (s s1 : State) (pa key : Nat), s.cv.bad = 0#32 → Ready s [⟨0, a, 2⟩, ⟨1, b, 2⟩] [] none → PredFree s p →
    wholeAddr s (rd64 s a (lowest s)) 8 false = .ok s1 pa key → poisoned s1 (lineOf pa) = false →
    let m := memNat s1 pa 8
    let k := (rd64 s b (lowest s)).toNat % 2 ^ 63
    (k ≤ m % 2 ^ 63 → ∃ t, exec (.ewait st p a b) s = .next t ∧ PredDone st p (m.testBit 63) s1 t ∧ ∀ y, copyByte t s.ch.core y = none) ∧
    (m % 2 ^ 63 < k → ∃ t, exec (.ewait st p a b) s = .next t ∧ Parks (.ewait pa k) s1 t)) ∧
  (∀ (st : Stall) (p : Pn) (a b : Src) (s : State), s.cv.bad = 0#32 → Ready s [⟨0, a, 2⟩, ⟨1, b, 2⟩] [] none →
    (rd64 s a (lowest s)).toNat % 8 ≠ 0 →
    exec (.ewait st p a b) s = .next (takeFault s { kind := 0x0C, addr := (rd64 s a (lowest s)).toNat, mask := activeMask s })) ∧
  (∀ (st : Stall) (a b : Src) (rel acq : Bool) (t : Tok) (s : State), s.cv.bad = 0#32 → (s.cv.role = .compute ∨ s.cv.role = .drain) →
    let f : FaultRec := { kind := 0x08, aux := if s.cv.role = .compute then 2 else 3, mask := activeMask s }
    (Ready s [⟨0, a, 2⟩, ⟨1, b, 2⟩] [] none →
      exec (.echain st a b t) s = .next (takeFault s f) ∧ exec (.coll st a b rel acq t) s = .next (takeFault s f)) ∧
    (Ready s [⟨0, a, 2⟩] [] none → exec (.eadv st a t) s = .next (takeFault s f))))

/-- The copy engine on the commands of the focused cohort (06 R111 to R116; R340 to R343). COPY_COMMAND_START: the first command that has not started starts, where the
stores before it are performed and, with ACQ, no earlier one runs; a linear one whose length is no multiple of 4 ends with ALIGN. COPY_ELEMENT_READ reads the next
element and sets its write out; ENGINE_WRITE_LAND lets it land: in scratch or a slot its bytes stand there, and in memory it lands and
is then registered. MILEPOST_WRITE ends a command whose bytes have landed and sets its milepost to the larger number, bit 63 kept. FOLLOW_ON_MMA_HANDOVER appends the MMA to the matrix queue. CHAIN_RECORD_TAKE makes
the record at the resume address a command, and ends the chain where its next is 0. -/
def Obligations.copyEngine : Prop :=
  ∀ (s : State) (c : Cmd), s.focus = true → s.ch.cq.find? (fun d => d.seq = c.seq) = some c →
    let r := slotOf s
    let n := if c.kind = .linear then 4 else c.esize
    (s.ch.cq.find? (fun d => !d.started) = some c → c.kind = .linear → c.err = none → c.follow = none → c.bind = none → (∀ q ∈ s.pstores, q.core ≠ s.ch.core) →
      afterDone s c.after = true → (c.acq = true → ∀ d ∈ s.ch.cq, c.seq ≤ d.seq) →
      (c.len % 4 = 0 → (∀ p, p = c.src ∨ p = c.dst → p.toNat % 4 = 0 ∧ ((∃ va, ePtr p = .ok (.glob va)) ∨ ∃ o, ePtr p = .ok (.scr o))) →
        exec (.copyCommandStart r) s = .next { s with ch := mapCmd s.ch c.seq (fun _ => { c with started := true }) }) ∧
      (c.len % 4 ≠ 0 →
        exec (.copyCommandStart r) s = .next { s with ch := mapCmd s.ch c.seq (fun _ => { c with started := true, err := some (3, 0) }) })) ∧
    (∀ (s1 s2 : State) (p q : Place), c.started = true → c.err = none → c.next < cmdTotal c →
      elemPlace s c.src c.slayout (elemOff c c.next).1 n false = (some (.ok p), s1) →
      elemPlace s1 c.dst c.dlayout (elemOff c c.next).2 n true = (some (.ok q), s2) → (∀ pa key, p = .mem pa key → KeyedAt s2 pa n key) →
      (readPlace s2 p n).2.1 = false →
      ∃ t w, exec (.copyElementRead r c.seq) s = .next t ∧
        t.ch = { mapCmd s2.ch c.seq (fun d => { d with next := d.next + 1 }) with writes := s2.ch.writes ++ [w] } ∧
        w.cmd = c.seq ∧ w.place = q ∧ w.landed = false ∧ w.poison = false ∧ w.bytes = (List.range n).map (engByte s2 p) ∧ MemoryKept s2 t) ∧
    (∀ (k : Nat) (w : EWrite), s.ch.writes[k]? = some w → w.cmd = c.seq → c.bind = none → PlaceKeyed s w.place w.bytes.length →
      (∀ v ∈ s.ch.writes.take k, v.cmd = w.cmd → placeOverlap v.place v.bytes.length w.place w.bytes.length = false) →
      ∃ t, exec (.engineWriteLand k) s = .next t ∧
        (w.landed = false → t.ch.cq = s.ch.cq.map (fun d => if d.seq = c.seq then { d with done := d.done + w.bytes.length } else d)) ∧
        ((∃ pa key, w.place = .mem pa key) → w.landed = false → t.ch.writes[k]? = some { w with landed := true } ∧ MemoryKept s t) ∧
        ((∀ pa key, w.place ≠ .mem pa key) ∨ w.landed = true → t.ch.writes = s.ch.writes.eraseIdx k ∧ ∀ j < w.bytes.length, engByte t w.place j = w.bytes.getD j 0#8) ∧
        (∀ pa key, w.place = .mem pa key → w.landed = true → MemoryKeptOutside pa w.bytes.length s t)) ∧
    (c.started = true → c.err = none → cmdTotal c ≤ c.next → (∀ w ∈ s.ch.writes, w.cmd ≠ c.seq) → c.follow = none →
      (∀ x ∈ s.colls, x.seq ≠ c.seq) → (∀ b ∈ s.batches, b.seq ≠ c.seq) →
      (hasMile c.mile = false → exec (.milepostWrite r c.seq) s = .next { s with ch := { s.ch with cq := s.ch.cq.filter (fun d => d.seq ≠ c.seq) } }) ∧
      (∀ (s1 : State) (pa key : Nat), hasMile c.mile = true → engAddr s s.ch.core s.ch.root c.mile true false = (some (.ok (pa, key)), s1) →
        poisoned s1 (lineOf pa) = false → KeyedAt s1 pa 8 key → c.seq < 2 ^ 63 →
        ∃ t, exec (.milepostWrite r c.seq) s = .next t ∧ t.ch.cq = s1.ch.cq.filter (fun d => d.seq ≠ c.seq) ∧ MemoryKeptOutside pa 8 s1 t ∧
          memNat t pa 8 = memNat s1 pa 8 / 2 ^ 63 * 2 ^ 63 + max (memNat s1 pa 8 % 2 ^ 63) c.seq)) ∧
    (∀ w x, c.follow = some (w, x) → c.mmaOut = false → c.err = none → c.started = true → cmdTotal c ≤ c.next → (∀ v ∈ s.ch.writes, v.cmd ≠ c.seq) → s.ch.det = false →
      (followMma w x = none →
        exec (.followOnMmaHandover r c.seq) s = .next { s with ch := mapCmd s.ch c.seq (fun d => { d with mmaOut := true, err := some (8, 0) }) }) ∧
      (∀ fmt m acc ftzi ftzo rm, followMma w x = some (fmt, m, acc, ftzi, ftzo, rm) → s.ch.hold = true → s.ch.claim.getLsbD m = true →
        mmaFormatOk s.ch fmt acc = true →
        ∃ t e, exec (.followOnMmaHandover r c.seq) s = .next t ∧ t.ch.mq = s.ch.mq ++ [e] ∧ e.op = .mma fmt m acc ftzi ftzo rm (some c.seq) ∧
          e.convoy = c.convoy ∧ e.unit = none ∧ t.ch.mnum = s.ch.mnum + 1 ∧ e.num = s.ch.mnum + 1 ∧ t.cv = s.cv ∧ MemoryKept s t)) ∧
    (∀ (x : Chain) (y : Nat) (s2 : State), s.ch.chain = some x → x.head % 64 = 0 → x.tail % 64 = 0 → x.last ≠ some x.tail → s.ch.cq.length < 64 →
      afterDone s x.after = true → (∀ q ∈ s.pstores, q.core ≠ s.ch.core) → engRecord s x.resume = (some (.ok y), s2) →
      slice y 511 384 = 0 → slice y 319 318 = 0 → slice y 311 304 = 0 → slice y 317 316 < 3 →
      ∃ t m, exec (.chainRecordTake r) s = .next t ∧ t.ch.cq = s2.ch.cq ++ [m] ∧ t.ch.nextCmd = s2.ch.nextCmd + 1 ∧ m.seq = s2.ch.nextCmd ∧ m.kind = .linear ∧
        m.src.toNat = slice y 191 128 ∧ m.dst.toNat = slice y 255 192 ∧ m.mile.toNat = slice y 127 64 ∧ m.len = slice y 287 256 ∧ m.err = none ∧
        (slice y 63 0 = 0 → t.ch.chain = s2.ch.pchain ∧ t.ch.pchain = none) ∧
        (slice y 63 0 ≠ 0 → t.ch.chain = some { x with last := some x.resume, resume := slice y 63 0 }) ∧ MemoryKept s2 t)

/-! The tape -/

/-- TREC and TSPAN where the acting threads' tapes have room (09 R167 to R169; R354, R355): the record of the masked values, which decodes to them, or a span descriptor with the record as waypoint, stands at the top,
which moves past it. TPOP (09 R172; R356) takes the record below the top, and with the waypoint the span, and its values are to go into the four registers, pd clear. TSEEK.clr empties the tape, TSEEK.pos is to write the top (R357). A share of 0, a record without a
span and a pop without a span are Engine faults with the codes of R358. -/
def Obligations.tapes : Prop :=
  ∀ (st : Stall) (t : Tok) (s : State), s.cv.bad = 0#32 → tokRoom s.cv t.toNat (actLanes s).length = true →
    let share := tapeBytes s.ch.desc
    let top (x : Nat) : Tape := (viewTape s x).t
    (∀ (v : Fin 93) (mask : BitVec 4), v.val + 4 ≤ window s → Ready s (slotUses v mask) [] none →
      let rec_ (x : Nat) : List Byte := tapeRecord (slotVals s v x) mask
      (∀ x, decodeSlots (trailerCodes ((rec_ x).getLastD 0#8)) (rec_ x) =
        (List.range 4).map (fun j => if mask.getLsbD j then (readLoc s (.main (v.val + j) x)).lo else 0#32)) ∧
      (SharesFit s → share ≠ 0 → (∀ x ∈ actLanes s, (top x).span = true ∧ (top x).dropped = false ∧ (top x).low ≤ (top x).top ∧ (top x).cs ≤ (top x).top ∧
          (top x).top + (rec_ x).length - (top x).low ≤ share ∧ (top x).top + (rec_ x).length - (top x).cs ≤ 2 ^ 24 - 1 ∧ (top x).top + (rec_ x).length ≤ 2 ^ 32 - 1) →
        ∃ u, exec (.trec st v mask t) s = .next u ∧ TapeIssued st t (fun _ => []) s u ∧
          ∀ x ∈ actLanes s, Appended s u x (rec_ x) { top x with top := (top x).top + (rec_ x).length }) ∧
      (∀ detour : Bool, SharesFit s → share ≠ 0 → (∀ x ∈ actLanes s, (top x).refill = false ∧ (top x).low ≤ (top x).top ∧ (top x).cs ≤ (top x).top ∧
          (top x).top - (top x).cs < 2 ^ 24 ∧ (top x).top + (4 + (rec_ x).length) - (top x).low ≤ share ∧ (top x).top + (4 + (rec_ x).length) ≤ 2 ^ 32 - 1) →
        ∃ u, exec (.tspan st v detour mask t) s = .next u ∧ TapeIssued st t (fun _ => []) s u ∧
          ∀ x ∈ actLanes s, ∃ d : Word, Appended s u x (bytesOf d.toNat 4 ++ rec_ x)
              { top x with cs := (top x).top, top := (top x).top + (4 + (rec_ x).length), span := true, dropped := false } ∧
            d.extractLsb' 0 24 = BitVec.ofNat 24 (if (top x).span then (top x).top - (top x).cs else 0) ∧
            d.extractLsb' 24 5 = BitVec.ofNat 5 (rec_ x).length ∧ d.getLsbD 31 = detour ∧ d.getLsbD 30 = false ∧ d.getLsbD 29 = false) ∧
      (actLanes s ≠ [] → (share = 0 ∨ ∀ x ∈ actLanes s, (top x).span = false) →
        exec (.trec st v mask t) s = .next (takeFault s { kind := 0x14, sub := if share = 0 then 0x10 else 0x11, mask := maskOf (actLanes s) }))) ∧
    (∀ (v : Fin 93) (p : Pn), v.val + 4 ≤ window s →
      Ready s [] (predLocs s p.toNat ++ (actLanes s).flatMap (fun x => (List.range 4).map (fun j => Loc.main (v.val + j) x))) none →
      (SharesFit s → share ≠ 0 → s.ch.spoison = [] →
        (∀ x ∈ actLanes s, (top x).span = true ∧ (top x).low ≤ (top x).cs ∧ (top x).cs + 4 < (top x).top ∧ (viewTape s x).stub? = none) →
        let codes (x : Nat) : List Nat := trailerCodes (((viewTape s x).read ((top x).top - 1) 1).headD 0#8)
        let n (x : Nat) : Nat := ((codes x).map codeLen).sum + 1
        let r (x : Nat) : Nat := (top x).top - n x
        let d (x : Nat) : Word := (viewTape s x).desc (top x).cs
        (∀ x ∈ actLanes s, (top x).cs + 4 < r x ∨ (1 ≤ spanLen (d x) ∧ spanLen (d x) ≤ 17 ∧ spanPrev (d x) ≤ (top x).cs)) →
        ∃ u, exec (.tpop st v p t) s = .next u ∧
          TapeIssued st t (fun x => List.zip ((List.range 4).map (fun j => Loc.main (v.val + j) x))
            ((decodeSlots (codes x) ((viewTape s x).read (r x) (n x))).map (fun w => w.setWidth 64)) ++
              (if p = 7#3 then [] else [(Loc.pred p.toNat x, 0#64)])) s u ∧
          ∀ x ∈ actLanes s,
            ((top x).cs + 4 < r x → (viewTape u x).t = { top x with top := r x, refill := false }) ∧
            (r x ≤ (top x).cs + 4 → (viewTape u x).t.top = (top x).cs ∧ (viewTape u x).t.cs = (top x).cs - spanPrev (d x) ∧
              (viewTape u x).t.span = decide (spanPrev (d x) ≠ 0) ∧ (viewTape u x).t.refill = false ∧ (viewTape u x).t.low = (top x).low)) ∧
      (actLanes s ≠ [] → (share = 0 ∨ ∀ x ∈ actLanes s, (top x).span = false) →
        exec (.tpop st v p t) s = .next (takeFault s { kind := 0x14, sub := if share = 0 then 0x10 else 0x15, mask := maskOf (actLanes s) }))) ∧
    (share ≠ 0 → Ready s [] [] none →
      ∃ u, exec (.tseek st none t) s = .next u ∧ TapeIssued st t (fun _ => []) s u ∧ ∀ x ∈ actLanes s, (viewTape u x).t = {} ∧ (viewTape u x).spill = []) ∧
    (∀ d : Dst, share ≠ 0 → Ready s [] [] (some (d, 1)) →
      ∃ u, exec (.tseek st (some d) t) s = .next u ∧ TapeIssued st t (fun x => dstWrites s d 1 x (BitVec.ofNat 64 (top x).top)) s u)

/-! Traversal -/

/-- TRAVS (08 R156, R365) on ready operands: each acting thread's ray stands among the cohort's rays, under a number that no other has, with the thread's origin, direction, interval and
mode; one with tmin above tmax ends at once as MISS, and one without a table with KIND; its handle is to be written. With 2,048 rays in the unit it waits. TRAVR keeps or frees the
rays that its handles name, and TRAVA frees kept ones; their units deliver octets (R367, R371). A handle that names no live ray is a Protection fault, subcode 9.
A visit of a running ray of the focused cohort, its record and program read (08 R158 to R162; R366, R368 to R370). TRAV_NODE_STEP: at depth 32 the ray ends with DEPTH; an instance within an instance ends it; a node's emitted children that count,
without those already finished, become the place to visit and the pending references, of which 8 are held; an instance node sets the transformed frame. TRAV_PRIMITIVE_TEST: an accepted t lies in the interval, ends an ANY ray as HIT and becomes tmax of a
CLOSEST ray; with nothing accepted the hit stays. TRAVERSAL_CONTEXT_RESET ends every running ray with status 3. -/
def Obligations.rays : Prop :=
  ((∀ (st : Stall) (d : Dst) (a b c : Src) (mode : TravMode) (tok : Tok) (s : State), s.cv.bad = 0#32 →
    Ready s [⟨0, a, 4⟩, ⟨1, b, 4⟩, ⟨2, c, 4⟩] [] (some (d, 1)) →
    let n := (actLanes s).length
    (2048 < unitRays s s.ch.core + n → ∃ v, exec (.travs st d a b c mode tok) s = .next v ∧ Waits s v) ∧
    (unitRays s s.ch.core + n ≤ 2048 → s.ch.rays.length + n ≤ 2048 → tokRoom s.cv tok.toNat n = true →
      ∃ (t : State) (new : List Pending) (rays : List Ray), exec (.travs st d a b c mode tok) s = .next t ∧ t.ch.rays = s.ch.rays ++ rays ∧
        rays.length = n ∧ new.length = n ∧ Issued st tok new { s with ch := { s.ch with rays := t.ch.rays, raygen := t.ch.raygen } } t ∧
        ((s.ch.rays.map (·.num)).Nodup → (t.ch.rays.map (·.num)).Nodup) ∧
        ∀ (k x : Nat), (actLanes s)[k]? = some x → ∃ (r : Ray) (u : Pending), rays[k]? = some r ∧ new[k]? = some u ∧ u.kind = .value ∧
          u.writes = dstWrites s d 1 x (BitVec.ofNat 64 (r.num + 2048 * r.gen)) ∧ r.lane = x ∧ r.convoy = s.cv.id ∧ r.mode = mode ∧
          r.o = (rdQuad s a x).take 3 ∧ r.tmin = (rdQuad s a x).getD 3 0#32 ∧ r.d = (rdQuad s b x).take 3 ∧ r.tmax = (rdQuad s b x).getD 3 0#32 ∧
          r.root = DWord.ofWords ((rdQuad s c x).getD 0 0#32) ((rdQuad s c x).getD 1 0#32) ∧
          r.emit_ = DWord.ofWords ((rdQuad s c x).getD 2 0#32) ((rdQuad s c x).getD 3 0#32) ∧ r.hit = none ∧ r.kept = false ∧ r.freed = false ∧
          r.status = (if fcond .le (f32v r.tmin) (f32v r.tmax) = false then some 0 else if s.ch.travtab = 0#64 then some 6 else none))) ∧
  (∀ (st : Stall) (d : Fin 12) (a b c : Src) (tok : Tok) (s : State), s.cv.bad = 0#32 → 8 * d.val + 8 ≤ window s → tokRoom s.cv tok.toNat (actLanes s).length = true →
    let octet : List Loc := (actLanes s).flatMap (groupLocs (8 * d.val) 8)
    let ray (x : Nat) : Option Ray := rayOf s.ch (rd32 s a x)
    let named (r : Ray) : Prop := ∃ x ∈ actLanes s, ∃ q, ray x = some q ∧ q.num = r.num ∧ q.gen = r.gen
    let issues (i : Instr) (kind : Nat → Ray → UKind) (keep : Bool) : Prop := ∃ (t : State) (new : List Pending), exec i s = .next t ∧
      new.length = (actLanes s).length ∧ Issued st tok new { s with ch := { s.ch with rays := t.ch.rays } } t ∧
      (∀ (k x : Nat) (r : Ray), (actLanes s)[k]? = some x → ray x = some r →
        ∃ u : Pending, new[k]? = some u ∧ u.kind = kind x r ∧ u.pieces = [resultPiece x (groupLocs (8 * d.val) 8 x)]) ∧
      t.ch.rays.length = s.ch.rays.length ∧
      ∀ (k : Nat) (r : Ray), s.ch.rays[k]? = some r → (named r → t.ch.rays[k]? = some (if keep then { r with kept := true } else { r with freed := true })) ∧
        (¬ named r → t.ch.rays[k]? = some r)
    let lost (kept : Bool) : Word := maskOf ((actLanes s).filter (fun x => match ray x with
      | some r => kept && !r.kept
      | none => true))
    (Ready s [⟨0, a, 1⟩] octet none →
      ((∀ x ∈ actLanes s, (ray x).isSome = true) → ∀ keep : Bool, issues (.travr st d a keep tok) (fun _ r => .travr r.num r.gen keep) keep) ∧
      ((∃ x ∈ actLanes s, ray x = none) → ∀ keep : Bool,
        exec (.travr st d a keep tok) s = .next (takeFault s { kind := 0x0E, sub := 9, mask := lost false }))) ∧
    (Ready s [⟨0, a, 1⟩, ⟨1, b, 4⟩, ⟨2, c, 2⟩] octet none →
      ((∀ x ∈ actLanes s, ∃ r, ray x = some r ∧ r.kept = true) →
        issues (.trava st d a b c tok) (fun x r => .trava r.num r.gen (rdQuad s b x) (rd64 s c x)) false) ∧
      ((∃ x ∈ actLanes s, ∀ r, ray x = some r → r.kept = false) →
        exec (.trava st d a b c tok) s = .next (takeFault s { kind := 0x0E, sub := 9, mask := lost true }))))) ∧
  ((∀ (s : State) (r : Ray) (v : Visit), s.focus = true → runningRay s r.num = some (r, v) → (∀ q ∈ s.pstores, q.core ≠ s.ch.core) →
    let becomes (u t : State) (q : Ray) : Prop := t.ch.rays = u.ch.rays.map (fun x => if x.num = r.num && x.gen = r.gen then q else x) ∧ q.num = r.num ∧ q.gen = r.gen ∧ t.cv = u.cv ∧ MemoryKept u t
    (32 ≤ v.depth → ∃ t q, exec (.travNodeStep (slotOf s) r.num) s = .next t ∧ becomes s t q ∧ q.status = some 4) ∧
    (v.depth < 32 → v.emit = false → refOk v.ref = true → refClass v.ref = 2 → r.inst.isSome = true →
      ∃ t q, exec (.travNodeStep (slotOf s) r.num) s = .next t ∧ becomes s t q ∧ q.status = some 5) ∧
    (∀ (ws prog : List Word) (s1 s2 : State), v.depth < 32 → v.emit = false → refOk v.ref = true → rayRead s (refVa v.ref) 16 = (.ok ws, s1) →
      let start := progStart ws r.fo r.fd r.tmin
      (refClass v.ref = 0 → rayProgram s1 (progVa r.table 0 (refKind v.ref) false) = (.ok prog, s2) →
        let p := start.run .node { tmin := r.tmin, tmax := r.tmax, held := none } prog
        let kids := ((p.kids.filter (fun k => k.2.1 && (!k.2.2 || decide (r.mode = .emit)))).map (fun k => (k.1, k.2.2)))
        p.wrong = false → ∀ first rest, kids.drop (r.field (v.depth + 1)) = first :: rest →
        ∃ t q, exec (.travNodeStep (slotOf s) r.num) s = .next t ∧ becomes s2 t q ∧ q.status = none ∧ q.hit = r.hit ∧
          q.cur = some { ref := first.1, depth := v.depth + 1, emit := first.2 } ∧
          (let pend := rest.map (fun k => ({ ref := k.1, depth := v.depth + 1, emit := k.2 } : Visit)) ++ r.stack
           q.stack = pend.take 8 ∧ q.dropped = (r.dropped || decide (8 < pend.length)))) ∧
      (refClass v.ref = 2 → r.inst = none → r.field (v.depth + 1) = 0 →
        ∃ t q, exec (.travNodeStep (slotOf s) r.num) s = .next t ∧ becomes s1 t q ∧ q.status = none ∧
          q.inst = some { depth := v.depth, addr := refVa v.ref, id := ws.getD 13 0#32, m := ws.take 12 } ∧
          q.fo = transform (ws.take 12) r.o true ∧ q.fd = transform (ws.take 12) r.d false ∧
          q.cur = some { ref := DWord.ofWords (ws.getD 14 0#32) (ws.getD 15 0#32), depth := v.depth + 1, emit := false }) ∧
      (refClass v.ref = 1 → rayProgram s1 (progVa r.table 1 (refKind v.ref) false) = (.ok prog, s2) →
        let p := start.run .prim { tmin := r.tmin, tmax := r.tmax, held := heldT r } prog
        p.wrong = false → r.status = none →
        (p.acc = none → ∃ t q, exec (.travPrimitiveTest (slotOf s) r.num) s = .next t ∧ becomes s2 t q ∧ q.hit = r.hit ∧ q.tmax = r.tmax) ∧
        (∀ x y z, p.acc = some (x, y, z) → r.mode ≠ .emit →
          fcond .le (f32v r.tmin) (f32v x) = true ∧ fcond .le (f32v x) (f32v r.tmax) = true ∧
          ∃ t q h, exec (.travPrimitiveTest (slotOf s) r.num) s = .next t ∧ becomes s2 t q ∧ q.hit = some h ∧ h.t = x ∧ h.u = y ∧ h.v = z ∧
            h.prim = ws.getD 15 0#32 ∧ h.ref = v.ref ∧ (r.mode = .any → q.status = some 1) ∧ (r.mode = .closest → q.tmax = x))))) ∧
  (∀ s : State, s.focus = true →
    ∃ t, exec (.traversalContextReset (slotOf s)) s = .next t ∧ t.cv = s.cv ∧ MemoryKept s t ∧ t.ch.rays.length = s.ch.rays.length ∧
      ∀ (k : Nat) (r : Ray), s.ch.rays[k]? = some r → ∃ q : Ray, t.ch.rays[k]? = some q ∧ q.num = r.num ∧ q.gen = r.gen ∧ q.status = some (r.status.getD 3)))

/-! Textures, adjoints and gradients -/

/-- TXS and TXG on ready operands, with no access of the threads outstanding, whose record reads as r (R361, R373) and whose texels and gradients are accessible: a thread with finite coordinates has
a unit with its texels in the order of R374, for TXG with the gradient addends of R375, and a thread with others a unit that is to write zeros. TXS threads join the queue of their core. TEXTURE_SAMPLE serves the first of a queue:
its destinations take the filtered channels (08 R155, R374). RADJ has a unit with its thread's record and operands (R376), and EDGE one that is to write the sample of R377,
eight zeros where n or j is out of range.
GSCOM has one unit that is a release and an acquire (R378). GSU_ADDEND adds the value of a SCADD of one thread to its word's entry, exactly, or to a new entry where the GSU has room (09 R176; 11 R214). GSU_COMMIT
sets every word that the region has touched to its prior value plus its sum, rounded once, and takes its entries away (04 R92; 09 R177; 11 R215). -/
def Obligations.samplesAndGradients : Prop :=
  ((∀ (st : Stall) (d : Dst) (a b c : Src) (tok : Tok) (grad : Bool) (r : TexRec) (s s1 s2 s3 : State) (ps qs : List PSpan), s.cv.bad = 0#32 →
    Ready s ([⟨0, a, 2⟩, ⟨1, b, 2⟩] ++ if grad then [⟨2, c, 4⟩] else []) [] (some (d, if grad then 2 else 4)) →
    tokRoom s.cv tok.toNat (actLanes s).length = true → quiet s = true → (∀ f g, withTexRec s (rd64 s a (lowest s)) f g = f s1 r) →
    accessChecks s1 false true true false false ((actLanes s1).flatMap (fun x => match coordsOf s1 b x with
      | some (u, v) => texelAccs r x u v
      | none => [])) = .go s2 ps →
    let adds (x : Nat) : List (DWord × Word) := match coordsOf s1 b x with
      | some (u, v) => texelGrads r u v (rdQuad s2 c x)
      | none => []
    (if grad then accessChecks s2 true true true false true
        ((actLanes s1).flatMap (fun x => (adds x).map (fun e => { lane := x, ea := e.1.toNat, win := resolve e.1, n := 4 }))) = .go s3 qs
      else s3 = s2) →
    s3.cv.bad = 0#32 → actLanes s ≠ [] →
    let i : Instr := if grad then .txg st d a b c tok else .txs st d a b tok
    let dst (x : Nat) : List Loc := (List.range (if grad then 2 else 4)).flatMap (fun k => (dstLoc s d x k).toList)
    ∃ (t : State) (new : List Pending), exec i s = .next t ∧ new.length = (actLanes s).length ∧ Issued st tok new { s3 with texq := t.texq } t ∧
      (∀ (k x : Nat), (actLanes s)[k]? = some x → ∃ u : Pending, new[k]? = some u ∧
        (coordsOf s b x = none → u.kind = .value ∧ u.writes = (dst x).map (fun l => (l, 0#64))) ∧
        ((coordsOf s b x).isSome = true →
          u.kind = (if grad then .texGrad r.fmt (readWord s b x 0) (readWord s b x 1) r.bi (rdQuad s c x)
            else .texture r.fmt (readWord s b x 0) (readWord s b x 1) r.bi) ∧
          (grad = false → u.pieces = resultPiece x (dst x) :: lanePieces s3 x
            ((actLanes s1).flatMap (fun x => match coordsOf s1 b x with
              | some (u, v) => texelAccs r x u v
              | none => [])) ps) ∧
          (grad = true → (u.pieces.filter (fun p => !p.data.isEmpty)).map (fun p => (p.va, p.data)) =
            (List.zip (qs.filter (fun p => p.lane = x)) (adds x)).map (fun e => (e.1.va, bytesOf e.2.2.toNat 4))))) ∧
      (grad = true → t.texq = s3.texq) ∧
      (grad = false → t.texq.length = s3.texq.length + ((actLanes s).filter (fun x => (coordsOf s b x).isSome)).length)) ∧
  (∀ (s : State) (x : TexReq) (u : Pending) (fmt : Nat) (p q : Word) (bi : Bool) (cx cy : Q), s.focus = true → (∀ v ∈ s.ch.convoys, v.id ≠ s.cv.id) →
    s.texq.find? (fun y => y.core = s.ch.core) = some x → x.core = s.ch.core → x.slot = s.ch.slot → x.uid = s.ch.uid → x.convoy = s.cv.id →
    s.cv.units.find? (fun v => v.seq = x.unit) = some u → u.kind = .texture fmt p q bi → mayComplete s.cv u = true → coord p = some cx → coord q = some cy →
    (∀ y ∈ pieceLines false (readPieces u), fcWaits s y.1 y.2 = false) → (∀ y ∈ readPieces u, y.scr = false ∧ y.priv = false ∧ Keyed s y ∧ piecePoison s y = false) →
    ∃ t, exec (.textureSample s.ch.core) s = .next t ∧ t.texq = s.texq.erase x ∧ t.cv.units = s.cv.units.filter (fun v => v.seq ≠ u.seq) ∧ MemoryKept s t ∧
      ∀ y l k, u.pieces.filter (fun y => y.n = 0) = [y] → y.dst[k]? = some l → y.dst.Nodup → (∀ l ∈ y.dst, realLoc l ∧ ∀ j z, l ≠ .pred j z) → k < 4 →
        (getLoc t.cv l).lo =
          (filtered fmt (texWeights bi cx cy) ((readPieces u).map (fun y => (List.range y.n).map (placeByte s y)))).getD k 0#32) ∧
  (∀ (st : Stall) (d : Fin 12) (a b c : Src) (tok : Tok) (s : State), s.cv.bad = 0#32 → 8 * d.val + 8 ≤ window s → tokRoom s.cv tok.toNat (actLanes s).length = true →
    let octet : List Loc := (actLanes s).flatMap (groupLocs (8 * d.val) 8)
    (∀ (s1 : State) (ps : List PSpan), Ready s [⟨0, a, 2⟩, ⟨1, b, 4⟩, ⟨2, c, 1⟩] octet none → (∀ x ∈ actLanes s, (rd64 s a x).toNat % 64 = 0) →
      accessChecks s false false false false false ((actLanes s).flatMap (fun x => blockAccs x (rd64 s a x))) = .go s1 ps → s1.cv.bad = 0#32 →
      ∃ (t : State) (new : List Pending), exec (.radj st d a b c tok) s = .next t ∧ new.length = (actLanes s).length ∧ Issued st tok new s1 t ∧
        ∀ (k x : Nat), (actLanes s)[k]? = some x → ∃ u : Pending, new[k]? = some u ∧ u.kind = .radj (rdQuad s b x) (rd32 s c x) ∧
          u.pieces = resultPiece x (groupLocs (8 * d.val) 8 x) :: lanePieces s1 x ((actLanes s).flatMap (fun x => blockAccs x (rd64 s a x))) ps) ∧
    (Ready s [⟨0, a, 4⟩, ⟨1, b, 2⟩, ⟨2, c, 1⟩] octet none →
      ∃ (t : State) (new : List Pending), exec (.edge st d a b c tok) s = .next t ∧ new.length = (actLanes s).length ∧ Issued st tok new s t ∧
        ∀ (k x : Nat), (actLanes s)[k]? = some x → ∃ u : Pending, new[k]? = some u ∧ u.kind = .value ∧
          let n := (readWord s b x 0).toNat
          let j := (readWord s b x 1).toNat
          let ws := edgeWords (rdQuad s a x) n j (rd32 s c x)
          u.writes = List.zip (groupLocs (8 * d.val) 8 x) (ws.map (fun w => w.setWidth 64)) ∧
          ((n = 0 ∨ 256 < n ∨ n ≤ j) → ws = List.replicate 8 0#32)))) ∧
  ((∀ (st : Stall) (tok : Tok) (s : State), tokRoom s.cv tok.toNat 1 = true →
    ∃ t u, exec (.gscom st tok) s = .next t ∧ Issued st tok [u] s t ∧ u.kind = .gscom ∧ u.acq = true ∧ u.rel = true ∧ u.mask = activeMask s) ∧
  (∀ (k : Nat) (u : Pending) (p : Piece) (s : State), s.cv.units[k]? = some u → u.kind = .scadd → mayComplete s.cv u = true → u.pieces = [p] →
    let word := p.addr / 4
    let v := fval .f32 (natOfBytes p.data)
    let old := s.gsu.find? (fun e => e.rcb = s.ch.rcb && e.word = word)
    (old.isSome = true ∨ (s.gsu.filter (fun e => gsuOf e.word = gsuOf word)).length < 2048) →
    ∃ t e, exec (.gsuAddend k) s = .next t ∧ UnitGone s t u ∧ MemoryKept s t ∧
      t.gsu = (match old with
        | some o => s.gsu.erase o
        | none => s.gsu) ++ [e] ∧ e.rcb = s.ch.rcb ∧ e.word = word ∧
      (let sum := (old.map (·.acc)).getD 0
       (∀ x, v = .fin x → -(2 ^ 319 : Int) ≤ sum + toFixed x (-149) → sum + toFixed x (-149) < 2 ^ 319 → e.acc = sum + toFixed x (-149)) ∧
       ((∀ x, v ≠ .fin x) → e.acc = sum) ∧ (v = .nan → e.nan = true) ∧ (v = .inf false → e.pinf = true) ∧ (v = .inf true → e.ninf = true))) ∧
  (∀ (k : Nat) (u : Pending) (s : State), s.cv.units[k]? = some u → u.kind = .gscom → mayComplete s.cv u = true → (∀ q ∈ s.pstores, q.core ≠ s.ch.core) →
    s.gspills = [] → (∀ e ∈ s.gsu, e.rcb = s.ch.rcb → KeyedAt s (4 * e.word) 4 e.key ∧ fcWaits s (lineOf (4 * e.word)) true = false ∧
      ∀ f ∈ s.gsu, f.rcb = e.rcb → f.word = e.word → f = e) → s.gsu.Nodup →
    ∃ t, exec (.gsuCommit k) s = .next t ∧ UnitGone s t u ∧ t.gsu = s.gsu.filter (fun e => e.rcb ≠ s.ch.rcb) ∧
      (∀ e ∈ s.gsu, e.rcb = s.ch.rcb → ∀ x, (fval .f32 (memNat s (4 * e.word) 4) = .fin x ∨ (fval .f32 (memNat s (4 * e.word) 4) = .zero false ∧ x = Q.ofInt 0)) →
        e.nan = false → e.pinf = false → e.ninf = false → e.acc + toFixed x (-149) ≠ 0 →
        memNat t (4 * e.word) 4 = enc .f32 (fresult .f32 .rne false false (.fin (Q.scaled (e.acc + toFixed x (-149)) (-149))))) ∧
      ∀ a, (∀ e ∈ s.gsu, e.rcb = s.ch.rcb → a / 4 ≠ e.word) → memByte t a = memByte s a))

/-! Rasterisation -/

/-- RSUB: the batch stands last, with the operands of the lowest thread, and one unit is outstanding (08 R146, R364). PEMIT: n, the lesser of the acting threads and of what cap leaves, is added to count; the first n threads have units that store their records at the places from
count on, with p to be set, and the others units that clear p (08 R145, R363).
A batch of one triangle, the first in submission order, its stores performed and no earlier command of its cohort open (08 R146 to R152; R364). RASTER_BATCH: a header or a state off 64 bytes ends it with ALIGN; a render state with a reserved bit ends it with RESERVED; otherwise, where
the triangle goes to the backends, its fragments wait, each within the target, of the backend of its tile, with depth within 0 and 1. CLASSIFY_RESUME goes on with a paused batch at the start of its ring, once no grid over the ring is left, and else does nothing (08 R154). RB_FRAGMENT
draws a fragment: in visibility mode the pixel takes the greater of its value and (0x3F800000 − z, id); in blend mode a
fragment that is no nearer than the depth buffer changes nothing (08 R151, R153). -/
def Obligations.raster : Prop :=
  ((∀ (st : Stall) (a b c : Src) (tok : Tok) (s : State), s.cv.bad = 0#32 → Ready s [⟨0, a, 2⟩, ⟨1, b, 2⟩, ⟨2, c, 2⟩] [] none → tokRoom s.cv tok.toNat 1 = true →
    ∃ t u x, exec (.rsub st a b c tok) s = .next t ∧ u.kind = .value ∧
      Issued st tok [u] { s with batches := s.batches ++ [x], nbatch := s.nbatch + 1, ch := { s.ch with nextCmd := s.ch.nextCmd + 1 } } t ∧
      x.no = s.nbatch + 1 ∧ x.uid = s.ch.uid ∧ x.seq = s.ch.nextCmd ∧ x.batch = rd64 s a (lowest s) ∧ x.state_ = rd64 s b (lowest s) ∧
      x.mile = rd64 s c (lowest s) ∧ x.started = false ∧ x.err = none) ∧
  (∀ (st : Stall) (p : Pn) (a : Src) (b : Fin 22) (tok : Tok) (s s2 s3 : State) (pa key : Nat) (ps : List PSpan), s.cv.bad = 0#32 →
    Ready s ([⟨0, a, 2⟩] ++ twelveUses b) (predLocs s p.toNat) none → tokRoom s.cv tok.toNat (actLanes s).length = true → quiet s = true → actLanes s ≠ [] →
    (rd64 s a (lowest s)).toNat % 64 = 0 → emitHead s (rd64 s a (lowest s)) = .ok s2 pa key → s2.cv.bad = 0#32 →
    let cap := memNat s2 pa 4
    let count := memNat s2 (pa + 4) 4
    let n := min (actLanes s).length (cap - count)
    let as := (((actLanes s).take n).zipIdx).flatMap (fun e => blockAccs e.1 (rd64 s a (lowest s) + BitVec.ofNat 64 (64 + 64 * (count + e.2))))
    accessChecks s2 true true true false false as = .go s3 ps → s3.cv.bad = 0#32 → (∀ x ∈ (actLanes s).take n, (ps.filter (fun y => y.lane = x)).length = 4) →
    KeyedAt s3 (pa + 4) 4 key → memNat s3 (pa + 4) 4 = count →
    ∃ (t : State) (new : List Pending), exec (.pemit st p a b tok) s = .next t ∧ new.length = (actLanes s).length ∧ Counted tok.toNat new s3 t ∧ MovedOn st s3 t ∧
      (∀ l, getLoc t.cv l = getLoc s3.cv l) ∧ memNat t (pa + 4) 4 = count + n ∧ MemoryKeptOutside (pa + 4) 4 s3 t ∧
      ∀ (k x : Nat), (actLanes s)[k]? = some x → ∃ u : Pending, new[k]? = some u ∧
        (k < n → u.kind = .store ∧ u.writes = (if p = 7#3 then [] else [(Loc.pred p.toNat x, 1#64)]) ∧ (u.pieces.map (·.data)).flatten = emitBytes s b x) ∧
        (n ≤ k → u.kind = .value ∧ u.writes = if p = 7#3 then [] else [(Loc.pred p.toNat x, 0#64)]))) ∧
  (let within (b : Batch) (x : Nat) (fs : List Frag) : Prop := ∀ f ∈ fs, f.batch = b.no ∧ f.x < rsWidth x ∧ f.y < rsHeight x ∧ f.rb = backendOf f.x f.y ∧
    fcond .le (.zero false) (f32v f.z) = true ∧ fcond .le (f32v f.z) (f32v 0x3F800000#32) = true
  (∀ (s : State) (b : Batch), s.batches.find? (fun x => !x.started || (x.err.isNone && decide (x.next < x.count))) = some b → b.started = false → b.after = [] →
    (∀ c, cohortOf s b.uid = some c → ∀ m ∈ openCmds s c, b.seq ≤ m.1) → b.next = 0 → b.err = none →
    ((b.batch.toNat % 64 ≠ 0 ∨ b.state_.toNat % 64 ≠ 0) →
      exec .rasterBatch s = .next (putBatch s { b with started := true, err := some (3, if b.batch.toNat % 64 ≠ 0 then b.batch.toNat else b.state_.toNat) })) ∧
    (∀ (s1 s2 : State) (hd rs : List Byte), b.batch.toNat % 64 = 0 → b.state_.toNat % 64 = 0 → engBytes s fwCore b.root b.batch.toNat 64 = (some (.ok hd), s1) →
      engBytes s1 fwCore b.root b.state_.toNat 64 = (some (.ok rs), s2) →
      let x := natOfBytes rs
      (slice x 127 0 ≠ 0 → exec .rasterBatch s = .next (putBatch s2 { b with started := true, err := some (1, b.state_.toNat) })) ∧
      (∀ (s3 : State) (bs : List Byte) (fs : List Frag), rsCheck x = none → rsVisible x = false → slice (natOfBytes hd) 63 32 = 1 → 1 ≤ slice (natOfBytes hd) 31 0 →
        (∀ c : Batch, engBytes (putBatch s2 c) fwCore b.root (triAddr b.batch.toNat 0) 64 = (some (.ok bs), putBatch s3 c)) →
        classify (pickBit s3).1 b.no x (BitVec.ofNat 32 (slice (natOfBytes hd) 95 64)) (wordsOfBytes bs) = .fixed fs →
        within b x fs ∧ ∃ t, exec .rasterBatch s = .next t ∧ t.frags = s3.frags ++ fs ∧ MemoryKept s3 t ∧
          ∃ c ∈ t.batches, c.no = b.no ∧ c.started = true ∧ c.rs = x ∧ c.next = 1 ∧ c.count = 1 ∧ c.err = none))) ∧
  (∀ (s : State) (b : Batch), s.batches.find? (fun x => x.paused && x.err.isNone) = some b →
    ((∃ l ∈ s.launches, l.no ∈ (ringOf s b.root (rsRing b.rs)).grids) → exec .classifyResume s = .next s) ∧
    (∀ (s3 : State) (bs : List Byte) (fs : List Frag), (∀ l ∈ s.launches, l.no ∉ (ringOf s b.root (rsRing b.rs)).grids) → b.next + 1 = b.count →
      (∀ c : Batch, engBytes (putBatch (putRing s { ringOf s b.root (rsRing b.rs) with used := 0, grids := [] }) c) fwCore b.root (triAddr b.batch.toNat b.next) 64 =
        (some (.ok bs), putBatch s3 c)) →
      classify (pickBit s3).1 b.no b.rs (b.idbase + BitVec.ofNat 32 b.next) (wordsOfBytes bs) = .fixed fs →
      within b b.rs fs ∧ ∃ t, exec .classifyResume s = .next t ∧ t.frags = s3.frags ++ fs ∧ MemoryKept s3 t ∧
        ∃ c ∈ t.batches, c.no = b.no ∧ c.paused = false ∧ c.ring = 0 ∧ c.next = b.count)) ∧
  (∀ (s s2 : State) (b : Batch) (f : Frag) (bs : List Byte), s.frags.filter (fun g => g.rb = f.rb) = [f] → s.batches.find? (fun x => x.no = f.batch) = some b →
    let s1 : State := { s with frags := s.frags.erase f }
    let pixel (base n : Nat) : Nat := (base + f.y * rsPitch b.rs + n * f.x) % 2 ^ 64
    (rsVisible b.rs = true → pixel (rsTarget b.rs) 8 % 8 = 0 → engBytes s1 fwCore b.root (pixel (rsTarget b.rs) 8) 8 = (some (.ok bs), s2) →
      let v := max (natOfBytes bs) ((0x3F800000 - f.z.toNat) * 2 ^ 32 + f.id.toNat)
      ∀ s3, engPuts s2 fwCore b.root [(pixel (rsTarget b.rs) 8, bytesOf v 8)] = (some none, s3) →
        exec (.rbFragment f.rb) s = .next (putBatch s3 { b with done := b.done + 8 })) ∧
    (rsVisible b.rs = false → rsDepth b.rs ≠ 0 → pixel (rsDepth b.rs) 4 % 4 = 0 → engBytes s1 fwCore b.root (pixel (rsDepth b.rs) 4) 4 = (some (.ok bs), s2) →
      flt (f32v (BitVec.ofNat 32 (natOfBytes bs))) (f32v f.z) = true → exec (.rbFragment f.rb) s = .next s2)))

/-! System instructions -/

/-- SYS instructions on ready operands that pass the checks of R381: one unit is outstanding, with the value that it is to write in every active thread or the register that it is to set (R380,
R382, R385 to R390, R392); PMC sets its counter up, SCALL's request and EFLT.clr take effect; nothing else changes. QWR sets qi, as the cohort and as its convoy sees it (02 R46).
Checks 6 and 7 of R381. SWR of a register that is not writable, PMC, PMR and REPLAY.req without PMACC, and MODE.set or MODE.clr of a bit other than 8 are Protection faults, subcode 10, and
LNCH into a region that is no descendant one of subcode 11; a table address off 512 bytes and a record address off 64 are Misaligned faults. -/
def Obligations.systemInstructions : Prop :=
  ((∀ (i : Instr) (f : SysForm) (s : State), sysForm i = some f → s.cv.bad = 0#32 → Ready s f.uses [] f.dst → f.ok s → tokRoom s.cv f.tok.toNat 1 = true →
    ∃ t u, exec i s = .next t ∧ u.kind = f.kind s ∧ u.writes = f.writes s ∧ u.acq = f.acq ∧ u.rel = f.rel ∧ Issued f.stall f.tok [u] (f.after s) t) ∧
  (∀ (st : Stall) (a : Src) (q : BitVec 3) (tok : Tok) (s : State), s.cv.bad = 0#32 → Ready s [⟨0, a, 1⟩] [] none →
    let x := rd32 s a (lowest s)
    ∃ t, exec (.qwr st a q tok) s = .next t ∧ NMap.get 0#32 t.ch.q q.toNat = x ∧ NMap.get 0#32 t.cv.qview q.toNat = x ∧
      (∀ k, k ≠ q.toNat → NMap.get 0#32 t.ch.q k = NMap.get 0#32 s.ch.q k ∧ NMap.get 0#32 t.cv.qview k = NMap.get 0#32 s.cv.qview k) ∧
      Passed st { s with ch := { s.ch with q := t.ch.q }, cv := { s.cv with qview := t.cv.qview } } t) ∧
  (∀ (k : Nat) (u : Pending) (s : State), s.cv.units[k]? = some u →
    (∀ x, u.kind = .sysSet 0 x → ∃ t, exec (.tokenUnitComplete k) s = .next t ∧ t.ch = { s.ch with travtab := x } ∧ UnitGone s t u ∧ MemoryKept s t) ∧
    (∀ x, u.kind = .sysSet 2 x → ∃ t, exec (.tokenUnitComplete k) s = .next t ∧ t.ch = { s.ch with eftrap := x.getLsbD 0 } ∧ UnitGone s t u ∧ MemoryKept s t) ∧
    (∀ x, u.kind = .sysSet 1 x → ∃ t, exec (.tokenUnitComplete k) s = .next t ∧ t.ch.pwrh = x.setWidth 2 ∧ UnitGone s t u))) ∧
  (∀ (st : Stall) (tok : Tok) (s : State), s.cv.bad = 0#32 →
    let prot : FaultRec := { kind := 0x0E, sub := 10, mask := activeMask s }
    (∀ (a : Src) (reg : BitVec 8), Ready s [⟨0, a, if reg = 0x12#8 ∨ reg = 0x22#8 ∨ reg = 0x23#8 ∨ reg = 0x24#8 then 2 else 1⟩] [] none →
      (reg ≠ 0x23#8 → exec (.swr st a reg tok) s = .next (takeFault s prot)) ∧
      (reg = 0x23#8 → (rd64 s a (lowest s)).toNat % 512 ≠ 0 →
        exec (.swr st a reg tok) s = .next (takeFault s { kind := 0x0C, addr := (rd64 s a (lowest s)).toNat, mask := activeMask s }))) ∧
    (s.ch.pmacc = false →
      (∀ ev k enable clear own, exec (.pmc st ev k enable clear own tok) s = .next (takeFault s prot)) ∧
      (∀ d k, Ready s [] [] (some (d, 2)) → exec (.pmr st d k tok) s = .next (takeFault s prot)) ∧
      (∀ a, Ready s [⟨0, a, 2⟩] [] none → exec (.replay st (.req a) tok) s = .next (takeFault s prot))) ∧
    (∀ a, Ready s [⟨0, a, 1⟩] [] none → rd32 s a (lowest s) &&& ~~~0x100#32 ≠ 0#32 →
      exec (.mode st (.set a) tok) s = .next (takeFault s prot) ∧ exec (.mode st (.clr a) tok) s = .next (takeFault s prot)) ∧
    (∀ a b, Ready s [⟨0, a, 2⟩, ⟨1, b, 2⟩] [] none →
      let x := (rd64 s a (lowest s)).toNat
      let inside := below s s.ch.rcb treeFuel (if b = .zero then s.ch.rcb else (rd64 s b (lowest s)).toNat)
      (inside = false → exec (.lnch st a b tok) s = .next (takeFault s { kind := 0x0E, sub := 11, addr := x, mask := activeMask s })) ∧
      (inside = true → x % 64 ≠ 0 → exec (.lnch st a b tok) s = .next (takeFault s { kind := 0x0C, addr := x, mask := activeMask s }))))

/-- CCTL: one unit in all for .wball and .invall, and otherwise one for each distinct line (R383). TLBH: .evict leaves no cached translation of the core for the pages that it names (R384). EFLT.copy and EFLT.copyclr to a global address: one
unit that stores the record in four pieces of 16 bytes, and .copyclr clears it (R391). DIGEST.step (09 R180): without a partner it clears the slots; where the partner has published the same n, equal slots let it end and clear
both sides, and until the partner has, it waits. -/
def Obligations.cachesRecordsAndDigests : Prop :=
  ∀ (st : Stall) (a : Src) (s : State), s.cv.bad = 0#32 → Ready s [⟨0, a, 2⟩] [] none →
    (∀ (op : CctlOp) (tok : Tok),
      ((op = .wball ∨ op = .invall) → tokRoom s.cv tok.toNat 1 = true →
        ∃ t u, exec (.cctl st a op tok) s = .next t ∧ u.kind = .cctl op ∧ Issued st tok [u] s t) ∧
      (∀ (s1 : State) (ps : List PSpan), op ≠ .wball → op ≠ .invall → pageChecks s false false (hintAccs s a) = .go s1 ps → s1.cv.bad = 0#32 →
        let pieces := ((ps.filter (fun p => !p.ms)).map (fun p =>
          ({ lane := p.lane, scr := false, addr := p.pa, va := p.va, n := 0, priv := p.priv, key := p.key } : Piece)))
        tokRoom s.cv tok.toNat (distinct (pieces.map lineKey)).length = true →
        ∃ t new, exec (.cctl st a op tok) s = .next t ∧ Grouped lineKey pieces new ∧ (∀ u ∈ new, u.kind = .cctl op) ∧ Issued st tok new s1 t)) ∧
    (∀ (evict : Bool) (tok : Tok), tokRoom s.cv tok.toNat (hintSpans s a).length = true →
      ∃ t new, exec (.tlbh st a evict tok) s = .next t ∧ new.length = (hintSpans s a).length ∧ (∀ u ∈ new, u.kind = .value ∧ u.writes = []) ∧
        Issued st tok new { s with tlb := t.tlb } t ∧
        (evict = true → ∀ e ∈ t.tlb, e ∈ s.tlb ∧ ∀ p ∈ hintSpans s a, e.core = some s.ch.core → e.covers p.root p.va = false)) ∧
    (∀ (clear : Bool) (tok : Tok) (s1 : State) (q : PSpan), tokRoom s.cv tok.toNat 1 = true →
      let va := rd64 s a (lowest s)
      resolve va = .glob va.toNat →
      accessChecks s true false false false false [{ lane := lowest s, ea := va.toNat, win := .glob va.toNat, n := 64 }] = .go s1 [q] → q.n = 64 → q.off = 0 → q.lane = lowest s →
      s1.cv.bad = 0#32 →
      ∃ t u c, exec (.eflt st (if clear then .copyClr a else .copy a) tok) s = .next t ∧ u.kind = .store ∧ c = { s1.ch with efault := t.ch.efault } ∧
        Issued st tok [u] { widenNoted s1 with ch := c } t ∧ (t.ch.efault = if clear then {} else s1.ch.efault) ∧
        u.pieces.map (fun p => (p.addr, p.data)) = (List.range 4).map (fun k => (q.pa + 16 * k, ((bytesOf s.ch.efault.pack.toNat 64).drop (16 * k)).take 16))) ∧
    (∀ slot : BitVec 4,
      let n := rd64 s a (lowest s)
      let own := digestOf s s.ch.rcb
      let other := digestOf s (partnerOf s s.ch.rcb)
      (partnerOf s s.ch.rcb = 0 → ∃ t, exec (.digestStep st a slot) s = .next t ∧ (digestOf t s.ch.rcb).slots = [] ∧ Passed st { s with digests := t.digests } t) ∧
      (partnerOf s s.ch.rcb ≠ 0 → partnerOf s s.ch.rcb ≠ s.ch.rcb → own.done ≠ some n →
        (other.pub = some n → other.slots = own.slots → ∃ t, exec (.digestStep st a slot) s = .next t ∧ (digestOf t s.ch.rcb).slots = [] ∧
          (digestOf t (partnerOf s s.ch.rcb)).slots = [] ∧ Passed st { s with digests := t.digests } t) ∧
        (other.pub ≠ some n → ∃ t, exec (.digestStep st a slot) s = .next t ∧ (digestOf t s.ch.rcb).pub = some n ∧ Parks (.digest n) { s with digests := t.digests } t)))

/-! Collectives -/

/-- The collective engine (06 R126; R346 to R349; 32 R502 to R504). COLL_COMMAND_START of a command whose stores are performed: a record off 64 bytes ends it with ALIGN, a bad field with the code of R346 to R349, an unknown group with GROUP; otherwise it has started, and its messages for the other members are sent.
COLL_DATA delivers a contribution: what it completes is written, and it is acknowledged; one with another tag ends the command with GROUP. COLL_ACK is noted. ATOMIC_REQUEST performs the operation on the
addressed word and answers its old value, or that it is refused. ATOMIC_RESPONSE writes the old value at dst. -/
def Obligations.collectives : Prop :=
  (∀ (k : Nat) (c : Coll) (co : Cohort) (s : State), s.colls[k]? = some c → cohortOf s c.uid = some co → c.started = false → c.after = [] → (c.acq = true → k = 0) →
    let now (t : State) (d : Coll) : Prop := t.colls = s.colls.map (fun x => if x.uid = c.uid && x.seq = c.seq then d else x)
    (c.recVa.toNat % 64 ≠ 0 →
      ∃ t, exec (.collCommandStart k) s = .next t ∧ now t { c with started := true, err := some (3, c.recVa.toNat) } ∧ t.fab.out = s.fab.out) ∧
    (∀ (bs : List Byte) (s1 : State), c.recVa.toNat % 64 = 0 → engBytes s fwCore co.root c.recVa.toNat 64 = (some (.ok bs), s1) → s1.colls = s.colls →
      let x := natOfBytes bs
      (∀ e, collFields x co.strict = some e → ∃ t, exec (.collCommandStart k) s = .next t ∧ now t { c with started := true, err := some (e, c.recVa.toNat) } ∧ t.fab.out = s1.fab.out) ∧
      (collFields x co.strict = none → (groupOf s1 (slice x 127 112)).isNone = true →
        ∃ t, exec (.collCommandStart k) s = .next t ∧ now t { c with started := true, err := some (9, c.recVa.toNat) } ∧ t.fab.out = s1.fab.out) ∧
      (∀ g, collFields x co.strict = none → groupOf s1 (slice x 127 112) = some g →
        let d : Coll := { c with started := true, fields := x, members := g.rank, rank := g.rank.idxOf s1.pkg, gtag := g.gtag }
        (collCount x = 0 → ∃ t, exec (.collCommandStart k) s = .next t ∧ now t d ∧ t.fab.out = s1.fab.out) ∧
        (∀ f w blocks s2 t, collCount x ≠ 0 → collOp x ≠ 4 → collFmt x = some f → collWire x = some w →
          contributions (putColl s1 d) fwCore co.root x g.rank.length f w = (some (.ok blocks), s2) → moveStart (putColl s1 d) d co f w = some t →
          exec (.collCommandStart k) s = .next t ∧
            ∀ p ∈ collParts x g.rank.length w blocks, p.1 ≠ d.rank → ∃ m ∈ t.fab.out, m.kind = 0x10 ∧ m.h.dst = g.rank.getD p.1 0 ∧ m.seq = p.2.1 ∧ m.data = some p.2.2)))) ∧
  (∀ (h : FabHdr) (seq : Nat) (data : List Byte) (c : Coll) (co : Cohort) (f w : Fmt) (s : State), h.dst = s.pkg → cohortOf s c.uid = some co →
    collFor s h (fun c => c.members.any (· = h.src) && !(c.got.any (fun g => g.1 = c.members.idxOf h.src && g.2.1 = seq)) && decide (collOp c.fields ≠ 4)) = some c →
    collFmt c.fields = some f → collWire c.fields = some w →
    let rank := c.members.idxOf h.src
    let c1 : Coll := { c with got := c.got ++ [(rank, seq, data)] }
    let now (u t : State) (d : Coll) : Prop := t.colls = u.colls.map (fun x => if x.uid = c.uid && x.seq = c.seq then d else x)
    (c.gtag ≠ h.tag → exec (.collData h seq data) s = .next (putColl s { c with err := some (9, c.recVa.toNat) })) ∧
    (∀ s1, c.gtag = h.tag → collReady s c1 (collDet co c.fields) f w rank seq = (none, s1) →
      ∃ t m, exec (.collData h seq data) s = .next t ∧ now s1 t c1 ∧ t.fab.out = s1.fab.out ++ [m] ∧ m.kind = 0x11 ∧ m.h.dst = h.src ∧ m.seq = seq) ∧
    (∀ ws s1 s2, c.gtag = h.tag → collReady s c1 (collDet co c.fields) f w rank seq = (some ws, s1) → engPuts s1 fwCore co.root ws = (some none, s2) →
      ∃ t m, exec (.collData h seq data) s = .next t ∧
        now s2 t { c1 with written := c.written ++ [(rank, seq)], done := c.done + (ws.map (fun e => e.2.length)).sum, err := none } ∧
        t.fab.out = s2.fab.out ++ [m] ∧ m.kind = 0x11 ∧ m.h.dst = h.src ∧ m.seq = seq)) ∧
  (∀ (h : FabHdr) (seq : Nat) (c : Coll) (s : State), h.dst = s.pkg →
    collFor s h (fun c => c.members.any (· = h.src) && c.gtag = h.tag && !(c.acks.any (· = (c.members.idxOf h.src, seq)))) = some c →
    exec (.collAck h seq) s = .next (putColl s { c with acks := c.acks ++ [(c.members.idxOf h.src, seq)] })) ∧
  (∀ (h : FabHdr) (seq : Nat) (data : List Byte) (g : Group) (op : AtomOp) (d : Fmt) (s : State), h.dst = s.pkg → groupOf s (h.line % 65536) = some g →
    atomOpOf (BitVec.ofNat 5 ((h.line / 65536) % 32)) = some op → fmtOf (BitVec.ofNat 5 ((h.line / 2 ^ 26) % 32)) = some d → (d.width = 32 ∨ d.width = 64) →
    let e := atomElem data
    let n := d.width / 8
    let answers (u t : State) (part : Nat) (old : Nat) : Prop := ∃ m, t.fab.out = u.fab.out ++ [m] ∧ m.kind = 0x13 ∧ m.h.dst = h.src ∧ m.h.src = s.pkg ∧ m.seq = seq ∧
      m.part = part ∧ m.word = BitVec.ofNat 64 old
    (g.gtag ≠ h.tag ∨ e.1 % n ≠ 0 ∨ (regionOf s g.rcb).isNone = true →
      ∃ t, exec (.atomicRequest h seq data) s = .next t ∧ answers s t 1 0 ∧ MemoryKept s t) ∧
    (∀ s1 pa key, g.gtag = h.tag → e.1 % n = 0 → (regionOf s g.rcb).isSome = true → engAddr s fwCore (effRoot s g.rcb) (BitVec.ofNat 64 e.1) true false = (some (.ok (pa, key)), s1) →
      poisonedRange s1 pa n = false → KeyedAt s1 pa n key →
      ∃ t, exec (.atomicRequest h seq data) s = .next t ∧ answers s1 t 0 (memNat s1 pa n) ∧ MemoryKeptOutside pa n s1 t ∧
        (d.width = 32 → memNat t pa 4 = (atomRule op .f32 (BitVec.ofNat 32 (memNat s1 pa 4)) (BitVec.ofNat 32 e.2.1) (BitVec.ofNat 32 e.2.2.1)).toNat) ∧
        (d.width = 64 → memNat t pa 8 = (atomRule op .f64 (BitVec.ofNat 64 (memNat s1 pa 8)) (BitVec.ofNat 64 e.2.1) (BitVec.ofNat 64 e.2.2.1)).toNat))) ∧
  (∀ (h : FabHdr) (seq : Nat) (old : DWord) (c : Coll) (co : Cohort) (s : State), h.dst = s.pkg → cohortOf s c.uid = some co →
    collFor s h (fun c => decide (collOp c.fields = 4) && c.gtag = h.tag && c.waits.any (· = seq) && c.got.any (fun g => g.2.1 = seq && c.members.getD g.1 0 = h.src)) = some c →
    (∀ x ∈ c.got, x.2.1 = seq) →
    (∀ s1, engPuts s fwCore co.root [((slice c.fields 447 384 + 8 * seq) % 2 ^ 64, bytesOf old.toNat 8)] = (some none, s1) →
      ∃ t, exec (.atomicResponse h seq old false) s = .next t ∧ t.colls = s1.colls.map (fun x => if x.uid = c.uid && x.seq = c.seq then
        { c with got := [], waits := c.waits.filter (· ≠ seq), done := c.done + 1 } else x)) ∧
    (∃ t, exec (.atomicResponse h seq old true) s = .next t ∧ MemoryKept s t ∧ t.colls = s.colls.map (fun x => if x.uid = c.uid && x.seq = c.seq then
        { c with got := [], waits := c.waits.filter (· ≠ seq), refused := some (min seq (c.refused.getD seq)) } else x)))

/-! Errors and spares -/

/-- CORRECTED_ERROR (33 R505, R507 to R509, R512): not counted while the resource's replacement is under way; otherwise counted, until n lie within the window, which declares it:
an L2 way is disabled while fewer than 8 of its slice are, a fabric lane is out, a plane of the repair record is kept, and where no spare is left service is required. UNCORRECTABLE_ERROR
poisons the line that it names, in an L2 way, HBM4 or the second tier. ARRAY_ROW_MAP_OUT, HBM_ROW_REPAIR_DONE, L2_WAY_WRITEBACK_DONE and PORT_RETRAIN_DONE end a replacement:
a spare is used, and what was poisoned stays poisoned; a plane with every port down has failed. PATROL_SCRUB poisons a line that cannot be corrected. -/
def Obligations.resourceErrors : Prop :=
  (∀ (cls index : Nat) (s : State),
    let near := (s.ras.errs.filter (fun e => e.1 = cls && e.2.1 = index && decide (s.ns ≤ e.2.2 + Config.errorWindow))).length
    let off := (s.ras.ways.filter (fun e => e.1 / 16 = index / 16)).length
    let lanes6 := (s.ras.faulty.filter (fun f => f.1 = 6)).length
    ((cls, index) ∈ s.ras.busy → exec (.correctedError cls index) s = .next s) ∧
    ((cls, index) ∉ s.ras.busy → near < Config.errorCount →
      ∃ t, exec (.correctedError cls index) s = .next t ∧ (cls, index, s.ns) ∈ t.ras.errs ∧ t = { s with ras := { s.ras with errs := t.ras.errs } }) ∧
    ((cls, index) ∉ s.ras.busy → (cls, index) ∉ s.ras.faulty → Config.errorCount ≤ near → (cls = 3 ∨ cls = 5 ∨ cls = 6) →
      ∃ t, exec (.correctedError cls index) s = .next t ∧ (cls, index) ∈ t.ras.faulty ∧ (s.ras.repair.length < 256 → (cls, index) ∈ t.ras.repair) ∧
        (cls = 3 → off < 8 → NMap.get false t.ras.ways index = true ∧ (3, index) ∈ t.ras.busy) ∧ (cls = 3 → 8 ≤ off → t.ras.service = true) ∧
        (cls = 5 → index ∈ t.fab.lanes ∧ (5, index) ∈ t.ras.busy) ∧ (cls = 6 → 4 ≤ lanes6 → t.ras.service = true))) ∧
  (∀ (cls index unit : Nat) (s : State), (cls = 3 ∨ cls = 4 ∨ cls = 7) →
    ∃ t, exec (.uncorrectableError cls index unit) s = .next t ∧ poisoned t unit = true ∧ (∀ l, l ≠ unit → poisoned t l = poisoned s l) ∧
      (cls = 7 → t = { s with poison := t.poison }) ∧
      (cls = 4 → (4, index) ∉ s.ras.busy → NMap.get 0 s.ras.banks (Config.rowBank index) < 4 →
        (4, index) ∈ t.ras.busy ∧ t = { s with poison := t.poison, ras := t.ras })) ∧
  (∀ (core row : Nat) (s : State), (1, core) ∈ s.ras.busy → (∀ c ∈ allCohorts s, c.core = core → c.mq = []) →
    ∃ t, exec (.arrayRowMapOut core row) s = .next t ∧ (1, core) ∉ t.ras.busy ∧ NMap.get 0 t.ras.arrays core = NMap.get 0 s.ras.arrays core + 1) ∧
  (∀ (row : Nat) (s : State), (4, row) ∈ s.ras.busy →
    ∃ t, exec (.hbmRowRepairDone row) s = .next t ∧ (4, row) ∉ t.ras.busy ∧ (∀ l, poisoned t l = poisoned s l) ∧
      NMap.get 0 t.ras.banks (Config.rowBank row) = NMap.get 0 s.ras.banks (Config.rowBank row) + 1) ∧
  (∀ (line : Nat) (bad : Bool) (s : State),
    ∃ t, exec (.patrolScrub line bad) s = .next t ∧ t = { s with poison := t.poison } ∧ (bad = true → poisoned t line = true) ∧
      ∀ l, (bad = false ∨ l ≠ line) → poisoned t l = poisoned s l) ∧
  (∀ (port : Nat) (s : State),
    let down (q : Nat) : Prop := ∀ half, half < 2 → ∃ l ∈ s.fab.lanes, l / 2 = 2 * q + half
    let p := Config.portPlane port
    ∃ t, exec (.portRetrainDone port) s = .next t ∧ (∀ b ∈ t.ras.busy, b ∈ s.ras.busy ∧ ¬ (b.1 = 5 ∧ b.2 / 4 = port)) ∧
      ((∀ q < 36, Config.portPlane q = p → down q) → down port → p < planes → p ∈ t.fab.failed) ∧
      (¬ down port → t = { s with ras := t.ras })) ∧
  (∀ (way : Nat) (s : State),
    ∃ t, exec (.l2WayWritebackDone way) s = .next t ∧ t = { s with ras := { s.ras with busy := t.ras.busy } } ∧ (3, way) ∉ t.ras.busy ∧
      ∀ b ∈ s.ras.busy, b ≠ (3, way) → b ∈ t.ras.busy)

/-! The fabric -/

/-- READS, READO, UPGR at the home of a line that it does not own (32 R496, R497, R499): the line's owned words are recalled, and the requester is sent S or E, or M, with the line's data but
for UPGR; but for S the line's out bit is set, and the home gives its copy up. A request of the package's own is granted at once. WBACK: the
home takes the line, clears the out bit and acknowledges. FWD: the reply to a request brings the line in the state granted; a holder supplies a line. INV and RECALL: the line is given up,
a dirty one written back, and the switch answered.
The recovery after a plane has failed (32 R492, R500, R501). CENSUS START of another package's: the plane's slices pass to the surviving planes and recover, the requests to them
are abandoned, and the lines held of them are written home and stay in S. LINE reports a line that is held or waited for, END a slice whose lines have all been reported. CLOSE: the home poisons
its lines whose out bit is set still, and the abandoned requests are issued again. FABRIC_TIMEOUT of a request marks its plane as failed, and of a group ends its command with
GROUP; CENSUS_END_TIMEOUT removes a package. -/
def Obligations.fabricCoherence : Prop :=
  (∀ (h : FabHdr) (s : State),
    let own (t : State) : Prop := 1 ≤ fcState t h.line ∧ fcState t h.line ≤ 4
    let atHome : Prop := homeOf h.line = s.pkg ∧ ¬ (2 ≤ fcState s h.line ∧ fcState s h.line ≤ 4)
    let line (t : State) : List Byte := memGet t (128 * h.line) 128
    let recalled (t : State) : Prop := ∀ p ∈ t.pstores, lineOf p.addr ≠ h.line
    let mine (q : FabReq) : Prop := q.tag = h.tag ∧ q.line = h.line
    let about (m : FabMsg) : Prop := m.h.tag = h.tag ∧ m.h.line = h.line
    let granted (i : Instr) (least : Nat) (full : Bool) : Prop :=
      ∃ t m, exec i s = .next t ∧ Sent s t m 5 ∧ m.h.dst = h.src ∧ about m ∧ m.h.state = (if least = 1 then m.h.state else 4) ∧
        (m.h.state = 1 ∨ m.h.state = 2 ∨ m.h.state = 4) ∧ m.data = (if full then some (line t) else none) ∧ (full = true → m.h.poison = poisoned t h.line) ∧
        (m.h.state ≠ 1 → outBit t h.line = true ∧ ¬ own t) ∧ (m.h.state = 1 → fcState t h.line = 1) ∧ recalled t
    (atHome → h.src ≠ s.pkg → granted (.reads h) 1 true ∧ granted (.reado h) 4 true ∧ granted (.upgr h) 4 false) ∧
    (atHome → h.src = s.pkg →
      ∃ t, exec (.reado h) s = .next t ∧ fcState t h.line = 4 ∧ outBit t h.line = true ∧ t.fab.out = s.fab.out ∧ ∀ q ∈ t.fab.reqs, ¬ mine q) ∧
    (homeOf h.line ≠ s.pkg → exec (.reads h) s = .next s ∧ exec (.reado h) s = .next s ∧ exec (.upgr h) s = .next s) ∧
    (∀ bs : List Byte, bs.length = 128 → h.src ≠ s.pkg → homeOf h.line = s.pkg → lineOf (outPlace s h.line).1 ≠ h.line →
      ∃ t m, exec (.wback h (some bs)) s = .next t ∧ Sent s t m 4 ∧ m.h.dst = h.src ∧ about m ∧ m.data = none ∧ line t = bs ∧
        poisoned t h.line = h.poison ∧ outBit t h.line = false) ∧
    (∀ data : Option (List Byte), h.src = s.pkg → homeOf h.line ≠ s.pkg → own s →
      ∃ t m, exec (.wback h data) s = .next t ∧ Sent s t m 4 ∧ m.h.dst = homeOf h.line ∧ m.h.line = h.line ∧ fcState t h.line = 0 ∧
        (3 ≤ fcState s h.line → m.data = some (line t)) ∧ recalled t) ∧
    (∀ (q : FabReq) (bs : List Byte), q ∈ s.fab.reqs → mine q → q.kind ≤ 3 → bs.length = 128 → 1 ≤ h.state →
      ∃ t, exec (.fwd h (some bs)) s = .next t ∧ fcState t h.line = h.state ∧ line t = bs ∧ poisoned t h.line = h.poison ∧ (∀ r ∈ t.fab.reqs, ¬ mine r) ∧
        MemoryKeptOutside (128 * h.line) 128 s t) ∧
    (∀ data : Option (List Byte), (∀ q ∈ s.fab.reqs, mine q → 3 < q.kind) → 2 ≤ fcState s h.line → fcState s h.line ≤ 4 →
      ∃ t m, exec (.fwd h data) s = .next t ∧ Sent s t m 5 ∧ m.h.dst = h.src ∧ about m ∧ m.h.state = h.state ∧ m.data = some (line t) ∧
        (h.state = 1 → fcState t h.line = 3) ∧ (h.state ≠ 1 → ¬ own t) ∧ recalled t) ∧
    (∃ t m, exec (.inv h) s = .next t ∧ Sent s t m 6 ∧ m.sw = true ∧ about m ∧ ¬ own t ∧ recalled t) ∧
    (∃ t m ms, exec (.recall h) s = .next t ∧ t.fab.out = s.fab.out ++ ms ++ [m] ∧ m.kind = 7 ∧ m.sw = true ∧ about m ∧ ¬ own t ∧ recalled t ∧
      (homeOf h.line ≠ s.pkg → own s → ∃ w, ms = [w] ∧ w.kind = 4 ∧ w.h.dst = homeOf h.line ∧ w.h.line = h.line ∧
        (3 ≤ fcState s h.line → w.data = some (line t))))) ∧
  ((∀ (h : FabHdr) (s : State), h.src ≠ s.pkg → h.plane < planes → h.plane ∉ s.fab.failed →
    let lost (line : Nat) : Prop := planeOf s (dirSlice line) = h.plane
    ∃ t, exec (.censusStart h) s = .next t ∧ t.fab.failed = s.fab.failed ++ [h.plane] ∧
      (∀ i < 64, planeOf s i = h.plane → i ∈ t.fab.recov ∧ (planesLeft t.fab.failed ≠ [] → planeOf t i ≠ h.plane)) ∧
      (∀ q ∈ s.fab.reqs, lost q.line → q.kind ≠ 4 → q ∈ t.fab.pend ∧ q ∉ t.fab.reqs) ∧
      (∀ l, dirSlice l < 64 → lost l → 1 ≤ fcState s l → fcState s l ≤ 4 → fcState t l = 1)) ∧
  (∀ (h : FabHdr) (s : State), dirSlice h.line ∈ s.fab.recov →
    let k := dirSlice h.line
    let waits : Prop := ∃ q ∈ s.fab.pend, q.line = h.line
    let held (l : Nat) : Prop := 1 ≤ fcState s l ∧ fcState s l ≤ 4
    (waits ∨ held h.line → reported s 1 h.line = false →
      ∃ t m, exec (.censusLine h) s = .next t ∧ Sent s t m 8 ∧ m.part = 1 ∧ m.h.line = h.line ∧ m.via = planeOf s k ∧ (waits → m.h.state = 5) ∧
        (¬ waits → m.h.state = fcState s h.line) ∧ t = { s with fab := { s.fab with out := t.fab.out } }) ∧
    ((∀ q ∈ s.fab.pend, dirSlice q.line = k → reported s 1 q.line = true) →
      (∀ e ∈ s.fab.lines, dirSlice e.1 = k → 1 ≤ e.2 → e.2 ≤ 4 → reported s 1 e.1 = true) → reported s 2 h.line = false →
      ∃ t m, exec (.censusEnd h) s = .next t ∧ Sent s t m 8 ∧ m.part = 2 ∧ dirSlice m.h.line = k ∧ m.via = planeOf s k ∧
        t = { s with fab := { s.fab with out := t.fab.out } }) ∧
    ∃ t, exec (.censusClose h) s = .next t ∧ k ∉ t.fab.recov ∧ (∀ i ∈ s.fab.recov, i ≠ k → i ∈ t.fab.recov) ∧
      (∀ l, l ∈ outLines s → dirSlice l = k → poisoned t l = true) ∧ (∀ l, (l ∉ outLines s ∨ dirSlice l ≠ k) → poisoned t l = poisoned s l) ∧
      (∀ q ∈ s.fab.pend, dirSlice q.line = k → q ∉ t.fab.pend ∧ ∃ r ∈ t.fab.reqs, r.kind = q.kind ∧ r.line = q.line) ∧ MemoryKept s t) ∧
  (∀ (tag : Word) (s : State),
    (∀ q, s.fab.reqs.find? (fun q => q.tag = tag) = some q → q.plane < planes →
      ∃ t, exec (.fabricTimeout tag) s = .next t ∧ q.plane ∈ t.fab.failed ∧ q.ns + Config.fabricTimeout ≤ t.ns) ∧
    (∀ c, (∀ q ∈ s.fab.reqs, q.tag ≠ tag) → s.colls.find? (fun c => c.started && c.err.isNone && c.gtag = tag) = some c →
      ∃ t, exec (.fabricTimeout tag) s = .next t ∧ t = { s with colls := t.colls } ∧ { c with err := some (9, c.recVa.toNat) } ∈ t.colls)) ∧
  (∀ (plane pkg : Nat) (s : State), plane ∈ s.fab.failed → pkg ∈ Config.podMembers → pkg ∉ s.fab.removed →
    exec (.censusEndTimeout plane pkg) s = .next { s with fab := { s.fab with removed := s.fab.removed ++ [pkg] } }))

/-! The host -/

/-- BAR2_READ, BAR2_WRITE and the three AtomicOps of a ready package (31 R472, R474, R477), on lines that are held under key slot 0 and wait for no coherence message. A read returns the bytes
at the window's address, all ones where no memory is populated, with EP where a line is poisoned. A write stores its bytes; each line that it touches is poisoned with EP, and no longer
poisoned where it was wholly written without. An AtomicOp replaces an aligned word in populated memory and returns the old value. Nothing else changes. Before READY reads
return all ones and writes are dropped. -/
def Obligations.hostMemory : Prop :=
  ∀ (off : Nat) (s : State),
    let pa := barPa s off
    let mem (a : Nat) : Prop := populated s a = true
    let free (n : Nat) (write : Bool) : Prop := ∀ l ∈ linesOf pa n, fcWaits s l write = false ∧ (NMap.get 0 s.ltag l = 0 ∨ homeOf l ≠ s.pkg)
    let replies (t : State) (bs : List Byte) (ep : Bool) : Prop := t.regs = { s.regs with replies := s.regs.replies ++ [(off, bs, ep)] }
    (∀ n, hostReady s = true → 0 < n → off + n ≤ 0x1000000000 → free n false →
      ∃ t, exec (.bar2Read off n) s = .next t ∧ t = { s with regs := t.regs } ∧
        replies t ((List.range n).map (fun i => if populated s (pa + i) then memByte s (pa + i) else 0xFF#8))
          (decide (∃ l ∈ linesOf pa n, mem (128 * l) ∧ poisoned s l = true))) ∧
    (∀ n, hostReady s = false → exec (.bar2Read off n) s = .next { s with regs := { s.regs with replies := s.regs.replies ++ [(off, List.replicate n 0xFF#8, false)] } }) ∧
    (∀ (bs : List Byte) (ep : Bool), hostReady s = true → 0 < bs.length → off + bs.length ≤ 0x1000000000 → free bs.length true →
      (∀ i < bs.length, mem (pa + i) ∧ hostLocked (pa + i) = false) →
      ∃ t, exec (.bar2Write off bs ep) s = .next t ∧ (∀ i < bs.length, memByte t (pa + i) = bs.getD i 0#8) ∧ MemoryKeptOutside pa bs.length s t ∧
        (∀ l ∈ linesOf pa bs.length, poisoned t l = (ep || (poisoned s l && !(decide (pa ≤ 128 * l ∧ 128 * l + 128 ≤ pa + bs.length))))) ∧
        (∀ l, l ∉ linesOf pa bs.length → poisoned t l = poisoned s l) ∧ t.cv = s.cv ∧ t.ch = s.ch ∧ t.regs = s.regs) ∧
    (∀ (bs : List Byte) (ep : Bool), hostReady s = false → exec (.bar2Write off bs ep) s = .next s) ∧
    (∀ (wide : Bool) (x y : DWord),
      let n := if wide then 8 else 4
      let old := memNat s pa n
      let becomes (i : Instr) (new : Nat) : Prop :=
        ∃ t, exec i s = .next t ∧ replies t (bytesOf old n) false ∧ memNat t pa n = new ∧ MemoryKeptOutside pa n s t ∧ t.cv = s.cv ∧ t.ch = s.ch
      (hostReady s = true → off + n ≤ 0x1000000000 → off % n = 0 → mem pa → hostLocked pa = false → free n true → poisonedRange s pa n = false →
        becomes (.atomicopFetchadd off wide x) ((old + x.toNat) % 2 ^ (8 * n)) ∧ becomes (.atomicopSwap off wide x) (x.toNat % 2 ^ (8 * n)) ∧
        becomes (.atomicopCas off wide x y) (if old = x.toNat % 2 ^ (8 * n) then y.toNat % 2 ^ (8 * n) else old)) ∧
      (hostReady s = false ∨ off % n ≠ 0 →
        ∃ t, exec (.atomicopSwap off wide x) s = .next t ∧ t = { s with regs := t.regs } ∧ replies t (List.replicate n 0xFF#8) false))

/-- REGISTER_WRITE of a ready package (31 R474 to R488): a register that holds what is written reads as written, and no other register changes; while the mailbox or the key channel is busy their
fields keep their values. A doorbell sets the mailbox busy and clears its status. QUEUE_NOTIFY joins the notification FIFO while it has fewer than 256 entries.
NOTIFY_LINK takes the oldest: it is refused where its record is misaligned or its region unknown, and otherwise linked at the tail of its region's queue. The base and size of the event log change
only while it is empty, and to legal values. -/
def Obligations.hostRegisters : Prop :=
  ∀ s : State, hostReady s = true →
    let holds (o : Nat) : Prop := o = 0x1008 ∨ (0x2020 ≤ o ∧ o < 0x2040) ∨ ((o = 0x3008 ∨ o = 0x3010) ∧ s.regs.busy = false) ∨
      (0x6100 ≤ o ∧ o < 0x6200 ∧ s.regs.keyBusy = false) ∨ (0x7008 ≤ o ∧ o < 0x7088)
    let others (o : Nat) (t : State) : Prop := (∀ r, r ≠ o → r % 8 = 0 → bar0Read t r = bar0Read s r) ∧ t = { s with regs := t.regs }
    (∀ (o : Nat) (x : DWord), o % 8 = 0 → holds o → ∃ t, exec (.registerWrite o x) s = .next t ∧ bar0Read t o = x ∧ others o t) ∧
    (∀ x, ∃ t, exec (.registerWrite 0x5008 x) s = .next t ∧ bar0Read t 0x5008 = x &&& 0x3F000000000#64 ∧ others 0x5008 t) ∧
    (∀ (o : Nat) (x : DWord), ((o = 0x3008 ∨ o = 0x3010 ∨ o = 0x3020) ∧ s.regs.busy = true) ∨ (0x6100 ≤ o ∧ o < 0x6200 ∧ s.regs.keyBusy = true) →
      exec (.registerWrite o x) s = .next s) ∧
    (∀ x, s.regs.busy = false → s.regs.service.toNat ≤ 6 →
      exec (.registerWrite 0x3020 x) s = .next { s with regs := { s.regs with busy := true, status := 0#64 } }) ∧
    (∀ r b : DWord, (s.regs.fifo.length < 256 → exec (.queueNotify r b) s = .next { s with regs := { s.regs with rec_ := r, rcb := b, fifo := s.regs.fifo ++ [(r, b)] } }) ∧
      (256 ≤ s.regs.fifo.length → exec (.queueNotify r b) s = .next s)) ∧
    (∀ (r b : DWord) (rest : List (DWord × DWord)), s.regs.fifo = (r, b) :: rest →
      let s1 : State := { s with regs := { s.regs with fifo := rest, accepted := s.regs.accepted + 1#64 } }
      let refused (k : Nat) : Prop := ∃ t e, exec .notifyLink s = .next t ∧ Logged e s1 t ∧ EventIs e s.ns b.toNat 1 k
      (r.toNat % 64 ≠ 0 → refused 5) ∧ (r.toNat % 64 = 0 → regionOf s b.toNat = none → refused 4) ∧
      (∀ (s2 : State) (pa key : Nat), r.toNat % 64 = 0 → (regionOf s b.toNat).isSome = true → linkRetry s b.toNat r.toNat = false →
        engAddr s1 fwCore (effRoot s b.toNat) (BitVec.ofNat 64 (r.toNat + 56)) true true = (some (.ok (pa, key)), s2) → KeyedAt s2 pa 8 key →
        KeyedAt s2 (b.toNat + 216) 16 0 → (pa + 8 ≤ b.toNat + 216 ∨ b.toNat + 232 ≤ pa) → rcbFld s2 b.toNat 1791 1728 = 0 →
        ∃ t, exec .notifyLink s = .next t ∧ t.regs = s1.regs ∧ rcbFld t b.toNat 1791 1728 = r.toNat ∧ rcbFld t b.toNat 1855 1792 = r.toNat ∧ memNat t pa 8 = 0)) ∧
    (∀ (size : Bool) (x : DWord),
      let legal : Prop := if size then x.toNat ∈ [64, 128, 256, 512, 1024, 2048, 4096, 8192, 16384, 32768, 65536] else x.toNat % 4096 = 0
      (s.regs.logHead = s.regs.logTail → legal →
        exec (.eventLogConfigWrite size x) s = .next { s with regs := if size then { s.regs with logSize := x } else { s.regs with logBase := x } }) ∧
      (s.regs.logHead ≠ s.regs.logTail ∨ ¬ legal → exec (.eventLogConfigWrite size x) s = .next s)) ∧
    (∀ x, exec (.eventLogTailWrite x) s = .next { s with regs := { s.regs with logTail := x } })

/-- PACKAGE_RESET and FUNCTION_LEVEL_RESET (31 R472, R482; 30 R471; 33 R509): nothing is bound, held or loaded, every register of the host link holds 0, the boot state is ROM with empty
measurements, and the repair record is kept but for declarations of the package. TAMGAL_READY (31 R482, R483; 30 R470; 32 R493): with image slot A, or failing it slot B, that
passes its checks, the boot comes to READY with its measurements, key slot 0 is loaded, and no line of the package is out; with neither it fails with the
error of slot B. -/
def Obligations.resetsAndBoot : Prop :=
  (∀ (i : Instr) (s : State), i = .packageReset ∨ i = .functionLevelReset →
    ∃ t, exec i s = .next t ∧ t.focus = false ∧ t.others = [] ∧ t.parked = [] ∧ t.regions = [] ∧ t.launches = [] ∧ t.tlb = [] ∧ t.l1 = [] ∧ t.pstores = [] ∧
      (∀ k, keyLoaded t k = false) ∧ t.regs = State.reset.regs ∧ t.boot.state_ = 0 ∧ t.boot.error = 0 ∧ t.boot.m = [0#512, 0#512, 0#512, 0#512] ∧
      (∀ r, r ∈ t.ras.repair ↔ r ∈ s.ras.repair ∧ r.1 ≠ 8) ∧ t.pkg = s.pkg) ∧
  (∀ s : State,
    (s.boot.state_ ≠ 0 → exec .tamgalReady s = .next s) ∧
    (∀ b, s.boot.state_ = 0 → slotError b = 0 → (b = true → slotError false ≠ 0) → powerOk Config.powerRecord = true → planesOk = true →
      ∃ t, exec .tamgalReady s = .next t ∧ t.boot.state_ = 3 ∧ t.boot.slotB = b ∧ t.boot.image = Config.imageVersion b ∧ t.boot.m = measure b ∧
        keyLoaded t 0 = true ∧ t.regs.keyNonce = 0#64 ∧ (∀ l, outBit t l = false) ∧ t.regs.msix = s.regs.msix ++ [0, 0, 0]) ∧
    (s.boot.state_ = 0 → slotError false ≠ 0 → slotError true ≠ 0 →
      ∃ t, exec .tamgalReady s = .next t ∧ t.boot.state_ = 4 ∧ t.boot.error = slotError true ∧ t.keys = s.keys))

/-- KEY_LOAD, KEY_CLEAR and KEY_CLEAR_DONE (30 R471; 31 R487, R488): a request that fails its signature or nonce ends with status 1 or 2 and leaves keys and nonce alone; one that passes moves the nonce on.
A load into a slot that is not loaded loads the key sent, and into a loaded slot ends with status 3; a clear of a loaded slot makes it CLEARING, and one of an empty slot ends with status 0; once the slot's lines are written
back it is EMPTY and zero, no line of the package is held under it, and the request ends. ATTEST_REPORT and ATTEST_EXTEND (31 R485, R486): the report register takes the report
and its signature; M3 alone is extended. Each ends with vector 3. -/
def Obligations.keysAndAttestation : Prop :=
  ∀ s : State,
    let q := s.regs.keyReq
    let k := keySlotNo q
    let slot : KeySlot := NMap.get {} s.keys k
    let ended (t : State) (status nonce : Nat) : Prop :=
      t.regs = { s.regs with keyBusy := false, keyClear := none, keyStat := BitVec.ofNat 64 (2 ^ 63 + status), keyNonce := s.regs.keyNonce + BitVec.ofNat 64 nonce
                             msix := s.regs.msix ++ [3] }
    let running : Prop := s.regs.keyBusy = true ∧ s.regs.keyClear = none ∧ slot.st ≠ .clearing
    (∀ i, running → ((i = .keyLoad ∧ keyOp q ≠ 1) ∨ (i = .keyClear ∧ keyOp q = 1)) → ∀ e, keyAuth s = some e →
      ∃ t, exec i s = .next t ∧ ended t e 0 ∧ t = { s with regs := t.regs }) ∧
    (running → keyOp q ≠ 1 → keyAuth s = none →
      (keyFieldsOk s = true → slot.st ≠ .loaded →
        ∃ t, exec .keyLoad s = .next t ∧ ended t 0 1 ∧ keyLoaded t k = true ∧ t = { s with regs := t.regs, keys := t.keys } ∧
          (NMap.get {} t.keys k).key = BitVec.ofNat 512 (natOfBytes (List.zipWith (· ^^^ ·) (((bvBytes q).drop 16).take 64)
            (shake256 (Config.sharedSecret s.boot.boots ++ (bvBytes q).take 16) 64))) ∧
          ∀ j, j ≠ k → NMap.get {} t.keys j = NMap.get {} s.keys j) ∧
      (keyFieldsOk s = false ∨ slot.st = .loaded → ∃ t, exec .keyLoad s = .next t ∧ ended t 3 1 ∧ t = { s with regs := t.regs })) ∧
    (running → keyOp q = 1 → keyAuth s = none →
      (keyFieldsOk s = true → slot.st = .loaded →
        ∃ t, exec .keyClear s = .next t ∧ (NMap.get {} t.keys k).st = .clearing ∧ keyLoaded t k = false ∧ t = { s with regs := t.regs, keys := t.keys } ∧
          t.regs = { s.regs with keyNonce := s.regs.keyNonce + 1#64, keyClear := some k }) ∧
      (keyFieldsOk s = true → slot.st = .empty → ∃ t, exec .keyClear s = .next t ∧ ended t 0 1 ∧ t = { s with regs := t.regs }) ∧
      (keyFieldsOk s = false → ∃ t, exec .keyClear s = .next t ∧ ended t 3 1 ∧ t = { s with regs := t.regs })) ∧
    (∀ n, (NMap.get {} s.keys n).st = .clearing → n ≠ 0 →
      ∃ t, exec (.keyClearDone n) s = .next t ∧ NMap.get {} t.keys n = ({} : KeySlot) ∧ (∀ j, j ≠ n → NMap.get {} t.keys j = NMap.get {} s.keys j) ∧
        (∀ l, homeOf l = s.pkg → NMap.get 0 t.ltag l ≠ n) ∧ (s.regs.keyClear = some n → ended t 0 0) ∧ (s.regs.keyClear ≠ some n → t.regs = s.regs)) ∧
    (s.regs.attBusy = true → s.regs.attCmd = 1#64 →
      ∃ t, exec .attestReport s = .next t ∧ t = { s with regs := t.regs } ∧
        t.regs = { s.regs with attBusy := false, attStat := 0x8000000000000000#64, msix := s.regs.msix ++ [3]
                               report := BitVec.ofNat 5120 (natOfBytes (reportBody s ++ fitBytes 128 ((Config.ed448Sign (reportBody s)).take 114))) }) ∧
    (s.regs.attBusy = true → s.regs.attCmd = 2#64 →
      ∃ t, exec .attestExtend s = .next t ∧ t = { s with regs := t.regs, boot := { s.boot with m := t.boot.m } } ∧
        t.regs = { s.regs with attBusy := false, attStat := 0x8000000000000000#64, msix := s.regs.msix ++ [3] } ∧
        (∀ j, j ≠ 3 → t.boot.m[j]? = s.boot.m[j]?) ∧ (∀ m, s.boot.m[3]? = some m → t.boot.m[3]? = some (extendMeasure m (bvBytes s.regs.attExt))))

/-- PAGE_WALK (30 R459, R464): a walk that finds a leaf caches it for its core; one that meets a retryable entry is stalled, and WALK_RETRY_TIMER makes it again. INVPAGE, INVSPACE and INVALL (30 R464, R466, R467):
while an access that used what they remove is outstanding they wait; then no cached translation of the range is left, but what stalled walks of the range find again, and the completion word is written. MIGRATE (30 R468) copies its frames under the
key slot, poison with them. A command that breaks a limit completes as failed. -/
def Obligations.translationCommands : Prop :=
  (∀ (core root va : Nat) (s : State),
    let r := BitVec.ofNat 64 root
    let w : StalledWalk := { core := core, root := r, va := va }
    (∀ pte level pa, tlbLookup s core r va = none → walk s r va = .ok pte level pa → fcWaits s (lineOf (leafPa pte level va)) (pte.getLsbD 2) = false →
      ∃ t, exec (.pageWalk core root va) s = .next t ∧ t = { s with tlb := t.tlb } ∧ ∃ e ∈ t.tlb, e.core = some core ∧ e.covers r va = true ∧ e.pte = pte ∧ e.level = level) ∧
    (tlbLookup s core r va = none → walk s r va = .retry → ∃ t, exec (.pageWalk core root va) s = .next t ∧ w ∈ t.walks ∧ t = { s with walks := t.walks, fab := t.fab }) ∧
    (w ∈ s.walks → ∀ pte level pa, walk s r va = .ok pte level pa →
      ∃ t, exec (.walkRetryTimer core root va) s = .next t ∧ w ∉ t.walks ∧ ∀ v ∈ s.walks, v ≠ w → v ∈ t.walks) ∧
    (w ∈ s.walks → tlbLookup s core r va = none → walk s r va = .retry → exec (.walkRetryTimer core root va) s = .next s)) ∧
  (∀ (c : BitVec 256) (i : Instr) (s : State), hostReady s = true →
    ((tcKind c = 0 ∧ i = .invpage c) ∨ (tcKind c = 1 ∧ i = .invspace c) ∨ (tcKind c = 2 ∧ i = .invall c)) →
    let roots (r : DWord) : Bool := tcKind c = 2 || decide (r = BitVec.ofNat 64 (tcA c))
    let lo := if tcKind c = 0 then tcB c else 0
    let hi := if tcKind c = 0 then tcB c + 4096 * tcCount c else 2 ^ 64
    let hits (e : TlbEntry) : Prop :=
      roots e.root = true ∧ e.vpage * 2 ^ leafShift e.pte e.level < hi ∧ lo < (e.vpage + 1) * 2 ^ leafShift e.pte e.level
    let done := accessesDone s roots (fun va n => decide (va < hi) && decide (lo < va + n))
    (tcOk s c = true → done = false → exec i s = .next s) ∧
    (tcOk s c = true → done = true → (∀ w ∈ s.walks, ¬ (roots w.root = true ∧ lo ≤ w.va ∧ w.va < hi)) →
      ∃ t, exec i s = .next t ∧ (∀ e, e ∈ t.tlb ↔ e ∈ s.tlb ∧ ¬ hits e) ∧
        (∀ p ∈ t.pstores, ∀ d ∈ allCohorts s, d.uid = p.uid → roots d.root = false ∧ roots d.proot = false) ∧
        (tcDone c ≠ 0 → populated s (tcDone c) = true → memNat t (tcDone c) 8 = 2 ^ 63)) ∧
    (tcOk s c = false → tcDone c % 8 = 0 → tcDone c ≠ 0 → populated s (tcDone c) = true → KeyedAt s (tcDone c) 8 0 →
      ∃ t, exec i s = .next t ∧ memNat t (tcDone c) 8 = 2 ^ 63 + 1 ∧ MemoryKeptOutside (tcDone c) 8 s t ∧ t.tlb = s.tlb)) ∧
  (∀ (c : BitVec 256) (s : State), hostReady s = true → tcKind c = 3 → tcOk s c = true →
    let a := tcA c
    let b := tcB c
    let n := 4096 * tcCount c
    let mine (l : Nat) : Prop := (lineOf a ≤ l ∧ l < lineOf a + n / 128) ∨ (lineOf b ≤ l ∧ l < lineOf b + n / 128)
    (a + n ≤ b ∨ b + n ≤ a) → (tcDone c = 0 ∨ ((tcDone c + 8 ≤ b ∨ b + n ≤ tcDone c) ∧ KeyedAt s (tcDone c) 8 0)) →
    (∀ l, mine l → fcWaits s l false = false ∧ fcWaits s l true = false ∧ NMap.get 0 s.ltag l = tcKey c) →
    (∀ p ∈ s.pstores, ¬ mine (lineOf p.addr)) → (∀ l ∈ s.l1, l.priv = true → ¬ mine l.line) →
    ∃ t, exec (.migrate c) s = .next t ∧ (∀ j < n, memByte t (b + j) = memByte s (a + j)) ∧
      (∀ j < n / 128, poisoned t (lineOf b + j) = poisoned s (lineOf a + j)) ∧
      (∀ y, ¬ (b ≤ y ∧ y < b + n) → ¬ (tcDone c ≤ y ∧ y < tcDone c + 8) → memByte t y = memByte s y))

/-! The firmware -/

/-- The services (28 R440; 20 R387; 31 R479), asked for by SCALL, whose release is performed, or through the mailbox. VERSION gives the version; YIELDQ ends the quantum; SLEEP keeps the cohort unbound for
the time at its argument; LOG logs a USER event; REGIONUPD reads a region's fields; HALT sets the region's flag and evicts its subtree; KILL
kills it. A request that its caller may not make, or whose argument cannot be read, ends with PROTECTION. SCALL_STATUS_DELIVERY writes the status to d, as an acquire. SLEEP_EXPIRY makes a sleeping
cohort ready. -/
def Obligations.services : Prop :=
  (∀ (k : Nat) (r : Scall) (n : Nat) (s : State), Asked s k r n →
    let s0 := scallRelease s r
    let done (i : Instr) (x : Nat) (base : State) : Prop := ∃ t, exec i s = .next t ∧ Answered r.no x base t
    (n = 0 → done (.version (some k)) Config.tamgalVersion.toNat s0) ∧
    (n = 1 → ∃ t, exec (.yieldq (some k)) s = .next t ∧ (∀ c, boundOf t r.uid = some c → c.yielded_ = true) ∧ t.scalls = (giveStatus s0 r.no 0).scalls ∧
      MemoryKept s0 t) ∧
    (n = 2 → ∀ bs s1, readBytesAt s0 fwCore r.root r.arg.toNat 8 = (some (some bs), s1) →
      let wake := s1.ns + natOfBytes bs
      (boundOf s1 r.uid = none → done (.sleep (some k)) 0 { s1 with
        parked := s1.parked.map (fun p => if p.co.uid = r.uid && p.why = .ready then { p with why := .sleeping wake } else p) }) ∧
      (∀ c, boundOf s1 r.uid = some c → (NMap.get 0#256 s1.slotTab (16 * c.core + c.slot)).extractLsb' 0 2 = 2#2 →
        ∃ t, exec (.sleep (some k)) s = .next t ∧ (∀ d, boundOf t r.uid = some d → d.evict = true ∧ d.sleepTo = some wake) ∧
          (NMap.get 0#256 t.slotTab (16 * c.core + c.slot)).extractLsb' 0 2 = 3#2)) ∧
    (n = 2 → ∀ s1, readBytesAt s0 fwCore r.root r.arg.toNat 8 = (some none, s1) → done (.sleep (some k)) 1 s1) ∧
    (n = 3 → ∀ bs s1, readBytesAt s0 fwCore r.root r.arg.toNat 64 = (some (some bs), s1) →
      ∃ e u, EventIs e s1.ns r.rcb 6 (e.extractLsb' 368 8).toNat ∧ e.extractLsb' 0 376 = BitVec.ofNat 376 (natOfBytes bs) ∧ Logged e s1 u ∧ done (.log (some k)) 0 u) ∧
    (n = 4 →
      let a := r.arg.toNat
      let p := rcbFld s0 a 2047 1984
      let inside : Prop := (if (regionOf s0 a).isSome then below s0 r.rcb treeFuel a else (regionOf s0 p).isSome && below s0 r.rcb treeFuel p) = true
      (rcbReadable s0 a = true ∧ inside → done (.regionupd (some k)) 0 (updateRegion s0 a)) ∧
      (¬ (rcbReadable s0 a = true ∧ inside) → done (.regionupd (some k)) 1 s0)) ∧
    (n = 5 → done (.halt (some k)) 1 s0) ∧ (n = 6 → done (.kill (some k)) 1 s0)) ∧
  (∀ (n : Nat) (s : State), Mailed s n →
    let a := s.regs.arg.toNat
    let done (i : Instr) (x : Nat) (base : State) : Prop := ∃ t, exec i s = .next t ∧ MailAnswered x base t
    (n = 0 → done (.version none) Config.tamgalVersion.toNat s) ∧ (n = 1 → done (.yieldq none) 1 s) ∧ (n = 2 → done (.sleep none) 1 s) ∧
    (n = 3 → physReadable s a 64 = false → done (.log none) 1 s) ∧
    (n = 3 → physReadable s a 64 = true →
      ∃ e u, EventIs e s.ns 0 6 (e.extractLsb' 368 8).toNat ∧ e.extractLsb' 0 376 = BitVec.ofNat 376 (memNat s a 64) ∧ Logged e s u ∧ done (.log none) 0 u) ∧
    (n = 4 → rcbReadable s a = true → (∀ p ∈ s.parked, ¬ (p.co.rcb = a ∧ p.why = .stopped)) →
      ∃ t g, exec (.regionupd none) s = .next t ∧ regionOf t a = some g ∧ g.parent = rcbFld s a 2047 1984 ∧ g.ptroot = BitVec.ofNat 64 (rcbFld s a 1727 1664) ∧
        g.rpool = rcbFld s a 1407 1344 ∧ g.sva = rcbFld s a 1279 1216 ∧ t.regs.busy = false) ∧
    (n = 4 → rcbReadable s a = false → done (.regionupd none) 1 s) ∧
    (n = 5 → (regionOf s a).isSome = true →
      ∃ t, exec (.halt none) s = .next t ∧ rcbBit t a 768 = true ∧ t.regs.busy = false ∧
        ∀ c ∈ allCohorts s, below s a treeFuel c.rcb = true → (NMap.get 0#256 s.slotTab (16 * c.core + c.slot)).extractLsb' 0 2 = 2#2 →
          (∀ d ∈ allCohorts s, 16 * d.core + d.slot = 16 * c.core + c.slot → d = c) → ∀ d, boundOf t c.uid = some d → d.evict = true) ∧
    (n = 6 → (regionOf s a).isSome = true →
      ∃ t, exec (.kill none) s = .next t ∧ t.regs.busy = false ∧ (∀ c ∈ allCohorts t, below t a treeFuel c.rcb = true → c.dying = true) ∧
        ∀ b ∈ t.binds, below t a treeFuel b.co.rcb = false) ∧
    ((n = 5 ∨ n = 6) → regionOf s a = none → done (if n = 5 then .halt none else .kill none) 1 s)) ∧
  (∀ (k : Nat) (r : Scall) (x : Word) (u : Pending) (s : State), s.scalls[k]? = some r → r.status = some x → s.focus = true → r.uid = s.ch.uid → r.convoy = s.cv.id →
    s.cv.units.find? (fun v => v.seq = r.unit) = some u →
    ∃ t, exec (.scallStatusDelivery k) s = .next t ∧ t.scalls = s.scalls.eraseIdx k ∧ UnitGone s t u ∧ (∀ a, copyByte t s.ch.core a = none) ∧ MemoryKept s t ∧
      (∀ e ∈ u.writes, realLoc e.1 → (∀ j y, e.1 ≠ .pred j y) → (getLoc t.cv e.1).lo = x) ∧
      ∀ l, realLoc l → (∀ e ∈ u.writes, e.1 ≠ l) → getLoc t.cv l = getLoc s.cv l) ∧
  (∀ (uid : Nat) (s : State),
    ∃ t, exec (.sleepExpiry uid) s = .next t ∧ t = { s with parked := t.parked } ∧
      (∀ p ∈ s.parked, p.co.uid = uid → ∀ until_, p.why = .sleeping until_ → until_ ≤ s.ns → { p with why := .ready, since := s.ns } ∈ t.parked) ∧
      (∀ p ∈ s.parked, (p.co.uid ≠ uid ∨ ∀ until_, p.why = .sleeping until_ → s.ns < until_) → p ∈ t.parked))

/-- SLOT_BIND (28 R428 to R431): a BIND that fails a check leaves the slot FREE and posts REJECTED with the check's number; one that passes creates the launch's cohort, each convoy with its role and
granules and every thread at the entry, or restores the parked cohort, in state RUN, after an acquire. SLOT_EVICT: a slot in RUN is in EVICT. EVICT_COMPLETE: the
cohort is saved and ready, or sleeps, or stays stopped, its slot is FREE and an entry is posted. SLOT_GROW_GRANT: the context block is at its new place with its header and records. BIND_RECORD_OTHER_WRITE posts REJECTED.
COMPLETION_RING_READ takes a die's oldest entries; the buffer of a SPAWN entry has been seen. -/
def Obligations.slotChanges : Prop :=
  ∀ (r : SlotRef) (s : State),
    let u := unfocus s
    let here (c : Cohort) : Prop := u.others.find? (fun d => d.core = r.core && d.slot = r.slot) = some c
    let kept (t : State) : Prop := ∀ k, k ≠ 16 * r.core + r.slot → NMap.get 0#256 t.slotTab k = NMap.get 0#256 s.slotTab k
    (∀ b, s.binds.find? (fun b => b.core = r.core && b.slot = r.slot) = some b →
      (∀ k, bindFault s b = some k → ringRoom s (dieOf b.core) = true →
        ∃ t, exec (.slotBind r) s = .next t ∧ slotSt t b.core b.slot = 0#2 ∧ t.binds = s.binds.erase b ∧
          t.ring = s.ring ++ [(dieOf b.core, ringEntry b.co.gen b.co.linear b.core b.slot 4 (BitVec.ofNat 32 k))] ∧ MemoryKept s t) ∧
      (∀ k, bindFault s b = some k → ringRoom s (dieOf b.core) = false → exec (.slotBind r) s = .next s) ∧
      (bindFault s b = none → (∀ d ∈ u.others, ¬ (d.core = b.co.core ∧ d.slot = b.co.slot)) →
        (∀ no id, b.src = .launch no id → b.co.payloads = [] → 0 < b.co.desc.convoys →
          ∃ t c, exec (.slotBind r) s = .next t ∧ c ∈ allCohorts t ∧ c.uid = b.co.uid ∧ c.core = b.co.core ∧ c.slot = b.co.slot ∧
            c.convoys.map (·.id) = List.range b.co.desc.convoys ∧
            (∀ v ∈ c.convoys, v.live = 0xFFFFFFFF#32 ∧ v.role = roleOf b.co.desc v.id ∧ v.budget = granulesOf b.co.desc v.id ∧ v.main = [] ∧
              ∃ e, v.fr = [e] ∧ e.pc = b.co.desc.entry ∧ e.mask = 0xFFFFFFFF#32 ∧ e.wait = none) ∧
            slotSt t b.core b.slot = 2#2 ∧ t.binds = s.binds.erase b ∧ ∀ a, copyByte t b.core a = none) ∧
        (∀ uid, b.src = .parked uid →
          ∃ t c, exec (.slotBind r) s = .next t ∧ c ∈ allCohorts t ∧ c.uid = b.co.uid ∧ c.core = b.co.core ∧ c.slot = b.co.slot ∧ slotSt t b.core b.slot = 2#2 ∧
            (∀ p ∈ t.parked, p.co.uid ≠ uid) ∧ ∀ a, copyByte t b.core a = none))) ∧
    (slotSt s r.core r.slot ≠ 2#2 → exec (.slotEvict r) s = .next s) ∧
    (∀ c, here c → slotSt s r.core r.slot = 2#2 →
      ∃ t, exec (.slotEvict r) s = .next t ∧ slotSt t r.core r.slot = 3#2 ∧ kept t ∧ (∀ d ∈ allCohorts t, d.uid = c.uid → d.evict = true) ∧ MemoryKept s t) ∧
    (∀ c, here c → (c.evict = true ∨ c.stopping = true) → (c.faulting = true → c.stopping = true) → (c.stopping = true → c.action ≠ 4) → canSave u c = true →
      ∃ t p, exec (.evictComplete r) s = .next t ∧ (∀ d ∈ allCohorts t, d.uid ≠ c.uid) ∧ slotSt t r.core r.slot = 0#2 ∧ kept t ∧
        (dieOf c.core, ringEntry c.gen c.linear c.core c.slot (if c.stopping then 2 else 1) 0#32) ∈ t.ring ∧ p ∈ t.parked ∧ p.co.uid = c.uid ∧ p.since = s.ns ∧
        p.co.convoys.map (fun v => (v.id, v.main, v.preds, v.live)) = c.convoys.map (fun v => (v.id, v.main, v.preds, v.live)) ∧
        (c.stopping = true → p.why = .stopped) ∧ (c.stopping = false → c.sleepTo = none → p.why = .ready) ∧
        (∀ w, c.stopping = false → c.sleepTo = some w → p.why = .sleeping w)) ∧
    (∀ (c : Cohort) (n ctx : Nat), here c → c.growWant = some n →
      let g := poolRegion u c.rcb
      let start := (ctx - g.spool) / 4096
      g.spool ≤ ctx → (ctx - g.spool) % 4096 = 0 → start + n ≤ g.ssize →
      (∀ a ∈ allocsOf s g.rcb 2, a.start + a.len ≤ start ∨ start + n ≤ a.start) →
      ∃ t, exec (.slotGrowGrant r ctx) s = .next t ∧ memGet t ctx 384 = memGet s c.ctx 384 ∧
        (∀ d ∈ allCohorts t, d.uid = c.uid → d.ctx = ctx ∧ d.ctxPages = n ∧ d.ckey = g.skey ∧ d.growWant = none ∧ d.grown = true) ∧
        (NMap.get 0#256 t.slotTab (16 * r.core + r.slot)).extractLsb' 216 40 = BitVec.ofNat 40 (ctx / 4096) ∧ slotSt t r.core r.slot = slotSt s r.core r.slot ∧ kept t) ∧
    (∀ st : BitVec 2, let now := slotSt s r.core r.slot
      let legal : Prop := st = now ∨ (now = 0#2 ∧ st = 1#2) ∨ (now = 2#2 ∧ st = 3#2)
      (legal → exec (.bindRecordOtherWrite r st) s = .next s) ∧
      (¬ legal → ringRoom s (dieOf r.core) = true →
        ∃ t e, exec (.bindRecordOtherWrite r st) s = .next t ∧ t = { s with ring := s.ring ++ [(dieOf r.core, e)] } ∧ e.extractLsb' 32 3 = 4#3 ∧ e.extractLsb' 0 32 = 4#32)) ∧
    (∀ die n, s.ch.faulting = false → (∀ c ∈ allCohorts s, c.dying = false ∧ c.faulting = false) → (∀ x ∈ s.spawnqs, x.want = false) →
      ∃ t, exec (.completionRingRead die n) s = .next t ∧ t.ring.filter (fun e => e.1 = die) = (s.ring.filter (fun e => e.1 = die)).drop n ∧
        (∀ d, d ≠ die → t.ring.filter (fun e => e.1 = d) = s.ring.filter (fun e => e.1 = d)) ∧ MemoryKept s t ∧
        ∀ e ∈ (s.ring.filter (fun e => e.1 = die)).take n, e.2.extractLsb' 32 3 = 5#3 →
          ∀ x ∈ t.spawnqs, x.core = (e.2.extractLsb' 39 9).toNat → x.q = (e.2.extractLsb' 0 3).toNat →
            ∀ b, (if e.2.getLsbD 3 then x.bufB else x.bufA) = some b → b.seen = true)

/-- BIND_DECISION (28 R427, R434; 27 R423): with no cohort that may be bound nothing is bound. Otherwise the chosen one is a candidate that none precedes in the binding order, and where it fits the slot named and no core is preferred, its bind record
is written with state BIND; a cohort that has not run gets pool units and a number of its own. DEADLINE_PASSED (28 R438): one DEADLINE event for a deadline that has passed with cohorts left. QUANTUM_CHECK and
ENERGY_DEDUCTION (28 R436; 34 R519): the energy of a cohort since its last charge is deducted from its region's field; at the end of a quantum the cohort leaves where the field is used up or its
slot is wanted, and begins a new quantum otherwise.
POWER_SAMPLE (34 R516, R520, R521), at the next multiple of 100 µs: over the envelope step 2 begins, and after an action of step 2, or with nothing for it to act on, the envelope clock falls by 50 MHz at step 3, to the floor;
within the envelope no step is in force. A die at or above its hard limit runs 50 MHz slower, down to the floor, and one that has been there at its floor for 10 ms sets HALT in every region. The clock
rises by 50 MHz, to 1.3 GHz at most, once the power is 40 W below the envelope and for 1 ms no cohort has been passed over. -/
def Obligations.schedulingAndPower : Prop :=
  ((∀ (logical : Nat) (r : SlotRef) (tmask : BitVec 16) (s : State), tmask ≠ 0#16 → logical ≤ 319 → physOf s logical = r.core → r.slot ∈ freeSlots s r.core →
    let cs := bindable s logical tmask
    let i := Instr.bindDecision logical r tmask
    (cs = [] → ∃ t, exec i s = .next t ∧ t.binds = s.binds ∧ t.slotTab = s.slotTab) ∧
    (cs ≠ [] → ∃ c ∈ cs, (∀ d ∈ cs, keyLess c.key d.key = true) ∧
      (logicalOk c.co logical = true → coreFits s r.core logical tmask c.co = true → betterCore s c.co r.core tmask = false →
        let placed (t : State) (uid : Nat) (fresh : Bool) : Prop := ∃ b, t.binds = s.binds ++ [b] ∧ b.core = r.core ∧ b.slot = r.slot ∧ b.src = c.src ∧ b.co.uid = uid ∧
          BindIs (NMap.get 0#256 t.slotTab (16 * r.core + r.slot)) tmask c.co.prio c.co.linear logical fresh
        ((∃ uid, c.src = .parked uid) → ∃ t, exec i s = .next t ∧ placed t c.co.uid false) ∧
        (∀ co s1, (∀ uid, c.src ≠ .parked uid) → firstBind (decisionState s logical) c.co = some (co, s1) →
          ∃ t, exec i s = .next t ∧ placed t s.uids true ∧ t.uids = s.uids + 1)))) ∧
  (∀ (rcb : Nat) (g : Region) (s : State), regionOf s rcb = some g →
    let d := effFld s 4 rcb 1471 1408
    (effFld s 4 rcb 812 812 = 1 → d < s.ns → unretired s rcb = true → g.logged ≠ some d →
      ∃ t e, exec (.deadlinePassed rcb) s = .next t ∧ EventIs e s.ns rcb 3 0 ∧ Logged e { s with regions := t.regions } t ∧ regionOf t rcb = some { g with logged := some d }) ∧
    ((s.ns ≤ d ∨ unretired s rcb = false ∨ g.logged = some d) → exec (.deadlinePassed rcb) s = .next s)) ∧
  (∀ (r : SlotRef) (c : Cohort) (s : State), (unfocus s).others.find? (fun d => d.core = r.core && d.slot = r.slot) = some c →
    let u := unfocus s
    let o := effOwner s 2 c.rcb
    let x := levelDraw (countedLevel c) * (s.ns - c.chargeNs) + c.chargeRem
    let paid (t : State) : Prop := rcbFld t o 1535 1472 = wrapN 64 (sextN 64 (rcbFld s o 1535 1472) - (x / 1000000 : Nat)) ∧
      ∀ d ∈ allCohorts t, d.uid = c.uid → d.chargeNs = s.ns ∧ d.chargeRem = x % 1000000
    let leaves : Prop := energyOf (chargeCohort u c) c.rcb ≤ 0 ∨ wantsSlot (chargeCohort u c) c (fun _ => true) = true ∨ throttled (chargeCohort u c) c = true
    (∃ t, exec (.energyDeduction r) s = .next t ∧ paid t) ∧
    (slotSt s c.core c.slot = 2#2 → (c.yielded_ = true ∨ c.quantumNs + 10000 * c.quantum ≤ s.ns) →
      ∃ t, exec (.quantumCheck r) s = .next t ∧ paid t ∧
        (leaves → slotSt t c.core c.slot = 3#2 ∧ ∀ d ∈ allCohorts t, d.uid = c.uid → d.evict = true) ∧
        (¬ leaves → slotSt t c.core c.slot = 2#2 ∧ ∀ d ∈ allCohorts t, d.uid = c.uid → d.quantumNs = s.ns)))) ∧
  (∀ (mw : Nat) (temps : List Nat) (s : State),
    let p := s.power
    let now := (s.ns / 100000 + 1) * 100000
    let over_ : Prop := 1000 * p.envelope < mw
    let rises : Prop := mw + 40000 ≤ 1000 * p.envelope ∧ p.passed + 1000000 ≤ now
    let idle : Prop := ∀ c ∈ allCohorts s, countedLevel c < 2
    ∃ t, exec (.powerSample mw temps) s = .next t ∧ t.ns = now ∧ t.power.sample = mw ∧
      (over_ → p.step_ < 2 → t.power.step_ = 2 ∧ t.power.clock = p.clock) ∧
      (over_ → p.step_ = 2 → p.acted = false → ¬ idle → t.power.step_ = 2 ∧ t.power.clock = p.clock) ∧
      (over_ → ((p.step_ = 2 ∧ (p.acted = true ∨ idle)) ∨ p.step_ = 3) → p.floor < p.clock → t.power.step_ = 3 ∧ t.power.clock = max p.floor (p.clock - 50)) ∧
      (over_ → 2 ≤ p.step_ → (p.step_ = 2 → p.acted = true ∨ idle) → p.clock ≤ p.floor → t.power.step_ = 4 ∧ t.power.clock = p.clock) ∧
      (¬ over_ → t.power.step_ = 0 ∧ (rises → t.power.clock = min 1300 (p.clock + 50)) ∧ (¬ rises → t.power.clock = p.clock)) ∧
      (∀ d < 4, ∀ clk temp, p.dieClock[d]? = some clk → temps[d]? = some temp →
        (p.hard ≤ temp → t.power.dieClock[d]? = some (max p.floor (clk - 50))) ∧
        (temp < p.hard → t.power.dieClock[d]? = some (if rises ∧ temp + 3 ≤ p.hard then min 1300 (clk + 50) else clk)) ∧
        (∀ since, p.hard ≤ temp → clk ≤ p.floor → p.hot[d]? = some (some since) → since + 10000000 ≤ now → (∀ f ∈ s.ras.faulty, f.1 ≠ 8) →
          (8, 0) ∈ t.ras.faulty ∧ ∀ r ∈ s.regions, rcbBit t r.rcb 768 = true)))

/-- LAUNCH_TAKE and LAUNCH_END (27 R409, R415, R417, R424, R425). The record at the head of a region's queue is taken: a serial one not while the launch before it runs; one whose region or fields break a rule is refused with a
REFUSED event; otherwise the queue's head becomes the next record and a launch begins with the record's grid. A launch all of whose cohorts are accounted for ends: every store is released, the signal word takes done,
the status and the cohorts lost, and the launch is gone.
REPLAY_PASS_START (35 R526): before a pass the caches are written back and every translation is gone, the counters are set up for its events, the region's grids are linked, and the pass runs. WRITESET_CAPTURE (35 R528): in
pass 1 a page that is not captured yet is copied into the next free page of the buffer; with none free the set is full. -/
def Obligations.launchesAndReplay : Prop :=
  ((∀ (rcb : Nat) (s : State),
    let head := rcbFld s rcb 1855 1792
    (regionOf s rcb = none ∨ head = 0 → exec (.launchTake rcb) s = .next s) ∧
    (∀ (x : Nat) (s1 : State) (g : Region), regionOf s rcb = some g → head ≠ 0 → readRec s fwCore (effRoot s rcb) head 64 = (some x, false, s1) →
      let r := launchRec x
      let s2 := rcbPut s1 rcb 1855 1792 r.next
      (r.serial = true → lastRuns s1 rcb = true → exec (.launchTake rcb) s = .next s) ∧
      (r.next ≠ 0 → r.serial = false → s.session = none →
        rcbFld s2 rcb 1855 1792 = r.next ∧
        (∀ k, r.signal = 0 → ((regionOk s2 rcb = false ∧ k = 4) ∨ (regionOk s2 rcb = true ∧ r.ok = false ∧ k = 5)) →
          ∃ t e v, exec (.launchTake rcb) s = .next t ∧ Logged e s2 v ∧ EventIs e s.ns rcb 1 k ∧ t = { v with regions := t.regions } ∧ t.launches = s.launches) ∧
        (∀ (y : Nat) (s3 : State), regionOk s2 rcb = true → r.ok = true → r.dep = 0 → readRec s2 fwCore (effRoot s rcb) r.kdesc 64 = (some y, false, s3) →
          descOk y = true → tapeFits (descOf y) = true → poolShort (poolRegion s3 rcb) (descOf y) = false →
          ∃ t l, exec (.launchTake rcb) s = .next t ∧ t.launches = s3.launches ++ [l] ∧ t.nlaunch = s3.nlaunch + 1 ∧ l.no = s3.nlaunch + 1 ∧ l.rcb = rcb ∧
            l.rec_ = head ∧ l.desc = descOf y ∧ l.arg = BitVec.ofNat 64 r.arg ∧ l.cbank = r.cbank ∧ l.signal = BitVec.ofNat 64 r.signal ∧ l.ended = 0 ∧ l.base = 0 ∧
            l.taken = [] ∧ (r.job = false → l.grid = r.grid ∧ l.count = r.grid.1 * r.grid.2.1 * r.grid.2.2) ∧
            (∃ g', regionOf t rcb = some g' ∧ g'.lastLaunch = l.no) ∧ MemoryKept s3 t)))) ∧
  (∀ (l : Launch) (s : State), launchOf s l.no = some l →
    (l.ended < l.count → exec (.launchEnd l.no) s = .next s) ∧
    (l.count ≤ l.ended → passDue s l.no = false → signalRetry s (effRoot s l.rcb) l.signal = false → l.commit = false → s.session = none →
      let status := if l.aborted then 2 else if l.depfailed then 3 else if l.killed then 1 else 0
      let u := releaseOwned { s with passes := s.passes.filter (fun p => p.launch ≠ l.no) }
      ∃ t, exec (.launchEnd l.no) s = .next t ∧ t.launches = s.launches.filter (fun x => x.no ≠ l.no) ∧ t.pstores = [] ∧
        (l.signal = 0#64 → MemoryKept u t) ∧
        (∀ pa key v, l.signal ≠ 0#64 → l.signal.toNat % 64 = 0 → engAddr u fwCore (effRoot u l.rcb) l.signal true true = (some (.ok (pa, key)), v) →
          memNat t pa 8 = 2 ^ 63 + status * 2 ^ 56 + min l.lost (2 ^ 32 - 1) ∧ (KeyedAt v pa 8 key → MemoryKeptOutside pa 8 v t))))) ∧
  ((∀ (x : Session) (s : State), s.session = some x →
    (x.running.isSome = true ∨ (x.events.length + 3) / 4 ≤ x.pass → exec .replayPassStart s = .next s) ∧
    (x.running = none → x.pass < (x.events.length + 3) / 4 → x.pass = 0 → linkRetry s x.rcb x.launch.toNat = false →
      ∃ t, exec .replayPassStart s = .next t ∧ t.session = some { x with pass := 1, running := some 0, digest := 0#256 } ∧ t.pstores = [] ∧ t.owner = [] ∧ t.l1 = [] ∧
        (∀ e ∈ t.gsu, e.rcb ≠ x.rcb) ∧
        (∀ core k, core < 352 → k < 4 → NMap.get {} t.ctrs (4 * core + k) = match x.events[k]? with
          | some e => { ev := BitVec.ofNat 6 e, en := true }
          | none => {}))) ∧
  (∀ (page : Nat) (x : Session) (s : State), s.session = some x → x.pass = 1 → x.running.isSome = true → x.full = false → page ∉ x.pages →
    (x.wspages ≤ x.pages.length → exec (.writesetCapture page) s = .next { s with session := some { x with full := true } }) ∧
    (∀ (bs : List Byte) (s1 s2 : State) (pa key : Nat), x.pages.length < x.wspages → readPage s x.root (4096 * page) = (some bs, s1) → bs.length = 4096 →
      engAddr s1 fwCore x.root (BitVec.ofNat 64 (x.wsbuf.toNat + 4096 * x.pages.length)) true true = (some (.ok (pa, key)), s2) →
      ∃ t, exec (.writesetCapture page) s = .next t ∧ t.session = some { x with pages := x.pages ++ [page] } ∧ memGet t pa 4096 = bs)))

/-- Words written from the encodings of 10 R183, R186 to R193 and the tables of 13 to 24 decode to the instructions they stand for: one or
more of each class. -/
def Obligations.knownWords : Prop :=
  decode .int false false [0x02080778#32, 0x1000#32] = .ok (.iadd 2 (.main 4) (.main 1) (.lit 0x1000#64) false, 2) ∧
  decode .int false false [0xCA0BA3FD#32] = .ok (.iaddi 2 (.main 5) (.latch 0) 0x3fd#10, 1) ∧
  decode .int false false [0x8A13B83B#32] = .ok (.sel 2 (.main 9) .zero (.main 7) 3, 1) ∧
  decode .flt false false [0x54020770#32, 0xF6EB0400#32] = .ok (.icvtf 4 (.main 1) (.main 1) .i32 .f32 ⟨false, false, false⟩, 2) ∧
  decode .pkd false false [0x3D060410#32, 0xF0021400#32] =
    .ok (.dot4f8 5 (.main 3) (.main 1) (.main 2) (.main 0) .f8e4 .f8e5 false false, 2) ∧
  decode .mem false false [0x00101378#32, 0xF6E0006A#32, 0x10#32] = .ok (.ld 0 (.main 8) (.main 4) (.lit 0x10#64) .b64 true .lin .ca 2, 3) ∧
  decode .mem false false [0x28DC1370#32, 0xF0200021#32] = .ok (.stp 0 (.main 4) .zero (.main 2) .b32 1, 2) ∧
  decode .ctl false false [0x004FFFFC#32] = .ok (.bra 0 2 false 0xffffc#20, 1) ∧
  decode .ctl false false [0x28DDBB70#32] = .ok (.exit 0, 1) ∧
  decode .ctl false false [0x90DC1820#32, 0xF6E00803#32] = .ok (.spawn 0 (.main 6) (.main 4) 0 8 3, 2) ∧
  decode .mtx false false [0x18DDBB70#32, 0xF6E18101#32] = .ok (.mma 0 .bf16 0 2 false false 1, 2) ∧
  decode .eng false false [0x08DC1030#32, 0xF0800010#32] =
    .ok (.ecopys 0 (.main 4) (.main 6) (.main 8) .lin false true false 0, 2) ∧
  decode .eng false false [0x604030C0#32, 0xF1C00002#32] = .ok (.trava 0 4 (.main 12) (.main 24) (.main 28) 2, 2) ∧
  decode .sys true false [0x00E1BB70#32, 0xF6E00A00#32] = .ok (.srd 0 (.uni 0) 0x0a 0, 2) ∧
  decode .sys false false [0x08DC2B70#32, 0xF6E02302#32] = .ok (.swr 0 (.main 10) 0x23 2, 2)

end
end

