-- ==== Sys2Proof/Laws/Bits.lean ====
section
/-! SUPPORT. The integer functions of the model (13 R237 to R248) are the rules' values. -/

namespace Sys2Proof.Machine

theorem getLsbD_bitsWord (f : Nat → Bool) (i : Nat) : (bitsWord f).getLsbD i = (decide (i < 32) && f i) := by
  by_cases h : i < 32
  · simp [bitsWord, BitVec.getLsbD_eq_getElem h, h]
  · simp [BitVec.getLsbD_of_ge _ _ (by omega : 32 ≤ i), h]

/-- A word is known by its bits. -/
theorem eq_bitsWord (w : Word) (f : Nat → Bool) (h : ∀ i, i < 32 → w.getLsbD i = f i) : w = bitsWord f := by
  apply BitVec.eq_of_getLsbD_eq
  intro i hi
  rw [h i hi, getLsbD_bitsWord]; simp [hi]

theorem addSat_rule (sat : Bool) (a b : Word) :
    addSat sat a b = BitVec.ofInt 32 (if sat then min (max (a.toInt + b.toInt) (-2 ^ 31)) (2 ^ 31 - 1) else a.toInt + b.toInt) := rfl

theorem subSat_rule (sat : Bool) (a b : Word) :
    subSat sat a b = BitVec.ofInt 32 (if sat then min (max (a.toInt - b.toInt) (-2 ^ 31)) (2 ^ 31 - 1) else a.toInt - b.toInt) := rfl

theorem mulAdd32_rule (v : MulVar) (a b c : Word) : mulAdd32 v a b c = BitVec.ofInt 32 (mulRule v a b c.toInt) := by
  cases v <;> simp [mulAdd32, mulRule, wordOfInt, sx]

theorem minW_rule (n : Bool) (a b : Word) :
    minW n a b = if n then BitVec.ofNat 32 (min a.toNat b.toNat) else BitVec.ofInt 32 (min a.toInt b.toInt) := by
  cases n
  · by_cases h : a.toInt ≤ b.toInt
    · simp [minW, sx, h]
    · simp [minW, sx, h, min_eq_right (by omega : b.toInt ≤ a.toInt)]
  · by_cases h : a.toNat ≤ b.toNat
    · simp [minW, h]
    · simp [minW, h, min_eq_right (by omega : b.toNat ≤ a.toNat)]

theorem maxW_rule (n : Bool) (a b : Word) :
    maxW n a b = if n then BitVec.ofNat 32 (max a.toNat b.toNat) else BitVec.ofInt 32 (max a.toInt b.toInt) := by
  cases n
  · by_cases h : a.toInt ≤ b.toInt
    · simp [maxW, sx, h]
    · simp [maxW, sx, h, max_eq_left (by omega : b.toInt ≤ a.toInt)]
  · by_cases h : a.toNat ≤ b.toNat
    · simp [maxW, h]
    · simp [maxW, h, max_eq_left (by omega : b.toNat ≤ a.toNat)]

theorem absW_rule (a : Word) : absW a = BitVec.ofNat 32 a.toInt.natAbs := by
  have h : absW a = BitVec.ofInt 32 ((a.toInt.natAbs : Nat) : Int) := by
    unfold absW wordOfInt sx
    congr 1
    by_cases h : a.toInt < 0
    · simp only [h, if_true]; omega
    · simp only [h, if_false]; omega
  rw [h, BitVec.ofInt_natCast]

theorem shiftW_rule (op : ShOp) (a : Word) (n : Nat) : shiftW op a n = shiftRule op a n := by
  cases op with
  | shl =>
    simp only [shiftW, shiftRule]
    split
    · rename_i h
      apply BitVec.eq_of_toNat_eq
      have hd : 2 ^ 32 ∣ a.toNat * 2 ^ n := Dvd.dvd.mul_left (pow_dvd_pow 2 h) _
      simp only [BitVec.toNat_ofNat]
      rw [Nat.mod_eq_zero_of_dvd hd]
    · apply BitVec.eq_of_toNat_eq
      simp [BitVec.toNat_shiftLeft, Nat.shiftLeft_eq]
  | shr =>
    simp only [shiftW, shiftRule]
    split
    · rename_i h
      have hlt : a.toNat < 2 ^ n := lt_of_lt_of_le a.isLt (Nat.pow_le_pow_right (by omega) h)
      rw [Nat.div_eq_of_lt hlt]
    · apply BitVec.eq_of_toNat_eq
      have : a.toNat / 2 ^ n < 4294967296 := lt_of_le_of_lt (Nat.div_le_self _ _) a.isLt
      simp [BitVec.toNat_ushiftRight, Nat.shiftRight_eq_div_pow, Nat.mod_eq_of_lt this]
  | sar =>
    simp only [shiftW, shiftRule]
    split
    · rename_i h
      have hp : (2 : Int) ^ 32 ≤ 2 ^ n := by exact_mod_cast Nat.pow_le_pow_right (by omega) h
      have h1 := a.toInt_lt
      have h2 := a.le_toInt
      have hm : a.getLsbD 31 = a.msb := by simp [BitVec.msb_eq_getLsbD_last]
      rw [hm, BitVec.msb_eq_toInt]
      by_cases hn : a.toInt < 0
      · have : a.toInt / 2 ^ n = -1 := by
          apply le_antisymm
          · have := Int.ediv_neg_of_neg_of_pos hn (by positivity : (0 : Int) < 2 ^ n); omega
          · apply Int.le_ediv_of_mul_le (by positivity); norm_num at h2; omega
        simp [hn, this]
      · have : a.toInt / 2 ^ n = 0 := Int.ediv_eq_zero_of_lt (by omega) (by norm_num at h1; omega)
        simp [hn, this]
    · apply BitVec.eq_of_toInt_eq
      rw [BitVec.toInt_sshiftRight, Int.shiftRight_eq_div_pow, BitVec.toInt_ofInt]
      have h1 := a.toInt_lt
      have h2 := a.le_toInt
      norm_num at h1 h2
      have hp : (1 : Int) ≤ 2 ^ n := by exact_mod_cast Nat.one_le_two_pow
      have hlo : -2147483648 ≤ a.toInt / 2 ^ n := by
        apply Int.le_ediv_of_mul_le (by positivity); nlinarith
      have hhi : a.toInt / 2 ^ n < 2147483648 := by
        by_cases h0 : 0 ≤ a.toInt
        · exact lt_of_le_of_lt (Int.ediv_le_self _ h0) h1
        · have := Int.ediv_neg_of_neg_of_pos (by omega : a.toInt < 0) (by positivity : (0 : Int) < 2 ^ n); omega
      push_cast
      rw [Int.bmod_eq_of_le (by norm_num; omega) (by norm_num; omega)]
  | rol =>
    simp only [shiftW, shiftRule]
    apply eq_bitsWord
    intro i hi
    have hm : n % 32 < 32 := Nat.mod_lt _ (by omega)
    generalize n % 32 = m at hm ⊢
    rw [BitVec.getLsbD_rotateLeft, Nat.mod_eq_of_lt hm]
    by_cases h : i < m
    · rw [decide_eq_true h, cond_true]; congr 1; omega
    · rw [decide_eq_false h, cond_false, decide_eq_true hi, Bool.true_and]; congr 1; omega
  | ror =>
    simp only [shiftW, shiftRule]
    apply eq_bitsWord
    intro i hi
    have hm : n % 32 < 32 := Nat.mod_lt _ (by omega)
    generalize n % 32 = m at hm ⊢
    rw [BitVec.getLsbD_rotateRight, Nat.mod_eq_of_lt hm]
    by_cases h : i < 32 - m
    · rw [decide_eq_true h, cond_true]; congr 1; omega
    · rw [decide_eq_false h, cond_false, decide_eq_true hi, Bool.true_and]; congr 1; omega

theorem andn_rule (x y : Word) : x &&& ~~~y = bitsWord (fun i => x.getLsbD i && !(y.getLsbD i)) := by
  apply eq_bitsWord; intro i hi; simp [hi]

theorem and_rule (x y : Word) : x &&& y = bitsWord (fun i => x.getLsbD i && y.getLsbD i) := by
  apply eq_bitsWord; intro i hi; simp

theorem or_rule (x y : Word) : x ||| y = bitsWord (fun i => x.getLsbD i || y.getLsbD i) := by
  apply eq_bitsWord; intro i hi; simp

theorem xor_rule (x y : Word) : x ^^^ y = bitsWord (fun i => x.getLsbD i ^^ y.getLsbD i) := by
  apply eq_bitsWord; intro i hi; simp

theorem funnelW_rule (right : Bool) (a b c : Word) : funnelW right a b c =
    let w := a.toNat * 2 ^ 32 + b.toNat
    let n := min c.toNat 32
    BitVec.ofNat 32 (if right then w / 2 ^ n else w * 2 ^ n / 2 ^ 32) := by
  simp [funnelW, Nat.shiftRight_eq_div_pow, Nat.shiftLeft_eq]

theorem slice_low (b : Word) : slice b.toNat 7 0 = fieldPos b := by simp [slice, fieldPos]

theorem fieldWidth_rule (b : Word) : fieldWidth b = fieldLen b := by
  simp [fieldWidth, fieldLen, slice, Nat.shiftRight_eq_div_pow]

theorem testBit_field (a pos w i : Nat) : ((a >>> pos) % 2 ^ w).testBit i = (decide (i < w) && a.testBit (pos + i)) := by
  simp [Nat.testBit_mod_two_pow, Nat.testBit_shiftRight]

theorem bfeW_rule (sgn : Bool) (a b : Word) : bfeW sgn a b = extractRule sgn a b := by
  simp only [bfeW, extractRule, slice_low, fieldWidth_rule]
  have hw : fieldLen b ≤ 32 := Nat.min_le_right _ _
  generalize fieldLen b = w at hw ⊢
  generalize fieldPos b = pos
  by_cases h0 : w = 0
  · simp [h0]
  simp only [h0, if_false]
  apply eq_bitsWord
  intro i hi
  have hbit : ∀ j, ((a.toNat >>> pos) % 2 ^ w).testBit j = (decide (j < w) && a.getLsbD (pos + j)) := by
    intro j; rw [testBit_field]; rfl
  cases sgn
  · simp only [Bool.false_eq_true, if_false, Bool.false_and]
    rw [BitVec.getLsbD_ofNat, hbit]
    by_cases h : i < w <;> simp [h, hi]
  · simp only [if_true, Bool.true_and]
    have hx : wordOfInt (sextN w ((a.toNat >>> pos) % 2 ^ w)) = (BitVec.ofNat w ((a.toNat >>> pos) % 2 ^ w)).signExtend 32 := by
      apply BitVec.eq_of_toInt_eq
      rw [BitVec.toInt_signExtend_of_le hw, wordOfInt, BitVec.toInt_ofInt, BitVec.toInt_eq_toNat_cond, BitVec.toNat_ofNat]
      have hlt : (a.toNat >>> pos) % 2 ^ w < 2 ^ w := Nat.mod_lt _ (by positivity)
      generalize (a.toNat >>> pos) % 2 ^ w = f at hlt
      rw [Nat.mod_eq_of_lt hlt, sextN, Nat.mod_eq_of_lt hlt]
      have hp : 2 * 2 ^ (w - 1) = 2 ^ w := by rw [← pow_succ']; congr 1; omega
      have hb : 2 ^ w ≤ 2 ^ 32 := Nat.pow_le_pow_right (by omega) hw
      have hc : (f < 2 ^ (w - 1)) ↔ 2 * f < 2 ^ w := by omega
      simp only [hc]
      split
      · rw [Int.bmod_eq_of_le] <;> norm_num at hb ⊢ <;> omega
      · generalize 2 ^ w = q at *
        rw [Int.bmod_eq_of_le] <;> norm_num at hb ⊢ <;> omega
    rw [hx, BitVec.getLsbD_signExtend]
    simp only [hi, decide_true, Bool.true_and]
    by_cases h : i < w
    · simp only [h, if_true]; rw [BitVec.getLsbD_ofNat, hbit]; simp [h]
    · simp only [h, if_false]
      rw [BitVec.msb_eq_getLsbD_last, BitVec.getLsbD_ofNat, hbit]
      simp [show w - 1 < w by omega]

theorem bfiW_rule (a b c : Word) : bfiW a b c = insertRule a b c := by
  simp only [bfiW, insertRule, slice_low, fieldWidth_rule]
  generalize fieldLen b = w
  generalize fieldPos b = pos
  apply eq_bitsWord
  intro i hi
  have hm : ((2 ^ w - 1) <<< pos).testBit i = (decide (pos ≤ i) && decide (i < pos + w)) := by
    rw [Nat.testBit_shiftLeft, Nat.testBit_two_pow_sub_one]
    by_cases h : pos ≤ i
    · simp only [h, decide_true, Bool.true_and]; congr 1; simp only [eq_iff_iff]; omega
    · simp [h]
  have ht : ∀ x : Nat, (x % 4294967296).testBit i = x.testBit i := by
    intro x; rw [show (4294967296 : Nat) = 2 ^ 32 by norm_num, Nat.testBit_mod_two_pow]; simp [hi]
  rw [BitVec.getLsbD_or, BitVec.getLsbD_and, BitVec.getLsbD_and, BitVec.getLsbD_not, BitVec.getLsbD_ofNat, BitVec.getLsbD_ofNat,
    ht, ht, hm, Nat.testBit_shiftLeft]
  simp only [hi, decide_true, Bool.true_and]
  by_cases h1 : pos ≤ i <;> by_cases h2 : i < pos + w <;> simp [h1, h2, BitVec.getLsbD]

theorem lanes_length (a : Word) : (lanes a).length = (List.range 32).countP (fun i => a.getLsbD i) := by
  simp [lanes, List.countP_eq_length_filter]

theorem getLsbD_maskOf (ts : List Nat) (i : Nat) (hi : i < 32) : (maskOf ts).getLsbD i = true ↔ i ∈ ts := by
  have h : ∀ (m : Word), (ts.foldl (fun m t => m ||| (1#32 <<< t)) m).getLsbD i = (m.getLsbD i || decide (i ∈ ts)) := by
    induction ts with
    | nil => intro m; simp
    | cons t ts ih =>
      intro m
      rw [List.foldl_cons, ih, BitVec.getLsbD_or, BitVec.getLsbD_shiftLeft, BitVec.getLsbD_one]
      by_cases e : i = t
      · subst e; simp [hi]
      · by_cases hlt : i < t
        · simp [hlt, e]
        · simp [hi, hlt, e, show i - t ≠ 0 by omega]
  rw [maskOf, h]; simp

/-- How far a test holds from the start of a range. -/
theorem takeWhile_range {p : Nat → Bool} {n k : Nat} (hk : k ≤ n) (h1 : ∀ i < k, p i = true) (h2 : k < n → p k = false) :
    ((List.range n).takeWhile p).length = k := by
  obtain ⟨m, rfl⟩ : ∃ m, n = k + m := ⟨n - k, by omega⟩
  rw [List.range_add, List.takeWhile_append_of_pos (by simpa using h1)]
  cases m with
  | zero => simp
  | succ m => simp [List.range_succ_eq_map, h2 (by omega)]

theorem clz_rule (a : Word) : (if a = 0#32 then 32 else 31 - a.toNat.log2) =
    ((List.range 32).takeWhile (fun i => !(a.getLsbD (31 - i)))).length := by
  symm
  apply takeWhile_range
  · split <;> omega
  · intro i hi
    by_cases h : a = 0#32
    · subst h; simp
    · simp only [h, if_false] at hi
      have hlt : a.toNat < 2 ^ (31 - i) := by
        have := Nat.lt_log2_self (n := a.toNat)
        exact lt_of_lt_of_le this (Nat.pow_le_pow_right (by omega) (by omega))
      rw [BitVec.getLsbD, Nat.testBit_lt_two_pow hlt]; rfl
  · intro hk
    by_cases h : a = 0#32
    · simp [h] at hk
    · have h0 : a.toNat ≠ 0 := fun e => h (BitVec.eq_of_toNat_eq (by simpa using e))
      have hl : a.toNat.log2 < 32 := (Nat.log2_lt h0).2 a.isLt
      simp only [h, if_false]
      rw [show 31 - (31 - a.toNat.log2) = a.toNat.log2 by omega, BitVec.getLsbD, Nat.testBit_log2 h0]; rfl

theorem lowestLane_mem {m : Word} (h : m ≠ 0#32) :
    lowestLane m < 32 ∧ m.getLsbD (lowestLane m) = true ∧ ∀ i < lowestLane m, m.getLsbD i = false := by
  obtain ⟨j, hj, hb⟩ : ∃ j, j < 32 ∧ m.getLsbD j = true := by
    by_contra hn
    apply h
    apply BitVec.eq_of_getLsbD_eq
    intro i hi
    rw [BitVec.getLsbD_zero]
    by_contra hc
    exact hn ⟨i, hi, by simpa using hc⟩
  have hf : ((List.range 32).find? (fun t => m.getLsbD t)) = some (lowestLane m) := by
    unfold lowestLane lanes
    have hs : ((List.range 32).find? (fun t => m.getLsbD t)).isSome := by
      rw [List.find?_isSome]; exact ⟨j, List.mem_range.2 hj, hb⟩
    rw [← List.head?_filter] at hs ⊢
    cases hc : (List.range 32).filter (fun t => m.getLsbD t) with
    | nil => simp [hc] at hs
    | cons x xs => rfl
  rw [List.find?_range_eq_some] at hf
  refine ⟨List.mem_range.1 hf.2.1, hf.1, fun i hi => ?_⟩
  have := hf.2.2 i hi
  simpa using this

theorem ctz_rule (a : Word) : (if a = 0#32 then 32 else lowestLane a) =
    ((List.range 32).takeWhile (fun i => !(a.getLsbD i))).length := by
  symm
  by_cases h : a = 0#32
  · subst h; decide
  · obtain ⟨h1, h2, h3⟩ := lowestLane_mem h
    simp only [h, if_false]
    apply takeWhile_range (by omega)
    · intro i hi; simp [h3 i hi]
    · intro _; simp [h2]

theorem testBit_bytes (a b c d i : Nat) (ha : a < 256) (hb : b < 256) (hc : c < 256) (hd : d < 256) (hi : i < 32) :
    (a * 16777216 + b * 65536 + c * 256 + d).testBit i =
      (if i < 8 then d.testBit i else if i < 16 then c.testBit (i - 8) else if i < 24 then b.testBit (i - 16) else a.testBit (i - 24)) := by
  have e : a * 16777216 + b * 65536 + c * 256 + d = 2 ^ 8 * (2 ^ 8 * (2 ^ 8 * a + b) + c) + d := by ring
  rw [e, Nat.testBit_two_pow_mul_add _ (by simpa using hd)]
  split
  · rfl
  · rw [Nat.testBit_two_pow_mul_add _ (by simpa using hc)]
    by_cases h1 : i < 16
    · simp [h1, show i - 8 < 8 by omega]
    · simp only [show ¬ i - 8 < 8 by omega, h1, if_false]
      rw [Nat.testBit_two_pow_mul_add _ (by simpa using hb)]
      by_cases h2 : i < 24
      · simp [h2, show i - 8 - 8 < 8 by omega, show i - 8 - 8 = i - 16 by omega]; omega
      · simp [h2, show ¬ i - 8 - 8 < 8 by omega, show i - 8 - 8 - 8 = i - 24 by omega]

theorem bitsW_rule (op : BitOp) (a : Word) : bitsW op a = countRule op a := by
  cases op with
  | popc => simp [bitsW, countRule, popc, lanes_length]
  | clz => rw [bitsW, clz_rule]; rfl
  | ctz => rw [bitsW, ctz_rule]; rfl
  | brev =>
    simp only [bitsW, countRule]
    apply eq_bitsWord
    intro i hi
    rw [Bool.eq_iff_iff, getLsbD_maskOf _ _ hi]
    simp only [List.mem_map, lanes, List.mem_filter, List.mem_range]
    constructor
    · rintro ⟨j, ⟨hj, hb⟩, e⟩
      rw [show 31 - i = j by omega]; exact hb
    · intro h; exact ⟨31 - i, ⟨by omega, h⟩, by omega⟩
  | bswap =>
    simp only [bitsW, countRule]
    apply eq_bitsWord
    intro i hi
    have hs : ∀ hi' lo k, k < hi' + 1 - lo → (slice a.toNat hi' lo).testBit k = a.getLsbD (lo + k) := by
      intro hi' lo k hk
      rw [slice, testBit_field]; simp [hk, BitVec.getLsbD]
    have hl : ∀ lo, slice a.toNat (lo + 7) lo < 256 := by
      intro lo; rw [slice, show lo + 7 + 1 - lo = 8 by omega]; exact Nat.mod_lt _ (by norm_num)
    rw [BitVec.getLsbD_ofNat, testBit_bytes _ _ _ _ _ (hl 0) (hl 8) (hl 16) (hl 24) hi]
    simp only [hi, decide_true, Bool.true_and]
    split
    · rw [hs _ _ _ (by omega)]; congr 1; omega
    · split
      · rw [hs _ _ _ (by omega)]; congr 1; omega
      · split
        · rw [hs _ _ _ (by omega)]; congr 1; omega
        · rw [hs _ _ _ (by omega)]; congr 1; omega

end Sys2Proof.Machine
end

