-- ==== Sys2Proof/Laws/NMap.lean ====
section
/-! SUPPORT. The laws of sparse storage: a read after a write, for every list of entries, and that a write keeps the canonical form. -/

namespace Sys2Proof.Machine

variable {α : Type} {d : α}

theorem NMap.get_drop_same (m : NMap α) (i : Nat) : NMap.get d (NMap.drop i m) i = d := by
  induction m with
  | nil => rfl
  | cons e m ih =>
    simp only [NMap.drop, List.filter_cons] at ih ⊢
    split
    · next h => simp only [NMap.get, ih]; simp_all
    · exact ih

theorem NMap.get_drop_other (m : NMap α) {i j : Nat} (h : i ≠ j) : NMap.get d (NMap.drop i m) j = NMap.get d m j := by
  induction m with
  | nil => rfl
  | cons e m ih =>
    simp only [NMap.drop, List.filter_cons] at ih ⊢
    split
    · simp only [NMap.get, ih]
    · next he =>
      have : e.1 = i := by simpa using he
      rw [ih, NMap.get, if_neg (by omega)]

variable [DecidableEq α]

/-- Reading back the key written. -/
@[simp] theorem NMap.get_set_same (m : NMap α) (i : Nat) (x : α) : NMap.get d (NMap.set d m i x) i = x := by
  induction m with
  | nil => by_cases hx : x = d <;> simp [NMap.set, NMap.link, NMap.get, hx]
  | cons e m ih =>
    simp only [NMap.set, NMap.link]
    split
    · split
      · next hx => simp [hx, NMap.get_drop_same]
      · simp [NMap.get]
    · next hk =>
      split
      · split
        · next hx => simp [NMap.get, hk, hx, NMap.get_drop_same]
        · simp [NMap.get]
      · simp [NMap.get, hk, ih]

/-- A write leaves every other key alone. -/
theorem NMap.get_set_other (m : NMap α) {i j : Nat} (x : α) (h : i ≠ j) :
    NMap.get d (NMap.set d m i x) j = NMap.get d m j := by
  induction m with
  | nil => by_cases hx : x = d <;> simp [NMap.set, NMap.link, NMap.get, hx, h]
  | cons e m ih =>
    simp only [NMap.set, NMap.link]
    split
    · next hk =>
      have : e.1 ≠ j := by omega
      split <;> simp [NMap.get, h, this, NMap.get_drop_other m h]
    · split
      · split <;> simp [NMap.get, h, NMap.get_drop_other m h]
      · simp [NMap.get, ih]

/-- A read after a write. -/
theorem NMap.get_set (m : NMap α) (i j : Nat) (x : α) :
    NMap.get d (NMap.set d m i x) j = if i = j then x else NMap.get d m j := by
  split
  · next h => subst h; simp
  · next h => exact NMap.get_set_other m x h

theorem NMap.wfFrom_mono {m : NMap α} {lo lo' : Nat} (h : NMap.wfFrom d lo' m = true) (hl : lo ≤ lo') :
    NMap.wfFrom d lo m = true := by
  cases m with
  | nil => rfl
  | cons e m =>
    simp only [NMap.wfFrom, Bool.and_eq_true, decide_eq_true_eq] at h ⊢
    exact ⟨⟨by omega, h.1.2⟩, h.2⟩

theorem NMap.drop_wfFrom {m : NMap α} {lo i : Nat} (h : NMap.wfFrom d lo m = true) :
    NMap.wfFrom d lo (NMap.drop i m) = true := by
  induction m generalizing lo with
  | nil => rfl
  | cons e m ih =>
    simp only [NMap.wfFrom, Bool.and_eq_true, decide_eq_true_eq] at h
    simp only [NMap.drop, List.filter_cons] at ih ⊢
    split
    · simp only [NMap.wfFrom, Bool.and_eq_true, decide_eq_true_eq]
      exact ⟨h.1, ih h.2⟩
    · exact NMap.wfFrom_mono (ih h.2) (by omega)

theorem NMap.link_wfFrom {m : NMap α} {lo i : Nat} {x : α} (h : NMap.wfFrom d (i + 1) m = true) (hl : lo ≤ i) :
    NMap.wfFrom d lo (NMap.link d i x m) = true := by
  unfold NMap.link
  split
  · exact NMap.wfFrom_mono h (by omega)
  · simp [NMap.wfFrom, *]

theorem NMap.set_wfFrom {m : NMap α} {lo i : Nat} {x : α} (h : NMap.wfFrom d lo m = true) (hl : lo ≤ i) :
    NMap.wfFrom d lo (NMap.set d m i x) = true := by
  induction m generalizing lo with
  | nil => exact NMap.link_wfFrom rfl hl
  | cons e m ih =>
    simp only [NMap.wfFrom, Bool.and_eq_true, decide_eq_true_eq] at h
    simp only [NMap.set]
    split
    · next hk => exact NMap.link_wfFrom (NMap.drop_wfFrom (hk ▸ h.2)) hl
    · split
      · next hk hlt =>
        refine NMap.link_wfFrom ?_ hl
        simp only [NMap.wfFrom, Bool.and_eq_true, decide_eq_true_eq]
        exact ⟨⟨by omega, h.1.2⟩, NMap.drop_wfFrom h.2⟩
      · next hk hlt =>
        simp only [NMap.wfFrom, Bool.and_eq_true, decide_eq_true_eq]
        exact ⟨h.1, ih h.2 (by omega)⟩

/-- A write keeps the canonical form. -/
theorem NMap.set_wf {m : NMap α} {i : Nat} {x : α} (h : NMap.wf d m = true) : NMap.wf d (NMap.set d m i x) = true :=
  NMap.set_wfFrom h (Nat.zero_le _)

/-- Writing a list keeps the canonical form. -/
theorem NMap.setAll_wf {xs : List α} {m : NMap α} {i : Nat} (h : NMap.wf d m = true) :
    NMap.wf d (NMap.setAll d m i xs) = true := by
  induction xs generalizing m i with
  | nil => exact h
  | cons x xs ih => exact ih (NMap.set_wf h)

/-- Writing a list leaves keys outside its range alone. -/
theorem NMap.get_setAll_out (xs : List α) (m : NMap α) (i j : Nat) (h : j < i ∨ i + xs.length ≤ j) :
    NMap.get d (NMap.setAll d m i xs) j = NMap.get d m j := by
  induction xs generalizing m i with
  | nil => rfl
  | cons x xs ih =>
    simp only [List.length_cons] at h
    rw [NMap.setAll, ih _ _ (by omega), NMap.get_set_other m x (by omega)]

/-- A read of a key that a list was written over. -/
theorem NMap.get_setAll_in (xs : List α) (m : NMap α) (i k : Nat) (h : k < xs.length) :
    NMap.get d (NMap.setAll d m i xs) (i + k) = xs[k] := by
  induction xs generalizing m i k with
  | nil => simp at h
  | cons x xs ih =>
    cases k with
    | zero => rw [NMap.setAll, NMap.get_setAll_out _ _ _ _ (by omega)]; simp
    | succ k =>
      have := ih (NMap.set d m i x) (i + 1) k (by simpa using h)
      rw [NMap.setAll, show i + (k + 1) = i + 1 + k by omega, this]
      simp

end Sys2Proof.Machine
end

