-- ==== Sys2Proof/Laws/Operands.lean ====
section
/-! SUPPORT. What the shared operations over operands can do: settled reads are plain, writes go where they are sent, and each shape of
instruction, on ready operands, has its effect. -/

namespace Sys2Proof.Machine

/-! Reading and writing one location -/

@[simp] theorem lo_setWidth (x : Word) : DWord.lo (x.setWidth 64) = x := by
  ext i; simp [DWord.lo]

/-- Two locations of real threads that share a key are one. -/
theorem getLoc_setLoc_other (c : Convoy) (l m : Loc) (v : DWord) (hl : realLoc l) (hm : realLoc m) (h : l ≠ m) :
    getLoc (setLoc c l v) m = getLoc c m := by
  cases l <;> cases m <;> simp only [realLoc] at hl hm <;> simp only [setLoc, getLoc] <;>
    first
    | rfl
    | (split <;> rfl)
    | (split
       · rfl
       · rw [NMap.get_set_other]
         intro e; apply h; congr 1 <;> omega)
    | (rw [NMap.get_set_other]; intro e; apply h; congr 1 <;> omega)

/-- What a location holds after a value was written there. -/
def kept (l : Loc) (v : DWord) : DWord :=
  match l with
  | .pred k _ => BitVec.ofNat 64 (b2n (decide (k = 7) || v.getLsbD 0))
  | .latch _ _ => v
  | _ => v.lo.setWidth 64

theorem getLoc_setLoc_same (c : Convoy) (l : Loc) (v : DWord) (h : ∀ k t, l = .pred k t → k ≠ 7) :
    getLoc (setLoc c l v) l = kept l v := by
  cases l with
  | pred k t => have := h k t rfl; simp [setLoc, getLoc, kept, this]
  | _ => simp [setLoc, getLoc, kept]

/-- One write of a convoy's location, which clears its poison. -/
def put (c : Convoy) (e : Loc × DWord) : Convoy := { setLoc c e.1 e.2 with rpoison := c.rpoison.filter (· ≠ e.1) }

theorem getLoc_put (c : Convoy) (e : Loc × DWord) (l : Loc) : getLoc (put c e) l = getLoc (setLoc c e.1 e.2) l := by
  cases l <;> rfl

@[simp] theorem put_pend (c : Convoy) (e : Loc × DWord) : (put c e).pend = c.pend := by
  unfold put setLoc; split <;> first | rfl | (split <;> rfl)

@[simp] theorem put_units (c : Convoy) (e : Loc × DWord) : (put c e).units = c.units := by
  unfold put setLoc; split <;> first | rfl | (split <;> rfl)

@[simp] theorem put_opp (c : Convoy) (e : Loc × DWord) : (put c e).opp = c.opp := by
  unfold put setLoc; split <;> first | rfl | (split <;> rfl)

theorem settled_put (c : Convoy) (e : Loc × DWord) (l : Loc) : Settled (put c e) l ↔ Settled c l := by
  simp [Settled, pendAt, unitAt]

/-- A write leaves everything but registers, predicates and poison alone. -/
theorem put_kept (c : Convoy) (e : Loc × DWord) :
    put c e = { c with
      main := (put c e).main, opf := (put c e).opf, uni := (put c e).uni, preds := (put c e).preds, latch := (put c e).latch
      idx := (put c e).idx, xlim := (put c e).xlim, rpoison := (put c e).rpoison } := by
  unfold put setLoc; split <;> first | rfl | (split <;> rfl)

/-- A write where no result is on its way (10 R198). -/
theorem writeLoc_settled (s : State) (l : Loc) (v : DWord) (h : Settled s.cv l) :
    writeLoc s l v = { s with cv := put s.cv (l, v) } := by
  have h1 : pendAt { s.cv with rpoison := s.cv.rpoison.filter (· ≠ l) } l = none := h.1
  have h2 : unitAt { s.cv with rpoison := s.cv.rpoison.filter (· ≠ l) } l = none := h.2
  simp only [writeLoc, h1, h2, put]
  cases l <;> first | rfl | (simp only [setLoc]; split <;> rfl)

/-- Writes where no result is on its way. -/
theorem foldl_writeLoc (ws : List (Loc × DWord)) (s : State) (h : ∀ e ∈ ws, Settled s.cv e.1) :
    ws.foldl (fun s e => writeLoc s e.1 e.2) s = { s with cv := ws.foldl put s.cv } := by
  induction ws generalizing s with
  | nil => rfl
  | cons e ws ih =>
    rw [List.foldl_cons, writeLoc_settled s e.1 e.2 (h e (by simp)), ih]
    · rfl
    · intro x hx; exact (settled_put _ _ _).2 (h x (by simp [hx]))

theorem foldl_put_pend (ws : List (Loc × DWord)) (c : Convoy) : (ws.foldl put c).pend = c.pend := by
  induction ws generalizing c with
  | nil => rfl
  | cons e ws ih => simp [ih]

/-- A location that is not among those written is left alone. -/
theorem getLoc_foldl_other (ws : List (Loc × DWord)) (c : Convoy) (l : Loc) (hl : realLoc l)
    (hr : ∀ e ∈ ws, realLoc e.1) (h : ∀ e ∈ ws, e.1 ≠ l) : getLoc (ws.foldl put c) l = getLoc c l := by
  induction ws generalizing c with
  | nil => rfl
  | cons e ws ih =>
    rw [List.foldl_cons, ih _ (fun x hx => hr x (by simp [hx])) (fun x hx => h x (by simp [hx])), getLoc_put,
      getLoc_setLoc_other _ _ _ _ (hr e (by simp)) hl (h e (by simp))]

/-- A location that is written, always with one value, holds it. -/
theorem getLoc_foldl_mem (ws : List (Loc × DWord)) (c : Convoy) (l : Loc) (v : DWord) (hr : ∀ e ∈ ws, realLoc e.1)
    (h7 : ∀ k t, l = .pred k t → k ≠ 7) (hex : ∃ e ∈ ws, e.1 = l) (hv : ∀ e ∈ ws, e.1 = l → e.2 = v) :
    getLoc (ws.foldl put c) l = kept l v := by
  induction ws generalizing c with
  | nil => simp at hex
  | cons e ws ih =>
    rw [List.foldl_cons]
    by_cases hw : ∃ x ∈ ws, x.1 = l
    · exact ih _ (fun x hx => hr x (by simp [hx])) hw (fun x hx => hv x (by simp [hx]))
    · have hel : e.1 = l := by
        obtain ⟨x, hx, hxl⟩ := hex
        rcases List.mem_cons.1 hx with rfl | hx
        · exact hxl
        · exact absurd ⟨x, hx, hxl⟩ hw
      have hv' := hv e (by simp) hel
      subst hel
      rw [getLoc_foldl_other _ _ _ (hr e (by simp)) (fun x hx => hr x (by simp [hx]))
        (fun x hx hxl => hw ⟨x, hx, hxl⟩), getLoc_put, getLoc_setLoc_same _ _ _ h7, hv']

/-! Operands that are ready -/

theorem earlyLoc_settled (s : State) (l : Loc) (h : Settled s.cv l) : earlyLoc s l = s := by
  simp [earlyLoc, h.1, h.2]

theorem settleLocs_settled (s : State) (ls : List Loc) (h : ∀ l ∈ ls, Settled s.cv l) : settleLocs s ls = s := by
  unfold settleLocs
  split
  · rfl
  · induction ls with
    | nil => rfl
    | cons l ls ih =>
      rw [List.foldl_cons, earlyLoc_settled s l (h l (by simp))]
      exact ih (fun m hm => h m (by simp [hm]))

theorem checkReady_settled (s : State) (ls : List Loc) (h : ∀ l ∈ ls, Settled s.cv l) : checkReady s ls = none := by
  unfold checkReady
  split
  · rw [List.findSome?_eq_none_iff]
    intro l hl
    simp [(h l hl).1, (h l hl).2]
  · rfl

theorem mem_idxLocs (s : State) (us : List Use) (d : Option Dst) (l : Loc) (h : l ∈ idxLocs s us d) :
    l ∈ idxLocs s us none ∨ (∃ x, d = some x ∧ l ∈ idxLocs s [] (some x)) := by
  simp only [idxLocs, List.mem_append] at h ⊢
  rcases h with h | h
  · exact .inl (.inl h)
  · cases d with
    | none => simp at h
    | some x => exact .inr ⟨x, rfl, .inr h⟩

/-- On ready operands no early value is chosen. -/
theorem settleIdx_ready {s : State} {us : List Use} {ps : List Loc} {d : Option (Dst × Nat)} (h : Ready s us ps d) :
    settleIdx s us (d.map (·.1)) = s := by
  apply settleLocs_settled
  intro l hl
  rcases mem_idxLocs _ _ _ _ hl with hl | ⟨x, hx, hl⟩
  · exact h.settled l (by simp [useLocs, hl])
  · cases d with
    | none => simp at hx
    | some e =>
      obtain ⟨y, n⟩ := e
      simp only [Option.map_some, Option.some.injEq] at hx
      subst hx
      exact h.settledDst y n rfl l (by simp [dstLocs, hl])

/-- On ready operands the reads leave the state as it is, with no thread's sources poisoned. -/
theorem settleReads_ready {s : State} {us : List Use} {ps : List Loc} {d : Option (Dst × Nat)} (h : Ready s us ps d) :
    settleReads s us ps = { s with cv := { s.cv with bad := 0#32 } } := by
  simp only [settleReads, settleLocs_settled s _ h.settled, h.clean]

/-! The end of an instruction -/

theorem retire_cv (st : Stall) (s : State) (h : s.cv.bad = 0#32) :
    (retire st s).cv = { passOn 1 s.cv with
      stall := st.toNat, peek := [], clause := s.cv.clause.map (fun c => { c with cur := c.nxt }) } := by
  simp [retire, notePoison, h, passTrack, passOn]

theorem retire_rest (st : Stall) (s : State) (h : s.cv.bad = 0#32) : RestKept s (retire st s) := by
  simp [RestKept, retire, notePoison, h, passTrack]

theorem retire_memory (st : Stall) (s : State) (h : s.cv.bad = 0#32) : MemoryKept s (retire st s) := by
  intro a; simp [memByte, retire, notePoison, h, passTrack]

@[simp] theorem getLoc_passOn (n : Nat) (c : Convoy) (l : Loc) : getLoc (passOn n c) l = getLoc c l := by
  cases l <;> rfl

theorem getLoc_retire (st : Stall) (s : State) (h : s.cv.bad = 0#32) (l : Loc) :
    getLoc (retire st s).cv l = getLoc s.cv l := by
  rw [retire_cv st s h]; cases l <;> rfl

/-! Destinations -/

theorem lt_of_mem_lanes {m : Word} {x : Nat} (h : x ∈ lanes m) : x < 32 := by
  simp only [lanes, List.mem_filter, List.mem_range] at h; exact h.1

theorem lowestLane_lt (m : Word) : lowestLane m < 32 := by
  unfold lowestLane
  cases h : lanes m with
  | nil => simp
  | cons a l => exact lt_of_mem_lanes (m := m) (by simp [h])

theorem lt_of_mem_actLanes {s : State} {x : Nat} (h : x ∈ actLanes s) : x < 32 := by
  unfold actLanes at h
  split at h
  · simp only [List.mem_singleton] at h; subst h; exact lowestLane_lt _
  · exact lt_of_mem_lanes h

theorem realLoc_dstLoc {s : State} {d : Dst} {x k : Nat} {l : Loc} (hx : x < 32) (h : dstLoc s d x k = some l) :
    realLoc l := by
  cases d <;> simp only [dstLoc, Option.some.injEq, reduceCtorEq] at h
  · subst h; exact hx
  · subst h; exact hx
  · subst h; exact hx
  · split at h
    · simp only [Option.some.injEq] at h; subst h; trivial
    · simp at h

/-- Two words of a destination lie in different places. -/
theorem dstLoc_inj {s : State} {d : Dst} {x y j k : Nat} {l : Loc} (hx : dstLoc s d x j = some l)
    (hy : dstLoc s d y k = some l) : x = y ∧ j = k := by
  cases d <;> simp only [dstLoc, Option.some.injEq, reduceCtorEq] at hx hy
  · subst hx; simp only [Loc.main.injEq] at hy; omega
  · subst hx; simp only [Loc.opf.injEq] at hy; omega
  · subst hx; simp only [Loc.main.injEq] at hy; obtain ⟨h1, h2⟩ := hy; subst h2; omega
  · split at hx
    · split at hy
      · simp only [Option.some.injEq] at hx hy; subst hx; simp only [Loc.uni.injEq] at hy; omega
      · simp at hy
    · simp at hx

theorem dstLoc_kind {s : State} {d : Dst} {x k : Nat} {l : Loc} (h : dstLoc s d x k = some l) :
    (∀ i t, l ≠ .pred i t) ∧ (∀ i t, l ≠ .latch i t) := by
  cases d <;> simp only [dstLoc, Option.some.injEq, reduceCtorEq] at h
  · subst h; simp
  · subst h; simp
  · subst h; simp
  · split at h
    · simp only [Option.some.injEq] at h; subst h; simp
    · simp at h

theorem mem_dstWrites {s : State} {d : Dst} {n x : Nat} {v : DWord} {e : Loc × DWord} :
    e ∈ dstWrites s d n x v ↔
      ∃ k < n, dstLoc s d x k = some e.1 ∧ e.2 = ((v >>> (32 * k)).setWidth 32 : Word).setWidth 64 := by
  simp only [dstWrites, List.mem_flatMap, List.mem_range]
  constructor
  · rintro ⟨k, hk, h⟩
    split at h
    · next l hl => simp only [List.mem_singleton] at h; subst h; exact ⟨k, hk, hl, rfl⟩
    · simp at h
  · rintro ⟨k, hk, h, hv⟩
    refine ⟨k, hk, ?_⟩
    rw [h]
    simp [← hv]

theorem kept_dst {s : State} {d : Dst} {x k : Nat} {l : Loc} (h : dstLoc s d x k = some l) (w : Word) :
    (kept l (w.setWidth 64)).lo = w := by
  have := dstLoc_kind h
  cases l with
  | pred i t => exact absurd rfl (this.1 i t)
  | latch i t => exact absurd rfl (this.2 i t)
  | _ => simp [kept]

/-- The writes of one value for each acting thread. -/
def laneWrites (s : State) (d : Dst) (n : Nat) (f : Nat → DWord) : List (Loc × DWord) :=
  (actLanes s).flatMap (fun x => dstWrites s d n x (f x))

theorem mem_laneWrites {s : State} {d : Dst} {n : Nat} {f : Nat → DWord} {e : Loc × DWord} :
    e ∈ laneWrites s d n f ↔ ∃ x ∈ actLanes s, ∃ k < n, dstLoc s d x k = some e.1 ∧
      e.2 = ((f x >>> (32 * k)).setWidth 32 : Word).setWidth 64 := by
  simp only [laneWrites, List.mem_flatMap, mem_dstWrites]

theorem laneWrites_real {s : State} {d : Dst} {n : Nat} {f : Nat → DWord} :
    ∀ e ∈ laneWrites s d n f, realLoc e.1 := by
  intro e he
  obtain ⟨x, hx, k, _, hl, _⟩ := mem_laneWrites.1 he
  exact realLoc_dstLoc (lt_of_mem_actLanes hx) hl

/-- The destination holds each thread's value after the writes. -/
theorem laneWrites_holds {s : State} {d : Dst} {n : Nat} {f : Nat → DWord} (c : Convoy) :
    ∀ x ∈ actLanes s, ∀ k < n, ∀ l, dstLoc s d x k = some l →
      (getLoc ((laneWrites s d n f).foldl put c) l).lo = (f x >>> (32 * k)).setWidth 32 := by
  intro x hx k hk l hl
  rw [getLoc_foldl_mem _ _ l (((f x >>> (32 * k)).setWidth 32 : Word).setWidth 64) laneWrites_real]
  · exact kept_dst hl _
  · intro i t h; exact absurd h ((dstLoc_kind hl).1 i t)
  · exact ⟨(l, _), mem_laneWrites.2 ⟨x, hx, k, hk, hl, rfl⟩, rfl⟩
  · intro e he hel
    obtain ⟨y, _, j, _, hy, hv⟩ := mem_laneWrites.1 he
    rw [hel] at hy
    obtain ⟨rfl, rfl⟩ := dstLoc_inj hl hy
    exact hv

/-- A location outside the destination is left alone by the writes. -/
theorem laneWrites_others {s : State} {d : Dst} {n : Nat} {f : Nat → DWord} (c : Convoy) (l : Loc) (hl : realLoc l)
    (h : ¬ isDst s d n l) : getLoc ((laneWrites s d n f).foldl put c) l = getLoc c l := by
  refine getLoc_foldl_other _ _ _ hl laneWrites_real ?_
  intro e he hel
  obtain ⟨x, hx, k, hk, hd, _⟩ := mem_laneWrites.1 he
  exact h ⟨x, hx, k, hk, by rw [hd, hel]⟩

theorem settled_laneWrites {s : State} {us : List Use} {ps : List Loc} {d : Dst} {n : Nat} {f : Nat → DWord}
    (h : Ready s us ps (some (d, n))) : ∀ e ∈ laneWrites s d n f, Settled s.cv e.1 := by
  intro e he
  obtain ⟨x, hx, k, hk, hd, _⟩ := mem_laneWrites.1 he
  refine h.settledDst d n rfl _ ?_
  simp only [dstLocs, List.mem_append, List.mem_flatMap, List.mem_range]
  exact .inr ⟨x, hx, k, hk, by simp [hd]⟩

/-! Instructions of fixed latency -/

/-- One thread's latches take a value (02 R42). -/
def latchPut (n : Nat) (c : Convoy) (e : Nat × DWord) : Convoy :=
  { c with
    latch := NMap.set {} (NMap.set {} c.latch (32 + e.1) (NMap.get {} c.latch e.1)) e.1
      { val := if n = 1 then e.2.lo.setWidth 64 else e.2, wide := decide (n = 2), valid := true } }

theorem latchPut_kept (n : Nat) (vs : List (Nat × DWord)) (c : Convoy) :
    vs.foldl (latchPut n) c = { c with latch := (vs.foldl (latchPut n) c).latch } := by
  induction vs generalizing c with
  | nil => rfl
  | cons e vs ih => rw [List.foldl_cons, ih]; rfl

theorem latchPut_other (n : Nat) (vs : List (Nat × DWord)) (c : Convoy) (j : Nat)
    (h : ∀ e ∈ vs, e.1 ≠ j ∧ 32 + e.1 ≠ j) : NMap.get {} (vs.foldl (latchPut n) c).latch j = NMap.get {} c.latch j := by
  induction vs generalizing c with
  | nil => rfl
  | cons e vs ih =>
    rw [List.foldl_cons, ih _ (fun x hx => h x (by simp [hx]))]
    have := h e (by simp)
    simp only [latchPut]
    rw [NMap.get_set_other _ _ this.1, NMap.get_set_other _ _ this.2]

/-- The latches after one value for each of a list of threads. -/
theorem latchPut_mem (n : Nat) (xs : List Nat) (f : Nat → DWord) (c : Convoy) (hn : xs.Nodup) (hx : ∀ x ∈ xs, x < 32) :
    ∀ x ∈ xs,
      NMap.get {} ((xs.map (fun t => (t, f t))).foldl (latchPut n) c).latch x =
        { val := if n = 1 then (f x).lo.setWidth 64 else f x, wide := decide (n = 2), valid := true } ∧
      NMap.get {} ((xs.map (fun t => (t, f t))).foldl (latchPut n) c).latch (32 + x) = NMap.get {} c.latch x := by
  induction xs generalizing c with
  | nil => simp
  | cons y ys ih =>
    intro x hxm
    rw [List.map_cons, List.foldl_cons]
    have hy : y < 32 := hx y (by simp)
    rw [List.nodup_cons] at hn
    rcases List.mem_cons.1 hxm with rfl | hxm
    · have hout : ∀ j, (j = x ∨ j = 32 + x) → ∀ e ∈ ys.map (fun t => (t, f t)), e.1 ≠ j ∧ 32 + e.1 ≠ j := by
        intro j hj e he
        simp only [List.mem_map] at he
        obtain ⟨t, ht, rfl⟩ := he
        have h1 : t < 32 := hx t (by simp [ht])
        have h2 : t ≠ x := fun h => hn.1 (h ▸ ht)
        constructor <;> simp <;> omega
      rw [latchPut_other _ _ _ _ (hout x (.inl rfl)), latchPut_other _ _ _ _ (hout _ (.inr rfl))]
      simp only [latchPut]
      refine ⟨by simp, ?_⟩
      rw [NMap.get_set_other _ _ (by omega)]; simp
    · have hx32 : x < 32 := hx x (by simp [hxm])
      have hyx : y ≠ x := fun h => hn.1 (h ▸ hxm)
      have := ih (latchPut n c (y, f y)) hn.2 (fun x h => hx x (by simp [h])) x hxm
      refine ⟨this.1, this.2.trans ?_⟩
      simp only [latchPut]
      rw [NMap.get_set_other _ _ (by omega), NMap.get_set_other _ _ (by omega)]

theorem nodup_actLanes (s : State) : (actLanes s).Nodup := by
  unfold actLanes lanes
  split
  · simp
  · exact List.Nodup.filter _ List.nodup_range

theorem writeLatches_eq (s : State) (lat n : Nat) (vs : List (Nat × DWord)) (h : uniform s = false) :
    ∃ olds : List (Loc × DWord), writeLatches s lat n vs =
      { s with cv := { vs.foldl (latchPut n) s.cv with
          pend := s.cv.pend ++ [{ olds := olds, ready := s.cv.opp + lat + 1, pc := curPc s }] } } := by
  refine ⟨vs.flatMap (fun e => [(Loc.latch 0 e.1, getLoc s.cv (.latch 0 e.1)), (Loc.latch 1 e.1, getLoc s.cv (.latch 1 e.1))]), ?_⟩
  have hp : (vs.foldl (latchPut n) s.cv).pend = s.cv.pend := by rw [latchPut_kept]
  simp only [writeLatches, h, Bool.false_eq_true, if_false]
  rw [show (vs.foldl (fun (c : Convoy) e =>
      let l0 : Latch := NMap.get {} c.latch e.1
      let l1 : Latch := { val := if n = 1 then e.2.lo.setWidth 64 else e.2, wide := decide (n = 2), valid := true }
      { c with latch := NMap.set {} (NMap.set {} c.latch (32 + e.1) l0) e.1 l1 }) s.cv) = vs.foldl (latchPut n) s.cv from rfl, hp]

/-- Writes of fixed latency where no result is on its way. -/
theorem writeFixed_settled (s : State) (lat : Nat) (ws : List (Loc × DWord)) (h : ∀ e ∈ ws, Settled s.cv e.1) :
    writeFixed s lat ws = { s with cv := { ws.foldl put s.cv with
      pend := s.cv.pend ++ [{ olds := ws.map (fun e => (e.1, getLoc s.cv e.1)), ready := s.cv.opp + lat + 1, pc := curPc s }] } } := by
  simp only [writeFixed, foldl_writeLoc ws s h, foldl_put_pend]

theorem put_exists (c : Convoy) (e : Loc × DWord) : ∃ m o u p l i x r,
    put c e = { c with main := m, opf := o, uni := u, preds := p, latch := l, idx := i, xlim := x, rpoison := r } :=
  ⟨_, _, _, _, _, _, _, _, put_kept c e⟩

theorem foldl_put_exists (ws : List (Loc × DWord)) (c : Convoy) : ∃ m o u p l i x r,
    ws.foldl put c = { c with main := m, opf := o, uni := u, preds := p, latch := l, idx := i, xlim := x, rpoison := r } := by
  induction ws generalizing c with
  | nil => exact ⟨_, _, _, _, _, _, _, _, rfl⟩
  | cons e ws ih =>
    obtain ⟨m, o, u, p, l, i, x, r, h⟩ := put_exists c e
    obtain ⟨m', o', u', p', l', i', x', r', h'⟩ := ih (put c e)
    exact ⟨m', o', u', p', l', i', x', r', by rw [List.foldl_cons, h', h]⟩

theorem settleReads_calm {s : State} {us : List Use} {ps : List Loc} {d : Option (Dst × Nat)} (h : Ready s us ps d) :
    settleReads s us ps = calm s := settleReads_ready h

theorem Ready.forget {s : State} {us : List Use} {ps : List Loc} {d : Option (Dst × Nat)} (h : Ready s us ps d) : Ready s us [] d :=
  ⟨h.bounds, fun l hl => h.settled l (List.mem_append_left _ (by simpa using hl)), h.settledDst, h.clean⟩

theorem clean_calm (s : State) : (actLanes (calm s)).filter (clean (calm s)) = actLanes s := by
  rw [List.filter_eq_self.2]
  · rfl
  · intro t _; simp [clean, calm]

/-- An instruction of fixed latency with a data result, on ready operands: the state it leaves. -/
theorem fixedOp_next {st : Stall} {lat : Nat} {us : List Use} {ps : List Nat} {d : Dst} {n : Nat} {f : State → Nat → DWord}
    {s : State} (h : Ready s us (ps.flatMap (predLocs s)) (some (d, n))) (hf : f (calm s) = f s) :
    fixedOp st lat us ps d n f s = .next (retire st (writeLatches (writeFixed (calm s) lat (laneWrites s d n (f s))) lat n
      ((actLanes s).map (fun t => (t, f s t))))) := by
  have hidx : settleIdx s us (some d) = s := settleIdx_ready h
  have hready : checkReady s (useLocs s us ++ ps.flatMap (predLocs s) ++ dstLocs s d n) = none :=
    checkReady_settled _ _ (fun l hm => (List.mem_append.1 hm).elim (h.settled l) (h.settledDst d n rfl l))
  have hws : ((actLanes s).map (fun t => (t, f s t))).flatMap (fun e => dstWrites (calm s) d n e.1 e.2) =
      laneWrites s d n (f s) := by rw [List.flatMap_map]; rfl
  simp only [fixedOp, hidx, h.bounds, hready, settleReads_calm h, clean_calm, hf, hws]

theorem uniform_writeFixed (s : State) (lat : Nat) (ws : List (Loc × DWord)) (h : ∀ e ∈ ws, Settled s.cv e.1) :
    uniform (writeFixed s lat ws) = uniform s := by
  obtain ⟨m, o, u, p, l, i, x, r, hput⟩ := foldl_put_exists ws s.cv
  rw [writeFixed_settled s lat ws h, hput]; rfl

theorem foldl_put_latch (ws : List (Loc × DWord)) (c : Convoy) (h : ∀ e ∈ ws, ∀ k t, e.1 ≠ .latch k t) :
    (ws.foldl put c).latch = c.latch := by
  induction ws generalizing c with
  | nil => rfl
  | cons e ws ih =>
    rw [List.foldl_cons, ih _ (fun x hx => h x (by simp [hx]))]
    have := h e (by simp)
    unfold put setLoc
    split
    · rfl
    · rfl
    · rfl
    · split <;> rfl
    · next k t hl => exact absurd hl (this k t)
    · rfl
    · rfl

theorem laneWrites_latch {s : State} {d : Dst} {n : Nat} {f : Nat → DWord} (c : Convoy) :
    ((laneWrites s d n f).foldl put c).latch = c.latch := by
  refine foldl_put_latch _ _ ?_
  intro e he k t hel
  obtain ⟨x, _, j, _, hd, _⟩ := mem_laneWrites.1 he
  exact (dstLoc_kind hd).2 k t hel

/-- What an instruction of fixed latency with a data result leaves. -/
theorem fixed_state {st : Stall} {lat : Nat} {d : Dst} {n : Nat} {g : Nat → DWord} {s : State} (hl : 1 ≤ lat)
    (h : ∀ e ∈ laneWrites s d n g, Settled s.cv e.1) :
    FixedEffect st lat d n g s (retire st (writeLatches (writeFixed (calm s) lat (laneWrites s d n g)) lat n
      ((actLanes s).map (fun t => (t, g t))))) := by
  have hset : ∀ e ∈ laneWrites s d n g, Settled (calm s).cv e.1 := h
  have hu := uniform_writeFixed (calm s) lat _ hset
  have hu' : uniform (calm s) = uniform s := rfl
  have hres := laneWrites_holds (s := s) (d := d) (n := n) (f := g) (calm s).cv
  have hoth := laneWrites_others (s := s) (d := d) (n := n) (f := g) (calm s).cv
  have hlat := laneWrites_latch (s := s) (d := d) (n := n) (f := g) (calm s).cv
  have hmem : ∀ l, isDst s d n l → ∃ e ∈ laneWrites s d n g, e.1 = l := by
    rintro l ⟨x, hx, k, hk, hd⟩
    exact ⟨(l, _), mem_laneWrites.2 ⟨x, hx, k, hk, hd, rfl⟩, rfl⟩
  rw [writeFixed_settled (calm s) lat _ hset] at hu ⊢
  generalize hW : laneWrites s d n g = ws at *
  obtain ⟨m, o, u, p, l, i, x, r, hput⟩ := foldl_put_exists ws (calm s).cv
  rw [hput] at hu hres hoth hlat ⊢
  have hget : ∀ a, getLoc (calm s).cv a = getLoc s.cv a := by intro a; cases a <;> rfl
  have hlater : ∀ a, isDst s d n a → ∃ e ∈ ws.map (fun e => (e.1, getLoc (calm s).cv e.1)), e.1 = a := by
    intro a ha
    obtain ⟨e, he, hea⟩ := hmem a ha
    exact ⟨_, List.mem_map.2 ⟨e, he, rfl⟩, hea⟩
  rw [hu'] at hu
  cases hun : uniform s with
  | true =>
    rw [hun] at hu
    simp only [writeLatches, hu, if_true]
    refine ⟨?_, ?_, by simp [hun], by simp [hun], ?_, ?_, ?_, ?_, ?_⟩
    · intro y hy k hk a ha
      rw [getLoc_retire _ _ rfl, ← hres y hy k hk a ha]
      cases a <;> rfl
    · intro a ha
      refine ⟨{ olds := ws.map (fun e => (e.1, getLoc (calm s).cv e.1)), ready := s.cv.opp + lat + 1, pc := curPc (calm s) },
        ?_, rfl, hlater a ha⟩
      rw [retire_cv _ _ rfl]
      simp only [passOn, List.mem_filter, List.mem_append, List.mem_singleton, decide_eq_true_eq]
      exact ⟨.inr rfl, by simp only [calm]; omega⟩
    · intro a ha hd _
      rw [getLoc_retire _ _ rfl, ← hget a, ← hoth a ha hd]
      cases a <;> rfl
    · rw [MovedOn, retire_cv _ _ rfl]; exact ⟨rfl, rfl, rfl⟩
    · rw [ConvoyKept, retire_cv _ _ rfl]; rfl
    · exact (retire_rest _ _ rfl).trans rfl
    · intro a; exact (retire_memory _ _ rfl a).trans rfl
  | false =>
    rw [hun] at hu
    obtain ⟨olds, hlw⟩ := writeLatches_eq _ lat n ((actLanes s).map (fun t => (t, g t))) hu
    rw [hlw]
    generalize hb : ({ ({ (calm s).cv with
      main := m, opf := o, uni := u, preds := p, latch := l, idx := i, xlim := x, rpoison := r } : Convoy) with
      pend := (calm s).cv.pend ++ [{ olds := ws.map (fun e => (e.1, getLoc (calm s).cv e.1)), ready := (calm s).cv.opp + lat + 1, pc := curPc (calm s) }] } : Convoy) = b
    have hbl : b.latch = s.cv.latch := by rw [← hb]; exact hlat
    have hmemL := latchPut_mem n (actLanes s) g b (nodup_actLanes s) (fun _ => lt_of_mem_actLanes)
    have hothL : ∀ j, (∀ y ∈ actLanes s, y ≠ j ∧ 32 + y ≠ j) →
        NMap.get {} (((actLanes s).map (fun t => (t, g t))).foldl (latchPut n) b).latch j = NMap.get {} s.cv.latch j := by
      intro j hj
      rw [latchPut_other, hbl]
      intro e he
      obtain ⟨y, hy, rfl⟩ := List.mem_map.1 he
      exact hj y hy
    rw [latchPut_kept]
    generalize (((actLanes s).map (fun t => (t, g t))).foldl (latchPut n) b).latch = L at hmemL hothL ⊢
    subst hb
    refine ⟨?_, ?_, ?_, ?_, ?_, ?_, ?_, ?_, ?_⟩
    · intro y hy k hk a ha
      rw [getLoc_retire _ _ rfl, ← hres y hy k hk a ha]
      have hk := (dstLoc_kind ha).2
      cases a with
      | latch i t => exact absurd rfl (hk i t)
      | _ => rfl
    · intro a ha
      refine ⟨{ olds := ws.map (fun e => (e.1, getLoc (calm s).cv e.1)), ready := s.cv.opp + lat + 1, pc := curPc (calm s) },
        ?_, rfl, hlater a ha⟩
      rw [retire_cv _ _ rfl]
      simp only [passOn, List.mem_filter, List.mem_append, List.mem_singleton, decide_eq_true_eq]
      exact ⟨.inl (.inr rfl), by simp only [calm]; omega⟩
    · intro _ y hy
      rw [retire_cv _ _ rfl]; exact (hmemL y hy).1
    · intro _ y hy
      rw [retire_cv _ _ rfl]; exact (hmemL y hy).2.trans (by rw [hbl])
    · intro a ha hd hla
      rw [getLoc_retire _ _ rfl, ← hget a, ← hoth a ha hd]
      cases a with
      | latch j t =>
        have hnl := hla hun
        simp only [realLoc] at ha
        simp only [getLoc]
        rw [hothL (32 * j + t), show l = s.cv.latch from hlat]
        · intro y hy
          have hy32 := lt_of_mem_actLanes hy
          refine ⟨fun h => hnl ⟨y, hy, .inl ?_⟩, fun h => hnl ⟨y, hy, .inr ?_⟩⟩ <;> congr 1 <;> omega
      | _ => rfl
    · rw [MovedOn, retire_cv _ _ rfl]; exact ⟨rfl, rfl, rfl⟩
    · rw [ConvoyKept, retire_cv _ _ rfl]; rfl
    · exact (retire_rest _ _ rfl).trans rfl
    · intro a; exact (retire_memory _ _ rfl a).trans rfl

/-- An instruction of fixed latency with a data result, on ready operands. -/
theorem fixedOp_effect {st : Stall} {lat : Nat} {us : List Use} {ps : List Nat} {d : Dst} {n : Nat} {f : State → Nat → DWord}
    {s : State} (hl : 1 ≤ lat) (h : Ready s us (ps.flatMap (predLocs s)) (some (d, n))) (hf : f (calm s) = f s) :
    ∃ t, fixedOp st lat us ps d n f s = .next t ∧ FixedEffect st lat d n (f s) s t :=
  ⟨_, fixedOp_next h hf, fixed_state hl (settled_laneWrites h)⟩

/-! Predicate results -/

/-- The writes of a predicate in each acting thread. -/
def predWrites (s : State) (k : Nat) (g : Nat → Bool) : List (Loc × DWord) :=
  (actLanes s).map (fun t => (Loc.pred k t, BitVec.ofNat 64 (b2n (g t))))

theorem getLsbD_b2n (b : Bool) : (BitVec.ofNat 64 (b2n b)).getLsbD 0 = b := by cases b <;> rfl

/-- The predicates after a write of one in each of a list of threads. -/
theorem predWrites_mem (k : Nat) (g : Nat → Bool) (hk : k ≠ 7) (xs : List Nat) (c : Convoy) :
    ∀ x ∈ xs, NMap.get false ((xs.map (fun t => (Loc.pred k t, BitVec.ofNat 64 (b2n (g t))))).foldl put c).preds (32 * k + x) = g x := by
  have hone : ∀ (c : Convoy) (y x : Nat), NMap.get false (put c (Loc.pred k y, BitVec.ofNat 64 (b2n (g y)))).preds (32 * k + x) =
      if y = x then g y else NMap.get false c.preds (32 * k + x) := by
    intro c y x
    simp only [put, setLoc, hk, if_false, getLsbD_b2n]
    rw [NMap.get_set]
    by_cases h : y = x
    · simp [h]
    · have : ¬ 32 * k + y = 32 * k + x := by omega
      simp [h, this]
  have hkeep : ∀ (ys : List Nat) (c : Convoy) (x : Nat), x ∉ ys →
      NMap.get false ((ys.map (fun t => (Loc.pred k t, BitVec.ofNat 64 (b2n (g t))))).foldl put c).preds (32 * k + x) =
        NMap.get false c.preds (32 * k + x) := by
    intro ys
    induction ys with
    | nil => intro c x _; rfl
    | cons y ys ih =>
      intro c x hx
      simp only [List.mem_cons, not_or] at hx
      rw [List.map_cons, List.foldl_cons, ih _ _ hx.2, hone, if_neg (fun h => hx.1 h.symm)]
  induction xs generalizing c with
  | nil => simp
  | cons y ys ih =>
    intro x hx
    rw [List.map_cons, List.foldl_cons]
    by_cases hm : x ∈ ys
    · exact ih _ x hm
    · rcases List.mem_cons.1 hx with rfl | h
      · rw [hkeep _ _ _ hm, hone, if_pos rfl]
      · exact absurd h hm

/-- An instruction of fixed latency that writes a predicate, on ready operands; the predicate is settled too. -/
theorem predOp_effect {st : Stall} {lat : Nat} {us : List Use} {ps : List Nat} {k : Nat} {f : State → Nat → Bool} {s : State}
    (hl : 1 ≤ lat) (h : Ready s us (ps.flatMap (predLocs s)) none) (hk : ∀ l ∈ predLocs s k, Settled s.cv l)
    (hf : f (calm s) = f s) : ∃ t, predOp st lat us ps k f s = .next t ∧ PredEffect st lat k (f s) s t := by
  have hidx : settleIdx s us none = s := settleIdx_ready h
  have hready : checkReady s (useLocs s us ++ ps.flatMap (predLocs s) ++ predLocs s k) = none :=
    checkReady_settled _ _ (fun l hm => (List.mem_append.1 hm).elim (h.settled l) (hk l))
  let ws := if k = 7 then [] else predWrites s k (f s)
  have hset : ∀ e ∈ ws, Settled (calm s).cv e.1 := by
    intro e he
    by_cases h7 : k = 7
    · simp [ws, h7] at he
    · simp only [ws, h7, if_false, predWrites, List.mem_map] at he
      obtain ⟨x, hx, rfl⟩ := he
      exact hk _ (by simp only [predLocs, h7, if_false, List.mem_map]; exact ⟨x, hx, rfl⟩)
  have hnext : predOp st lat us ps k f s = .next (retire st (writeFixed (calm s) lat ws)) := by
    simp only [predOp, hidx, h.bounds, hready, settleReads_calm h, clean_calm, hf]
    rfl
  refine ⟨_, hnext, ?_⟩
  rw [writeFixed_settled (calm s) lat ws hset]
  have hreal : ∀ e ∈ ws, realLoc e.1 := by
    intro e he
    by_cases h7 : k = 7
    · simp [ws, h7] at he
    · simp only [ws, h7, if_false, predWrites, List.mem_map] at he
      obtain ⟨x, hx, rfl⟩ := he
      exact lt_of_mem_actLanes hx
  have hoth := fun l hl hn => getLoc_foldl_other ws (calm s).cv l hl hreal hn
  have hres : k ≠ 7 → ∀ x ∈ actLanes s, NMap.get false (ws.foldl put (calm s).cv).preds (32 * k + x) = f s x := by
    intro h7 x hx
    simp only [ws, h7, if_false]
    exact predWrites_mem k (f s) h7 (actLanes s) _ x hx
  obtain ⟨m, o, u, p, l, i, x, r, hput⟩ := foldl_put_exists ws (calm s).cv
  rw [hput] at hoth hres ⊢
  have hget : ∀ a, getLoc (calm s).cv a = getLoc s.cv a := by intro a; cases a <;> rfl
  refine ⟨?_, ?_, ?_, ?_, ?_, ?_, ?_⟩
  · intro h7 y hy
    rw [retire_cv _ _ rfl]
    exact hres h7 y hy
  · intro h7 y hy
    refine ⟨{ olds := ws.map (fun e => (e.1, getLoc (calm s).cv e.1)), ready := s.cv.opp + lat + 1, pc := curPc (calm s) }, ?_, rfl, ?_⟩
    · rw [retire_cv _ _ rfl]
      simp only [passOn, List.mem_filter, List.mem_append, List.mem_singleton, decide_eq_true_eq]
      exact ⟨.inr rfl, by simp only [calm]; omega⟩
    · refine ⟨_, List.mem_map.2 ⟨(Loc.pred k y, BitVec.ofNat 64 (b2n (f s y))), ?_, rfl⟩, rfl⟩
      simp only [ws, h7, if_false]
      exact List.mem_map.2 ⟨y, hy, rfl⟩
  · intro a ha hne
    rw [getLoc_retire _ _ rfl, ← hget a, ← hoth a ha ?_]
    · cases a <;> rfl
    · intro e he hea
      by_cases h7 : k = 7
      · simp [ws, h7] at he
      · simp only [ws, h7, if_false, predWrites, List.mem_map] at he
        obtain ⟨y, hy, rfl⟩ := he
        exact (hne.resolve_left h7) y hy hea.symm
  · rw [MovedOn, retire_cv _ _ rfl]; exact ⟨rfl, rfl, rfl⟩
  · rw [ConvoyKept, retire_cv _ _ rfl]; rfl
  · exact (retire_rest _ _ rfl).trans rfl
  · intro a; exact (retire_memory _ _ rfl a).trans rfl

/-! Hold instructions and instructions whose results come later -/

/-- A hold instruction with a data result, on ready operands. -/
theorem holdOp_effect {st : Stall} {us : List Use} {ps : List Nat} {d : Dst} {n : Nat} {f : State → Nat → DWord} {s : State}
    (h : Ready s us (ps.flatMap (predLocs s)) (some (d, n))) (hf : f (calm s) = f s) :
    ∃ t, holdOp st us ps d n f s = .next t ∧ HoldEffect st d n (f s) s t := by
  have hidx : settleIdx s us (some d) = s := settleIdx_ready h
  have hready : checkReady s (useLocs s us ++ ps.flatMap (predLocs s) ++ dstLocs s d n) = none :=
    checkReady_settled _ _ (fun l hm => (List.mem_append.1 hm).elim (h.settled l) (h.settledDst d n rfl l))
  have hset : ∀ e ∈ laneWrites s d n (f s), Settled (calm s).cv e.1 := settled_laneWrites h
  have hnext : holdOp st us ps d n f s = .next (retire st { calm s with cv := (laneWrites s d n (f s)).foldl put (calm s).cv }) := by
    simp only [holdOp, hidx, h.bounds, hready, settleReads_calm h, clean_calm, hf]
    rw [show (actLanes s).flatMap (fun t => dstWrites (calm s) d n t (f s t)) = laneWrites s d n (f s) from rfl,
      foldl_writeLoc _ _ hset]
  refine ⟨_, hnext, ?_⟩
  have hres := laneWrites_holds (s := s) (d := d) (n := n) (f := f s) (calm s).cv
  have hoth := laneWrites_others (s := s) (d := d) (n := n) (f := f s) (calm s).cv
  obtain ⟨m, o, u, p, l, i, x, r, hput⟩ := foldl_put_exists (laneWrites s d n (f s)) (calm s).cv
  rw [hput] at hoth hres ⊢
  have hget : ∀ a, getLoc (calm s).cv a = getLoc s.cv a := by intro a; cases a <;> rfl
  refine ⟨?_, ?_, ?_, ?_, ?_, ?_⟩
  · intro y hy k hk a ha
    rw [getLoc_retire _ _ rfl]; exact hres y hy k hk a ha
  · intro a ha hd
    rw [getLoc_retire _ _ rfl, ← hget a]; exact hoth a ha hd
  · rw [MovedOn, retire_cv _ _ rfl]; exact ⟨rfl, rfl, rfl⟩
  · rw [ConvoyKept, retire_cv _ _ rfl]; rfl
  · exact (retire_rest _ _ rfl).trans rfl
  · intro a; exact (retire_memory _ _ rfl a).trans rfl

theorem addUnits_cons (c : Convoy) (u : Pending) (us : List Pending) :
    addUnits c (u :: us) = addUnits (addUnits c [u]) us := rfl

/-- What adding units leaves: the units in order, the count of their token, and nothing else. -/
theorem addUnits_counted (tok : Nat) (new : List Pending) (c : Convoy) (h : ∀ u ∈ new, u.tok = some tok) :
    (addUnits c new).units = c.units ++ new.zipIdx.map (fun e => { e.1 with seq := c.useq + e.2 }) ∧
    tokCount (addUnits c new) tok = tokCount c tok + new.length ∧
    (∀ k, k ≠ tok → tokCount (addUnits c new) k = tokCount c k) ∧
    (addUnits c new).useq = c.useq + new.length ∧
    addUnits c new = { c with
      units := (addUnits c new).units, tok := (addUnits c new).tok, useq := (addUnits c new).useq } := by
  induction new generalizing c with
  | nil => simp [addUnits]
  | cons u us ih =>
    have hu := h u (by simp)
    have h1 : addUnits c [u] = { c with
        useq := c.useq + 1, units := c.units ++ [{ u with seq := c.useq }], tok := NMap.set 0 c.tok tok (tokCount c tok + 1) } := by
      simp [addUnits, hu]
    have hc : tokCount (addUnits c [u]) tok = tokCount c tok + 1 := by simp [h1, tokCount]
    have ho : ∀ k, k ≠ tok → tokCount (addUnits c [u]) k = tokCount c k := by
      intro k hk; simp [h1, tokCount, NMap.get_set_other _ _ (Ne.symm hk)]
    obtain ⟨i1, i2, i3, i4, i5⟩ := ih (addUnits c [u]) (fun x hx => h x (by simp [hx]))
    rw [addUnits_cons]
    refine ⟨?_, ?_, ?_, ?_, ?_⟩
    · rw [i1, h1]
      simp only [List.append_assoc, List.append_cancel_left_eq, List.zipIdx_cons, List.map_cons, List.cons_append, List.nil_append]
      congr 1
      rw [List.zipIdx_succ, List.map_map]
      apply List.map_congr_left
      intro e _
      simp only [Function.comp]; congr 1; omega
    · rw [i2, hc]; simp; omega
    · intro k hk; rw [i3 k hk, ho k hk]
    · rw [i4, h1]; simp; omega
    · rw [i5, h1]

/-- An instruction that ends with units added to its convoy, after changes elsewhere that keep the convoy's own state. -/
theorem retire_units {st : Stall} {tok : Nat} {new : List Pending} {s : State} (s1 : State) (hb : s1.cv.bad = 0#32)
    (h : ∀ u ∈ new, u.tok = some tok) (hc : s1.cv = { s.cv with bad := 0#32 }) :
    Counted tok new s (retire st { s1 with cv := addUnits s1.cv new }) ∧
    MovedOn st s (retire st { s1 with cv := addUnits s1.cv new }) ∧
    UnitsKept s.cv (retire st { s1 with cv := addUnits s1.cv new }).cv ∧
    RestKept s1 (retire st { s1 with cv := addUnits s1.cv new }) ∧
    MemoryKept s1 (retire st { s1 with cv := addUnits s1.cv new }) := by
  obtain ⟨i1, i2, i3, _, i5⟩ := addUnits_counted tok new s1.cv h
  have hbad : ({ s1 with cv := addUnits s1.cv new } : State).cv.bad = 0#32 := by
    show (addUnits s1.cv new).bad = 0#32
    rw [i5]; exact hb
  have hcv := retire_cv st { s1 with cv := addUnits s1.cv new } hbad
  refine ⟨⟨?_, ?_, ?_⟩, ?_, ?_, ?_, ?_⟩
  · rw [hcv]; refine i1.trans ?_; rw [hc]
  · rw [hcv]; refine i2.trans ?_; rw [hc]; rfl
  · intro k hk; rw [hcv]; refine (i3 k hk).trans ?_; rw [hc]; rfl
  · rw [MovedOn, hcv]; simp only [passOn]; rw [i5, hc]; simp
  · rw [UnitsKept, hcv]; simp only [passOn]; rw [i5, hc]
  · exact (retire_rest _ _ hbad).trans rfl
  · intro a; exact (retire_memory _ _ hbad a).trans rfl

/-- An instruction whose one unit writes its results later, on ready operands and with room on its token. -/
theorem valueOp_effect {st : Stall} {tok : Tok} {us : List Use} {ps : List Loc} {d : Dst} {n : Nat} {f : State → Nat → DWord}
    {s : State} (h : Ready s us ps (some (d, n))) (hr : tokRoom s.cv tok.toNat 1 = true) (hf : f (calm s) = f s) :
    ∃ t, valueOp st tok us d n f s = .next t ∧ ValueEffect st tok d n (f s) s t := by
  have hidx : settleIdx s us (some d) = s := settleIdx_ready h
  have hready : checkReady s (useLocs s us ++ dstLocs s d n) = none :=
    checkReady_settled _ _ (fun l hm =>
      (List.mem_append.1 hm).elim (fun hm => h.settled l (by simp [hm])) (h.settledDst d n rfl l))
  let u : Pending :=
    { seq := 0, tok := some tok.toNat, kind := .value, mask := activeMask s, pc := curPc s, writes := laneWrites s d n (f s) }
  have hnext : valueOp st tok us d n f s = .next (retire st { calm s with cv := addUnits (calm s).cv [u] }) := by
    simp only [valueOp, hidx, h.bounds, hready, hr, settleReads_calm h.forget, clean_calm, hf]
    rfl
  obtain ⟨hc, hm, hk, hrest, hmem⟩ := retire_units (st := st) (tok := tok.toNat) (new := [u]) (s := s) (calm s) rfl
    (by intro x hx; rw [List.mem_singleton] at hx; rw [hx]) rfl
  refine ⟨_, hnext, ⟨u, rfl, rfl, hc, ?_, ?_⟩, hm, hk, hrest.trans rfl, fun a => (hmem a).trans rfl⟩
  · intro x hx k hk l hl
    exact ⟨(l, ((f s x >>> (32 * k)).setWidth 32 : Word).setWidth 64), mem_laneWrites.2 ⟨x, hx, k, hk, hl, rfl⟩, rfl, lo_setWidth _⟩
  · intro e he
    obtain ⟨x, hx, k, hk, hd, _⟩ := mem_laneWrites.1 he
    exact ⟨x, hx, k, hk, hd⟩

end Sys2Proof.Machine
end

