-- ==== Sys2Proof/Laws/Flt.lean ====
section
/-! SUPPORT. The FLT and PKD instructions, the compares and the special functions are the shared shapes with the rules' values. -/

namespace Sys2Proof.Machine

theorem icond_rule (c : Cond) (a b : Word) : icond c a b = wordCond c a b := by cases c <;> rfl

theorem logFn_rule (f : LogFn) (x y : Bool) : logFn f x y = logicRule f x y := by cases f <;> cases x <;> cases y <;> rfl

theorem negabsV_rule (op : NegOp) (x : Word) : negabsV op x = signRule op x := by
  have hs : ∀ i, (0x80000000#32).getLsbD i = decide (i = 31) := by
    intro i
    rw [show (0x80000000#32 : Word) = BitVec.twoPow 32 31 by decide, BitVec.getLsbD_twoPow]
    by_cases h : i = 31 <;> simp [h, eq_comm]
  have hm : ∀ i, i < 32 → (0x7FFFFFFF#32).getLsbD i = decide (i ≠ 31) := by decide
  unfold signRule
  by_cases h : fval .f32 x.toNat = .nan
  · simp only [negabsV, h]; rfl
  · simp only [h, if_false]
    apply eq_bitsWord
    intro i hi
    cases op <;> simp only [negabsV]
    · rw [BitVec.getLsbD_xor, hs]; by_cases e : i = 31 <;> simp [e]
    · rw [BitVec.getLsbD_and, hm i hi]; by_cases e : i = 31 <;> simp [e]
    · rw [BitVec.getLsbD_or, hs]; by_cases e : i = 31 <;> simp [e]

theorem fclassW_rule (x : Word) : fclassW x = BitVec.twoPow 32 (classBit x) := by
  have he : slice x.toNat 30 23 = (x.extractLsb' 23 8).toNat := by simp [slice]
  have hf : slice x.toNat 22 0 = (x.extractLsb' 0 23).toNat := by simp [slice]
  have hb : bitAt (x.extractLsb' 0 23).toNat 22 = x.getLsbD 22 := by
    rw [← hf]; simp only [bitAt, slice, Nat.shiftRight_zero, Nat.testBit_mod_two_pow]; simp [BitVec.getLsbD]
  rw [fclassW, BitVec.twoPow, he, hf, hb]
  congr 1
  unfold classBit
  generalize (x.extractLsb' 23 8).toNat = e
  generalize (x.extractLsb' 0 23).toNat = f
  by_cases h1 : e = 255
  · subst h1
    cases hs : x.getLsbD 31 <;> by_cases h2 : f = 0 <;> simp [h2]
  · cases hs : x.getLsbD 31 <;> by_cases h2 : e = 0 <;> by_cases h3 : f = 0 <;> simp [h1, h2, h3]

theorem ilog2_two_pow {y : Q} {b : Nat} (hd : y.den = 2 ^ b) (hn : y.num.natAbs ≠ 0) :
    y.ilog2 = (y.num.natAbs.log2 : Int) - b := by
  have hlog : (2 ^ b : Nat).log2 = b := Nat.log2_two_pow
  have hle := Nat.log2_self_le hn
  unfold Q.ilog2
  simp only [hd, hlog]
  generalize y.num.natAbs = n at *
  by_cases h : b ≤ n.log2
  · have : 2 ^ b * 2 ^ (n.log2 - b) ≤ n := by
      rw [← pow_add, show b + (n.log2 - b) = n.log2 by omega]; exact hle
    simp [h, this]
  · have : 2 ^ b ≤ n * 2 ^ (b - n.log2) := by
      have e : 2 ^ b = 2 ^ n.log2 * 2 ^ (b - n.log2) := by rw [← pow_add]; congr 1; omega
      rw [e]; exact Nat.mul_le_mul_right _ hle
    simp [h, this]

theorem roundMag_ge (rm : RMode) (neg : Bool) (x : Q) : x.num.natAbs / x.den ≤ roundMag rm neg x := by
  unfold roundMag
  dsimp only
  cases rm <;> simp only <;> split <;> first | exact Nat.le_succ _ | exact le_rfl

/-- A value far above the greatest finite one overflows, whatever it is. -/
theorem roundTo_big {y : Q} {b : Nat} (rm : RMode) (sat : Bool) (hd : y.den = 2 ^ b) (hb : 2 ^ (b + 200) ≤ y.num.natAbs) :
    roundTo .f32 rm sat y = overflowed .f32 rm sat y.isNeg := by
  have hn : y.num.natAbs ≠ 0 := by have := Nat.two_pow_pos (b + 200); omega
  have hL : b + 200 ≤ y.num.natAbs.log2 := (Nat.le_log2 hn).2 hb
  have hself := Nat.log2_self_le hn
  unfold roundTo
  rw [ilog2_two_pow hd hn]
  have he : max ((y.num.natAbs.log2 : Int) - b) (Fmt.emin .f32) = (y.num.natAbs.log2 : Int) - b := by
    apply max_eq_left; simp [Fmt.emin, Fmt.ff, Fmt.float]; omega
  rw [he]
  simp only
  have hwf : ((Fmt.ff .f32).wf : Int) = 23 := rfl
  rw [hwf]
  generalize hl : y.num.natAbs.log2 = L at *
  set k : Int := (L : Int) - b - 23 with hk
  have hk0 : 0 ≤ k := by omega
  have hsh : (y.abs.shift (-k)) = ⟨(y.num.natAbs : Int) * 1, 2 ^ b * 2 ^ k.toNat⟩ := by
    by_cases h : k = 0
    · simp [Q.shift, Q.mul, Q.abs, Q.scaled, h, hd]
    · simp [Q.shift, Q.mul, Q.abs, Q.scaled, hd, show ¬ k ≤ 0 by omega]
  have hm : 2 ^ 23 ≤ roundMag rm y.isNeg (y.abs.shift (-k)) := by
    refine le_trans ?_ (roundMag_ge _ _ _)
    rw [hsh, Nat.le_div_iff_mul_le (by positivity)]
    simp only [mul_one, Int.natAbs_natCast]
    rw [← pow_add, ← pow_add, show 23 + (b + k.toNat) = L by omega]; exact hself
  generalize roundMag rm y.isNeg (y.abs.shift (-k)) = m at hm
  have hm0 : m ≠ 0 := by omega
  simp only [hm0, if_false]
  have hz : (Q.scaled (if y.isNeg then -(m : Int) else m) k).abs.le (Fmt.maxFinite .f32) = false := by
    have habs : (Q.scaled (if y.isNeg then -(m : Int) else m) k).abs = ⟨((m * 2 ^ k.toNat : Nat) : Int), 1⟩ := by
      simp only [Q.scaled, hk0, if_true, Q.abs]
      congr 1
      cases y.isNeg <;> simp [Int.natAbs_mul]
    have hmax : Fmt.maxFinite .f32 = ⟨(2 ^ 24 - 1) * 2 ^ 104, 1⟩ := by decide
    rw [habs, hmax]
    simp only [Q.le, decide_eq_false_iff_not, not_le]
    have h1 : 2 ^ 23 * 2 ^ 177 ≤ m * 2 ^ k.toNat := Nat.mul_le_mul hm (Nat.pow_le_pow_right (by omega) (by omega))
    have : ((2 : Int) ^ 24 - 1) * 2 ^ 104 < ((m * 2 ^ k.toNat : Nat) : Int) := by
      refine lt_of_lt_of_le ?_ (Int.ofNat_le.2 h1); norm_num
    push_cast at this ⊢; linarith
  rw [hz]; simp

/-- What a value far below half of the least one rounds to. -/
def tiny (rm : RMode) (sat neg : Bool) : FV :=
  let m : Nat := match rm with
    | .rne => 0
    | .rtz => 0
    | .rdn => b2n neg
    | .rup => b2n (!neg)
  if m = 0 then .zero neg else .fin (Q.scaled (if neg then -(m : Int) else m) (-149))

theorem roundTo_small {y : Q} {b : Nat} (rm : RMode) (sat : Bool) (hd : y.den = 2 ^ b) (hn : y.num.natAbs ≠ 0)
    (hs : y.num.natAbs * 2 ^ 200 ≤ 2 ^ b) : roundTo .f32 rm sat y = tiny rm sat y.isNeg := by
  have hself := Nat.log2_self_le hn
  unfold roundTo
  rw [ilog2_two_pow hd hn]
  have hLb : y.num.natAbs.log2 + 200 ≤ b := by
    have : 2 ^ (y.num.natAbs.log2 + 200) ≤ 2 ^ b := by
      rw [pow_add]; exact le_trans (Nat.mul_le_mul_right _ hself) hs
    exact (Nat.pow_le_pow_iff_right (by omega)).1 this
  have he : max ((y.num.natAbs.log2 : Int) - b) (Fmt.emin .f32) = -126 := by
    rw [show Fmt.emin .f32 = -126 by decide]; apply max_eq_right; omega
  rw [he]
  have hwf : ((Fmt.ff .f32).wf : Int) = 23 := rfl
  simp only [hwf]
  have hsh : (y.abs.shift (-(-126 - 23 : Int))) = ⟨(y.num.natAbs : Int) * 2 ^ 149, 2 ^ b⟩ := by
    simp [Q.shift, Q.mul, Q.abs, Q.scaled, hd]
  rw [hsh]
  have hm : roundMag rm y.isNeg ⟨(y.num.natAbs : Int) * 2 ^ 149, 2 ^ b⟩ = (match rm with
    | .rne => 0
    | .rtz => 0
    | .rdn => b2n y.isNeg
    | .rup => b2n (!y.isNeg)) := by
    have hnum : ((y.num.natAbs : Int) * 2 ^ 149).natAbs = y.num.natAbs * 2 ^ 149 := by
      rw [Int.natAbs_mul, Int.natAbs_natCast]; rfl
    generalize y.num.natAbs = n at *
    have h2 : 2 * (n * 2 ^ 149) < 2 ^ b := by
      refine lt_of_lt_of_le ?_ hs
      have : 0 < n := by omega
      nlinarith [Nat.two_pow_pos 149]
    have hlt : n * 2 ^ 149 < 2 ^ b := by omega
    have hpos : n * 2 ^ 149 ≠ 0 := by have := Nat.two_pow_pos 149; positivity
    unfold roundMag
    simp only [hnum, Nat.div_eq_of_lt hlt, Nat.mod_eq_of_lt hlt]
    cases rm
    · simp only [show ¬ 2 * (n * 2 ^ 149) > 2 ^ b by omega, show ¬ 2 * (n * 2 ^ 149) = 2 ^ b by omega]; simp
    · simp
    · simp only [ne_eq, hpos]; cases y.isNeg <;> simp [b2n]
    · simp only [ne_eq, hpos]; cases y.isNeg <;> simp [b2n]
  rw [hm]
  unfold tiny
  simp only
  generalize hg : (match rm with
    | .rne => 0
    | .rtz => 0
    | .rdn => b2n y.isNeg
    | .rup => b2n (!y.isNeg)) = m
  have hm1 : m = 0 ∨ m = 1 := by
    subst hg; cases rm <;> simp [b2n] <;> cases y.isNeg <;> simp
  rcases hm1 with rfl | rfl
  · simp
  · simp only [one_ne_zero, if_false, show (-126 - 23 : Int) = -149 by norm_num]
    have : (Q.scaled (if y.isNeg then -((1 : Nat) : Int) else ((1 : Nat) : Int)) (-149)).abs.le (Fmt.maxFinite .f32) = true := by
      cases y.isNeg <;> decide
    rw [this]; simp

/-- The parts of a finite binary32 value. -/
theorem fval_f32_parts {x : Nat} {q : Q} (h : fval .f32 x = .fin q) :
    ∃ j, q.den = 2 ^ j ∧ j ≤ 149 ∧ q.num.natAbs ≠ 0 ∧ q.num.natAbs < 2 ^ 128 := by
  have hx : ∀ (neg : Bool) (m : Nat) (k : Int), m ≠ 0 → m < 2 ^ 24 → -149 ≤ k → k ≤ 104 → q = Q.scaled (if neg then -(m : Int) else m) k →
      ∃ j, q.den = 2 ^ j ∧ j ≤ 149 ∧ q.num.natAbs ≠ 0 ∧ q.num.natAbs < 2 ^ 128 := by
    intro neg m k hm hlt h1 h2 hq
    have habs : (if neg then -(m : Int) else m).natAbs = m := by cases neg <;> simp
    subst hq
    by_cases hk : 0 ≤ k
    · refine ⟨0, ?_, by omega, ?_, ?_⟩
      · simp [Q.scaled, hk]
      · simp only [Q.scaled, hk, if_true, Int.natAbs_mul, habs, Int.natAbs_natCast]
        have := Nat.two_pow_pos k.toNat
        positivity
      · simp only [Q.scaled, hk, if_true, Int.natAbs_mul, habs, Int.natAbs_natCast]
        calc m * 2 ^ k.toNat < 2 ^ 24 * 2 ^ k.toNat := Nat.mul_lt_mul_of_pos_right hlt (Nat.two_pow_pos _)
          _ ≤ 2 ^ 24 * 2 ^ 104 := Nat.mul_le_mul_left _ (Nat.pow_le_pow_right (by omega) (by omega))
          _ = 2 ^ 128 := by norm_num
    · refine ⟨(-k).toNat, ?_, by omega, ?_, ?_⟩
      · simp [Q.scaled, hk]
      · simp only [Q.scaled, hk, if_false, habs]; exact hm
      · simp only [Q.scaled, hk, if_false, habs]
        exact lt_of_lt_of_le hlt (by norm_num)
  have hff : Fmt.ff .f32 = ⟨8, 23, 127⟩ := rfl
  simp only [fval, hff] at h
  have hslice : slice x (23 + 8 - 1) 23 < 256 := by unfold slice; exact Nat.mod_lt _ (by norm_num)
  have hmod : x % 2 ^ 23 < 2 ^ 23 := Nat.mod_lt _ (by positivity)
  generalize slice x (23 + 8 - 1) 23 = e at *
  generalize x % 2 ^ 23 = fr at *
  by_cases he : e = 2 ^ 8 - 1
  · simp only [he, if_true] at h; split at h <;> simp at h
  · simp only [he, if_false] at h
    split at h
    · simp at h
    · rename_i h0
      injection h with h
      by_cases e0 : e = 0
      · simp only [e0, if_true] at h
        exact hx _ fr (1 - 127 - (23 : Nat)) (by intro c; exact h0 ⟨e0, c⟩) (by omega) (by norm_num) (by norm_num) h.symm
      · simp only [e0, if_false] at h
        exact hx _ (2 ^ 23 + fr) (e - 127 - (23 : Nat)) (by positivity) (by omega) (by push_cast; omega) (by push_cast; omega) h.symm

theorem shift_isNeg (q : Q) (n : Int) : (q.shift n).isNeg = q.isNeg := by
  simp only [Q.shift, Q.mul, Q.isNeg, Q.scaled]
  congr 1
  by_cases h : 0 ≤ n
  · simp only [h, if_true, eq_iff_iff]
    have : (0 : Int) < 1 * ((2 ^ n.toNat : Nat) : Int) := by positivity
    constructor
    · intro hl; by_contra hc; nlinarith
    · intro hl; nlinarith
  · simp [h]

theorem shift_ne_zero {q : Q} (hq : q.num.natAbs ≠ 0) (n : Int) : (q.shift n).num.natAbs ≠ 0 := by
  simp only [Q.shift, Q.mul, Int.natAbs_mul]
  apply mul_ne_zero hq
  simp only [Q.scaled]; split <;> simp

/-- Scaling a finite binary32 value by 2ⁿ with |n| ≥ 1000 rounds as scaling by the nearer bound does. -/
theorem fresult_scale {x : Nat} {q : Q} (h : fval .f32 x = .fin q) (rm : RMode) (sat ftzo : Bool) (n : Int) :
    fresult .f32 rm sat ftzo (.fin (q.shift (min (max n (-1000)) 1000))) = fresult .f32 rm sat ftzo (.fin (q.shift n)) := by
  obtain ⟨j, hd, hj, hq, hlt⟩ := fval_f32_parts h
  have hz : ∀ m : Int, (q.shift m).isZero = false := by
    intro m; have := shift_ne_zero hq m
    simp only [Q.isZero, decide_eq_false_iff_not]; intro c; exact this (by rw [c]; rfl)
  have hbig : ∀ m : Int, 1000 ≤ m → roundTo .f32 rm sat (q.shift m) = overflowed .f32 rm sat q.isNeg := by
    intro m hm
    have hm0 : 0 ≤ m := by omega
    rw [roundTo_big (b := j) rm sat, shift_isNeg]
    · simp [Q.shift, Q.mul, Q.scaled, hm0, hd]
    · simp only [Q.shift, Q.mul, Q.scaled, hm0, if_true, Int.natAbs_mul, Int.natAbs_natCast, Int.natAbs_one, one_mul]
      calc 2 ^ (j + 200) ≤ 1 * 2 ^ m.toNat := by rw [one_mul]; exact Nat.pow_le_pow_right (by omega) (by omega)
        _ ≤ q.num.natAbs * 2 ^ m.toNat := Nat.mul_le_mul_right _ (by omega)
  have hsmall : ∀ m : Int, m ≤ -1000 → roundTo .f32 rm sat (q.shift m) = tiny rm sat q.isNeg := by
    intro m hm
    have hm0 : ¬ 0 ≤ m := by omega
    rw [roundTo_small (b := j + (-m).toNat) rm sat, shift_isNeg]
    · simp [Q.shift, Q.mul, Q.scaled, hm0, hd, pow_add]
    · exact shift_ne_zero hq m
    · simp only [Q.shift, Q.mul, Q.scaled, hm0, if_false, mul_one]
      calc q.num.natAbs * 2 ^ 200 ≤ 2 ^ 128 * 2 ^ 200 := Nat.mul_le_mul_right _ (by omega)
        _ = 2 ^ 328 := (pow_add 2 128 200).symm
        _ ≤ 2 ^ (j + (-m).toNat) := Nat.pow_le_pow_right (by omega) (by omega)
  by_cases h1 : 1000 ≤ n
  · rw [show min (max n (-1000)) 1000 = 1000 by omega]
    simp only [fresult, hz, hbig n h1, hbig 1000 le_rfl]
  · by_cases h2 : n ≤ -1000
    · rw [show min (max n (-1000)) 1000 = -1000 by omega]
      simp only [fresult, hz, hsmall n h2, hsmall (-1000) le_rfl]
    · rw [show min (max n (-1000)) 1000 = n by omega]

theorem fscaleV_rule (f : FFlags) (rm : RMode) (a b : Word) :
    fscaleV f rm a b = fout .f32 rm f.sat f.ftzo (scaleRule (fin_ .f32 f.ftzi a.toNat) b.toInt) := by
  unfold fscaleV fout outF fin_ f32In
  congr 2
  cases hv : flush .f32 f.ftzi (fval .f32 a.toNat) with
  | fin q =>
    have hq : fval .f32 a.toNat = .fin q := by
      unfold flush at hv; split at hv
      · simp at hv
      · exact hv
    simp only [scaleRule, sx]
    exact congrArg (fun v => BitVec.ofNat 64 (enc .f32 v)) (fresult_scale hq rm f.sat f.ftzo b.toInt)
  | _ => rfl

/-- The sum that a packed register is made of. -/
def packSum (w : Nat) (e : Nat → Nat) (n : Nat) : Nat :=
  ((((List.range n).map e).zipIdx).foldl (fun acc x => acc + (x.1 % 2 ^ w) * 2 ^ (w * x.2)) 0)

theorem packSum_succ (w : Nat) (e : Nat → Nat) (n : Nat) : packSum w e (n + 1) = packSum w e n + (e n % 2 ^ w) * 2 ^ (w * n) := by
  simp [packSum, List.range_succ, List.zipIdx_append]

theorem packSum_lt (w : Nat) (e : Nat → Nat) (n : Nat) : packSum w e n < 2 ^ (w * n) := by
  induction n with
  | zero => simp [packSum]
  | succ n ih =>
    rw [packSum_succ, Nat.mul_succ, pow_add]
    have := Nat.mod_lt (e n) (Nat.two_pow_pos w)
    nlinarith [Nat.two_pow_pos (w * n)]

theorem packSum_testBit {w : Nat} (hw : 0 < w) (e : Nat → Nat) (n i : Nat) :
    (packSum w e n).testBit i = (decide (i < w * n) && (e (i / w)).testBit (i % w)) := by
  induction n with
  | zero => simp [packSum]
  | succ n ih =>
    rw [packSum_succ, Nat.add_comm, Nat.mul_comm (e n % 2 ^ w), Nat.testBit_two_pow_mul_add _ (packSum_lt w e n)]
    by_cases h : i < w * n
    · have : i < w * (n + 1) := by rw [Nat.mul_succ]; omega
      simp only [h, if_true, ih, this]
    · simp only [h, if_false]
      by_cases h2 : i < w * (n + 1)
      · have e1 : i / w = n := by
          apply Nat.div_eq_of_lt_le
          · rw [Nat.mul_comm]; omega
          · rw [Nat.mul_comm]; exact h2
        have e2 : i - w * n = i % w := by
          have := Nat.div_add_mod i w; rw [e1] at this; omega
        rw [e1, e2, Nat.testBit_mod_two_pow]
        simp [h2, Nat.mod_lt _ hw]
      · have : ¬ i - w * n < w := by rw [Nat.mul_succ] at h2; omega
        rw [Nat.testBit_mod_two_pow]; simp [h2, this]

theorem packed_rule {w : Nat} (hw : w = 4 ∨ w = 8 ∨ w = 16) (e : Nat → Nat) :
    packed w ((List.range (32 / w)).map e) = (packOf w e).setWidth 64 := by
  have h0 : 0 < w := by omega
  have h32 : w * (32 / w) = 32 := by rcases hw with rfl | rfl | rfl <;> rfl
  show BitVec.ofNat 64 (packSum w e (32 / w)) = _
  apply BitVec.eq_of_getLsbD_eq
  intro i hi
  rw [BitVec.getLsbD_ofNat, BitVec.getLsbD_setWidth, packOf, getLsbD_bitsWord, packSum_testBit h0, h32]

theorem elem_rule (w k : Nat) (x : Word) : elem w x.toNat k = elemOf w x k := by
  simp [elem, elemOf, Nat.shiftRight_eq_div_pow]

theorem halves_rule (fa : Fmt) (rm : RMode) (f : FFlags) (g : Nat → FV) :
    halves fa rm f g = (packOf 16 (fun k => enc fa (fresult fa rm f.sat f.ftzo (g k)))).setWidth 64 :=
  packed_rule (w := 16) (by simp) (fun k => enc fa (fresult fa rm f.sat f.ftzo (g k)))

theorem slice_elem (w : Nat) (hw : 0 < w) (k x : Nat) : slice x (w * k + w - 1) (w * k) = x / 2 ^ (w * k) % 2 ^ w := by
  rw [slice, Nat.shiftRight_eq_div_pow]; congr 2; omega

theorem prmtW_rule (sgn : Bool) (a b c : Word) : prmtW sgn a b c = permuteRule sgn a b c := by
  have hsrc : ∀ k, k < 8 → slice (a.toNat + b.toNat * 4294967296) (8 * k + 7) (8 * k) = if k < 4 then elemOf 8 a k else elemOf 8 b (k - 4) := by
    intro k hk
    have ha := a.isLt
    rw [show 8 * k + 7 = 8 * k + 8 - 1 by omega, slice_elem 8 (by omega)]
    unfold elemOf
    split
    · rename_i h4
      have e : a.toNat + b.toNat * 4294967296 = a.toNat + 2 ^ (8 * k) * (2 ^ (32 - 8 * k) * b.toNat) := by
        rw [← mul_assoc, ← pow_add, show 8 * k + (32 - 8 * k) = 32 by omega]; ring
      rw [e, Nat.add_mul_div_left _ _ (Nat.two_pow_pos _), show 32 - 8 * k = 8 + (24 - 8 * k) by omega, pow_add, mul_assoc,
        Nat.add_mul_mod_self_left]
    · rename_i h4
      rw [show (2 : Nat) ^ (8 * k) = 2 ^ 32 * 2 ^ (8 * (k - 4)) by rw [← pow_add]; congr 1; omega, ← Nat.div_div_eq_div_mul,
        show (4294967296 : Nat) = 2 ^ 32 by norm_num, Nat.add_mul_div_right _ _ (by positivity), Nat.div_eq_of_lt ha, Nat.zero_add]
  have hc : ∀ i, slice c.toNat (4 * i + 3) (4 * i) = elemOf 4 c i := by
    intro i; rw [show 4 * i + 3 = 4 * i + 4 - 1 by omega, slice_elem 4 (by omega)]; rfl
  have hlt : ∀ i, permuteByte sgn a b c i < 256 := by
    intro i
    have h1 : ∀ (y : Word) k, elemOf 8 y k < 256 := fun y k => Nat.mod_lt _ (by norm_num)
    unfold permuteByte
    dsimp only
    have hx : (if elemOf 4 c i % 8 < 4 then elemOf 8 a (elemOf 4 c i % 8) else elemOf 8 b (elemOf 4 c i % 8 - 4)) < 256 := by
      split <;> exact h1 _ _
    generalize (if elemOf 4 c i % 8 < 4 then elemOf 8 a (elemOf 4 c i % 8) else elemOf 8 b (elemOf 4 c i % 8 - 4)) = x at hx ⊢
    split
    · exact hx
    · split <;> omega
  have hbyte : ∀ i, (if slice c.toNat (4 * i + 3) (4 * i) < 8 then
        slice (a.toNat + b.toNat * 4294967296) (8 * (slice c.toNat (4 * i + 3) (4 * i) % 8) + 7) (8 * (slice c.toNat (4 * i + 3) (4 * i) % 8))
      else if (sgn && decide (slice (a.toNat + b.toNat * 4294967296) (8 * (slice c.toNat (4 * i + 3) (4 * i) % 8) + 7)
        (8 * (slice c.toNat (4 * i + 3) (4 * i) % 8)) ≥ 128)) = true then 255 else 0) = permuteByte sgn a b c i := by
    intro i
    rw [hc, hsrc _ (Nat.mod_lt _ (by omega))]
    simp [permuteByte]
  unfold prmtW permuteRule
  simp only [hbyte]
  apply eq_bitsWord
  intro i hi
  have e : permuteByte sgn a b c 0 + permuteByte sgn a b c 1 * 256 + permuteByte sgn a b c 2 * 65536 + permuteByte sgn a b c 3 * 16777216 =
      permuteByte sgn a b c 3 * 16777216 + permuteByte sgn a b c 2 * 65536 + permuteByte sgn a b c 1 * 256 + permuteByte sgn a b c 0 := by ring
  rw [BitVec.getLsbD_ofNat, e, testBit_bytes _ _ _ _ _ (hlt 3) (hlt 2) (hlt 1) (hlt 0) hi]
  simp only [hi, decide_true, Bool.true_and]
  split
  · rw [show i / 8 = 0 by omega, show i % 8 = i by omega]
  · split
    · rw [show i / 8 = 1 by omega, show i % 8 = i - 8 by omega]
    · split
      · rw [show i / 8 = 2 by omega, show i % 8 = i - 16 by omega]
      · rw [show i / 8 = 3 by omega, show i % 8 = i - 24 by omega]

/-- An FLT instruction of fixed latency with a data result has the rule's value. -/
theorem exec_fltForm {i : Instr} {f : DataForm} (h : fltForm i = some f) (s : State) :
    exec i s = fixedOp f.stall f.lat f.uses f.preds f.dst f.words f.val s := by
  cases i with
  | fnegabs st d a op =>
    simp only [fltForm, Option.some.injEq] at h; subst h
    simp only [exec, execFnegabs, fltOp1, form1, negabsV_rule]
  | fclass st d a =>
    simp only [fltForm, Option.some.injEq] at h; subst h
    simp only [exec, execFclass, fltOp1, form1, fclassW_rule]
  | fscale st d a b f =>
    simp only [fltForm, Option.some.injEq] at h; subst h
    simp only [exec, execFscale, fltOp2, fscaleV_rule]
  | fadd st d a b f => simp only [fltForm, Option.some.injEq] at h; subst h; rfl
  | fsub st d a b f => simp only [fltForm, Option.some.injEq] at h; subst h; rfl
  | fmul st d a b f => simp only [fltForm, Option.some.injEq] at h; subst h; rfl
  | ffma st d a b c f => simp only [fltForm, Option.some.injEq] at h; subst h; rfl
  | dadd st d a b f => simp only [fltForm, Option.some.injEq] at h; subst h; rfl
  | dmul st d a b f => simp only [fltForm, Option.some.injEq] at h; subst h; rfl
  | dfma st d a b c f => simp only [fltForm, Option.some.injEq] at h; subst h; rfl
  | fmin st d a b x y => simp only [fltForm, Option.some.injEq] at h; subst h; rfl
  | fmax st d a b x y => simp only [fltForm, Option.some.injEq] at h; subst h; rfl
  | dminmax st d a b x y z => simp only [fltForm, Option.some.injEq] at h; subst h; rfl
  | frnd st d a x y => simp only [fltForm, Option.some.injEq] at h; subst h; rfl
  | fcvti st d a x y f => simp only [fltForm, Option.some.injEq] at h; subst h; rfl
  | icvtf st d a x y f => simp only [fltForm, Option.some.injEq] at h; subst h; rfl
  | dcvt st d a x y f => simp only [fltForm, Option.some.injEq] at h; subst h; rfl
  | _ => simp only [fltForm, reduceCtorEq] at h

theorem half_widths {f : Fmt} (h : fmtPack f = true) : f.width = 4 ∨ f.width = 8 ∨ f.width = 16 := by
  cases f <;> revert h <;> decide

theorem half_widths_scl {f : Fmt} (h : fmtScl f = true) : f.width = 4 ∨ f.width = 8 ∨ f.width = 16 := by
  cases f <;> revert h <;> decide

theorem dotF_rule (n w : Nat) (fa fb : Fmt) (ftzi ftzo : Bool) (rm : RMode) (a b c : Word) : dotF n w fa fb ftzi ftzo rm a b c =
    BitVec.ofNat 64 (enc .f32 (alignedSum ((List.range n).map (fun k =>
        fprod (fin_ fa ftzi (elemOf w a k)) (fin_ fb ftzi (elemOf w b k)))) (fval .f32 c.toNat) 40 .f32 rm ftzi ftzo)) := by
  simp only [dotF, elem_rule, fin_]

theorem foldl_add_sum (g : Nat → Int) (xs : List Nat) (z : Int) :
    xs.foldl (fun acc k => acc + g k) z = z + (xs.map g).sum := by
  induction xs generalizing z with
  | nil => simp
  | cons x xs ih => rw [List.foldl_cons, ih]; simp [add_assoc]

theorem dotI_rule (n w : Nat) (fa fb : Fmt) (sat : Bool) (x y z : Word) : dotI n w fa fb sat x y z =
    (let v := z.toInt + ((List.range n).map (fun k => ival fa (elemOf w x k) * ival fb (elemOf w y k))).sum
     BitVec.ofInt 32 (if sat then min (max v (-2 ^ 31)) (2 ^ 31 - 1) else v)).setWidth 64 := by
  simp only [dotI, foldl_add_sum, elem_rule]; rfl

/-- A PKD instruction has the rule's value. -/
theorem exec_pkdForm {i : Instr} {f : DataForm} (h : pkdForm i = some f) (hw : i.wf = true) (s : State) :
    exec i s = fixedOp f.stall f.lat f.uses f.preds f.dst f.words f.val s := by
  cases i with
  | hadd2 st d a b fa f =>
    simp only [pkdForm, Option.some.injEq] at h; subst h
    simp only [exec, execHadd2, fltOp2, hadd2V, halves_rule, halfIn, elem_rule]; rfl
  | hmul2 st d a b fa f =>
    simp only [pkdForm, Option.some.injEq] at h; subst h
    simp only [exec, execHmul2, fltOp2, hmul2V, halves_rule, halfIn, elem_rule]; rfl
  | hfma2 st d a b c fa f =>
    simp only [pkdForm, Option.some.injEq] at h; subst h
    simp only [exec, execHfma2, fltOp3, hfma2V, halves_rule, halfIn, elem_rule]; rfl
  | hminmax2 st d a b fa x y z =>
    simp only [pkdForm, Option.some.injEq] at h; subst h
    have e : ∀ g : Nat → Nat, packed 16 ((List.range 2).map g) = (packOf 16 g).setWidth 64 :=
      fun g => packed_rule (w := 16) (by simp) g
    simp only [exec, execHminmax2, fltOp2, e, elem_rule]; rfl
  | dot2h st d a b c fa fb x y =>
    simp only [pkdForm, Option.some.injEq] at h; subst h
    simp only [exec, execDot2h, fltOp3, dotF_rule]; rfl
  | dot4f8 st d a b c fa fb x y =>
    simp only [pkdForm, Option.some.injEq] at h; subst h
    simp only [exec, execDot4f8, fltOp3, dotF_rule]; rfl
  | dot8f4 st d a b c x y =>
    simp only [pkdForm, Option.some.injEq] at h; subst h
    simp only [exec, execDot8f4, fltOp3, dotF_rule]; rfl
  | dot4i8 st d a b c fa fb x =>
    simp only [pkdForm, Option.some.injEq] at h; subst h
    simp only [exec, execDot4i8, fltOp3, dotI_rule]; rfl
  | dot8i4 st d a b c fa fb x =>
    simp only [pkdForm, Option.some.injEq] at h; subst h
    simp only [exec, execDot8i4, fltOp3, dotI_rule]; rfl
  | pack st d a b c fa f pair =>
    simp only [pkdForm, Option.some.injEq] at h; subst h
    have hf : fa.width = 4 ∨ fa.width = 8 ∨ fa.width = 16 := by
      simp only [Instr.wf, Bool.and_eq_true] at hw; exact half_widths hw.1.2
    have hp : ∀ rm x, packElem fa rm f x = convert (if fa.isFloat then .f32 else .i32) fa rm f x.toNat := by
      intro rm x; unfold packElem; split <;> rfl
    simp only [exec, execPack, fltOp3, packV, packed_rule hf, elem_rule, hp]
  | unpack st d a fa ftzi el =>
    simp only [pkdForm, Option.some.injEq] at h; subst h
    have hf : fa.width = 4 ∨ fa.width = 8 ∨ fa.width = 16 := by
      simp only [Instr.wf, Bool.and_eq_true] at hw; exact half_widths hw.1.2
    have h64 : fa.width ≠ 64 := by omega
    simp only [exec, execUnpack, fltOp1, unpackV, elem_rule, extend, h64, if_false]; rfl
  | scl st d a b fa f =>
    simp only [pkdForm, Option.some.injEq] at h; subst h
    have hf : fa.width = 4 ∨ fa.width = 8 ∨ fa.width = 16 := by
      simp only [Instr.wf, Bool.and_eq_true] at hw; exact half_widths_scl hw.2
    simp only [exec, execScl, fltOp2, sclV, packed_rule hf, elem_rule, f32In]; rfl
  | prmt st d a b c sgn =>
    simp only [pkdForm, Option.some.injEq] at h; subst h
    simp only [exec, execPrmt, fltOp3, prmtW_rule]; rfl
  | hcvt st d a fa fb f =>
    simp only [pkdForm, Option.some.injEq] at h; subst h
    have e : ∀ g : Nat → Nat, packed 16 [g 0, g 1] = (packOf 16 g).setWidth 64 :=
      fun g => packed_rule (w := 16) (by simp) g
    have e2 : ∀ rm x, hcvtV fa fb f rm x = (packOf 16 (fun k => convert fa fb rm f (elemOf 16 x k))).setWidth 64 := by
      intro rm x; rw [← e]; simp only [hcvtV, elem_rule]
    simp only [exec, execHcvt, fltOp1, e2]
  | _ => simp only [pkdForm, reduceCtorEq] at h

/-- An instruction that compares is of fixed latency, with the rule's predicate. -/
theorem exec_predForm {i : Instr} {f : PredForm} (h : predForm i = some f) (s : State) :
    exec i s = predOp f.stall f.lat f.uses f.preds f.p f.val s := by
  cases i with
  | icmp st p a b cond =>
    simp only [predForm, Option.some.injEq] at h; subst h
    simp only [exec, execIcmp, icond_rule]
  | icmpi st p cond a imm =>
    simp only [predForm, Option.some.injEq] at h; subst h
    simp only [exec, execIcmpi, icond_rule]
  | plop st p na pa nb pb fn =>
    simp only [predForm, Option.some.injEq] at h; subst h
    simp only [exec, execPlop, logFn_rule]
  | fcmp st p a b cond => simp only [predForm, Option.some.injEq] at h; subst h; rfl
  | dcmp st p a b cond => simp only [predForm, Option.some.injEq] at h; subst h; rfl
  | _ => simp only [predForm, reduceCtorEq] at h

/-- An instruction whose values are known at issue makes one unit, with the rule's values. -/
theorem exec_valueForm {i : Instr} {f : ValueForm} (h : valueForm i = some f) (s : State)
    (hr : ∀ l ∈ f.reads s, Settled s.cv l) : exec i s = valueOp f.stall f.tok f.uses f.dst f.words f.val s := by
  cases i with
  | xget st d idx x t =>
    simp only [valueForm, Option.some.injEq] at h; subst h
    show execXget st d idx x t s = _
    simp only [execXget, checkReady_settled _ _ hr, settleLocs_settled _ _ hr]
  | frcp st d a x y t => simp only [valueForm, Option.some.injEq] at h; subst h; rfl
  | fsqrt st d a x y t => simp only [valueForm, Option.some.injEq] at h; subst h; rfl
  | frsq st d a x y t => simp only [valueForm, Option.some.injEq] at h; subst h; rfl
  | fexp2 st d a x y t => simp only [valueForm, Option.some.injEq] at h; subst h; rfl
  | flog2 st d a x y t => simp only [valueForm, Option.some.injEq] at h; subst h; rfl
  | fsin st d a x y t => simp only [valueForm, Option.some.injEq] at h; subst h; rfl
  | fcos st d a x y t => simp only [valueForm, Option.some.injEq] at h; subst h; rfl
  | fdiv st d a b f t => simp only [valueForm, Option.some.injEq] at h; subst h; rfl
  | ddiv st d a b f t => simp only [valueForm, Option.some.injEq] at h; subst h; rfl
  | dsqrt st d a f t => simp only [valueForm, Option.some.injEq] at h; subst h; rfl
  | _ => simp only [valueForm, reduceCtorEq] at h

end Sys2Proof.Machine
end

