-- ==== Sys2Proof/Laws/Int.lean ====
section
/-! SUPPORT. The INT instructions are the shared shapes with the rules' values. -/

namespace Sys2Proof.Machine

theorem leaW_rule (k : Nat) (a : DWord) (b : Word) : leaW k a b = BitVec.ofInt 64 (a.toNat + b.toInt * 2 ^ k) := by
  rw [leaW, dwordOfInt, sx, BitVec.ofInt_add, BitVec.ofInt_add, BitVec.ofInt_toInt, BitVec.ofInt_natCast]
  simp

theorem mulAddWide_rule (a b : Word) (c : DWord) : mulAddWide a b c = BitVec.ofInt 64 (mulRule .wide a b c.toInt) := rfl

theorem addX_rule (a b : DWord) : addX a b = BitVec.ofNat 64 (a.toNat + b.toNat) := by
  apply BitVec.eq_of_toNat_eq; simp [addX, BitVec.toNat_add]

theorem predByte_rule (s : State) (t : Nat) :
    BitVec.ofNat 64 (predByte s t) = (BitVec.ofFnLE (fun k : Fin 8 => pred s k.val t)).setWidth 64 := by
  have h : ∀ f : Nat → Bool, BitVec.ofNat 64 (((List.range 8).map (fun k => b2n (f k) * 2 ^ k)).sum) =
      (BitVec.ofFnLE (fun k : Fin 8 => f k.val)).setWidth 64 := by
    intro f
    have e : BitVec.ofFnLE (fun k : Fin 8 => f k.val) =
        BitVec.ofFnLE ![f 0, f 1, f 2, f 3, f 4, f 5, f 6, f 7] := by
      congr 1; funext k; fin_cases k <;> rfl
    rw [e]
    simp only [List.range_succ_eq_map, List.range_zero, List.map_cons, List.map_nil, List.sum_cons, List.sum_nil, Nat.succ_eq_add_one, Nat.zero_add, Nat.reduceAdd]
    generalize f 0 = b0
    generalize f 1 = b1
    generalize f 2 = b2
    generalize f 3 = b3
    generalize f 4 = b4
    generalize f 5 = b5
    generalize f 6 = b6
    generalize f 7 = b7
    revert b0 b1 b2 b3 b4 b5 b6 b7
    decide
  exact h (fun k => pred s k t)

/-- An INT instruction with a data result is of fixed latency, with the rule's value. -/
theorem exec_intForm {i : Instr} {f : DataForm} (h : intForm i = some f) (s : State) :
    exec i s = fixedOp f.stall f.lat f.uses f.preds f.dst f.words f.val s := by
  cases i with
  | imul st d a b v =>
    cases v <;> simp only [intForm, Option.some.injEq] at h <;> subst h <;>
      simp only [exec, execImul, intOp2, form2, mulAdd32_rule, mulAddWide_rule, BitVec.toInt_zero] <;> rfl
  | imad st d a b c v =>
    cases v <;> simp only [intForm, Option.some.injEq] at h <;> subst h <;>
      simp only [exec, execImad, intOp3, form3, mulAdd32_rule, mulAddWide_rule] <;> rfl
  | iadd st d a b sat => simp only [intForm, Option.some.injEq] at h; subst h; rfl
  | isub st d a b sat => simp only [intForm, Option.some.injEq] at h; subst h; rfl
  | iaddi st d a imm =>
    simp only [intForm, Option.some.injEq] at h; subst h
    have e : ∀ x : Word, addSat false x (imm.signExtend 32) = BitVec.ofInt 32 (x.toInt + imm.toInt) := by
      intro x; simp [addSat, wordOfInt, sx, BitVec.toInt_signExtend_of_le]
    simp only [exec, execIaddi, intOp1, form1, e]
  | imin st d a b n =>
    simp only [intForm, Option.some.injEq] at h; subst h
    simp only [exec, execImin, intOp2, form2, minW_rule]
  | imax st d a b n =>
    simp only [intForm, Option.some.injEq] at h; subst h
    simp only [exec, execImax, intOp2, form2, maxW_rule]
  | iabs st d a =>
    simp only [intForm, Option.some.injEq] at h; subst h
    simp only [exec, execIabs, intOp1, form1, absW_rule]
  | andb st d a b =>
    simp only [intForm, Option.some.injEq] at h; subst h
    simp only [exec, execAndb, intOp2, form2, and_rule]
  | orb st d a b =>
    simp only [intForm, Option.some.injEq] at h; subst h
    simp only [exec, execOrb, intOp2, form2, or_rule]
  | xorb st d a b =>
    simp only [intForm, Option.some.injEq] at h; subst h
    simp only [exec, execXorb, intOp2, form2, xor_rule]
  | andn st d a b =>
    simp only [intForm, Option.some.injEq] at h; subst h
    simp only [exec, execAndn, intOp2, form2, andn_rule]
  | mov st d a => simp only [intForm, Option.some.injEq] at h; subst h; rfl
  | shf st d a b op =>
    simp only [intForm, Option.some.injEq] at h; subst h
    simp only [exec, execShf, intOp2, form2, shiftW_rule]
  | shfi st d a op n =>
    simp only [intForm, Option.some.injEq] at h; subst h
    simp only [exec, execShfi, intOp1, form1, shiftW_rule]
  | fshf st d a b c right =>
    simp only [intForm, Option.some.injEq] at h; subst h
    simp only [exec, execFshf, intOp3, form3, funnelW_rule]
  | bfe st d a b sgn =>
    simp only [intForm, Option.some.injEq] at h; subst h
    simp only [exec, execBfe, intOp2, form2, bfeW_rule]
  | bfi st d a b c =>
    simp only [intForm, Option.some.injEq] at h; subst h
    simp only [exec, execBfi, intOp3, form3, bfiW_rule]
  | bits st d a op =>
    simp only [intForm, Option.some.injEq] at h; subst h
    simp only [exec, execBits, intOp1, form1, bitsW_rule]
  | sel st d a b k => simp only [intForm, Option.some.injEq] at h; subst h; rfl
  | lea st d a b sh =>
    simp only [intForm, Option.some.injEq] at h; subst h
    simp only [exec, execLea, leaW_rule]
  | iaddx st d a b =>
    simp only [intForm, Option.some.injEq] at h; subst h
    simp only [exec, execIaddx, addX_rule]
  | pmovTor st d =>
    simp only [intForm, Option.some.injEq] at h; subst h
    simp only [exec, execPmovTor, predByte_rule]
  | _ => simp only [intForm, reduceCtorEq] at h

end Sys2Proof.Machine
end

