-- ==== Sys2Proof/Tests/Slice0.lean ====
section
/-! SUPPORT. The model's own tests: ill-formed terms that WellFormed refuses, words written out from the spec's encodings and decoded,
the spec's worked cases, and for each statement with hypotheses a theorem that shows states which meet them. -/

namespace Sys2Proof.Tests

open Sys2Proof Sys2Proof.Machine

/-! The theorems are elaborated one after the other: each kernel evaluation that waits for the one before it would hold a thread. -/

set_option Elab.async false

/-! Ill-formed terms, one for each kind of check -/

theorem test_wf_word_literal : (Instr.iadd 0 (.main 0) (.lit 0x100000000#64) .zero false).wf = false := by decide

theorem test_wf_addend_literal :
    (Instr.imad 0 (.main 0) .zero .zero (.lit 0x100000000#64) .lo).wf = false ∧
      (Instr.imad 0 (.main 0) .zero .zero (.lit 0x100000000#64) .wide).wf = true := by decide

theorem test_wf_quad_literal : (Instr.ecopy 0 .zero .zero (.lit 0#64) false false false false 0).wf = false := by decide

theorem test_wf_store_data :
    (Instr.stg 0 .zero .zero (.lit 0x100000000#64) .b32 false .lin .ca 0).wf = false ∧
      (Instr.stg 0 .zero .zero (.lit 0x100000000#64) .b64 false .lin .ca 0).wf = true ∧
      (Instr.stg 0 .zero .zero (.lit 0#64) .b128 false .lin .ca 0).wf = false := by decide

theorem test_wf_store_width : (Instr.stp 0 .zero .zero .zero .i16 0).wf = false := by decide

theorem test_wf_fcvti_formats : (Instr.fcvti 0 (.main 0) .zero .f8e4 .i32 ⟨false, false, false⟩).wf = false := by decide

theorem test_wf_icvtf_formats : (Instr.icvtf 0 (.main 0) .zero .i4 .f32 ⟨false, false, false⟩).wf = false := by decide

theorem test_wf_dcvt_formats : (Instr.dcvt 0 (.main 0) .zero .i32 .f64 ⟨false, false, false⟩).wf = false := by decide

theorem test_wf_half_format : (Instr.hadd2 0 (.main 0) .zero .zero .f32 ⟨false, false, false⟩).wf = false := by decide

theorem test_wf_dot_formats :
    (Instr.dot2h 0 (.main 0) .zero .zero .zero .f16 .i8 false false).wf = false ∧
      (Instr.dot4i8 0 (.main 0) .zero .zero .zero .i8 .i4 false).wf = false ∧
      (Instr.dot8i4 0 (.main 0) .zero .zero .zero .i4 .i8 false).wf = false ∧
      (Instr.dot4f8 0 (.main 0) .zero .zero .zero .f8e4 .f16 false false).wf = false := by decide

theorem test_wf_pack_format_and_pair :
    (Instr.pack 0 (.main 0) .zero .zero .zero .f32 ⟨false, false, false⟩ 0).wf = false ∧
      (Instr.pack 0 (.main 0) .zero .zero .zero .f16 ⟨false, false, false⟩ 1).wf = false ∧
      (Instr.pack 0 (.main 0) .zero .zero .zero .f4 ⟨false, false, false⟩ 3).wf = true := by decide

theorem test_wf_unpack_element : (Instr.unpack 0 (.main 0) .zero .i8 false 4).wf = false := by decide

theorem test_wf_scale_format : (Instr.scl 0 (.main 0) .zero .zero .i8 ⟨false, false, false⟩).wf = false := by decide

theorem test_wf_atomic_operand :
    (Instr.atom 0 (.main 0) .zero .zero (.main 1) .add false .none .lin 0).wf = false ∧
      (Instr.atom 0 (.main 0) .zero .zero (.main 1) .cas false .none .lin 0).wf = true := by decide

theorem test_wf_fence_order : (Instr.fence 0 .none 0).wf = false := by decide

theorem test_wf_reduction_format :
    (Instr.redu 0 (.main 0) .zero .xor .f32 false false 0).wf = false ∧
      (Instr.redu 0 (.main 0) .zero .add .i32 true false 0).wf = false := by decide

theorem test_wf_matrix_format :
    (Instr.mldw 0 .i16 0 0).wf = false ∧ (Instr.mma 0 .i8 0 0 true false 0).wf = false := by decide

theorem test_wf_tile_format : (Instr.mst 0 .zero .zero .f32 .lin ⟨false, false, false⟩ 0 .i32 0).wf = true ∧
    (Instr.mst 0 .zero .zero .f8e4 .lin ⟨false, false, false⟩ 0 .f64 0).wf = false := by decide

theorem test_wf_burst_count : (Instr.mburst 0 0 0).wf = false := by decide

theorem test_wf_special_register : (Instr.srd 0 (.main 0) 0x15 0).wf = false ∧ (Instr.swr 0 .zero 0x27 0).wf = false := by decide

/-! Words written field by field from the encodings of 10 and the tables of 13 to 20: major, STALL, D, A, B and M; of an X-word its
marker, C and the fields below -/

theorem test_decode_icmp :
    decode .int false false [(16#5 ++ 1#3 ++ 2#7 ++ 4#7 ++ 0x6E#7 ++ 2#3 : BitVec 32)] =
      .ok (.icmp 1 2 (.main 4) .zero .lt, 1) := by decide

theorem test_decode_imad_wide :
    decode .int false false [(3#5 ++ 0#3 ++ 8#7 ++ 0x68#7 ++ 0x60#7 ++ 3#3 : BitVec 32), (0b11110#5 ++ 6#7 ++ 0#20 : BitVec 32)] =
      .ok (.imad 0 (.main 8) (.latch 0) (.opf 0) (.main 6) .wide, 2) := by decide

theorem test_decode_shfi :
    decode .int false false [(26#5 ++ 0#3 ++ 1#7 ++ 2#7 ++ (0#2 ++ 2#3 ++ 31#5 : BitVec 10) : BitVec 32)] =
      .ok (.shfi 0 (.main 1) (.main 2) .sar 31, 1) := by decide

theorem test_decode_ffma :
    decode .flt false false [(3#5 ++ 4#3 ++ 1#7 ++ 2#7 ++ 3#7 ++ 0b110#3 : BitVec 32), (0b11110#5 ++ 4#7 ++ 0#20 : BitVec 32)] =
      .ok (.ffma 4 (.main 1) (.main 2) (.main 3) (.main 4) ⟨false, true, true⟩, 2) := by decide

theorem test_decode_frcp :
    decode .flt false false [(11#5 ++ 0#3 ++ 1#7 ++ 2#7 ++ 0x6E#7 ++ 1#3 : BitVec 32), (0b11110#5 ++ 0x6E#7 ++ 0#17 ++ 5#3 : BitVec 32)] =
      .ok (.frcp 0 (.main 1) (.main 2) true false 5, 2) := by decide

theorem test_decode_unpack :
    decode .pkd false false
        [(10#5 ++ 0#3 ++ 1#7 ++ 2#7 ++ 0x6E#7 ++ 0#3 : BitVec 32), (0b11110#5 ++ 0x6E#7 ++ 4#5 ++ 0#5 ++ 3#3 ++ 0#7 : BitVec 32)] =
      .ok (.unpack 0 (.main 1) (.main 2) .f8e4 false 3, 2) := by decide

theorem test_decode_hfma2 :
    decode .pkd false false
        [(2#5 ++ 0#3 ++ 1#7 ++ 2#7 ++ 3#7 ++ 4#3 : BitVec 32), (0b11110#5 ++ 4#7 ++ 3#5 ++ 0#5 ++ 0#10 : BitVec 32)] =
      .ok (.hfma2 0 (.main 1) (.main 2) (.main 3) (.main 4) .bf16 ⟨false, false, true⟩, 2) := by decide

/-- op 9 is `cas`, order 3 acquire and release, width 5 `.b64` (15 R278, R291). -/
theorem test_decode_atom_cas :
    decode .mem false false
        [(7#5 ++ 0#3 ++ 2#7 ++ 4#7 ++ 6#7 ++ 0#3 : BitVec 32),
          (0b11110#5 ++ 8#7 ++ 9#5 ++ 0#3 ++ 0#2 ++ 0#2 ++ 3#2 ++ 5#3 ++ 6#3 : BitVec 32)] =
      .ok (.atom 0 (.main 2) (.main 4) (.main 6) (.main 8) .cas true .acqrel .lin 6, 2) := by decide

/-- qual 3 is `.fe.clr`, layout 2 `.xor32` (15 R278, R288). -/
theorem test_decode_lds :
    decode .mem false false
        [(2#5 ++ 0#3 ++ 1#7 ++ 2#7 ++ 0x6E#7 ++ 0#3 : BitVec 32),
          (0b11110#5 ++ 0x6E#7 ++ 0#5 ++ 3#3 ++ 0#2 ++ 2#2 ++ 0#2 ++ 4#3 ++ 0#3 : BitVec 32)] =
      .ok (.lds 0 (.main 1) (.main 2) .zero .b32 .xor32 .feClr 0, 2) := by decide

theorem test_decode_call : decode .ctl false false [(2#5 ++ 0#3 ++ 5#3 ++ 1#1 ++ 0x00010#20 : BitVec 32)] =
    .ok (.call 0 5 true 0x10, 1) := by decide

theorem test_decode_trap : decode .ctl false false [(25#5 ++ 0#3 ++ 0x6E#7 ++ 0x6E#7 ++ (0#2 ++ 0xAB#8 : BitVec 10) : BitVec 32)] =
    .ok (.trap 0 0xAB, 1) := by decide

/-- TKWAIT stands first in its clause (10 R184, 05 R106). -/
theorem test_decode_tkwait : decode .ctl false true [(16#5 ++ 0#3 ++ 3#7 ++ 0x6E#7 ++ 0x6E#7 ++ 0#3 : BitVec 32)] =
    .ok (.tkwait 0 3, 1) ∧
    decode .ctl false false [(16#5 ++ 0#3 ++ 3#7 ++ 0x6E#7 ++ 0x6E#7 ++ 0#3 : BitVec 32)] = .error .clauseFormat := by decide

/-- format 0 is f64, slot 3 (17 R325). -/
theorem test_decode_mldw :
    decode .mtx false false
        [(2#5 ++ 0#3 ++ 0x6E#7 ++ 0x6E#7 ++ 0x6E#7 ++ 0#3 : BitVec 32), (0b11110#5 ++ 0x6E#7 ++ 0#5 ++ 3#5 ++ 0#7 ++ 1#3 : BitVec 32)] =
      .ok (.mldw 0 .f64 3 1, 2) := by decide

theorem test_decode_trec :
    decode .eng false false
        [(6#5 ++ 0#3 ++ 0x6E#7 ++ 4#7 ++ 0x6E#7 ++ 0#3 : BitVec 32), (0b11110#5 ++ 0x6E#7 ++ 0#13 ++ 0b0101#4 ++ 2#3 : BitVec 32)] =
      .ok (.trec 0 4 5 2, 2) := by decide

theorem test_decode_travr :
    decode .eng false false
        [(11#5 ++ 0#3 ++ 16#7 ++ 2#7 ++ 0x6E#7 ++ 0#3 : BitVec 32), (0b11110#5 ++ 0x6E#7 ++ 0#16 ++ 1#1 ++ 2#3 : BitVec 32)] =
      .ok (.travr 0 2 (.main 2) true 2, 2) := by decide

theorem test_decode_scall :
    decode .sys false false
        [(7#5 ++ 0#3 ++ 1#7 ++ 2#7 ++ 0x6E#7 ++ 0#3 : BitVec 32), (0b11110#5 ++ 0x6E#7 ++ 0x004#12 ++ 0#5 ++ 7#3 : BitVec 32)] =
      .ok (.scall 0 (.main 1) (.main 2) 4 7, 2) := by decide

/-- A field that no operand uses holds the zero code; another code is a Reserved Bits fault (10 R191). -/
theorem test_decode_reserved : decode .ctl false false [(5#5 ++ 0#3 ++ 0#7 ++ 0x6E#7 ++ 0x6E#7 ++ 0#3 : BitVec 32)] = .error .reserved := by decide

/-- An unassigned major is an Illegal Instruction (12 R223). -/
theorem test_decode_unassigned : decode .int false false [(28#5 ++ 0#27 : BitVec 32)] = .error .illegal := by decide

/-- A missing X-word is a Clause Format fault (10 R184). -/
theorem test_decode_no_xword : decode .int false false [(3#5 ++ 0#3 ++ 8#7 ++ 1#7 ++ 2#7 ++ 0#3 : BitVec 32)] = .error .clauseFormat := by decide

/-- A literal needs its word (10 R193). -/
theorem test_decode_no_literal : decode .int false false [(0#5 ++ 0#3 ++ 8#7 ++ 1#7 ++ 0x6F#7 ++ 0#3 : BitVec 32)] = .error .clauseFormat := by
  decide

/-! Worked cases of the spec -/

/-- 13 R238, worked case. -/
theorem test_imul_hi : mulAdd32 .hi 0xFFFFFFFF#32 2#32 0#32 = 0xFFFFFFFF#32 ∧ mulAdd32 .hin 0xFFFFFFFF#32 2#32 0#32 = 1#32 := by decide

/-- 13 R239. -/
theorem test_iabs_least : absW 0x80000000#32 = 0x80000000#32 := by decide

/-- 13 R243, worked case. -/
theorem test_bfe_signed : bfeW true 0x00000F00#32 0x00000408#32 = 0xFFFFFFFF#32 := by decide

/-- 14 R265, worked case. -/
theorem test_fscale_subnormal : fscaleV ⟨false, false, false⟩ .rne 0x3FC00000#32 (BitVec.ofInt 32 (-150)) = 1#64 := by decide +kernel

/-- 14 R266, worked cases: 300.7 is 0x4396_599A. -/
theorem test_fcvti_clamps : convertV .f32 .i8 .rne ⟨false, false, false⟩ 0x4396599A#64 = 0x7F#64 := by decide +kernel

theorem test_icvtf_overflow :
    convertV .n32 .f16 .rne ⟨false, false, false⟩ 70000#64 = 0x7C00#64 ∧
      convertV .n32 .f16 .rne ⟨false, false, true⟩ 70000#64 = 0x7BFF#64 := by decide +kernel

/-- 14 R268, worked cases: 128.0 and −126.0. -/
theorem test_fexp2_ends :
    enc .f32 (specialOut false (fexp2V (fval .f32 0x43000000))) = 0x7F800000 ∧
      enc .f32 (specialOut true (fexp2V (fval .f32 0xC2FC0000))) = 0x00800000 := by decide +kernel

/-- 14 R270, worked case: 60,000 is 0x7B53 in f16. -/
theorem test_hadd2_overflow :
    hadd2V .f16 ⟨false, false, true⟩ .rne 0x7B53#32 0x7B53#32 = 0x7BFF#64 ∧
      hadd2V .f16 ⟨false, false, false⟩ .rne 0x7B53#32 0x7B53#32 = 0x7C00#64 := by decide +kernel

/-- 14 R272, worked case. -/
theorem test_dot4i8 : dotI 4 8 .n8 .i8 false 0xFFFFFFFF#32 0x80808080#32 0#32 = 0xFFFE0200#64 := by decide +kernel

/-- 14 R275, worked case. -/
theorem test_scl_f4 : sclV .f4 ⟨false, false, false⟩ .rne 0x00000732#32 0x40000000#32 = 0x00000754#64 := by decide +kernel

/-- 14 R277, worked case. -/
theorem test_hcvt_overflow :
    hcvtV .bf16 .f16 ⟨false, false, false⟩ .rne 0x4780#32 = 0x7C00#64 ∧
      hcvtV .bf16 .f16 ⟨false, false, true⟩ .rne 0x4780#32 = 0x7BFF#64 := by decide +kernel

/-- 11 R211 to R213, worked case: the products 1.0, 2⁻⁴⁵ and −2⁻⁴⁵. -/
theorem test_aligned_sum_truncates :
    let ps : List FV := [.fin ⟨1, 1⟩, .fin ⟨1, 2 ^ 45⟩, .fin ⟨-1, 2 ^ 45⟩]
    let f := fun rm => enc .f32 (alignedSum ps (.zero false) 40 .f32 rm false false)
    f .rne = 0x3F800000 ∧ f .rup = 0x3F800000 ∧ f .rtz = 0x3F7FFFFF ∧ f .rdn = 0x3F7FFFFF := by decide +kernel

/-- 11 R208, worked case: FTZO after rounding, for 2⁻¹²⁶ × (1 − 2⁻²⁵). -/
theorem test_ftzo_after_rounding :
    let x : FV := .fin ((Q.ofInt (2 ^ 25 - 1)).shift (-151))
    enc .f32 (fresult .f32 .rne false true x) = 0x00800000 ∧ enc .f32 (fresult .f32 .rtz false false x) = 0x007FFFFF ∧
      enc .f32 (fresult .f32 .rtz false true x) = 0 := by decide +kernel

/-! One step of a convoy of two live threads that issues one clause -/

/-- The convoy of a cohort in slot 0 of core 0, in focus, in a clause of a class that holds the words. -/
def small (c : Cls) (ws : List Word) : State :=
  { focus := true
    cv := { live := 3#32, budget := 24, clause := some { pc := 64, hdr := headerFor c ws.length, words := ws, mask := 3#32 } }
    ch := { desc := { scratch := 1, priv := 48, spawn := true }, ctx := 4096 } }

/-- The same with registers of the main file. -/
def withMain (s : State) (vs : List (Nat × Nat × Word)) : State :=
  { s with cv := { s.cv with main := vs.foldl (fun m v => NMap.set 0#32 m (32 * v.1 + v.2.1) v.2.2) s.cv.main } }

/-- A location after a step. -/
def after (o : Out) (l : Loc) : Option Word :=
  match o with
  | .next t => some (getLoc t.cv l).lo
  | _ => none

/-- IADD v3, v1, v2 in both threads, one of which wraps (13 R237). -/
theorem test_step_iadd :
    let s := withMain (small .int [(0#5 ++ 2#3 ++ 3#7 ++ 1#7 ++ 2#7 ++ 0#3 : BitVec 32)])
      [(1, 0, 5#32), (2, 0, 6#32), (1, 1, 0xFFFFFFFF#32), (2, 1, 2#32)]
    after (step s) (.main 3 0) = some 11#32 ∧ after (step s) (.main 3 1) = some 1#32 := by decide +kernel

/-- MATCH with equal and different keys (16 R308). -/
theorem test_step_match :
    let s := withMain (small .ctl [(10#5 ++ 0#3 ++ 3#7 ++ 1#7 ++ 0x6E#7 ++ 0#3 : BitVec 32)]) [(1, 0, 8#32), (1, 1, 5#32)]
    after (step s) (.main 3 0) = some 1#32 ∧ after (step s) (.main 3 1) = some 2#32 := by decide +kernel

/-! States that meet the hypotheses of the statements -/

/-- No result is on its way in a convoy without pending results and units. -/
theorem settled_quiet (c : Convoy) (hp : c.pend = []) (hu : c.units = []) (l : Loc) : Settled c l := by
  simp [Settled, pendAt, unitAt, hp, hu]

/-- Operands in bounds and not poisoned are ready in such a convoy. -/
theorem ready_quiet (s : State) (us : List Use) (ps : List Loc) (d : Option (Dst × Nat)) (hp : s.cv.pend = []) (hu : s.cv.units = [])
    (hb : checkUses s us d = none) (hc : poisonedLanes s us = 0#32) : Ready s us ps d :=
  ⟨hb, fun l _ => settled_quiet _ hp hu l, fun _ _ _ l _ => settled_quiet _ hp hu l, hc⟩

/-- A convoy of two threads in a clause of one word, with nothing pending. -/
def idle : State := small .int [0#32]

theorem idle_ready (us : List Use) (ps : List Loc) (d : Option (Dst × Nat)) (hb : checkUses idle us d = none)
    (hc : poisonedLanes idle us = 0#32) : Ready idle us ps d := ready_quiet idle us ps d rfl rfl hb hc

/-- A step that goes on from a canonical memory. -/
theorem wit_memoryStaysCanonical : ∃ s t : State, Memory.wf s.mem = true ∧ step s = .next t := ⟨State.reset, State.reset, by decide, rfl⟩

theorem wit_stepRunsTheDecodedInstruction : ∃ (s : State) (k : Clause) (i : Instr) (n : Nat), s.schedule = [] ∧ eligible s = true ∧
    s.cv.clause = some k ∧
    decode (clsOf (Header.unpack k.hdr).cls) (Header.unpack k.hdr).uni (decide (k.nxt = 0)) (k.words.drop k.nxt) = .ok (i, n) :=
  ⟨small .int [(0#5 ++ 2#3 ++ 3#7 ++ 1#7 ++ 2#7 ++ 0#3 : BitVec 32)], _, .iadd 2 (.main 3) (.main 1) (.main 2) false, 1, rfl, by decide, rfl,
    by decide⟩

theorem wit_wordsThatDoNotDecodeFault : ∃ (s : State) (k : Clause) (e : DecodeFault), s.schedule = [] ∧ eligible s = true ∧
    s.cv.clause = some k ∧
    decode (clsOf (Header.unpack k.hdr).cls) (Header.unpack k.hdr).uni (decide (k.nxt = 0)) (k.words.drop k.nxt) = .error e :=
  ⟨small .int [(28#5 ++ 0#27 : BitVec 32)], _, .illegal, rfl, by decide, rfl, by decide⟩

theorem wit_decodeOfEncode : ∃ (i : Instr) (c : Cls) (ws : List Word), i.wf = true ∧ encode i = some (c, ws) :=
  ⟨.imad 0 (.main 8) (.latch 0) (.opf 0) (.lit 5#64) .lo, .int, _, by decide, rfl⟩

theorem wit_decodedIsWellFormed : ∃ (c : Cls) (uni first : Bool) (ws : List Word) (i : Instr) (n : Nat), decode c uni first ws = .ok (i, n) :=
  ⟨.ctl, true, false, [(0b11011#5 ++ 0#3 ++ 0x6E#7 ++ 0x6E#7 ++ 0x6E#7 ++ 0#3 : BitVec 32)], .nop 0, 1, by decide⟩

theorem wit_integerResults : ∃ (i : Instr) (f : DataForm) (s : State), intForm i = some f ∧
    Ready s f.uses (f.preds.flatMap (predLocs s)) (some (f.dst, f.words)) :=
  ⟨.imad 0 (.main 8) (.main 1) (.opf 0) (.main 6) .wide, _, idle, rfl, idle_ready _ _ _ (by decide) (by decide)⟩

theorem wit_selectByPredicate : ∃ (d : Dst) (a b : Src) (k : Pn) (s : State), Ready s [⟨0, a, 1⟩, ⟨1, b, 1⟩] (predLocs s k.toNat) (some (d, 1)) :=
  ⟨.main 0, .main 95, .zero, 7, idle, idle_ready _ _ _ (by decide) (by decide)⟩

theorem wit_predicateResults : ∃ (i : Instr) (f : PredForm) (s : State), predForm i = some f ∧
    Ready s f.uses (f.preds.flatMap (predLocs s)) none ∧ ∀ l ∈ predLocs s f.p, Settled s.cv l :=
  ⟨.dcmp 0 3 (.main 2) (.main 4) .lt, _, idle, rfl, idle_ready _ _ _ (by decide) (by decide), fun l _ => settled_quiet _ rfl rfl l⟩

theorem wit_floatResults : (∃ (i : Instr) (f : DataForm) (s : State), fltForm i = some f ∧
    Ready s f.uses (f.preds.flatMap (predLocs s)) (some (f.dst, f.words))) ∧
    ∃ (i : Instr) (f : DataForm) (s : State), pkdForm i = some f ∧ i.wf = true ∧
      Ready s f.uses (f.preds.flatMap (predLocs s)) (some (f.dst, f.words)) :=
  ⟨⟨.dfma 0 (.main 8) (.main 0) (.main 2) (.main 4) ⟨false, false, false⟩, _, idle, rfl, idle_ready _ _ _ (by decide) (by decide)⟩,
    .dot2h 0 (.main 8) (.main 0) (.main 1) (.main 2) .f16 .bf16 false false, _, idle, rfl, by decide, idle_ready _ _ _ (by decide) (by decide)⟩

theorem wit_predicatesAndIndexesSet : (∃ (a b : Src) (s : State), Ready s [⟨0, a, 1⟩, ⟨1, b, 1⟩] [] none ∧ ∀ k x, Settled s.cv (.pred k x)) ∧
    (∃ (a : Src) (x : Fin 4) (s : State), Ready s [⟨0, a, 1⟩] [] none ∧
      (∀ l ∈ (actLanes s).map (fun y => Loc.idx x.val y) ++ [Loc.lim x.val], Settled s.cv l) ∧
      (rd32 s a (lowest s)).toNat % 256 = 192 ∧ (rd32 s a (lowest s)).toNat / 256 % 256 = 192) ∧
    ∃ (a : Src) (x : Fin 4) (s : State), Ready s [⟨0, a, 1⟩] [] none ∧
      (∀ l ∈ (actLanes s).map (fun y => Loc.idx x.val y) ++ [Loc.lim x.val], Settled s.cv l) ∧ (rd32 s a (lowest s)).toNat % 256 = 193 :=
  ⟨⟨.main 0, .main 1, idle, idle_ready _ _ _ (by decide) (by decide), fun _ _ => settled_quiet _ rfl rfl _⟩,
    ⟨.lit 0xC0C0#64, 3, idle, idle_ready _ _ _ (by decide) (by decide), fun l _ => settled_quiet _ rfl rfl l, by decide, by decide⟩,
    .lit 0xC1#64, 0, idle, idle_ready _ _ _ (by decide) (by decide), fun l _ => settled_quiet _ rfl rfl l, by decide⟩

theorem wit_laterResults : (∃ (i : Instr) (f : ValueForm) (s : State), valueForm i = some f ∧ Ready s f.uses (f.reads s) (some (f.dst, f.words)) ∧
    tokRoom s.cv f.tok.toNat 1 = true) ∧
    ∃ (d : Dst) (a : Src) (fmt : Fmt) (tok : Tok) (s : State),
      Ready s [⟨0, a, if fmt.width = 64 then 2 else 1⟩] [] (some (d, if fmt.width = 64 then 2 else 1)) ∧ tokRoom s.cv tok.toNat 1 = true :=
  ⟨⟨.ddiv 0 (.main 8) (.main 0) (.main 2) ⟨false, false, false⟩ 7, _, idle, rfl, idle_ready _ _ _ (by decide) (by decide), by decide⟩,
    .main 8, .main 0, .f64, 0, idle, idle_ready _ _ _ (by decide) (by decide), by decide⟩

/-- A unit that is to write one location. -/
def valueUnit : Pending := { seq := 0, tok := some 0, kind := .value, mask := 3#32, pc := 68, writes := [(.main 3 0, 7#64)] }

/-- The small state with units outstanding. -/
def withUnits (us : List Pending) (s : State) : State := { s with cv := { s.cv with units := us, useq := us.length, tok := [(0, us.length)] } }

theorem wit_valueUnitCompletes : ∃ (k : Nat) (u : Pending) (s : State), s.cv.units[k]? = some u ∧ u.kind = .value ∧ ∀ e ∈ u.writes, realLoc e.1 :=
  ⟨0, valueUnit, withUnits [valueUnit] idle, rfl, rfl, by simp [valueUnit, realLoc]⟩

theorem wit_laneExchange : (∃ (d : Dst) (a b : Src) (s : State), Ready s [⟨0, a, 1⟩, ⟨1, b, 1⟩] [] (some (d, 1))) ∧
    (∃ (d : Dst) (pa : Pn) (s : State), Ready s [] (predLocs s pa.toNat) (some (d, 1))) ∧
    ∃ (p pa : Pn) (s : State), (∀ l ∈ predLocs s pa.toNat ++ (lanes (activeMask s)).map (Loc.pred p.toNat), Settled s.cv l) ∧ uniform s = false :=
  ⟨⟨.main 3, .main 1, .lit 31#64, idle, idle_ready _ _ _ (by decide) (by decide)⟩,
    ⟨.main 3, 6, idle, idle_ready _ _ _ (by decide) (by decide)⟩, 6, 7, idle, fun l _ => settled_quiet _ rfl rfl l, by decide⟩

/-- The small state with the first GiB mapped onto itself in the translation caches of core 0 and of the firmware, every right given. -/
def mapped : State :=
  { idle with tlb := [0, 352].map (fun c => { core := some c, die := dieOf c, root := 0#64, vpage := 0, pte := 0x1F#64, level := 2, ptePa := 0 }) }

theorem mapped_ready (us : List Use) (ps : List Loc) (d : Option (Dst × Nat)) (hb : checkUses mapped us d = none)
    (hc : poisonedLanes mapped us = 0#32) : Ready mapped us ps d := ready_quiet mapped us ps d rfl rfl hb hc

/-- Whether checks pass and what they give has a property. -/
def goOk (r : Checked) (p : State → List PSpan → Bool) : Bool :=
  match r with
  | .go s ps => p s ps
  | _ => false

theorem go_of {r : Checked} {p : State → List PSpan → Bool} (h : goOk r p = true) : ∃ s ps, r = .go s ps ∧ p s ps = true := by
  cases r with
  | go s ps => exact ⟨s, ps, rfl, h⟩
  | _ => cases h

/-- The forms of a load of 8 bytes and of a store of 4. -/
def noForm : MemForm :=
  { stall := 0, tok := 0, uses := [], accs := fun _ => [], pieces := fun _ _ _ => [], share := Single, count := List.length, kind := fun _ => .load }
def ldInstr : Instr := .ld 0 (.main 8) (.lit 0x10000#64) .zero .b64 false .lin .ca 0
def stInstr : Instr := .stg 0 (.lit 0x10000#64) .zero (.main 2) .b32 false .lin .ca 7
def ldForm : MemForm := (memForm ldInstr).getD noForm
def stForm : MemForm := (memForm stInstr).getD noForm

/-- A load, LD of 8 bytes in both threads, and a store, ST of 4 bytes. -/
theorem wit_memoryInstructionsIssue :
    (∃ (i : Instr) (f : MemForm) (s s2 : State) (ps : List PSpan), memForm i = some f ∧ f.write = false ∧ Ready s f.uses [] f.dst ∧
      f.extra (calm s) ∧ accessChecks (calm s) false f.noPriv f.noScr f.atom f.scadd (f.accs (calm s)) = .go s2 ps ∧
      tokRoom s.cv f.tok.toNat (f.count (f.pieces s2 (f.accs (calm s)) ps)) = true) ∧
    ∃ (i : Instr) (f : MemForm) (s s2 : State) (ps : List PSpan), memForm i = some f ∧ f.write = true ∧ Ready s f.uses [] f.dst ∧
      f.extra (calm s) ∧ accessChecks (calm s) true f.noPriv f.noScr f.atom f.scadd (f.accs (calm s)) = .go s2 ps ∧
      tokRoom s.cv f.tok.toNat (f.count (f.pieces s2 (f.accs (calm s)) ps)) = true := by
  constructor
  · obtain ⟨s2, ps, h, h2⟩ := go_of (r := accessChecks (calm mapped) false ldForm.noPriv ldForm.noScr ldForm.atom ldForm.scadd (ldForm.accs (calm mapped)))
      (p := fun s2 ps => tokRoom mapped.cv ldForm.tok.toNat (ldForm.count (ldForm.pieces s2 (ldForm.accs (calm mapped)) ps))) (by decide +kernel)
    exact ⟨ldInstr, ldForm, mapped, s2, ps, rfl, rfl, mapped_ready _ _ _ (by decide) (by decide), trivial, h, h2⟩
  · obtain ⟨s2, ps, h, h2⟩ := go_of (r := accessChecks (calm mapped) true stForm.noPriv stForm.noScr stForm.atom stForm.scadd (stForm.accs (calm mapped)))
      (p := fun s2 ps => tokRoom mapped.cv stForm.tok.toNat (stForm.count (stForm.pieces s2 (stForm.accs (calm mapped)) ps))) (by decide +kernel)
    exact ⟨stInstr, stForm, mapped, s2, ps, rfl, rfl, mapped_ready _ _ _ (by decide) (by decide), trivial, h, h2⟩

/-- The first access outside every window, the first misaligned one, the first beyond the per-thread bound, and two threads of one atomic at
one address. -/
theorem wit_addressChecks :
    let first (i : Instr) (p : MemForm → Bool) : Prop := ∃ f, memForm i = some f ∧ Ready mapped f.uses [] f.dst ∧ f.extra (calm mapped) ∧ p f = true
    let as (f : MemForm) : List Acc := f.accs (calm mapped)
    let window (f : MemForm) : List Acc := (as f).filter (fun a => (windowSub mapped f.noPriv f.noScr a).isSome)
    let align (f : MemForm) : List Acc := (as f).filter (fun a => a.ea % a.n ≠ 0)
    let priv (f : MemForm) : List Acc := (as f).filter (fun a => (privBad mapped a).isSome)
    first (.ld 0 (.main 8) (.lit 0xFFFF000000000000#64) .zero .b32 false .lin .ca 0) (fun f => (window f).head?.isSome) ∧
    first (.ld 0 (.main 8) (.lit 0x10001#64) .zero .b32 false .lin .ca 0) (fun f => (window f).isEmpty && (align f).head?.isSome) ∧
    first (.ldp 0 (.main 8) (.lit 160#64) .zero .b32 0) (fun f => (window f).isEmpty && (align f).isEmpty && (priv f).head?.isSome) ∧
    first (.atom 0 (.main 8) (.lit 0x10000#64) .zero .zero .add false .none .lin 0) (fun f =>
      (window f).isEmpty && (align f).isEmpty && (priv f).isEmpty && f.atom &&
        (as f).any (fun a => (as f).any (fun b => decide (a.lane ≠ b.lane ∧ a.win = b.win)))) := by
  refine ⟨⟨_, rfl, mapped_ready _ _ _ (by decide) (by decide), trivial, by decide +kernel⟩,
    ⟨_, rfl, mapped_ready _ _ _ (by decide) (by decide), trivial, by decide +kernel⟩,
    ⟨_, rfl, mapped_ready _ _ _ (by decide) (by decide), trivial, by decide +kernel⟩,
    ⟨_, rfl, mapped_ready _ _ _ (by decide) (by decide), ?_, by decide +kernel⟩⟩
  intro h; cases h

/-- One unit outstanding, with one piece of 4 bytes. -/
def memUnit (k : UKind) (p : Piece) : Pending := { seq := 0, tok := some 0, kind := k, mask := 1#32, pc := 68, pieces := [p] }

/-- A place of 4 bytes in memory and one in scratch. -/
def memPiece : Piece := { lane := 0, scr := false, addr := 0x10000, va := 0x10000, n := 4 }
def scrPiece : Piece := { lane := 0, scr := true, addr := 16, va := 16, n := 4 }

/-- The mapped state with one unit outstanding. -/
def withUnit (u : Pending) : State := withUnits [u] mapped

theorem withUnit_go (u : Pending) (write : Bool) (ho : mayComplete (withUnit u).cv u = true)
    (hh : ((pieceLines write u.pieces).all (fun x => !(fcWaits (withUnit u) x.1 x.2))) = true)
    (hk : ∀ p ∈ u.pieces, Keyed (withUnit u) p) : MayGo (withUnit u) 0 u write :=
  ⟨rfl, ho, fun x hx => by simpa using List.all_eq_true.mp hh x hx, hk⟩

theorem keyed_scr (s : State) (p : Piece) (h : p.scr = true) : Keyed s p := .inl h

theorem keyed_tag (s : State) (p : Piece) (h : s.ltag = []) (hk : p.key = 0) : Keyed s p :=
  .inr (.inr fun a _ => .inl (by rw [h, hk]; rfl))

/-- Loads of memory and of scratch. -/
theorem wit_loadUnitDelivers : ∀ scr : Bool, ∃ (k : Nat) (u : Pending) (s : State), MayGo s k u false ∧
    (u.kind = if scr then .scrLoad false true else .load) ∧ u.pieces ≠ [] ∧ ∀ p ∈ u.pieces, LoadPiece p := by
  intro scr
  cases scr
  · refine ⟨0, memUnit .load { memPiece with dst := [.main 3 0] }, _, withUnit_go _ false (by decide) (by decide) ?_, rfl, by decide, ?_⟩
    · intro p hp; exact keyed_tag _ _ rfl (by simp [memUnit, memPiece] at hp; subst hp; rfl)
    · simp [memUnit, memPiece, LoadPiece, realLoc]
  · refine ⟨0, memUnit (.scrLoad false true) { scrPiece with dst := [.main 3 0] }, _, withUnit_go _ false (by decide) (by decide) ?_, rfl, by decide, ?_⟩
    · intro p hp; exact keyed_scr _ _ (by simp [memUnit, scrPiece] at hp; subst hp; rfl)
    · simp [memUnit, scrPiece, LoadPiece, realLoc]

/-- Stores to scratch, to a memory-side page and to a cached page. -/
theorem wit_storeUnitLands :
    (∃ (u : Pending) (s : State), MayGo s 0 u true ∧ u.writes = [] ∧ u.rel = false ∧ (∀ p ∈ u.pieces, p.data.length = p.n) ∧
      u.kind = .scrStore true ∧ u.pieces ≠ [] ∧ ∀ p ∈ u.pieces, p.scr = true) ∧
    ∀ ms : Bool, ∃ (u : Pending) (s : State), MayGo s 0 u true ∧ u.writes = [] ∧ u.rel = false ∧ (∀ p ∈ u.pieces, p.data.length = p.n) ∧
      u.kind = .store ∧ u.pieces ≠ [] ∧ ∀ p ∈ u.pieces, p.scr = false ∧ p.priv = false ∧ p.ms = ms ∧ 0 < p.n := by
  constructor
  · refine ⟨memUnit (.scrStore true) { scrPiece with data := [1#8, 2#8, 3#8, 4#8] }, _, withUnit_go _ true (by decide) (by decide) ?_, rfl, rfl, by decide, rfl,
      by decide, by decide⟩
    intro p hp; exact keyed_scr _ _ (by simp [memUnit, scrPiece] at hp; subst hp; rfl)
  · intro ms
    refine ⟨memUnit .store { memPiece with data := [1#8, 2#8, 3#8, 4#8], ms := ms }, _, withUnit_go _ true (by cases ms <;> decide) (by cases ms <;> decide) ?_,
      rfl, rfl, by cases ms <;> decide, rfl, by cases ms <;> decide, by cases ms <;> decide⟩
    intro p hp; exact keyed_tag _ _ rfl (by simp [memUnit, memPiece] at hp; subst hp; rfl)

/-- A release store, a release fence, an acquire load and an acquire fence. -/
theorem wit_releasesAndAcquires :
    (∃ u s, MayGo s 0 u true ∧ u.kind = .store ∧ u.rel = true) ∧ (∃ u s, MayGo s 0 u true ∧ u.kind = .fence .rel) ∧
    (∃ u s, MayGo s 0 u false ∧ u.kind = .load ∧ u.acq = true) ∧ (∃ u s, MayGo s 0 u false ∧ u.kind = .fence .acqrel) := by
  refine ⟨⟨{ memUnit .store memPiece with rel := true }, _, withUnit_go _ true (by decide) (by decide) ?_, rfl, rfl⟩,
    ⟨{ memUnit (.fence .rel) memPiece with pieces := [] }, _, withUnit_go _ true (by decide) (by decide) (by simp), rfl⟩,
    ⟨{ memUnit .load memPiece with acq := true }, _, withUnit_go _ false (by decide) (by decide) ?_, rfl, rfl⟩,
    ⟨{ memUnit (.fence .acqrel) memPiece with pieces := [] }, _, withUnit_go _ false (by decide) (by decide) (by simp), rfl⟩⟩ <;>
  · intro p hp; exact keyed_tag _ _ rfl (by simp [memUnit, memPiece] at hp; subst hp; rfl)

/-- A store of core 0 that waits for its ownership. -/
theorem wit_storesBecomeVisible : ∃ (core k : Nat) (p : PStore) (s : State), (s.pstores.filter (fun q => q.core = core))[k]? = some p ∧
    storeFirst s p = true ∧ 0 < p.bytes.length ∧ ∀ l ∈ linesOf p.addr p.bytes.length, fcWaits s l true = false ∧ NMap.get 0 s.ltag l = p.key :=
  ⟨0, 0, _, { idle with pstores := [{ core := 0, uid := 0, convoy := 0, lane := 0, addr := 0x10000, bytes := [1#8], key := 0 }] }, rfl, by decide, by decide,
    by decide⟩

/-- A full-empty load of granule 1, whose bit is set or clear, that waits at the head of the granule's queue or does not. -/
def feUnit : Pending := memUnit (.scrLoad true true) { scrPiece with dst := [.main 3 0] }
def feState (full waits : Bool) : State :=
  { withUnit feUnit with ch := { (withUnit feUnit).ch with fe := if full then [(1, true)] else [], feWait := if waits then [(0, 0)] else [] } }

/-- An atomic in scratch and one in memory; full-empty loads of an empty and of a full granule, and one that waits. -/
theorem wit_atomicsPerform :
    (∀ scr : Bool, ∃ (u : Pending) (p : Piece) (s : State), MayGo s 0 u true ∧ u.pieces = [p] ∧ p.n = 4 ∧ p.data.length = p.n ∧
      (∀ l ∈ p.dst, realLoc l ∧ ∀ j x, l ≠ .pred j x) ∧ p.dst ≠ [] ∧ p.dst.Nodup ∧ p.priv = false ∧ p.scr = scr ∧ u.rel = false ∧
      (u.kind = if scr then .scrAtom .add false else .atom .add false) ∧
      (let s1 := registerRange s s.ch.core p.addr p.n
       piecePoison s1 p = false ∧ Keyed s1 p)) ∧
    ∀ full waits : Bool, ∃ (u : Pending) (p : Piece) (s : State), MayGo s 0 u false ∧ u.kind = .scrLoad true true ∧ u.pieces = [p] ∧ p.scr = true ∧
      piecePoison s p = false ∧ LoadPiece p ∧ p.dst.Nodup ∧ feBit s.ch (p.addr / 16) = full ∧
      (if waits then s.ch.feWait.head? = some (s.cv.id, u.seq) ∧ ∀ v ∈ s.cv.units, v.seq = u.seq → v = u
       else (s.cv.id, u.seq) ∉ s.ch.feWait ∧ feEarly s u = false ∧ feBehind s u = false) := by
  constructor
  · intro scr
    cases scr
    · refine ⟨memUnit (.atom .add false) { memPiece with data := [1#8, 0#8, 0#8, 0#8], dst := [.main 3 0] }, _, _,
        withUnit_go _ true (by decide) (by decide) ?_, rfl, rfl, rfl, by simp [realLoc], by decide, by decide, rfl, rfl, rfl, rfl, by decide, ?_⟩
      · intro p hp; exact keyed_tag _ _ rfl (by simp [memUnit, memPiece] at hp; subst hp; rfl)
      · exact keyed_tag _ _ (by decide) rfl
    · refine ⟨memUnit (.scrAtom .add false) { scrPiece with data := [1#8, 0#8, 0#8, 0#8], dst := [.main 3 0] }, _, _,
        withUnit_go _ true (by decide) (by decide) ?_, rfl, rfl, rfl, by simp [realLoc], by decide, by decide, rfl, rfl, rfl, rfl, by decide, ?_⟩
      · intro p hp; exact keyed_scr _ _ (by simp [memUnit, scrPiece] at hp; subst hp; rfl)
      · exact keyed_scr _ _ rfl
  · intro full waits
    refine ⟨feUnit, _, feState full waits, ⟨by cases full <;> cases waits <;> rfl, by cases full <;> cases waits <;> decide,
      by simp [feUnit, memUnit, scrPiece, pieceLines], ?_⟩, rfl, rfl, rfl, by cases full <;> cases waits <;> decide,
      by simp [scrPiece, LoadPiece, realLoc], by decide, by cases full <;> cases waits <;> decide, ?_⟩
    · intro p hp; exact keyed_scr _ _ (by simp [feUnit, memUnit, scrPiece] at hp; subst hp; rfl)
    · cases full <;> cases waits <;> decide

theorem fst_of {α β : Type} {p : α × β} {a : α} (h : p.1 = a) : p = (a, p.2) := by rw [← h]

/-- A convoy in the middle of a clause. -/
def busy : Convoy := { id := 1, live := 1#32, clause := some { pc := 64, hdr := headerFor .int 2, words := [0#32, 0#32], nxt := 1, mask := 1#32 } }

/-- The mapped state with headers of CTL clauses of one word at 64 and 128, in memory and at the launch. -/
def coded : State :=
  let bs := bytesOf (headerFor .ctl 1).toNat 4
  let m := NMap.setAll 0#8 (NMap.setAll 0#8 [] 64 bs) 128 bs
  { mapped with mem := m, ch := { mapped.ch with code := m, convoys := [busy] } }

theorem coded_ready (us : List Use) (ps : List Loc) (d : Option (Dst × Nat)) (hb : checkUses coded us d = none)
    (hc : poisonedLanes coded us = 0#32) : Ready coded us ps d := ready_quiet coded us ps d rfl rfl hb hc

/-- The focused convoy's clause. -/
def clause_ : Clause := { pc := 64, hdr := headerFor .int 1, words := [0#32], mask := 3#32 }

/-- The operand faults: v95 beyond a window of 16 registers, an odd pair, an empty latch, a destination beyond the window. -/
def narrow : State := { idle with cv := { idle.cv with budget := 2 }, ch := { idle.ch with convoys := [busy], check := true } }
def underrun : State := { narrow with cv := { narrow.cv with pend := [{ olds := [(.main 1 0, 7#64)], ready := 2, pc := 68 }] } }

/-- A fault of another convoy's thread with none recorded yet. -/
theorem wit_takingAFault :
    (∃ (i : Instr) (f : DataForm) (s : State) (r : Fin 96) (u : Use) (post : List Use), intForm i = some f ∧ (∀ u ∈ f.uses, ∀ x, u.src ≠ .idx x) ∧
      (∀ x, f.dst ≠ .idx x) ∧ f.uses = [] ++ u :: post ∧ u.src = .main r ∧ 8 * s.cv.budget < r.val + u.n) ∧
    (∃ (i : Instr) (f : DataForm) (s : State) (r : Fin 96) (u : Use) (post : List Use), fltForm i = some f ∧ f.uses = [] ++ u :: post ∧ u.src = .main r ∧
      u.n = 2 ∧ r.val % 2 = 1 ∧ r.val + u.n ≤ 8 * s.cv.budget) ∧
    (∃ (i : Instr) (f : DataForm) (s : State) (u v : Use), intForm i = some f ∧ f.uses = [u] ++ v :: [] ∧ checkSrc s u = none ∧ v.src = .latch 1 ∧
      (latchOf s 1 (lowest s)).valid = false) ∧
    (∃ (i : Instr) (f : DataForm) (s : State) (r : Fin 96), intForm i = some f ∧ (∀ u ∈ f.uses, checkSrc s u = none) ∧ f.dst = .main r ∧
      8 * s.cv.budget < r.val + f.words) ∧
    (∃ (i : Instr) (f : DataForm) (s : State) (l : Loc), intForm i = some f ∧ l ∈ useLocs s f.uses ∧
      checkUses s f.uses (some (f.dst, f.words)) = none ∧ s.ch.check = true ∧ ¬ Settled s.cv l) ∧
    ∃ (s : State) (f : FaultRec) (k : Clause), s.cv.clause = some k ∧ (Header.unpack k.hdr).uni = false ∧ f.pc = none ∧ (∃ c ∈ s.ch.convoys, stopped c = false) ∧
      KeyedAt s (s.ch.ctx + 256) 64 s.ch.ckey ∧ KeyedAt s (s.ch.ctx + 256) 3 s.ch.ckey ∧ recordKind s s.ch = 0 ∧ f.kind < 256 := by
  refine ⟨⟨.iadd 0 (.main 3) (.main 95) (.main 1) false, _, narrow, 95, ⟨0, .main 95, 1⟩, _, rfl, by decide, by (intro x h; cases h), rfl, rfl, by decide⟩,
    ⟨.dadd 0 (.main 2) (.main 1) (.main 2) ⟨false, false, false⟩, _, narrow, 1, ⟨0, .main 1, 2⟩, _, rfl, rfl, rfl, rfl, by decide, by decide⟩,
    ⟨.iadd 0 (.main 3) (.main 1) (.latch 1) false, _, narrow, ⟨0, .main 1, 1⟩, ⟨1, .latch 1, 1⟩, rfl, rfl, by decide, rfl, by decide⟩,
    ⟨.iadd 0 (.main 16) (.main 1) (.main 2) false, _, narrow, 16, rfl, by decide, rfl, by decide⟩,
    ⟨.iadd 0 (.main 3) (.main 1) (.main 2) false, _, underrun, .main 1 0, rfl, by decide, by decide, rfl, by intro h; exact absurd h.1 (by decide)⟩,
    narrow, { kind := 0x0C }, clause_, rfl, by decide, rfl, by decide, ?_, ?_, by decide, by decide⟩ <;>
  · intro b _; exact .inl rfl

theorem wit_controlWithoutBranch :
    (∃ (s : State) (k : Clause) (mask : BitVec 8), s.cv.clause = some k ∧ s.cv.bad = 0#32 ∧ mask ≠ 0#8 ∧
      (∀ j < 8, mask.getLsbD j = true → tokCount s.cv j = 0) ∧ ∀ x ∈ lanes k.mask, NMap.get 0 s.cv.junc x = 0 ∨ s.cv.juncDone.getLsbD x = true) ∧
    ∃ (s : State) (k : Clause) (mask : BitVec 8) (j : Nat), s.cv.clause = some k ∧ s.cv.bad = 0#32 ∧ j < 8 ∧ mask.getLsbD j = true ∧ tokCount s.cv j ≠ 0 :=
  ⟨⟨idle, clause_, 0xFF#8, rfl, rfl, by decide, by decide, by decide⟩, withUnits [valueUnit] idle, clause_, 1#8, 0, rfl, rfl, by decide, by decide, by decide⟩

/-- The targets of a branch are headers and have room. -/
def targetsOk (s : State) (tgt : List (Nat × Nat)) : Bool :=
  ((checkTargets s (distinct (tgt.map (·.2)))).1.all (fun e => match e.2 with
    | .ok _ => true
    | _ => false)) && decide (residents s.cv + (distinct (tgt.map (·.2))).length ≤ 8)

theorem targetsOk_iff {s : State} {tgt : List (Nat × Nat)} (h : targetsOk s tgt = true) : TargetsOk s tgt := by
  simp only [targetsOk, Bool.and_eq_true, List.all_eq_true, decide_eq_true_eq] at h
  refine ⟨fun e he => ?_, h.2⟩
  have := h.1 e he
  split at this
  · exact ⟨_, by assumption⟩
  · cases this

/-- BRA p7 by 16 words, and BRX to the same; targets that are no header; a frontier with no room. -/
def full : State :=
  { coded with cv := { coded.cv with
      fr := (List.range 7).map (fun i => { pc := 256 + 64 * i, prio := 0, mask := 0#32 })
      spill := (List.range 64).map (fun i => { pc := 4096 + 64 * i, prio := 0, mask := 0#32 }) } }

theorem wit_branches :
    (∃ (p : Pn) (s : State) (k : Clause) (off : BitVec 20), s.cv.clause = some k ∧ s.cv.bad = 0#32 ∧ (∀ l ∈ predLocs s p.toNat, Settled s.cv l) ∧ k.mask ≠ 0#32 ∧
      TargetsOk s (((lanes k.mask).filter (fun x => pred s p.toNat (if uniform s then lowest s else x) ^^ false)).map
        (fun x => (x, (((k.pc : Int) + 4 * off.toInt) % 2 ^ 64).toNat))) ∧ takeMask s p.toNat false ≠ 0#32) ∧
    (∃ (p : Pn) (s : State) (k : Clause) (a : Src), s.cv.clause = some k ∧ s.cv.bad = 0#32 ∧ Ready s [⟨0, a, 2⟩] (predLocs s p.toNat) none ∧
      TargetsOk s (((lanes k.mask).filter (fun x => pred s p.toNat (if uniform s then lowest s else x) ^^ false)).map
        (fun x => (x, (rd64 s a (if uniform s then lowest s else x)).toNat)))) ∧
    (∃ (s s1 : State) (k : Clause) (off : BitVec 20), s.cv.clause = some k ∧ takeMask s 7 false ≠ 0#32 ∧
      checkTarget s (((k.pc : Int) + 4 * off.toInt) % 2 ^ 64).toNat = (.bad, s1) ∧ ∃ x ∈ s1.ch.convoys, stopped x = false) ∧
    ∃ (s s1 : State) (k : Clause) (off : BitVec 20) (prio : Nat), s.cv.clause = some k ∧ takeMask s 7 false ≠ 0#32 ∧
      checkTarget s (((k.pc : Int) + 4 * off.toInt) % 2 ^ 64).toNat = (.ok prio, s1) ∧
      joinEntry s1.cv (((k.pc : Int) + 4 * off.toInt) % 2 ^ 64).toNat prio (takeMask s 7 false) = none :=
  ⟨⟨7, coded, clause_, 16#20, rfl, rfl, fun l _ => settled_quiet _ rfl rfl l, by decide, targetsOk_iff (by decide +kernel), by decide⟩,
    ⟨7, coded, clause_, .lit 128#64, rfl, rfl, coded_ready _ _ _ (by decide) (by decide), targetsOk_iff (by decide +kernel)⟩,
    ⟨coded, _, clause_, 17#20, rfl, by decide, fst_of (by decide +kernel), by decide +kernel⟩,
    full, _, clause_, 16#20, 0, rfl, by decide, fst_of (by decide +kernel), by decide +kernel⟩

/-- A taken call of both threads, and a return of both from frames in per-thread memory. -/
def called : State := { coded with cv := { coded.cv with depth := [(0, 1), (1, 1)] } }

/-- The low words of both frames hold 128. -/
def returning : State := { called with mem := NMap.set 0#8 (NMap.set 0#8 called.mem 4864 128#8) 4868 128#8 }

def callFrames (s : State) (up : Nat) : List Acc :=
  [0, 1].map (fun x => { lane := x, ea := 4 * (s.ch.desc.priv - up - 2 * depthOf s x), win := .priv (4 * (s.ch.desc.priv - up - 2 * depthOf s x)), n := 8 })

def apartB : List PSpan → Bool
  | [] => true
  | p :: ps => ps.all (fun q => decide (p.pa + p.n ≤ q.pa ∨ q.pa + q.n ≤ p.pa)) && apartB ps

theorem apart_iff : ∀ {ps : List PSpan}, apartB ps = true → ps.Pairwise (fun p q => p.pa + p.n ≤ q.pa ∨ q.pa + q.n ≤ p.pa)
  | [], _ => .nil
  | p :: ps, h => by
    simp only [apartB, Bool.and_eq_true, List.all_eq_true, decide_eq_true_eq] at h
    exact .cons h.1 (apart_iff h.2)

theorem wit_callsAndReturns :
    (∃ (p : Pn) (s s1 : State) (ps : List PSpan) (k : Clause) (tgt : List (Nat × Nat)), s.cv.clause = some k ∧ s.cv.bad = 0#32 ∧ k.mask ≠ 0#32 ∧
      (∀ l ∈ predLocs s p.toNat, Settled s.cv l) ∧ tgt = (lanes k.mask).map (fun x => (x, (((k.pc : Int) + 4 * (16#20).toInt) % 2 ^ 64).toNat)) ∧
      (∀ e ∈ tgt, 10 + 2 * depthOf s e.1 ≤ s.ch.desc.priv) ∧ pageChecks s true false (callFrames s 10) = .go s1 ps ∧
      ps.Pairwise (fun p q => p.pa + p.n ≤ q.pa ∨ q.pa + q.n ≤ p.pa) ∧ TargetsOk s1 tgt) ∧
    ∃ (s s1 : State) (ps : List PSpan) (k : Clause), s.cv.clause = some k ∧ (∀ x ∈ lanes k.mask, 0 < depthOf s x) ∧
      pageChecks s false false (callFrames s 8) = .go s1 ps ∧ TargetsOk s1 ((lanes k.mask).map (fun x => (x, frameTarget s1 ps x))) := by
  constructor
  · obtain ⟨s1, ps, h, h2⟩ := go_of (r := pageChecks coded true false (callFrames coded 10))
      (p := fun s1 ps => apartB ps && targetsOk s1 [(0, 128), (1, 128)]) (by decide +kernel)
    rw [Bool.and_eq_true] at h2
    exact ⟨7, coded, s1, ps, clause_, _, rfl, rfl, by decide, fun l _ => settled_quiet _ rfl rfl l, rfl, by decide, h, apart_iff h2.1, targetsOk_iff h2.2⟩
  · obtain ⟨s1, ps, h, h2⟩ := go_of (r := pageChecks returning false false (callFrames returning 8))
      (p := fun s1 ps => targetsOk s1 ((lanes 3#32).map (fun x => (x, frameTarget s1 ps x)))) (by decide +kernel)
    exact ⟨returning, s1, ps, clause_, rfl, by decide, h, targetsOk_iff h2⟩

/-- Frontier entries at a boundary, one of them aged. -/
def between (age : Nat) : State :=
  { coded with cv := { coded.cv with clause := none, fr := [{ pc := 64, prio := 0, mask := 1#32, age := age }, { pc := 128, prio := 3, mask := 2#32 }] } }

/-- A clause that has been selected at 64 or, where there is no header, at 68. -/
def selected (pc : Nat) : State := { coded with cv := { coded.cv with clause := some { pc := pc, hdr := 0#32, words := [], mask := 3#32 } } }

theorem wit_clauseSelection :
    (∃ s, AtBoundary s ∧ (∀ e ∈ s.cv.fr ++ s.cv.spill, e.age < 4096) ∧ s.cv.yielded = none ∧ (∃ e ∈ s.cv.fr, e.wait = none) ∧
      ∀ e ∈ s.cv.fr, waitDone s e = e.wait.isNone) ∧
    (∃ s, AtBoundary s ∧ ∃ e ∈ s.cv.fr ++ s.cv.spill, e.wait = none ∧ 4096 ≤ e.age) ∧
    (∃ (s s1 s2 : State) (k : Clause) (w : Word) (ws : List Word), s.focus = true ∧ s.cv.halt = .run ∧ s.cv.clause = some k ∧ k.words = [] ∧ k.fresh = true ∧
      readCode { s with cv := { s.cv with stalled := false } } k.pc true = (.word w, s1) ∧ isHeader w = true ∧ (Header.unpack w).count ≠ 0#4 ∧
      readWords s1 (k.pc + 4) (Header.unpack w).count.toNat = (.ok ws, s2)) ∧
    ∃ (s s1 : State) (k : Clause) (w : Word), s.focus = true ∧ s.cv.halt = .run ∧ s.cv.clause = some k ∧ k.words = [] ∧ k.fresh = true ∧
      readCode { s with cv := { s.cv with stalled := false } } k.pc true = (.word w, s1) ∧ isHeader w = false :=
  ⟨⟨between 0, ⟨rfl, rfl, rfl, rfl, rfl, rfl⟩, by decide, rfl, by decide, by decide⟩,
    ⟨between 4096, ⟨rfl, rfl, rfl, rfl, rfl, rfl⟩, by decide⟩,
    ⟨selected 64, _, _, _, headerFor .ctl 1, [0#32], rfl, rfl, rfl, rfl, rfl, fst_of (by decide +kernel), by decide, by decide,
      fst_of (by decide +kernel)⟩,
    selected 68, _, _, 0#32, rfl, rfl, rfl, rfl, rfl, fst_of (by decide +kernel), by decide⟩

/-- A join that has waited, expired or not. -/
def joining (late : Bool) : State :=
  { idle with cv := { idle.cv with live := 7#32, clause := some { clause_ with wait := some (.join 9 late) }, fr := [{ pc := 256, prio := 0, mask := 4#32, wait := some (.join 9 false) }] } }

theorem wit_boundedJoins :
    (∃ (p : Pn) (a : Src) (s : State) (k : Clause), s.cv.clause = some k ∧ s.cv.bad = 0#32 ∧ Ready s [⟨0, a, 1⟩] [] none ∧ PredFree s p ∧ k.wait = none ∧
      s.cv.live &&& ~~~(spilledThreads s.cv) &&& ~~~k.mask = 0#32) ∧
    (∀ late : Bool, ∃ (p : Pn) (a : Src) (s : State) (k : Clause), s.cv.clause = some k ∧ s.cv.bad = 0#32 ∧ Ready s [⟨0, a, 1⟩] [] none ∧ PredFree s p ∧
      k.wait = some (.join 9 late) ∧ s.cv.live &&& ~~~(spilledThreads s.cv) &&& ~~~k.mask ≠ 0#32) ∧
    (∃ (p : Pn) (a : Src) (s : State) (k : Clause), s.cv.clause = some k ∧ s.cv.bad = 0#32 ∧ Ready s [⟨0, a, 1⟩] [] none ∧ PredFree s p ∧ k.wait = none ∧
      s.cv.live &&& ~~~(spilledThreads s.cv) &&& ~~~k.mask ≠ 0#32 ∧ (rd32 s a (lowest s)).toNat ≠ 0) ∧
    ∃ (pc d : Nat) (e : Entry) (s : State), e ∈ s.cv.fr ∧ e.pc = pc ∧ e.wait = some (.join d false) ∧ ∀ f ∈ s.cv.fr ++ s.cv.spill, f.pc = pc → f = e := by
  refine ⟨⟨6, .lit 9#64, idle, clause_, rfl, rfl, ready_quiet _ _ _ _ rfl rfl (by decide) (by decide), fun _ _ => settled_quiet _ rfl rfl _, rfl, by decide⟩,
    fun late => ⟨6, .lit 9#64, joining late, _, rfl, rfl, ready_quiet _ _ _ _ rfl rfl (by cases late <;> decide) (by cases late <;> decide),
      fun _ _ => settled_quiet _ rfl rfl _, rfl, by cases late <;> decide⟩,
    ⟨6, .lit 9#64, { idle with cv := { idle.cv with live := 7#32 } }, clause_, rfl, rfl, ready_quiet _ _ _ _ rfl rfl (by decide) (by decide),
      fun _ _ => settled_quiet _ rfl rfl _, rfl, by decide, by decide⟩,
    256, 9, { pc := 256, prio := 0, mask := 4#32, wait := some (.join 9 false) }, joining false, by decide, rfl, rfl, by decide⟩

/-- A barrier at 16, armed for two arrivals, at a phase, faulted or not. -/
def barred (phase : BitVec 16) (faulted : Bool) : State :=
  { idle with ch := putBarrier idle.ch 16 { getBarrier idle.ch 16 with phase := phase, expected := 2#16, pending := 1#16, faulted := faulted } }

theorem wit_barriers :
    (∀ range : Bool, ∃ (a b : Src) (t : Tok) (s : State), s.cv.bad = 0#32 ∧ Ready s [⟨0, a, 1⟩, ⟨1, b, 1⟩] [] none ∧ tokRoom s.cv t.toNat 1 = true ∧
      (if range then (rd32 s a (lowest s)).toNat + (rd32 s b (lowest s)).toNat ≤ scrSize s.ch
        else (rd32 s a (lowest s)).toNat % 16 = 0 ∧ (rd32 s a (lowest s)).toNat + 16 ≤ scrSize s.ch)) ∧
    (∀ faulted : Bool, ∃ (a b : Src) (p : Pn) (s : State), s.cv.bad = 0#32 ∧ Ready s [⟨0, a, 1⟩, ⟨1, b, 1⟩] [] none ∧ PredFree s p ∧
      (rd32 s a (lowest s)).toNat % 16 = 0 ∧ (rd32 s a (lowest s)).toNat + 16 ≤ scrSize s.ch ∧
      ((getBarrier s.ch (rd32 s a (lowest s)).toNat).phase - (rd32 s b (lowest s)).setWidth 16).toInt < 0 ∧
      (getBarrier s.ch (rd32 s a (lowest s)).toNat).faulted = faulted ∧ (getBarrier s.ch (rd32 s a (lowest s)).toNat).poisoned = false) ∧
    (∃ (a b : Src) (d : Dst) (s : State), s.cv.bad = 0#32 ∧ Ready s [⟨0, a, 1⟩, ⟨1, b, 1⟩] [] (some (d, 1)) ∧ (rd32 s a (lowest s)).toNat % 16 ≠ 0) ∧
    ∀ kind : UKind, kind = .binit false 16 2 ∨ kind = .binit true 16 32 ∨ kind = .barv 16 4 → ∃ (u : Pending) (s : State),
      s.cv.units[0]? = some u ∧ mayComplete s.cv u = true ∧ u.writes = [] ∧ u.kind = kind ∧ u.pieces ≠ [] ∧
        ∀ p ∈ u.pieces, p.n = 16 ∧ ∀ l ∈ p.dst, realLoc l ∧ ∀ j x, l ≠ .pred j x := by
  refine ⟨fun range => ⟨.lit 16#64, .lit 32#64, 0, idle, rfl, idle_ready _ _ _ (by decide) (by decide), by decide, by cases range <;> decide⟩,
    fun faulted => ⟨.lit 16#64, .lit 1#64, 6, barred 0#16 faulted, rfl, ready_quiet _ _ _ _ rfl rfl (by cases faulted <;> decide) (by cases faulted <;> decide),
      fun _ _ => settled_quiet _ rfl rfl _, by cases faulted <;> decide, by cases faulted <;> decide, by cases faulted <;> decide +kernel,
      by cases faulted <;> decide +kernel, by cases faulted <;> decide +kernel⟩,
    ⟨.lit 8#64, .lit 1#64, .main 3, idle, rfl, idle_ready _ _ _ (by decide) (by decide), by decide⟩, ?_⟩
  intro kind h
  refine ⟨memUnit kind { scrPiece with n := 16, dst := [.main 3 0] }, withUnits [_] (barred 5#16 false), rfl, ?_, rfl, rfl, by simp [memUnit], ?_⟩
  · rcases h with rfl | rfl | rfl <;> decide
  · simp [memUnit, realLoc]

/-- A ticket counter at 65,536 that serves one number, held or not. -/
def ticketed (x : DWord) (held : Bool) : State :=
  { mapped with
    mem := NMap.setAll 0#8 [] 0x10000 (bytesOf x.toNat 8)
    ch := { mapped.ch with linear := 5, ticket := if held then some (0x10000, 0) else none } }

/-- A whole that is reachable. -/
def okAt (w : Whole) (p : State → Nat → Nat → Bool) : Bool :=
  match w with
  | .ok s pa key => p s pa key
  | _ => false

theorem ok_of {w : Whole} {p : State → Nat → Nat → Bool} (h : okAt w p = true) : ∃ s pa key, w = .ok s pa key ∧ p s pa key = true := by
  cases w with
  | ok s pa key => exact ⟨s, pa, key, rfl, h⟩
  | _ => cases h

theorem wit_tickets :
    (∃ (d : Dst) (a : Src) (t : Tok) (s s2 : State) (pa key : Nat), s.cv.bad = 0#32 ∧ Ready s [⟨0, a, 2⟩] [] (some (d, 1)) ∧
      wholeAddr s (rd64 s a (lowest s)) 8 true = .ok s2 pa key ∧ s.ch.ticket = none ∧ tokRoom s.cv t.toNat 1 = true) ∧
    (∃ (d : Dst) (a : Src) (s s2 : State) (pa key : Nat) (other : Nat × Nat), s.cv.bad = 0#32 ∧ Ready s [⟨0, a, 2⟩] [] (some (d, 1)) ∧
      wholeAddr s (rd64 s a (lowest s)) 8 true = .ok s2 pa key ∧ s.ch.ticket = some other ∧ other ≠ (pa, key)) ∧
    (∀ now : DWord, now = 4#64 ∨ now = 5#64 ∨ now = 6#64 ∨ now = 0x8000000000000004#64 → ∃ (p : Pn) (s : State) (pa key : Nat), s.cv.bad = 0#32 ∧
      PredFree s p ∧ s.ch.ticket = some (pa, key) ∧ BitVec.ofNat 64 (memNat s pa 8) = now ∧ s.ch.linear = 5 ∧ accessPending s.cv (activeMask s) = false ∧
      (∀ q ∈ s.pstores, q.core ≠ s.ch.core) ∧ KeyedAt s pa 8 key) ∧
    (∀ now : DWord, now = 4#64 ∨ now = 5#64 ∨ now = 6#64 → ∃ (s : State) (q : TicketPass), s.passes = [q] ∧ KeyedAt s q.pa 8 q.key ∧ q.id = 5 ∧
      BitVec.ofNat 64 (memNat s q.pa 8) = now) := by
  refine ⟨?_, ?_, ?_, ?_⟩
  · obtain ⟨s2, pa, key, h, _⟩ := ok_of (w := wholeAddr (ticketed 4#64 false) (rd64 (ticketed 4#64 false) (.lit 0x10000#64) (lowest (ticketed 4#64 false))) 8 true)
      (p := fun _ _ _ => true) (by decide +kernel)
    exact ⟨.main 3, .lit 0x10000#64, 0, ticketed 4#64 false, s2, pa, key, rfl, ready_quiet _ _ _ _ rfl rfl (by decide) (by decide), h, rfl, by decide⟩
  · obtain ⟨s2, pa, key, h, h2⟩ := ok_of (w := wholeAddr (ticketed 4#64 true) (rd64 (ticketed 4#64 true) (.lit 0x10010#64) (lowest (ticketed 4#64 true))) 8 true)
      (p := fun _ pa key => decide ((0x10000, 0) ≠ (pa, key))) (by decide +kernel)
    exact ⟨.main 3, .lit 0x10010#64, ticketed 4#64 true, s2, pa, key, (0x10000, 0), rfl, ready_quiet _ _ _ _ rfl rfl (by decide) (by decide), h, rfl, of_decide_eq_true h2⟩
  · intro now h
    refine ⟨6, ticketed now true, _, _, rfl, fun _ _ => settled_quiet _ rfl rfl _, rfl, ?_, rfl, rfl, fun q h => (by cases h), fun _ _ => .inl rfl⟩
    rcases h with rfl | rfl | rfl | rfl <;> decide
  · intro now h
    refine ⟨{ ticketed now false with passes := [{ launch := 1, pa := 0x10000, key := 0, id := 5 }] }, _, rfl, fun _ _ => .inl rfl, rfl, ?_⟩
    rcases h with rfl | rfl | rfl <;> decide

/-- A descriptor of one convoy of 32 threads that may be spawned, at 131,072. -/
def descAt (m : NMap Byte) (a : Nat) : NMap Byte :=
  [(28, 128#8), (32, 8#8), (36, 1#8), (37, 2#8), (38, 2#8), (39, 2#8), (40, 3#8), (41, 1#8), (42, 1#8), (44, 1#8), (46, 32#8), (56, 64#8)].foldl (fun m e => NMap.set 0#8 m (a + e.1) e.2) m

/-- The mapped state with the descriptor and a junction of three children at 65,536, in a cohort that may spawn eight. -/
def spawning : State :=
  { mapped with
    mem := descAt (NMap.set 0#8 [] 0x10000 3#8) 0x20000
    ch := { mapped.ch with desc := { mapped.ch.desc with spawnb := 8 }, recs := [0x30000, 0x30040] } }

theorem spawning_ready (us : List Use) (ps : List Loc) (d : Option (Dst × Nat)) (hb : checkUses spawning us d = none)
    (hc : poisonedLanes spawning us = 0#32) : Ready spawning us ps d := ready_quiet spawning us ps d rfl rfl hb hc

/-- Room for both threads' records. -/
def roomFor (s : State) (desc : Nat) : Bool := canSpawn s s.ch.core desc s.ch.rcb 1 && canSpawn s s.ch.core desc s.ch.rcb 2

/-- Spawns of both threads with the junction, of a descriptor that is none, past the budget, and at a junction that is misaligned. -/
theorem wit_spawnInstructions :
    (∃ (a b : Src) (first : BitVec 8) (count : Fin 9) (t : Tok) (s s2 s3 : State) (pa key : Nat), s.cv.bad = 0#32 ∧
      Ready s [⟨0, a, 2⟩, ⟨1, b, 2⟩] (payloadLocs s first count) none ∧
      (count.val = 0 ∨ (first.toNat + count.val ≤ 8 * s.cv.budget ∧ first.toNat + count.val ≤ 192)) ∧
      (rd64 s b (lowest s)).toNat % 16 = 0 ∧ spawnDesc s (rd64 s a (lowest s)) = (some true, s2) ∧ rd64 s b (lowest s) ≠ 0#64 ∧
      wholeAddr s2 (rd64 s b (lowest s)) 16 true = .ok s3 pa key ∧ tokRoom s.cv t.toNat 1 = true ∧
      (∀ n, 0 < n → n ≤ (actLanes s).length → canSpawn s3 s.ch.core (rd64 s a (lowest s)).toNat s.ch.rcb n = true) ∧
      s.ch.spawnk + (actLanes s).length ≤ s.ch.desc.spawnb) ∧
    (∃ (a b : Src) (s s2 : State), Ready s [⟨0, a, 2⟩, ⟨1, b, 2⟩] (payloadLocs s 0 0) none ∧ (rd64 s b (lowest s)).toNat % 16 = 0 ∧
      spawnDesc s (rd64 s a (lowest s)) = (some false, s2)) ∧
    (∃ (a b : Src) (s s2 : State), Ready s [⟨0, a, 2⟩, ⟨1, b, 2⟩] (payloadLocs s 0 0) none ∧ rd64 s b (lowest s) = 0#64 ∧
      spawnDesc s (rd64 s a (lowest s)) = (some true, s2) ∧ s.ch.desc.spawnb < s.ch.spawnk + (actLanes s).length) ∧
    ∃ (a b : Src) (s : State), Ready s [⟨0, a, 2⟩, ⟨1, b, 2⟩] (payloadLocs s 0 0) none ∧ (rd64 s b (lowest s)).toNat % 16 ≠ 0 := by
  refine ⟨?_, ⟨.lit 0x21000#64, .zero, spawning, _, spawning_ready _ _ _ (by decide) (by decide), by decide, fst_of (by decide +kernel)⟩,
    ⟨.lit 0x20000#64, .zero, { spawning with ch := { spawning.ch with spawnk := 7 } }, _, ready_quiet _ _ _ _ rfl rfl (by decide) (by decide), by decide,
      fst_of (by decide +kernel), by decide⟩,
    .lit 0x20000#64, .lit 8#64, spawning, spawning_ready _ _ _ (by decide) (by decide), by decide⟩
  obtain ⟨s3, pa, key, h, h2⟩ := ok_of (w := wholeAddr (spawnDesc spawning 0x20000#64).2 0x10000#64 16 true)
    (p := fun s3 _ _ => [1, 2].all (fun n => canSpawn s3 0 0x20000 0 n)) (by decide +kernel)
  refine ⟨.lit 0x20000#64, .lit 0x10000#64, 8#8, 2, 0, spawning, _, s3, pa, key, rfl, spawning_ready _ _ _ (by decide) (by decide), by decide, by decide,
    fst_of (by decide +kernel), by decide, h, by decide, fun n h1 h3 => ?_, by decide⟩
  refine List.all_eq_true.mp h2 n ?_
  have : n ≤ 2 := h3
  have : n = 1 ∨ n = 2 := by omega
  simpa using this

/-- A child's unit that is to join a queue, with its junction. -/
def childUnit : Pending := { memUnit (.spawn 0x20000#64 0x10000#64 (some (0x10000, 0)) [(0, [7#32, 8#32])]) memPiece with rel := true, pieces := [] }

/-- A queue of one record. -/
def queued : SpawnQ := { core := 0, q := 0, desc := 0x20000, used := true, recs := [(0x30080, 0)] }

/-- A child lane whose junction is at 65,536. -/
def child_ (pending : Byte) : State :=
  { spawning with
    mem := NMap.set 0#8 [] 0x10000 pending
    cv := { spawning.cv with clause := some { clause_ with mask := 1#32 }, junc := [(0, 0x10000)] } }

def marked (none_ : Bool) : State :=
  let s := child_ (if none_ then 0#8 else 3#8)
  { s with cv := { s.cv with junc := NMap.set 0 s.cv.junc 0 0, juncDone := s.cv.juncDone ||| (1#32 <<< 0) } }

theorem wit_childrenAndJunctions :
    (∃ (y r : Nat) (u : Pending) (desc j : DWord) (pa key : Nat) (ws : List Word) (x : SpawnQ) (rs : List Nat) (s : State), s.cv.units[0]? = some u ∧
      mayComplete s.cv u = true ∧ u.kind = .spawn desc j (some (pa, key)) [(y, ws)] ∧ u.writes = [] ∧ ws.length ≤ 8 ∧
      chooseQ s s.ch.core desc.toNat s.ch.rcb = some x ∧ (x.used = false ∨ (x.desc = desc.toNat ∧ x.rcb = s.ch.rcb)) ∧ x.recs.length < 31 ∧
      s.ch.recs = r :: rs ∧ (∀ q ∈ s.pstores, q.core ≠ s.ch.core) ∧ KeyedAt s pa 8 key ∧ (pa + 8 ≤ r ∨ r + 64 ≤ pa)) ∧
    (∃ (core q : Nat) (s : State), (getQ s core q).used = true ∧ (getQ s core q).recs ≠ [] ∧ canDispatch s (getQ s core q) = true) ∧
    (∃ (d : Dst) (a : Src) (s s2 : State) (pa key : Nat), s.cv.bad = 0#32 ∧ Ready s [⟨0, a, 2⟩] [] (some (d, 2)) ∧
      wholeAddr s (rd64 s a (lowest s)) 16 true = .ok s2 pa key ∧ (∀ q ∈ s.pstores, q.core ≠ s.ch.core) ∧ KeyedAt s2 pa 8 key) ∧
    (∃ (p : Pn) (a : Src) (s s1 : State) (pa key : Nat), s.cv.bad = 0#32 ∧ Ready s [⟨0, a, 2⟩] [] none ∧ PredFree s p ∧
      wholeAddr s (rd64 s a (lowest s)) 16 false = .ok s1 pa key ∧ (memNat (flushSpawns s1 s.ch.uid) pa 8).testBit 63 = false ∧
      memNat (flushSpawns s1 s.ch.uid) pa 8 % 2 ^ 32 ≠ 0) ∧
    ∀ _ : Bool, ∃ (s s2 : State) (k : Clause) (x j pa key : Nat), s.cv.clause = some k ∧ s.cv.bad = 0#32 ∧ x < 32 ∧ k.mask = 1#32 <<< x ∧
      NMap.get 0 s.cv.junc x = j ∧ j ≠ 0 ∧ s.cv.juncDone.getLsbD x = false ∧ accessPending s.cv k.mask = false ∧ (∀ q ∈ s.pstores, q.core ≠ s.ch.core) ∧
      atomicAddr { s with cv := { s.cv with junc := NMap.set 0 s.cv.junc x 0, juncDone := s.cv.juncDone ||| (1#32 <<< x) } } s.ch.core s.ch.root j =
        (some (pa, key), s2) ∧ KeyedAt s2 pa 8 key := by
  refine ⟨⟨0, 0x30000, childUnit, 0x20000#64, 0x10000#64, 0x10000, 0, [7#32, 8#32], queued, _, withUnits [childUnit] { spawning with spawnqs := [queued] },
      rfl, by decide, rfl, rfl, by decide, by decide, by decide, by decide, rfl, by decide, fun _ _ => .inl rfl, by decide⟩,
    ⟨0, 0, { spawning with spawnqs := [queued] }, by decide, by decide, by decide⟩, ?_, ?_, fun none_ => ?_⟩
  · obtain ⟨s2, pa, key, h, h2⟩ := ok_of (w := wholeAddr spawning 0x10000#64 16 true)
      (p := fun s2 _ key => decide (s2.ltag = [] ∧ key = 0)) (by decide +kernel)
    have h2 := of_decide_eq_true h2
    exact ⟨.main 4, .lit 0x10000#64, spawning, s2, pa, key, rfl, spawning_ready _ _ _ (by decide) (by decide), h, by decide,
      fun _ _ => .inl (by rw [h2.1, h2.2]; rfl)⟩
  · obtain ⟨s2, pa, key, h, h2⟩ := ok_of (w := wholeAddr spawning 0x10000#64 16 false)
      (p := fun s2 pa _ => !((memNat (flushSpawns s2 0) pa 8).testBit 63) && decide (memNat (flushSpawns s2 0) pa 8 % 2 ^ 32 ≠ 0)) (by decide +kernel)
    rw [Bool.and_eq_true] at h2
    exact ⟨6, .lit 0x10000#64, spawning, s2, pa, key, rfl, spawning_ready _ _ _ (by decide) (by decide), fun _ _ => settled_quiet _ rfl rfl _, h,
      Bool.not_eq_true' _ ▸ h2.1, of_decide_eq_true h2.2⟩
  · have h : (atomicAddr (marked none_) 0 0#64 0x10000).1 = some (0x10000, 0) ∧ (atomicAddr (marked none_) 0 0#64 0x10000).2.ltag = [] := by
      cases none_ <;> decide +kernel
    exact ⟨child_ (if none_ then 0#8 else 3#8), _, _, 0, 0x10000, 0x10000, 0, rfl, rfl, by decide, rfl, rfl, by decide, by simp [child_, spawning, mapped, idle, small], rfl, fun q h => (by cases h),
      fst_of h.1, fun _ _ => .inl ((congrArg (fun m => NMap.get 0 m _) h.2).trans rfl)⟩

/-- A cohort of one convoy that has arrived at its HANDOFF to the descriptor with no inheritance. -/
def leaver : Cohort :=
  { uid := 1, desc := { shapex := 32, shapey := 1, shapez := 1, convoys := 1, gengr := 3, feedgr := 2, compgr := 2, draingr := 2, scratch := 1, priv := 8 }
    ctxPages := 512
    convoys := [{ live := 3#32, budget := 3, fr := [{ pc := 64, prio := 0, mask := 3#32, wait := some (.handoff 0x20000#64 0#64) }] }] }
def leaving : State := { spawning with focus := false, cv := {}, ch := {}, others := [leaver] }

/-- A record that is readable. -/
def recOk (r : Option Nat × Bool × State) (p : Nat → State → Bool) : Bool :=
  match r with
  | (some x, false, s) => p x s
  | _ => false

theorem rec_of {r : Option Nat × Bool × State} {p : Nat → State → Bool} (h : recOk r p = true) : ∃ x s, r = (some x, false, s) ∧ p x s = true := by
  obtain ⟨_ | x, b, s⟩ := r
  · cases h
  · cases b
    · exact ⟨x, s, rfl, h⟩
    · cases h

theorem wit_handoffs :
    (∀ inh : DWord, inh = 0#64 ∨ inh = 0x20#64 → ∃ (a b : Fin 8) (s : State), s.cv.bad = 0#32 ∧
      (∀ l ∈ useLocs s [⟨0, .uni ⟨2 * a.val, by omega⟩, 2⟩, ⟨1, .uni ⟨2 * b.val, by omega⟩, 2⟩], Settled s.cv l) ∧
      poisonedLanes s [⟨0, .uni ⟨2 * a.val, by omega⟩, 2⟩, ⟨1, .uni ⟨2 * b.val, by omega⟩, 2⟩] = 0#32 ∧
      rd64 s (.uni ⟨2 * b.val, by omega⟩) (lowest s) = inh) ∧
    ∃ (c : Cohort) (dp w : DWord) (x : Nat) (s s2 : State), (unfocus s).others.find? (fun d => d.core = 0 && d.slot = 0) = some c ∧
      c.faulting = false ∧ c.stopping = false ∧ c.dying = false ∧ (c.convoys.map (·.id)).Nodup ∧ c.convoys ≠ [] ∧ (∀ d ∈ (unfocus s).others, d.uid = c.uid → d = c) ∧
      arrival c = .all dp w ∧ handoffDrained (flushSpawns (unfocus s) c.uid) c = true ∧
      readRec (flushSpawns (unfocus s) c.uid) c.core c.root dp.toNat 64 = (some x, false, s2) ∧ descOk x = true ∧ tapeFits (descOf x) = true ∧
      shapeItem s2 c (descOf x) w = none ∧ savedPages (descOf x) ≤ c.ctxPages := by
  constructor
  · rintro inh (rfl | rfl)
    · exact ⟨0, 1, { idle with cv := { idle.cv with uni := [(2, 0#32)] } }, rfl, fun l _ => settled_quiet _ rfl rfl l, by decide, by decide⟩
    · exact ⟨0, 1, { idle with cv := { idle.cv with uni := [(2, 0x20#32)] } }, rfl, fun l _ => settled_quiet _ rfl rfl l, by decide, by decide⟩
  · obtain ⟨x, s2, h, h2⟩ := rec_of (r := readRec (flushSpawns (unfocus leaving) 1) 0 0#64 0x20000 64)
      (p := fun x s2 => descOk x && tapeFits (descOf x) && (shapeItem s2 leaver (descOf x) 0#64).isNone && decide (savedPages (descOf x) ≤ 512)) (by decide +kernel)
    simp only [Bool.and_eq_true, Option.isNone_iff_eq_none, decide_eq_true_eq] at h2
    exact ⟨leaver, 0x20000#64, 0#64, x, leaving, s2, rfl, rfl, rfl, rfl, by decide, by decide, by simp [unfocus, leaving], by rfl, by decide, h,
      h2.1.1.1, h2.1.1.2, h2.1.2, h2.2⟩

/-- A convoy and a receiver that waits in ACCEPT on a tag, or a peer that does not. -/
def giving (tag : Option Nat) : State :=
  { idle with ch := { idle.ch with convoys := [{ id := 1, live := 1#32, budget := 2, accept := tag }] } }

theorem wit_registerDonation :
    (∃ (p : Pn) (n : Fin 25) (s : State), s.cv.bad = 0#32 ∧ PredFree s p ∧ s.cv.xfer = none ∧ (n.val = 0 ∨ s.cv.budget < n.val + 2)) ∧
    (∃ (p : Pn) (n : Fin 25) (s : State), s.cv.bad = 0#32 ∧ PredFree s p ∧ s.cv.xfer = none ∧ (∀ c ∈ s.ch.convoys, c.live = 0#32) ∧ 1 ≤ n.val ∧ n.val + 2 ≤ s.cv.budget) ∧
    (∀ b : Bool, ∃ (p : Pn) (s : State), s.cv.bad = 0#32 ∧ PredFree s p ∧ s.cv.xfer = some b) ∧
    ∀ tag : Option Nat, ∃ (p : Pn) (n : Fin 25) (s : State), s.cv.bad = 0#32 ∧ PredFree s p ∧ s.cv.xfer = none ∧ 1 ≤ n.val ∧ n.val + 2 ≤ s.cv.budget ∧
      (∃ c ∈ s.ch.convoys, c.live ≠ 0#32) ∧ writesAbove s.cv (8 * (s.cv.budget - n.val)) = false ∧
      ∃ r ∈ s.ch.convoys, r.accept = tag ∧ r.xfer = none ∧ r.live ≠ 0#32 ∧ r.id ≠ s.cv.id ∧ (s.ch.convoys.map (·.id)).Nodup ∧
        (∀ c ∈ s.ch.convoys, r.id ≤ c.id) ∧ ∀ c ∈ s.ch.convoys, c.donate = none :=
  ⟨⟨6, 0, idle, rfl, fun _ _ => settled_quiet _ rfl rfl _, rfl, by decide⟩,
    ⟨6, 22, idle, rfl, fun _ _ => settled_quiet _ rfl rfl _, rfl, by decide, by decide, by decide⟩,
    fun b => ⟨6, { idle with cv := { idle.cv with xfer := some b } }, rfl, fun _ _ => settled_quiet _ rfl rfl _, rfl⟩,
    fun tag => ⟨6, 22, giving tag, rfl, fun _ _ => settled_quiet _ rfl rfl _, rfl, by decide, by simp [giving, idle, small],
      ⟨_, List.mem_singleton.mpr rfl, by simp⟩, by rfl, _, List.mem_singleton.mpr rfl, rfl, rfl, by simp, by simp [giving, idle, small], by simp [giving],
      by simp [giving], by simp [giving]⟩⟩

/-- A cohort whose threads have exited. -/
def gone : Cohort := { uid := 1, launch := 1, convoys := [{}] }
def grid_ : Launch := { no := 1, rcb := 0, rec_ := 0, desc := {}, descPtr := 0x20000 }
def ended : State := { leaving with others := [gone], launches := [grid_] }

theorem wit_retirement : ∃ (r : SlotRef) (c : Cohort) (s : State) (l : Launch),
    (unfocus s).others.find? (fun d => d.core = r.core && d.slot = r.slot) = some c ∧ (∀ v ∈ c.convoys, v.live = 0#32 ∧ v.units = []) ∧
    c.faulting = false ∧ c.stopping = false ∧ c.dying = false ∧ cmdsDone (unfocus s) c = true ∧ chainsIdle c = true ∧ c.mq = [] ∧
    (∀ y ∈ c.rays, y.status.isSome = true) ∧ bitmapRetry (unfocus s) c = false ∧ recordsQueued (flushSpawns (unfocus s) c.uid) c.uid = false ∧
    ringRoom (flushSpawns (unfocus s) c.uid) (dieOf c.core) = true ∧ launchOf s c.launch = some l ∧ l.handles = none :=
  ⟨{ core := 0, slot := 0 }, gone, ended, grid_, rfl, by decide, rfl, rfl, rfl, by decide, by decide, rfl, by decide, by decide, by decide, by decide, rfl, rfl⟩

/-- The mapped state of a cohort that holds the matrix unit with slots 0 and 1 claimed and a latched bf16 tile, its convoy of a role. -/
def matrix (role : Role) : State :=
  { mapped with
    cv := { mapped.cv with role := role }
    ch := { mapped.ch with hold := true, claim := 3#32, lastLdw := some (.bf16, 1), nldw := 1, planes := [{ fmt := .bf16, tile := [], seq := 1 }], burst := 5 } }

theorem wit_matrixQueue :
    (∃ (i : Instr) (f : MtxForm) (s : State), mtxForm i = some f ∧ s.cv.bad = 0#32 ∧ Ready s f.uses [] f.dst ∧ MtxGranted s false f.slots ∧ f.extra s ∧
      tokRoom s.cv f.tok.toNat 1 = true) ∧
    (∃ (i : Instr) (f : MtxForm) (s : State), mtxForm i = some f ∧ s.cv.bad = 0#32 ∧ Ready s f.uses [] f.dst ∧ MtxGranted s false f.slots ∧ f.extra s ∧
      tokRoom s.cv f.tok.toNat 1 = true ∧ f.uses ≠ [] ∧ f.slots ≠ 0#32) ∧
    (∃ (a : Src) (s : State), s.cv.bad = 0#32 ∧ Ready s [⟨0, a, 1⟩] [] none ∧ s.cv.role = .general ∧ (∀ l ∈ predLocs s 6, Settled s.cv l) ∧
      s.ch.hold = false ∧ unitHeld s s.ch.core = true) ∧
    (∃ (a : Src) (s : State), s.cv.bad = 0#32 ∧ Ready s [⟨0, a, 1⟩] [] none ∧ s.cv.role = .general ∧ (∀ l ∈ predLocs s 6, Settled s.cv l) ∧
      s.ch.hold = true ∧ tokRoom s.cv 0 1 = true ∧ s.ch.claim &&& rd32 s a (lowest s) ≠ 0#32) ∧
    ∀ role : Role, ∃ (i : Instr) (f : MtxForm) (s : State), mtxForm i = some f ∧ s.cv.bad = 0#32 ∧ Ready s f.uses [] f.dst ∧ s.cv.role = role ∧
      f.slots &&& ~~~s.ch.claim ≠ 0#32 :=
  ⟨⟨.mma 0 .f16 0 7 false false 0, _, matrix .compute, rfl, rfl, ready_quiet _ _ _ _ rfl rfl (by decide) (by decide), ⟨.inr (.inl rfl), rfl, by decide⟩,
      ⟨.bf16, 1, rfl, by decide, by decide, by decide⟩, by decide⟩,
    ⟨.mslotw 0 (.main 0) (.lit 16380#64) 1 false 0, _, matrix .general, rfl, rfl, ready_quiet _ _ _ _ rfl rfl (by decide) (by decide),
      ⟨.inl rfl, rfl, by decide⟩, fun x hx => (by revert x; decide), by decide, by decide, by decide⟩,
    ⟨.lit 1#64, { idle with others := [{ slot := 1, hold := true }] }, rfl, ready_quiet _ _ _ _ rfl rfl (by decide) (by decide), rfl,
      fun l _ => settled_quiet _ rfl rfl l, rfl, by decide⟩,
    ⟨.lit 2#64, matrix .general, rfl, ready_quiet _ _ _ _ rfl rfl (by decide) (by decide), rfl, fun l _ => settled_quiet _ rfl rfl l, rfl, by decide, by decide⟩,
    fun role => ⟨.mldw 0 .bf16 31 0, _, matrix role, rfl, rfl, ready_quiet _ _ _ _ rfl rfl (by cases role <;> decide) (by cases role <;> decide), rfl, by cases role <;> decide⟩⟩

/-- An entry with its unit, alone in the queue. -/
def matrixUnit (ps : List Piece) : Pending := { memUnit (.matrix 0) scrPiece with pieces := ps }
def entryOf (op : MOp) : MEntry := { op := op, convoy := 0, unit := some 0, plane := 1 }
def working (op : MOp) (ps : List Piece) : State :=
  let s := withUnits [matrixUnit ps] (matrix .general)
  { s with ch := { s.ch with mq := [entryOf op] } }

/-- The places of one result of two words. -/
def resultOf : Piece := { scrPiece with n := 0, va := 1023, dst := [.main 2 0, .main 3 0] }

theorem wit_matrixTiles :
    (∃ (a b : Src) (fmt : Fmt) (acc : Fin 8) (t : Tok) (s s1 s2 : State) (ps : List PSpan), s.cv.bad = 0#32 ∧ Ready s [⟨0, a, 2⟩, ⟨1, b, 1⟩] [] none ∧
      MtxGranted s true 0#32 ∧ (fmt = .f64 → acc.val % 2 = 0) ∧
      windowCheck s true false (tileAccs s (rd64 s a (lowest s)).toNat (rd32 s b (lowest s)).toNat fmt) = none ∧
      pageProtect s true (tileAccs s (rd64 s a (lowest s)).toNat (rd32 s b (lowest s)).toNat fmt) = (none, s1) ∧
      (rd64 s a (lowest s)).toNat % 16 = 0 ∧ (rd32 s b (lowest s)).toNat % 16 = 0 ∧
      pageChecks s1 true false (tileAccs s (rd64 s a (lowest s)).toNat (rd32 s b (lowest s)).toNat fmt) = .go s2 ps ∧ tokRoom s.cv t.toNat 1 = true) ∧
    (∃ (a b : Src) (s s1 : State), Ready s [⟨0, a, 2⟩, ⟨1, b, 1⟩] [] none ∧ MtxGranted s true 0#32 ∧
      windowCheck s true false (tileAccs s (rd64 s a (lowest s)).toNat (rd32 s b (lowest s)).toNat .f32) = none ∧
      pageProtect s true (tileAccs s (rd64 s a (lowest s)).toNat (rd32 s b (lowest s)).toNat .f32) = (none, s1) ∧ (rd64 s a (lowest s)).toNat % 16 ≠ 0) ∧
    ∀ op : MOp, op = .zero 3#8 ∨ op = .rd 0 true ∨ op = .wr 6 true [(5, 9#64)] ∨ op = .slotw 1 [(16380, [1#8, 2#8, 3#8, 4#8])] ∨ op = .slotr 1 true ∨ op = .sync ∨
      op = .free 1#32 ∨ op = .ldw .bf16 0 → ∃ (u : Pending) (e : MEntry) (s : State), s.cv.units[0]? = some u ∧ u.kind = .matrix u.seq ∧
      (∀ v ∈ s.cv.units, v.seq = u.seq → v = u) ∧ s.ch.mq.find? (fun x => x.convoy = s.cv.id && x.unit = some u.seq) = some e ∧ entryReady s.ch e = true ∧
      s.ch.mpoison = [] ∧ mayComplete s.cv u = true ∧ e.op = op ∧ s.focus = true ∧ u.pieces.Nodup ∧ u.pieces ≠ [] ∧
      ∀ p ∈ u.pieces, p.n = 0 ∧ p.sgn = false ∧ p.dst.Nodup ∧ (∀ l ∈ p.dst, realLoc l ∧ ∀ j x, l ≠ .pred j x) ∧ ∀ q ∈ u.pieces, ∀ l ∈ p.dst, l ∈ q.dst → q = p := by
  refine ⟨?_, ⟨.lit 0x10008#64, .lit 128#64, matrix .drain, _, ready_quiet _ _ _ _ rfl rfl (by decide) (by decide), ⟨.inr (.inr ⟨rfl, rfl⟩), rfl, by decide⟩,
    by decide +kernel, fst_of (by decide +kernel), by decide⟩, ?_⟩
  · obtain ⟨s2, ps, h, _⟩ := go_of (r := pageChecks (pageProtect (matrix .drain) true (tileAccs (matrix .drain) 0x10000 256 .f64)).2 true false
      (tileAccs (matrix .drain) 0x10000 256 .f64)) (p := fun _ _ => true) (by decide +kernel)
    exact ⟨.lit 0x10000#64, .lit 256#64, .f64, 6, 0, matrix .drain, _, s2, ps, rfl, ready_quiet _ _ _ _ rfl rfl (by decide) (by decide),
      ⟨.inr (.inr ⟨rfl, rfl⟩), rfl, by decide⟩, by decide, by decide +kernel, fst_of (by decide +kernel), by decide, by decide, h, by decide⟩
  · intro op h
    refine ⟨matrixUnit [resultOf], entryOf op, working op [resultOf], rfl, rfl, by simp [working, withUnits], by simp [working, matrix, entryOf, matrixUnit, memUnit, withUnits, mapped, idle, small],
      ?_, rfl, rfl, rfl, rfl, by decide, by decide, by simp [matrixUnit, resultOf, scrPiece, realLoc]⟩
    rcases h with rfl | rfl | rfl | rfl | rfl | rfl | rfl | rfl <;> rfl

/-- An MMA at the head of the queue, redundant or not, with the array running. -/
def multiplying (redn : Bool) : State :=
  let s := working (.mma .f16 0 7 false false .rne none) []
  { s with ch := { s.ch with mq := [{ entryOf (.mma .f16 0 7 false false .rne none) with redn := redn }] }, arrays := [(0, { mode := .run })] }

theorem wit_matrixMultiply : ∀ redn : Bool, ∃ (e : MEntry) (p : Plane) (fmt : Fmt) (m acc : Nat) (ftzi ftzo : Bool) (rm : RMode) (s : State), s.focus = true ∧
    s.ch.mpoison = [] ∧ e.op = .mma fmt m acc ftzi ftzo rm none ∧ s.ch.mq.find? (fun x => x.op.isMma) = some e ∧ entryReady s.ch e = true ∧
    (arrayOf s s.ch.core).mode = .run ∧ s.ch.planes.find? (fun q => q.seq = e.plane) = some p ∧ e.convoy = s.cv.id ∧ e.redn = redn := by
  intro redn
  cases redn <;> exact ⟨_, _, .f16, 0, 7, false, false, .rne, multiplying _, rfl, rfl, rfl, rfl, by decide, by decide, rfl, rfl, rfl⟩

theorem wit_arrayRamps :
    (∀ mode : ArrayMode, ∃ (st : Stall) (fmt : Fmt) (slot : Fin 32) (acc : Fin 8) (ftzi ftzo : Bool) (k : Tok) (f : MtxForm) (s : State),
      mtxForm (.mma st fmt slot acc ftzi ftzo k) = some f ∧ s.cv.bad = 0#32 ∧ MtxGranted s false f.slots ∧ f.extra s ∧ tokRoom s.cv k.toNat 1 = true ∧
      (arrayOf s s.ch.core).mode = mode) ∧
    ∃ s : State, s.focus = true ∧ s.ch.hold = true ∧ s.ch.burst ≠ 0 ∧ (arrayOf s s.ch.core).mode = .rest := by
  refine ⟨fun mode => ⟨0, .f16, 0, 7, false, false, 0, _, { matrix .compute with arrays := [(0, { mode := mode })] }, rfl, rfl,
    ⟨.inr (.inl rfl), rfl, by cases mode <;> decide⟩, ⟨.bf16, 1, rfl, by decide, by decide, by decide⟩, by rfl, rfl⟩, matrix .compute, rfl, rfl, by decide, by decide⟩

/-- A state with engine commands, and one with a chain. -/
def commanded (role : Role) (cs : List Cmd) (ws : List EWrite) (x : Option Chain) : State :=
  { mapped with
    mem := NMap.set 0#8 [] 0x10000 3#8
    cv := { mapped.cv with role := role }
    ch := { mapped.ch with cq := cs, writes := ws, chain := x, hold := true, claim := 3#32, lastLdw := some (.bf16, 1) } }

def cmd : Cmd := { seq := 1, kind := .linear, src := 0x10000#64, dst := 0x12000#64, mile := 0#64, len := 8 }
def chain_ : Chain := { no := 1, head := 0x20000, resume := 0x20000, tail := 0x20040, convoy := 0 }

theorem wit_engineCommands :
    (∃ (a b c : Src) (t : Tok) (s : State), s.cv.bad = 0#32 ∧ s.cv.role = .feed ∧ tokRoom s.cv t.toNat 1 = true ∧
      Ready s [⟨0, a, 2⟩, ⟨1, b, 2⟩, ⟨2, c, 4⟩] [] none ∧ s.ch.cq.length < 64 ∧ Ready s [⟨0, a, 2⟩, ⟨1, b, 2⟩] [] none ∧ Ready s [⟨0, a, 2⟩] [] none ∧
      s.ch.chain = none ∧ s.ch.pchain = none ∧ s.session = none) ∧
    (∃ (a b c : Src) (s : State), Ready s [⟨0, a, 2⟩, ⟨1, b, 2⟩, ⟨2, c, 4⟩] [] none ∧ s.cv.role = .feed ∧ 64 ≤ s.ch.cq.length) ∧
    (∃ (a : Src) (s : State) (y : Chain), Ready s [⟨0, a, 2⟩] [] none ∧ s.cv.role = .feed ∧ s.ch.chain = some y ∧ y.last ≠ some (rd64 s a (lowest s)).toNat) ∧
    (∀ k : DWord, k = 3#64 ∨ k = 4#64 → ∃ (p : Pn) (a b : Src) (s s1 : State) (pa key : Nat), s.cv.bad = 0#32 ∧ Ready s [⟨0, a, 2⟩, ⟨1, b, 2⟩] [] none ∧ PredFree s p ∧
      wholeAddr s (rd64 s a (lowest s)) 8 false = .ok s1 pa key ∧ poisoned s1 (lineOf pa) = false ∧ rd64 s b (lowest s) = k ∧ memNat s1 pa 8 = 3) ∧
    (∃ (a b : Src) (s : State), s.cv.bad = 0#32 ∧ Ready s [⟨0, a, 2⟩, ⟨1, b, 2⟩] [] none ∧ (rd64 s a (lowest s)).toNat % 8 ≠ 0) ∧
    ∃ (a b : Src) (s : State), s.cv.bad = 0#32 ∧ s.cv.role = .drain ∧ Ready s [⟨0, a, 2⟩, ⟨1, b, 2⟩] [] none ∧ Ready s [⟨0, a, 2⟩] [] none := by
  refine ⟨⟨.main 0, .main 2, .main 4, 0, commanded .feed [] [] none, rfl, rfl, by decide, ?_, by decide, ?_, ?_, rfl, rfl, rfl⟩,
    ⟨.main 0, .main 2, .main 4, commanded .feed (List.replicate 64 cmd) [] none, ?_, rfl, by decide⟩,
    ⟨.lit 0x20080#64, commanded .feed [] [] (some chain_), chain_, ?_, rfl, rfl, by decide⟩, ?_,
    ⟨.lit 4#64, .zero, commanded .feed [] [] none, rfl, ?_, by decide⟩, .main 0, .main 2, commanded .drain [] [] none, rfl, rfl, ?_, ?_⟩
  all_goals try exact ready_quiet _ _ _ _ rfl rfl (by decide) (by decide)
  intro k hk
  obtain ⟨s1, pa, key, h, h2⟩ := ok_of (w := wholeAddr (commanded .feed [] [] none) 0x10000#64 8 false)
    (p := fun s1 pa _ => !(poisoned s1 (lineOf pa)) && decide (memNat s1 pa 8 = 3)) (by decide +kernel)
  rw [Bool.and_eq_true] at h2
  refine ⟨6, .lit 0x10000#64, .lit k, commanded .feed [] [] none, s1, pa, key, rfl, ready_quiet _ _ _ _ rfl rfl ?_ ?_, fun _ _ => settled_quiet _ rfl rfl _, h,
    Bool.not_eq_true' _ ▸ h2.1, ?_, of_decide_eq_true h2.2⟩ <;> rcases hk with rfl | rfl <;> decide

/-- One copy command of the focused cohort: it has not started; it has started with two elements to read; it has a write that has landed; all of its
bytes have landed; it hands an MMA over. -/
def started (n : Nat) : Cmd := { cmd with started := true, next := n }
def landing (place : Place) (landed : Bool) : EWrite := { cmd := 1, place := place, bytes := [1#8, 2#8, 3#8, 4#8], landed := landed }
def follower (bad : Bool) : Cmd :=
  { started 2 with follow := some ((encode (.mma 0 .f16 0 7 false false 0)).elim (0#32, 0#32) (fun e => (e.2.getD 0 0#32, if bad then 1#32 else e.2.getD 1 0#32))) }

theorem wit_copyEngine :
    (∀ len : Nat, len = 8 ∨ len = 6 → ∃ (s : State) (c : Cmd), s.focus = true ∧ s.ch.cq.find? (fun d => d.seq = c.seq) = some c ∧
      s.ch.cq.find? (fun d => !d.started) = some c ∧ c.kind = .linear ∧ c.err = none ∧ c.follow = none ∧ c.bind = none ∧ (∀ q ∈ s.pstores, q.core ≠ s.ch.core) ∧
      afterDone s c.after = true ∧ (c.acq = true → ∀ d ∈ s.ch.cq, c.seq ≤ d.seq) ∧ c.len = len ∧
      ∀ p, p = c.src ∨ p = c.dst → p.toNat % 4 = 0 ∧ ((∃ va, ePtr p = .ok (.glob va)) ∨ ∃ o, ePtr p = .ok (.scr o))) ∧
    (∃ (s s1 s2 : State) (c : Cmd) (p q : Place), s.ch.cq.find? (fun d => d.seq = c.seq) = some c ∧ c.started = true ∧ c.err = none ∧ c.next < cmdTotal c ∧
      elemPlace s c.src c.slayout (elemOff c c.next).1 4 false = (some (.ok p), s1) ∧ elemPlace s1 c.dst c.dlayout (elemOff c c.next).2 4 true = (some (.ok q), s2) ∧
      (∀ pa key, p = .mem pa key → KeyedAt s2 pa 4 key) ∧ (readPlace s2 p 4).2.1 = false) ∧
    (∀ place : Place, place = .mem 0x12000 0 ∨ place = .scr 64 ∨ place = .slot 1 64 → ∃ (s : State) (c : Cmd) (w : EWrite),
      s.ch.cq.find? (fun d => d.seq = c.seq) = some c ∧ s.ch.writes[0]? = some w ∧ w.cmd = c.seq ∧ c.bind = none ∧ PlaceKeyed s w.place w.bytes.length ∧ w.place = place) ∧
    (∃ (s s1 : State) (c : Cmd) (pa key : Nat), s.ch.cq.find? (fun d => d.seq = c.seq) = some c ∧ c.started = true ∧ c.err = none ∧ cmdTotal c ≤ c.next ∧
      (∀ w ∈ s.ch.writes, w.cmd ≠ c.seq) ∧ c.follow = none ∧ (∀ x ∈ s.colls, x.seq ≠ c.seq) ∧ (∀ b ∈ s.batches, b.seq ≠ c.seq) ∧ hasMile c.mile = true ∧
      engAddr s s.ch.core s.ch.root c.mile true false = (some (.ok (pa, key)), s1) ∧ poisoned s1 (lineOf pa) = false ∧ KeyedAt s1 pa 8 key ∧ c.seq < 2 ^ 63) ∧
    (∀ bad : Bool, ∃ (s : State) (c : Cmd) (w x : Word), s.ch.cq.find? (fun d => d.seq = c.seq) = some c ∧ c.follow = some (w, x) ∧ c.mmaOut = false ∧ c.err = none ∧
      c.started = true ∧ cmdTotal c ≤ c.next ∧ (∀ v ∈ s.ch.writes, v.cmd ≠ c.seq) ∧ s.ch.det = false ∧
      if bad then followMma w x = none
      else followMma w x = some (.f16, 0, 7, false, false, .rne) ∧ s.ch.hold = true ∧ s.ch.claim.getLsbD 0 = true ∧ mmaFormatOk s.ch .f16 7 = true) ∧
    ∃ (s s2 : State) (x : Chain) (y : Nat), s.ch.chain = some x ∧ x.head % 64 = 0 ∧ x.tail % 64 = 0 ∧ x.last ≠ some x.tail ∧ s.ch.cq.length < 64 ∧
      afterDone s x.after = true ∧ (∀ q ∈ s.pstores, q.core ≠ s.ch.core) ∧ engRecord s x.resume = (some (.ok y), s2) ∧
      slice y 511 384 = 0 ∧ slice y 319 318 = 0 ∧ slice y 311 304 = 0 ∧ slice y 317 316 < 3 := by
  refine ⟨fun len h => ?_, ?_, fun place h => ?_, ?_, fun bad => ?_, ?_⟩
  · refine ⟨commanded .feed [{ cmd with len := len }] [] none, { cmd with len := len }, rfl, rfl, rfl, rfl, rfl, rfl, rfl, fun q h => (by cases h), rfl,
      fun h => (by cases h), rfl, ?_⟩
    rintro p (rfl | rfl)
    · exact ⟨(rfl : (0x10000#64).toNat % 4 = 0), .inl ⟨0x10000, show ePtr 0x10000#64 = _ by rfl⟩⟩
    · exact ⟨(rfl : (0x12000#64).toNat % 4 = 0), .inl ⟨0x12000, show ePtr 0x12000#64 = _ by rfl⟩⟩
  · have h1 : (elemPlace (commanded .feed [started 1] [] none) 0x10000#64 .lin 4 4 false).1 = some (.ok (.mem 0x10004 0)) := by rfl
    have h2 : (elemPlace (elemPlace (commanded .feed [started 1] [] none) 0x10000#64 .lin 4 4 false).2 0x12000#64 .lin 4 4 true).1 = some (.ok (.mem 0x12004 0)) := by
      decide +kernel
    have h3 : (elemPlace (elemPlace (commanded .feed [started 1] [] none) 0x10000#64 .lin 4 4 false).2 0x12000#64 .lin 4 4 true).2.ltag = [] := by
      decide +kernel
    refine ⟨commanded .feed [started 1] [] none, _, _, started 1, _, _, rfl, rfl, rfl, by decide, fst_of h1, fst_of h2, fun pa key h => ?_, by decide +kernel⟩
    cases h
    exact fun _ _ => .inl ((congrArg (fun m => NMap.get 0 m _) h3).trans rfl)
  · refine ⟨commanded .feed [started 2] [landing place false] none, started 2, landing place false, rfl, rfl, rfl, rfl, ?_, rfl⟩
    rcases h with rfl | rfl | rfl
    · exact ⟨fun _ _ => .inl rfl, by decide⟩
    · trivial
    · trivial
  · have h1 : (engAddr (commanded .feed [{ started 2 with mile := 0x10000#64 }] [] none) 0 0#64 0x10000#64 true false).1 = some (.ok (0x10000, 0)) ∧
        (engAddr (commanded .feed [{ started 2 with mile := 0x10000#64 }] [] none) 0 0#64 0x10000#64 true false).2.ltag = [] ∧
        poisoned (engAddr (commanded .feed [{ started 2 with mile := 0x10000#64 }] [] none) 0 0#64 0x10000#64 true false).2 (lineOf 0x10000) = false := by
      decide +kernel
    exact ⟨commanded .feed [{ started 2 with mile := 0x10000#64 }] [] none, _, { started 2 with mile := 0x10000#64 }, _, _, rfl, rfl, rfl, by decide,
      fun w h => (by cases h), rfl, fun w h => (by cases h), fun w h => (by cases h), by decide, fst_of h1.1, h1.2.2,
      fun _ _ => .inl ((congrArg (fun m => NMap.get 0 m _) h1.2.1).trans rfl), by decide⟩
  · cases bad
    · exact ⟨commanded .feed [follower false] [] none, follower false, _, _, rfl, rfl, rfl, rfl, rfl, by decide, fun w h => (by cases h), rfl, by decide, rfl, by decide, by decide⟩
    · exact ⟨commanded .feed [follower true] [] none, follower true, _, _, rfl, rfl, rfl, rfl, rfl, by decide, fun w h => (by cases h), rfl, by decide⟩
  · have h1 : (engRecord (commanded .feed [] [] (some chain_)) 0x20000).1 = some (.ok 0) := by decide +kernel
    exact ⟨commanded .feed [] [] (some chain_), _, chain_, 0, rfl, rfl, rfl, by decide, by decide, rfl, fun w h => (by cases h), fst_of h1, by decide, by decide,
      by decide, by decide⟩

/-- Tapes of 64 bytes, empty or with a span of one record of no words. -/
def taped (t : Tape) (low : List Byte) : State :=
  { idle with
    cv := { idle.cv with tapes := [(0, t), (1, t)] }
    ch := { idle.ch with desc := { idle.ch.desc with tape := 6 }, scratch := NMap.setAll 0#8 (NMap.setAll 0#8 [] 0 low) 64 low } }
def spanOne : State := taped { top := 5, span := true } [0#8, 0#8, 0#8, 0#8, 0#8]
def spanTwo : State := taped { top := 6, span := true } [0#8, 0#8, 0#8, 0#8, 0#8, 0#8]

theorem wit_tapes :
    (∃ (v : Fin 93) (mask : BitVec 4) (t : Tok) (s : State), s.cv.bad = 0#32 ∧ tokRoom s.cv t.toNat (actLanes s).length = true ∧ v.val + 4 ≤ window s ∧
      Ready s (slotUses v mask) [] none ∧ SharesFit s ∧ tapeBytes s.ch.desc ≠ 0 ∧ ∀ x ∈ actLanes s,
        (viewTape s x).t.span = true ∧ (viewTape s x).t.dropped = false ∧ (viewTape s x).t.low ≤ (viewTape s x).t.top ∧ (viewTape s x).t.cs ≤ (viewTape s x).t.top ∧
        (viewTape s x).t.top + (tapeRecord (slotVals s v x) mask).length - (viewTape s x).t.low ≤ tapeBytes s.ch.desc) ∧
    (∃ (v : Fin 93) (mask : BitVec 4) (s : State), v.val + 4 ≤ window s ∧ Ready s (slotUses v mask) [] none ∧ SharesFit s ∧ tapeBytes s.ch.desc ≠ 0 ∧
      ∀ x ∈ actLanes s, (viewTape s x).t.refill = false ∧ (viewTape s x).t.span = false ∧
        (viewTape s x).t.top + (4 + (tapeRecord (slotVals s v x) mask).length) - (viewTape s x).t.low ≤ tapeBytes s.ch.desc) ∧
    (∃ (v : Fin 93) (mask : BitVec 4) (s : State), v.val + 4 ≤ window s ∧ Ready s (slotUses v mask) [] none ∧ actLanes s ≠ [] ∧
      ∀ x ∈ actLanes s, (viewTape s x).t.span = false) ∧
    (∀ two : Bool, ∃ (v : Fin 93) (p : Pn) (s : State), v.val + 4 ≤ window s ∧
      Ready s [] (predLocs s p.toNat ++ (actLanes s).flatMap (fun x => (List.range 4).map (fun j => Loc.main (v.val + j) x))) none ∧ SharesFit s ∧
      tapeBytes s.ch.desc ≠ 0 ∧ s.ch.spoison = [] ∧ ∀ x ∈ actLanes s, (viewTape s x).t.span = true ∧ (viewTape s x).t.low ≤ (viewTape s x).t.cs ∧
        (viewTape s x).t.cs + 4 < (viewTape s x).t.top ∧ (viewTape s x).stub? = none ∧
        let codes := trailerCodes (((viewTape s x).read ((viewTape s x).t.top - 1) 1).headD 0#8)
        let r := (viewTape s x).t.top - ((codes.map codeLen).sum + 1)
        if two then (viewTape s x).t.cs + 4 < r else r ≤ (viewTape s x).t.cs + 4) ∧
    ∃ (d : Dst) (s : State), tapeBytes s.ch.desc ≠ 0 ∧ Ready s [] [] none ∧ Ready s [] [] (some (d, 1)) := by
  refine ⟨⟨8, 0xF#4, 0, spanOne, rfl, by decide, by decide, ready_quiet _ _ _ _ rfl rfl (by decide) (by decide), ⟨by decide, by decide⟩, by decide, by decide +kernel⟩,
    ⟨8, 0xF#4, taped {} [], by decide, ready_quiet _ _ _ _ rfl rfl (by decide) (by decide), ⟨by decide, by decide⟩, by decide, by decide +kernel⟩,
    ⟨8, 0xF#4, taped {} [], by decide, ready_quiet _ _ _ _ rfl rfl (by decide) (by decide), by decide, by decide⟩, fun two => ?_,
    ⟨.main 3, taped {} [], by decide, ready_quiet _ _ _ _ rfl rfl (by decide) (by decide), ready_quiet _ _ _ _ rfl rfl (by decide) (by decide)⟩⟩
  cases two
  · exact ⟨8, 6, spanOne, by decide, ready_quiet _ _ _ _ rfl rfl (by decide) (by decide), ⟨by decide, by decide⟩, by decide, rfl, by decide +kernel⟩
  · exact ⟨8, 6, spanTwo, by decide, ready_quiet _ _ _ _ rfl rfl (by decide) (by decide), ⟨by decide, by decide⟩, by decide, rfl, by decide +kernel⟩

/-- A ray at a place, with a table at 262,144 whose node program emits the reference in the record and whose primitive program accepts tmin. -/
def rayAt (v : Visit) (inst : Option InstRef) (mode : TravMode) : Ray :=
  { num := 5, gen := 2, lane := 0, convoy := 0, mode := mode, o := [0#32, 0#32, 0#32], d := [0#32, 0#32, 0x3F800000#32], tmin := 0#32, tmax := 0x3F800000#32
    emit_ := 0#64, table := 0x40000, cur := some v, inst := inst, fo := [0#32, 0#32, 0#32], fd := [0#32, 0#32, 0x3F800000#32] }

def tracing (r : Ray) : State :=
  { mapped with
    mem := [(0x10000, 0x40), (0x40000, 0x07), (0x40003, 0x60), (0x40007, 0x80), (0x42000, 0x67), (0x42001, 0x59), (0x42002, 0x16), (0x42003, 0x70)].foldl
      (fun m e => NMap.set 0#8 m e.1 (BitVec.ofNat 8 e.2)) []
    ch := { mapped.ch with rays := [r], travtab := 0x40000#64 } }

/-- What a ray reads. -/
def rayOk (r : RayRead × State) (p : List Word → State → Bool) : Bool :=
  match r with
  | (.ok ws, s) => p ws s
  | _ => false

theorem ray_of {r : RayRead × State} {p : List Word → State → Bool} (h : rayOk r p = true) : ∃ ws s, r = (.ok ws, s) ∧ p ws s = true := by
  obtain ⟨ws | _ | _, s⟩ := r
  · exact ⟨ws, s, rfl, h⟩
  · cases h
  · cases h

def heldRay : Ray := { rayAt { ref := 0#64, depth := 0 } none .any with kept := true }
def nodeRay : Ray := rayAt { ref := 0x10000#64, depth := 0 } none .closest
def primRay : Ray := rayAt { ref := 0x0400000000010000#64, depth := 0 } none .closest

theorem wit_rays :
    (∃ (d : Dst) (a b c : Src) (tok : Tok) (s : State), s.cv.bad = 0#32 ∧ Ready s [⟨0, a, 4⟩, ⟨1, b, 4⟩, ⟨2, c, 4⟩] [] (some (d, 1)) ∧
      unitRays s s.ch.core + (actLanes s).length ≤ 2048 ∧ s.ch.rays.length + (actLanes s).length ≤ 2048 ∧ tokRoom s.cv tok.toNat (actLanes s).length = true ∧
      (s.ch.rays.map (·.num)).Nodup) ∧
    (∀ live : Bool, ∃ (d : Fin 12) (a b c : Src) (tok : Tok) (s : State), s.cv.bad = 0#32 ∧ 8 * d.val + 8 ≤ window s ∧
      tokRoom s.cv tok.toNat (actLanes s).length = true ∧ Ready s [⟨0, a, 1⟩] ((actLanes s).flatMap (groupLocs (8 * d.val) 8)) none ∧
      Ready s [⟨0, a, 1⟩, ⟨1, b, 4⟩, ⟨2, c, 2⟩] ((actLanes s).flatMap (groupLocs (8 * d.val) 8)) none ∧ actLanes s ≠ [] ∧
      ∀ x ∈ actLanes s, if live then ∃ r, rayOf s.ch (rd32 s a x) = some r ∧ r.kept = true else rayOf s.ch (rd32 s a x) = none) ∧
    (∀ (v : Visit) (inst : Option InstRef), v = { ref := 0x10000#64, depth := 32 } ∨ v = { ref := 0x0800000000010000#64, depth := 0 } →
      ∃ (s : State) (r : Ray), s.focus = true ∧ runningRay s r.num = some (r, v) ∧ (∀ q ∈ s.pstores, q.core ≠ s.ch.core) ∧ r.inst = inst ∧ v.emit = false ∧
        refOk v.ref = true) ∧
    (∃ (s s1 s2 : State) (r : Ray) (v : Visit) (ws prog : List Word) (first : DWord × Bool) (rest : List (DWord × Bool)), s.focus = true ∧
      runningRay s r.num = some (r, v) ∧ v.depth < 32 ∧ refClass v.ref = 0 ∧ rayRead s (refVa v.ref) 16 = (.ok ws, s1) ∧
      rayProgram s1 (progVa r.table 0 (refKind v.ref) false) = (.ok prog, s2) ∧
      ((progStart ws r.fo r.fd r.tmin).run .node { tmin := r.tmin, tmax := r.tmax, held := none } prog).wrong = false ∧
      ((((progStart ws r.fo r.fd r.tmin).run .node { tmin := r.tmin, tmax := r.tmax, held := none } prog).kids.filter
        (fun k => k.2.1 && (!k.2.2 || decide (r.mode = .emit)))).map (fun k => (k.1, k.2.2))).drop (r.field (v.depth + 1)) = first :: rest) ∧
    ∃ (s s1 s2 : State) (r : Ray) (v : Visit) (ws prog : List Word) (x y z : Word), runningRay s r.num = some (r, v) ∧ v.depth < 32 ∧ refClass v.ref = 1 ∧
      rayRead s (refVa v.ref) 16 = (.ok ws, s1) ∧ rayProgram s1 (progVa r.table 1 (refKind v.ref) false) = (.ok prog, s2) ∧
      ((progStart ws r.fo r.fd r.tmin).run .prim { tmin := r.tmin, tmax := r.tmax, held := heldT r } prog).wrong = false ∧ r.status = none ∧
      ((progStart ws r.fo r.fd r.tmin).run .prim { tmin := r.tmin, tmax := r.tmax, held := heldT r } prog).acc = some (x, y, z) ∧ r.mode = .closest := by
  refine ⟨⟨.main 8, .main 0, .main 0, .main 4, 0, tracing (rayAt { ref := 0#64, depth := 0 } none .any), rfl, ready_quiet _ _ _ _ rfl rfl (by decide) (by decide),
      by decide, by decide, by decide, by decide⟩, fun live => ?_, fun v inst h => ?_, ?_, ?_⟩
  · cases live
    · exact ⟨1, .lit 0x3005#64, .main 16, .main 20, 0, tracing heldRay, rfl, by decide, by decide,
        ready_quiet _ _ _ _ rfl rfl (by decide) (by decide), ready_quiet _ _ _ _ rfl rfl (by decide) (by decide), by decide, by decide⟩
    · exact ⟨1, .lit 0x1005#64, .main 16, .main 20, 0, tracing heldRay, rfl, by decide, by decide,
        ready_quiet _ _ _ _ rfl rfl (by decide) (by decide), ready_quiet _ _ _ _ rfl rfl (by decide) (by decide), by decide, fun x hx => ⟨heldRay, (show ∀ x ∈ actLanes (tracing heldRay), rayOf (tracing heldRay).ch (rd32 (tracing heldRay) (.lit 0x1005#64) x) = some heldRay by decide) x hx, rfl⟩⟩
  · rcases h with rfl | rfl <;>
      exact ⟨tracing (rayAt _ inst .any), rayAt _ inst .any, rfl, rfl, fun q h => (by cases h), rfl, rfl, by decide⟩
  · obtain ⟨ws, s1, h1, h⟩ := ray_of (r := rayRead (tracing nodeRay) (refVa 0x10000#64) 16)
      (p := fun ws s1 => rayOk (rayProgram s1 (progVa nodeRay.table 0 0 false)) (fun prog _ =>
        let q := (progStart ws nodeRay.fo nodeRay.fd nodeRay.tmin).run .node { tmin := nodeRay.tmin, tmax := nodeRay.tmax, held := none } prog
        !q.wrong && !((((q.kids.filter (fun k => k.2.1 && (!k.2.2 || decide (nodeRay.mode = .emit)))).map (fun k => (k.1, k.2.2))).drop (nodeRay.field 1)).isEmpty)))
      (by decide +kernel)
    obtain ⟨prog, s2, h2, h3⟩ := ray_of h
    simp only [Bool.and_eq_true, Bool.not_eq_true'] at h3
    obtain ⟨h3, h4⟩ := h3
    obtain ⟨first, rest, h5⟩ := List.exists_cons_of_ne_nil (List.isEmpty_eq_false_iff.mp h4)
    exact ⟨tracing nodeRay, s1, s2, nodeRay, { ref := 0x10000#64, depth := 0 }, ws, prog, first, rest, rfl, rfl, by decide, by decide, h1, h2, h3, h5⟩
  · obtain ⟨ws, s1, h1, h⟩ := ray_of (r := rayRead (tracing primRay) (refVa 0x0400000000010000#64) 16)
      (p := fun ws s1 => rayOk (rayProgram s1 (progVa primRay.table 1 0 false)) (fun prog _ =>
        let q := (progStart ws primRay.fo primRay.fd primRay.tmin).run .prim { tmin := primRay.tmin, tmax := primRay.tmax, held := heldT primRay } prog
        !q.wrong && q.acc.isSome)) (by decide +kernel)
    obtain ⟨prog, s2, h2, h3⟩ := ray_of h
    simp only [Bool.and_eq_true, Bool.not_eq_true'] at h3
    obtain ⟨h3, h4⟩ := h3
    obtain ⟨⟨x, y, z⟩, h5⟩ := Option.isSome_iff_exists.mp h4
    exact ⟨tracing primRay, s1, s2, primRay, { ref := 0x0400000000010000#64, depth := 0 }, ws, prog, x, y, z, rfl, by decide, by decide, h1, h2, h3, rfl, h5, rfl⟩

/-- A unit of a TXS thread at a texture coordinate of 0, whose one texel is in memory. -/
def texUnit : Pending :=
  { memUnit (.texture 0 0#32 0#32 false) memPiece with pieces := [{ scrPiece with n := 0, dst := [.main 0 0, .main 1 0, .main 2 0, .main 3 0] }, memPiece] }
def sampling : State := { withUnit texUnit with texq := [{ core := 0, slot := 0, uid := 0, convoy := 0, unit := 0 }] }

/-- A GSU that holds an entry of word 16,384. -/
def gsuOne : GsuEntry := { rcb := 0, word := 16384, key := 0, acc := 5 }

theorem wit_samplesAndGradients :
    (∃ (s : State) (x : TexReq) (u : Pending) (fmt : Nat) (p q : Word) (bi : Bool) (cx cy : Q), s.focus = true ∧ (∀ v ∈ s.ch.convoys, v.id ≠ s.cv.id) ∧
      s.texq.find? (fun y => y.core = s.ch.core) = some x ∧ x.core = s.ch.core ∧ x.slot = s.ch.slot ∧ x.uid = s.ch.uid ∧ x.convoy = s.cv.id ∧
      s.cv.units.find? (fun v => v.seq = x.unit) = some u ∧ u.kind = .texture fmt p q bi ∧ mayComplete s.cv u = true ∧ coord p = some cx ∧ coord q = some cy ∧
      (∀ y ∈ pieceLines false (readPieces u), fcWaits s y.1 y.2 = false) ∧ readPieces u ≠ [] ∧
      ∀ y ∈ readPieces u, y.scr = false ∧ y.priv = false ∧ Keyed s y ∧ piecePoison s y = false) ∧
    (∃ (d : Fin 12) (a b c : Src) (tok : Tok) (s s1 : State) (ps : List PSpan), s.cv.bad = 0#32 ∧ 8 * d.val + 8 ≤ window s ∧
      tokRoom s.cv tok.toNat (actLanes s).length = true ∧ Ready s [⟨0, a, 2⟩, ⟨1, b, 4⟩, ⟨2, c, 1⟩] ((actLanes s).flatMap (groupLocs (8 * d.val) 8)) none ∧
      (∀ x ∈ actLanes s, (rd64 s a x).toNat % 64 = 0) ∧
      accessChecks s false false false false false ((actLanes s).flatMap (fun x => blockAccs x (rd64 s a x))) = .go s1 ps ∧ s1.cv.bad = 0#32 ∧ actLanes s ≠ []) ∧
    (∃ (d : Fin 12) (a b c : Src) (s : State), Ready s [⟨0, a, 4⟩, ⟨1, b, 2⟩, ⟨2, c, 1⟩] ((actLanes s).flatMap (groupLocs (8 * d.val) 8)) none ∧ actLanes s ≠ []) ∧
    (∀ old : Bool, ∃ (u : Pending) (p : Piece) (s : State), s.cv.units[0]? = some u ∧ u.kind = .scadd ∧ mayComplete s.cv u = true ∧ u.pieces = [p] ∧
      (s.gsu.find? (fun e => e.rcb = s.ch.rcb && e.word = p.addr / 4)).isSome = old ∧ (s.gsu.filter (fun e => gsuOf e.word = gsuOf (p.addr / 4))).length < 2048) ∧
    ∃ (u : Pending) (s : State), s.cv.units[0]? = some u ∧ u.kind = .gscom ∧ mayComplete s.cv u = true ∧ (∀ q ∈ s.pstores, q.core ≠ s.ch.core) ∧ s.gspills = [] ∧
      s.gsu ≠ [] ∧ (∀ e ∈ s.gsu, e.rcb = s.ch.rcb ∧ KeyedAt s (4 * e.word) 4 e.key ∧ fcWaits s (lineOf (4 * e.word)) true = false ∧
        (∀ f ∈ s.gsu, f.rcb = e.rcb → f.word = e.word → f = e) ∧ fval .f32 (memNat s (4 * e.word) 4) = .zero false ∧ e.nan = false ∧ e.pinf = false ∧
        e.ninf = false ∧ e.acc + toFixed (Q.ofInt 0) (-149) ≠ 0) ∧ s.gsu.Nodup := by
  refine ⟨?_, ?_, ⟨1, .main 16, .main 20, .main 22, mapped, mapped_ready _ _ _ (by decide) (by decide), by decide⟩, fun old => ?_, ?_⟩
  · refine ⟨sampling, { core := 0, slot := 0, uid := 0, convoy := 0, unit := 0 }, texUnit, 0, 0#32, 0#32, false, _, _, rfl, fun v h => (by cases h), rfl, rfl, rfl, rfl, rfl,
      rfl, rfl, by decide, rfl, rfl, by decide, by decide, ?_⟩
    intro y hy
    have : y = memPiece := by simpa [readPieces, texUnit, memUnit, scrPiece, memPiece] using hy
    subst this
    exact ⟨rfl, rfl, keyed_tag _ _ rfl rfl, by decide⟩
  · obtain ⟨s1, ps, h, h2⟩ := go_of (r := accessChecks mapped false false false false false ((actLanes mapped).flatMap (fun x => blockAccs x (rd64 mapped (.lit 0x10000#64) x))))
      (p := fun s1 _ => decide (s1.cv.bad = 0#32)) (by decide +kernel)
    exact ⟨1, .lit 0x10000#64, .main 16, .main 20, 0, mapped, s1, ps, rfl, by decide, by decide, mapped_ready _ _ _ (by decide) (by decide), by decide, h,
      of_decide_eq_true h2, by decide⟩
  · cases old
    · exact ⟨memUnit .scadd { memPiece with data := [0#8, 0#8, 0x80#8, 0x3F#8] }, _, withUnit _, rfl, rfl, by decide, rfl, by decide, by decide⟩
    · exact ⟨memUnit .scadd { memPiece with data := [0#8, 0#8, 0x80#8, 0x3F#8] }, _, { withUnit (memUnit .scadd { memPiece with data := [0#8, 0#8, 0x80#8, 0x3F#8] }) with gsu := [gsuOne] },
        rfl, rfl, by decide, rfl, by decide, by decide⟩
  · refine ⟨{ memUnit .gscom memPiece with pieces := [] }, { withUnit { memUnit .gscom memPiece with pieces := [] } with gsu := [gsuOne] }, rfl, rfl, by decide,
      fun q h => (by cases h), rfl, by decide, fun e he => ?_, by decide⟩
    have : e = gsuOne := by simpa using he
    subst this
    exact ⟨rfl, fun _ _ => .inl rfl, by decide, by decide, by decide +kernel, rfl, rfl, rfl, by decide +kernel⟩

/-- A batch that has been submitted, and a fragment that waits. -/
def batchAt (va st : DWord) : Batch := { no := 1, core := 0, slot := 0, uid := 0, convoy := 0, seq := 1, batch := va, state_ := st, mile := 0#64, rcb := 0, root := 0#64 }
def drawing (b : Batch) : State := { mapped with batches := [b], nbatch := 1, ch := { mapped.ch with nextCmd := 2 } }
def fragment : Frag := { batch := 1, rb := backendOf 3 4, x := 3, y := 4, z := 0x3F000000#32, rgba := [], id := 9#32 }

/-- What an engine reads. -/
def bytesOk (r : Option (Except (Nat × Nat) (List Byte)) × State) (p : List Byte → State → Bool) : Bool :=
  match r with
  | (some (.ok bs), s) => p bs s
  | _ => false

theorem bytes_of {r : Option (Except (Nat × Nat) (List Byte)) × State} {p : List Byte → State → Bool} (h : bytesOk r p = true) :
    ∃ bs s, r = (some (.ok bs), s) ∧ p bs s = true := by
  obtain ⟨_ | (_ | bs), s⟩ := r
  · cases h
  · cases h
  · exact ⟨bs, s, rfl, h⟩

/-- A head of a PEMIT. -/
def headOk (h : EmitHead) (p : State → Nat → Nat → Bool) : Bool :=
  match h with
  | .ok s pa key => p s pa key
  | _ => false

theorem head_of {h : EmitHead} {p : State → Nat → Nat → Bool} (e : headOk h p = true) : ∃ s pa key, h = .ok s pa key ∧ p s pa key = true := by
  cases h with
  | ok s pa key => exact ⟨s, pa, key, rfl, e⟩
  | _ => cases e

/-- A buffer of capacity 1 at 65,536. -/
def emitting : State := { mapped with mem := NMap.set 0#8 [] 0x10000 1#8 }


theorem wit_raster :
    (∃ (a b c : Src) (tok : Tok) (s : State), s.cv.bad = 0#32 ∧ Ready s [⟨0, a, 2⟩, ⟨1, b, 2⟩, ⟨2, c, 2⟩] [] none ∧ tokRoom s.cv tok.toNat 1 = true) ∧
    (∃ (p : Pn) (a : Src) (b : Fin 22) (tok : Tok) (s s2 s3 : State) (pa key : Nat) (ps : List PSpan), s.cv.bad = 0#32 ∧
      Ready s ([⟨0, a, 2⟩] ++ twelveUses b) (predLocs s p.toNat) none ∧ tokRoom s.cv tok.toNat (actLanes s).length = true ∧ quiet s = true ∧ actLanes s ≠ [] ∧
      (rd64 s a (lowest s)).toNat % 64 = 0 ∧ emitHead s (rd64 s a (lowest s)) = .ok s2 pa key ∧ s2.cv.bad = 0#32 ∧
      accessChecks s2 true true true false false ((((actLanes s).take (min (actLanes s).length (memNat s2 pa 4 - memNat s2 (pa + 4) 4))).zipIdx).flatMap
        (fun e => blockAccs e.1 (rd64 s a (lowest s) + BitVec.ofNat 64 (64 + 64 * (memNat s2 (pa + 4) 4 + e.2))))) = .go s3 ps ∧ s3.cv.bad = 0#32 ∧
      0 < memNat s2 pa 4 - memNat s2 (pa + 4) 4 ∧ memNat s3 (pa + 4) 4 = memNat s2 (pa + 4) 4 ∧ KeyedAt s3 (pa + 4) 4 key) ∧
    (∀ va : DWord, va = 0x10000#64 ∨ va = 0x10008#64 → ∃ (s : State) (b : Batch),
      s.batches.find? (fun x => !x.started || (x.err.isNone && decide (x.next < x.count))) = some b ∧ b.started = false ∧ b.after = [] ∧
      (∀ c, cohortOf s b.uid = some c → ∀ m ∈ openCmds s c, b.seq ≤ m.1) ∧ b.next = 0 ∧ b.err = none ∧ b.batch = va) ∧
    (∃ (s s1 s2 : State) (b : Batch) (hd rs : List Byte), s.batches = [b] ∧ b.started = false ∧ b.batch.toNat % 64 = 0 ∧ b.state_.toNat % 64 = 0 ∧
      engBytes s fwCore b.root b.batch.toNat 64 = (some (.ok hd), s1) ∧ engBytes s1 fwCore b.root b.state_.toNat 64 = (some (.ok rs), s2)) ∧
    ∃ (s : State) (b : Batch) (f : Frag), s.frags.filter (fun g => g.rb = f.rb) = [f] ∧ s.batches.find? (fun x => x.no = f.batch) = some b := by
  refine ⟨⟨.main 0, .main 2, .main 4, 0, mapped, rfl, mapped_ready _ _ _ (by decide) (by decide), by decide⟩, ?_, fun va h => ?_, ?_,
    { drawing { batchAt 0x10000#64 0x10040#64 with started := true } with frags := [fragment] }, _, fragment, rfl, rfl⟩
  · obtain ⟨s2, pa, key, h1, h⟩ := head_of (h := emitHead emitting 0x10000#64)
      (p := fun s2 pa key => decide (s2.cv.bad = 0#32 ∧ pa = 0x10000 ∧ key = 0 ∧ memNat s2 0x10000 4 = 1 ∧ memNat s2 0x10004 4 = 0) &&
        goOk (accessChecks s2 true true true false false (blockAccs 0 0x10040#64)) (fun s3 _ => decide (s3.cv.bad = 0#32 ∧ memNat s3 0x10004 4 = 0 ∧ s3.ltag = [])))
      (by decide +kernel)
    rw [Bool.and_eq_true] at h
    obtain ⟨hb, rfl, rfl, hc, hd⟩ := of_decide_eq_true h.1
    obtain ⟨s3, ps, h3, h4⟩ := go_of h.2
    have h4 := of_decide_eq_true h4
    refine ⟨6, .lit 0x10000#64, 2, 0, emitting, s2, s3, _, _, ps, rfl, ready_quiet _ _ _ _ rfl rfl (by decide) (by decide), by decide, by decide, by decide, by decide, h1, hb,
      ?_, h4.1, by rw [hc, hd]; decide, by rw [hd]; exact h4.2.1, fun _ _ => .inl ((congrArg (fun m => NMap.get 0 m _) h4.2.2).trans rfl)⟩
    rw [hc, hd]
    exact h3
  · refine ⟨drawing (batchAt va 0x10040#64), batchAt va 0x10040#64, rfl, rfl, rfl, fun c hc m hm => ?_, rfl, rfl, rfl⟩
    have hc : c = (drawing (batchAt va 0x10040#64)).ch := (Option.some.inj hc).symm
    subst hc
    have : m = (1, 0#64) := by simpa [openCmds, drawing, batchAt, mapped, idle, small] using hm
    simp [this, batchAt]
  · obtain ⟨hd, s1, h1, h⟩ := bytes_of (r := engBytes (drawing (batchAt 0x10000#64 0x10040#64)) fwCore 0#64 0x10000 64)
      (p := fun _ s1 => bytesOk (engBytes s1 fwCore 0#64 0x10040 64) (fun _ _ => true)) (by decide +kernel)
    obtain ⟨rs, s2, h2, _⟩ := bytes_of h
    exact ⟨drawing (batchAt 0x10000#64 0x10040#64), s1, s2, _, hd, rs, rfl, rfl, by decide, by decide, h1, h2⟩

/-- The state of a cohort that may use the counters. -/
def counting : State := { mapped with ch := { mapped.ch with pmacc := true } }

theorem wit_systemInstructions :
    (∃ (i : Instr) (f : SysForm) (s : State), sysForm i = some f ∧ s.cv.bad = 0#32 ∧ Ready s f.uses [] f.dst ∧ f.ok s ∧ tokRoom s.cv f.tok.toNat 1 = true) ∧
    (∃ (i : Instr) (f : SysForm) (s : State), sysForm i = some f ∧ s.cv.bad = 0#32 ∧ Ready s f.uses [] f.dst ∧ f.ok s ∧ tokRoom s.cv f.tok.toNat 1 = true ∧ f.uses ≠ []) ∧
    (∃ (a : Src) (s : State), s.cv.bad = 0#32 ∧ Ready s [⟨0, a, 1⟩] [] none ∧ rd32 s a (lowest s) &&& ~~~0x100#32 ≠ 0#32) ∧
    (∀ n < 3, ∃ (u : Pending) (s : State), s.cv.units[0]? = some u ∧ u.kind = .sysSet n 1#64) ∧
    (∃ (a : Src) (d : Dst) (s : State), s.cv.bad = 0#32 ∧ Ready s [⟨0, a, 2⟩] [] none ∧ Ready s [] [] (some (d, 2)) ∧ (rd64 s a (lowest s)).toNat % 512 ≠ 0 ∧ s.ch.pmacc = false) ∧
    (∃ (a b : Src) (s : State), Ready s [⟨0, a, 2⟩, ⟨1, b, 2⟩] [] none ∧
      below s s.ch.rcb treeFuel (if b = .zero then s.ch.rcb else (rd64 s b (lowest s)).toNat) = false) ∧
    ∃ (a b : Src) (s : State), Ready s [⟨0, a, 2⟩, ⟨1, b, 2⟩] [] none ∧
      below s s.ch.rcb treeFuel (if b = .zero then s.ch.rcb else (rd64 s b (lowest s)).toNat) = true ∧ (rd64 s a (lowest s)).toNat % 64 ≠ 0 :=
  ⟨⟨.pmr 0 (.main 2) 3 1, _, counting, rfl, rfl, ready_quiet _ _ _ _ rfl rfl (by decide) (by decide), rfl, by decide⟩,
    ⟨.swr 0 (.lit 0x40000#64) 0x23#8 1, _, counting, rfl, rfl, ready_quiet _ _ _ _ rfl rfl (by decide) (by decide), ⟨rfl, by decide⟩, by decide, by decide⟩,
    ⟨.lit 0x300#64, idle, rfl, idle_ready _ _ _ (by decide) (by decide), by decide⟩, fun n _ => ⟨memUnit (.sysSet n 1#64) memPiece, withUnit _, rfl, rfl⟩,
    ⟨.lit 0x40100#64, .main 2, idle, rfl, idle_ready _ _ _ (by decide) (by decide), idle_ready _ _ _ (by decide) (by decide), by decide, rfl⟩,
    ⟨.main 0, .lit 0x50000#64, idle, idle_ready _ _ _ (by decide) (by decide), by decide⟩,
    .lit 0x10020#64, .zero, { idle with regions := [{ rcb := 0 }] }, ready_quiet _ _ _ _ rfl rfl (by decide) (by decide), by decide, by decide⟩

/-- A region whose partner has published a step, or has not. -/
def partnered (pub : Option DWord) : State :=
  { mapped with regions := [{ rcb := 0x50000, partner := 0x60000 }], ch := { mapped.ch with rcb := 0x50000 }, digests := [{ rcb := 0x60000, pub := pub }] }

theorem wit_cachesRecordsAndDigests :
    (∃ (a : Src) (op : CctlOp) (s s1 : State) (ps : List PSpan), s.cv.bad = 0#32 ∧ Ready s [⟨0, a, 2⟩] [] none ∧ op ≠ .wball ∧ op ≠ .invall ∧
      pageChecks s false false (hintAccs s a) = .go s1 ps ∧ s1.cv.bad = 0#32 ∧ hintAccs s a ≠ []) ∧
    (∃ (a : Src) (tok : Tok) (s : State), s.cv.bad = 0#32 ∧ Ready s [⟨0, a, 2⟩] [] none ∧ tokRoom s.cv tok.toNat (hintSpans s a).length = true ∧ hintSpans s a ≠ []) ∧
    (∃ (a : Src) (s s1 : State) (q : PSpan), s.cv.bad = 0#32 ∧ Ready s [⟨0, a, 2⟩] [] none ∧ resolve (rd64 s a (lowest s)) = .glob (rd64 s a (lowest s)).toNat ∧
      accessChecks s true false false false false [{ lane := lowest s, ea := (rd64 s a (lowest s)).toNat, win := .glob (rd64 s a (lowest s)).toNat, n := 64 }] = .go s1 [q] ∧
      q.n = 64 ∧ q.off = 0 ∧ q.lane = lowest s ∧ s1.cv.bad = 0#32) ∧
    ∀ pub : Option DWord, ∃ (a : Src) (s : State), s.cv.bad = 0#32 ∧ Ready s [⟨0, a, 2⟩] [] none ∧ partnerOf s s.ch.rcb ≠ 0 ∧ partnerOf s s.ch.rcb ≠ s.ch.rcb ∧
      (digestOf s s.ch.rcb).done ≠ some (rd64 s a (lowest s)) ∧ (digestOf s (partnerOf s s.ch.rcb)).pub = pub ∧
      (digestOf s (partnerOf s s.ch.rcb)).slots = (digestOf s s.ch.rcb).slots := by
  refine ⟨?_, ⟨.lit 0x10000#64, 0, mapped, rfl, mapped_ready _ _ _ (by decide) (by decide), by decide, by decide⟩, ?_,
    fun pub => ⟨.lit 7#64, partnered pub, rfl, ready_quiet _ _ _ _ rfl rfl (by cases pub <;> rfl) (by cases pub <;> rfl), by simp [partnerOf, regionOf, partnered],
      by simp [partnerOf, regionOf, partnered], by simp [digestOf, partnered], by simp [partnerOf, regionOf, digestOf, partnered], by simp [partnerOf, regionOf, digestOf, partnered]⟩⟩
  · obtain ⟨s1, ps, h, h2⟩ := go_of (r := pageChecks mapped false false (hintAccs mapped (.lit 0x10000#64))) (p := fun s1 _ => decide (s1.cv.bad = 0#32)) (by decide +kernel)
    exact ⟨.lit 0x10000#64, .wbl, mapped, s1, ps, rfl, mapped_ready _ _ _ (by decide) (by decide), by decide, by decide, h, of_decide_eq_true h2, by decide⟩
  · obtain ⟨s1, ps, h, h2⟩ := go_of (r := accessChecks mapped true false false false false [{ lane := 0, ea := 0x10000, win := .glob 0x10000, n := 64 }])
      (p := fun s1 ps => decide (s1.cv.bad = 0#32) && decide (ps.map (fun q => (q.n, q.off, q.lane)) = [(64, 0, 0)])) (by decide +kernel)
    rw [Bool.and_eq_true] at h2
    match ps, h, of_decide_eq_true h2.2 with
    | [q], h, e =>
      simp only [List.map_cons, List.map_nil, List.cons.injEq, Prod.mk.injEq, and_true] at e
      exact ⟨.lit 0x10000#64, mapped, s1, q, rfl, mapped_ready _ _ _ (by decide) (by decide), by decide, h, e.1, e.2.1, e.2.2, of_decide_eq_true h2.1⟩

/-- A command of the collective engine: a remote atomic that waits for its element 4, or one that has not started. -/
def coll : Coll := { core := 0, slot := 0, uid := 0, convoy := 0, seq := 1, recVa := 0x10000#64, mile := 0#64 }
def waiting : Coll := { coll with started := true, fields := 4 * 2 ^ 96, members := [0, 1], waits := [4], got := [(1, 4, [])] }
def header (line : Nat) : FabHdr := { src := 1, dst := 0, tag := 0#32, line := line, state := 4, poison := false, plane := 0 }

theorem wit_collectives :
    (∀ va : DWord, ∃ (c : Coll) (co : Cohort) (s : State), s.colls[0]? = some c ∧ cohortOf s c.uid = some co ∧ c.started = false ∧ c.after = [] ∧ c.recVa = va) ∧
    (∃ (co : Cohort) (bs : List Byte) (s s1 : State), cohortOf s 0 = some co ∧ engBytes s fwCore co.root 0x10000 64 = (some (.ok bs), s1) ∧ s1.colls = s.colls ∧ s.colls ≠ []) ∧
    (∃ (h : FabHdr) (s : State), h.dst = s.pkg ∧ (groupOf s (h.line % 65536)).isSome = false ∧ s.colls ≠ []) :=
  ⟨fun va => ⟨{ coll with recVa := va }, _, { mapped with colls := [{ coll with recVa := va }] }, rfl, rfl, rfl, rfl, rfl⟩,
    by
      obtain ⟨bs, s1, h, h2⟩ := bytes_of (r := engBytes { mapped with colls := [coll] } fwCore 0#64 0x10000 64) (p := fun _ s1 => decide (s1.colls = [coll])) (by decide +kernel)
      exact ⟨mapped.ch, bs, { mapped with colls := [coll] }, s1, rfl, h, of_decide_eq_true h2, by decide⟩,
    header 7, { mapped with colls := [coll] }, rfl, by decide +kernel, by decide⟩

/-- Replacements under way. -/
def repairing : State := { idle with ras := { idle.ras with busy := [(1, 0), (3, 17), (4, 9), (5, 8)] } }

theorem wit_resourceErrors :
    (∃ (cls index : Nat) (s : State), (cls, index) ∈ s.ras.busy) ∧
    (∃ (cls index : Nat) (s : State), (cls, index) ∉ s.ras.busy ∧
      (s.ras.errs.filter (fun e => e.1 = cls && e.2.1 = index && decide (s.ns ≤ e.2.2 + Config.errorWindow))).length < Config.errorCount) ∧
    (∃ (cls index : Nat) (s : State), (cls, index) ∉ s.ras.busy ∧ (cls, index) ∉ s.ras.faulty ∧
      Config.errorCount ≤ (s.ras.errs.filter (fun e => e.1 = cls && e.2.1 = index && decide (s.ns ≤ e.2.2 + Config.errorWindow))).length ∧ cls = 3) ∧
    ∃ (core row : Nat) (s : State), (1, core) ∈ s.ras.busy ∧ (4, row) ∈ s.ras.busy ∧ ∀ c ∈ allCohorts s, c.core = core → c.mq = [] := by
  refine ⟨⟨3, 17, repairing, by decide⟩, ⟨3, 17, idle, by decide, by simp [idle, small, Config.errorCount]⟩,
    ⟨3, 17, { idle with ras := { idle.ras with errs := List.replicate Config.errorCount (3, 17, 0) } }, by decide, by decide, ?_, rfl⟩,
    ⟨0, 9, repairing, by decide, by decide, by decide⟩⟩
  simp [idle, small]

/-- A line of this package that a request names, one of another package that is held, and a request that has no reply. -/
def away : Nat := 2 ^ 35 + 7
def holding : State := { idle with fab := { idle.fab with lines := [(away, 4)], reqs := [{ tag := 0#32, kind := 2, line := away + 1, plane := 0, ns := 0 }] } }

theorem wit_fabricCoherence :
    (∃ (h : FabHdr) (s : State), homeOf h.line = s.pkg ∧ ¬ (2 ≤ fcState s h.line ∧ fcState s h.line ≤ 4) ∧ h.src ≠ s.pkg) ∧
    (∃ (h : FabHdr) (s : State), homeOf h.line = s.pkg ∧ ¬ (2 ≤ fcState s h.line ∧ fcState s h.line ≤ 4) ∧ h.src = s.pkg) ∧
    (∃ (h : FabHdr) (s : State) (bs : List Byte), bs.length = 128 ∧ h.src ≠ s.pkg ∧ homeOf h.line = s.pkg ∧ lineOf (outPlace s h.line).1 ≠ h.line) ∧
    (∃ (h : FabHdr) (s : State), h.src = s.pkg ∧ homeOf h.line ≠ s.pkg ∧ 1 ≤ fcState s h.line ∧ fcState s h.line ≤ 4) ∧
    (∃ (h : FabHdr) (s : State) (q : FabReq) (bs : List Byte), q ∈ s.fab.reqs ∧ q.tag = h.tag ∧ q.line = h.line ∧ q.kind ≤ 3 ∧ bs.length = 128 ∧ 1 ≤ h.state) ∧
    (∃ (h : FabHdr) (s : State), (∀ q ∈ s.fab.reqs, q.tag = h.tag ∧ q.line = h.line → 3 < q.kind) ∧ 2 ≤ fcState s h.line ∧ fcState s h.line ≤ 4) ∧
    (∃ (h : FabHdr) (s : State), h.src ≠ s.pkg ∧ h.plane < planes ∧ h.plane ∉ s.fab.failed) ∧
    (∃ (h : FabHdr) (s : State), dirSlice h.line ∈ s.fab.recov ∧ 1 ≤ fcState s h.line ∧ fcState s h.line ≤ 4 ∧ reported s 1 h.line = false ∧ reported s 2 h.line = false) ∧
    (∃ (tag : Word) (s : State) (q : FabReq), s.fab.reqs.find? (fun q => q.tag = tag) = some q ∧ q.plane < planes) ∧
    ∃ (tag : Word) (s : State) (c : Coll), (∀ q ∈ s.fab.reqs, q.tag ≠ tag) ∧ s.colls.find? (fun c => c.started && c.err.isNone && c.gtag = tag) = some c :=
  ⟨⟨header 7, idle, by decide +kernel, by decide +kernel, by decide +kernel⟩, ⟨{ header 7 with src := 0 }, idle, by decide +kernel, by decide +kernel, by decide +kernel⟩,
    ⟨header 7, idle, List.replicate 128 0#8, by decide +kernel, by decide +kernel, by decide +kernel, by decide +kernel⟩,
    ⟨{ header away with src := 0 }, holding, by decide +kernel, by decide +kernel, by decide +kernel, by decide +kernel⟩,
    ⟨header (away + 1), holding, _, List.replicate 128 0#8, List.mem_singleton.mpr rfl, rfl, rfl, by decide +kernel, by decide +kernel, by decide +kernel⟩,
    ⟨header away, holding, by decide +kernel, by decide +kernel, by decide +kernel⟩,
    ⟨header 7, idle, by decide +kernel, Nat.zero_lt_succ _, by decide +kernel⟩,
    ⟨header away, { holding with fab := { holding.fab with recov := List.range 64 } }, by decide +kernel, by decide +kernel, by decide +kernel, by rfl, by rfl⟩,
    ⟨0#32, holding, _, rfl, Nat.zero_lt_succ _⟩,
    0#32, { idle with colls := [waiting] }, waiting, by decide +kernel, rfl⟩

/-- A package that is ready. -/
def ready : State := { mapped with boot := { mapped.boot with state_ := 3 } }

theorem wit_hostMemory :
    (∃ (off : Nat) (s : State) (n : Nat), hostReady s = true ∧ 0 < n ∧ off + n ≤ 0x1000000000 ∧
      ∀ l ∈ linesOf (barPa s off) n, fcWaits s l false = false ∧ (NMap.get 0 s.ltag l = 0 ∨ homeOf l ≠ s.pkg)) ∧
    (∃ (off : Nat) (s : State) (bs : List Byte), hostReady s = true ∧ 0 < bs.length ∧ off + bs.length ≤ 0x1000000000 ∧
      (∀ l ∈ linesOf (barPa s off) bs.length, fcWaits s l true = false ∧ (NMap.get 0 s.ltag l = 0 ∨ homeOf l ≠ s.pkg)) ∧
      ∀ i < bs.length, populated s (barPa s off + i) = true ∧ hostLocked (barPa s off + i) = false) ∧
    (∃ s : State, hostReady s = false) ∧
    ∀ wide : Bool, ∃ (off : Nat) (s : State), hostReady s = true ∧ off + (if wide then 8 else 4) ≤ 0x1000000000 ∧ off % (if wide then 8 else 4) = 0 ∧
      populated s (barPa s off) = true ∧ hostLocked (barPa s off) = false ∧ poisonedRange s (barPa s off) (if wide then 8 else 4) = false ∧
      ∀ l ∈ linesOf (barPa s off) (if wide then 8 else 4), fcWaits s l true = false ∧ (NMap.get 0 s.ltag l = 0 ∨ homeOf l ≠ s.pkg) :=
  ⟨⟨0x10000, ready, 200, by decide, by decide, by decide, by decide +kernel⟩, ⟨0x10000, ready, [1#8, 2#8], by decide, by decide, by decide, by decide +kernel, by decide +kernel⟩,
    ⟨State.reset, by decide⟩, fun wide => ⟨0x10000, ready, by decide, by cases wide <;> decide, by cases wide <;> decide, by decide +kernel, by decide +kernel,
      by cases wide <;> decide +kernel, by cases wide <;> decide +kernel⟩⟩

/-- The ready package with a notification, a request in the mailbox, or a request in the key channel. -/
def notified (r b : DWord) : State := { ready with regions := [{ rcb := 0x50000 }], regs := { ready.regs with fifo := [(r, b)] } }
def mailed (n arg : DWord) : State :=
  { ready with regions := [{ rcb := 0x50000 }], regs := { ready.regs with busy := true, service := n, arg := arg } }

theorem wit_hostRegisters :
    (∃ s : State, hostReady s = true ∧ s.regs.busy = false ∧ s.regs.keyBusy = false ∧ s.regs.service.toNat ≤ 6 ∧ s.regs.fifo.length < 256 ∧ s.regs.logHead = s.regs.logTail) ∧
    (∃ s : State, hostReady s = true ∧ s.regs.busy = true ∧ s.regs.fifo = []) ∧
    (∃ (s : State) (r b : DWord) (rest : List (DWord × DWord)), hostReady s = true ∧ s.regs.fifo = (r, b) :: rest ∧ r.toNat % 64 ≠ 0) ∧
    (∃ (s : State) (r b : DWord) (rest : List (DWord × DWord)), hostReady s = true ∧ s.regs.fifo = (r, b) :: rest ∧ r.toNat % 64 = 0 ∧ regionOf s b.toNat = none) ∧
    ∃ (s : State) (r b : DWord) (rest : List (DWord × DWord)), hostReady s = true ∧ s.regs.fifo = (r, b) :: rest ∧ r.toNat % 64 = 0 ∧
      (regionOf s b.toNat).isSome = true ∧ linkRetry s b.toNat r.toNat = false :=
  ⟨⟨ready, by decide, rfl, rfl, by decide, by decide, rfl⟩, ⟨mailed 0#64 0#64, by decide, rfl, rfl⟩, ⟨notified 0x10020#64 0x50000#64, _, _, _, by decide, rfl, by decide⟩,
    ⟨notified 0x10000#64 0x51000#64, _, _, _, by decide, rfl, by decide, by decide⟩,
    notified 0x10000#64 0x50000#64, _, _, _, by decide, rfl, by decide, by decide, by decide +kernel⟩

theorem wit_resetsAndBoot : (∃ (i : Instr), i = .packageReset ∨ i = .functionLevelReset) ∧ (∃ s : State, s.boot.state_ = 0) ∧ ∃ s : State, s.boot.state_ ≠ 0 :=
  ⟨⟨.packageReset, .inl rfl⟩, ⟨State.reset, rfl⟩, ready, by decide⟩

theorem wit_keysAndAttestation :
    (∃ s : State, s.regs.keyBusy = true ∧ s.regs.keyClear = none ∧ (NMap.get {} s.keys (keySlotNo s.regs.keyReq)).st ≠ .clearing ∧ keyOp s.regs.keyReq ≠ 1) ∧
    (∃ s : State, s.regs.keyBusy = true ∧ s.regs.keyClear = none ∧ (NMap.get {} s.keys (keySlotNo s.regs.keyReq)).st ≠ .clearing ∧ keyOp s.regs.keyReq = 1) ∧
    (∃ (s : State) (n : Nat), (NMap.get {} s.keys n).st = .clearing ∧ n ≠ 0 ∧ s.regs.keyClear = some n) ∧
    (∃ s : State, s.regs.attBusy = true ∧ s.regs.attCmd = 1#64) ∧ ∃ s : State, s.regs.attBusy = true ∧ s.regs.attCmd = 2#64 :=
  ⟨⟨{ ready with regs := { ready.regs with keyBusy := true } }, rfl, rfl, by decide +kernel, by decide +kernel⟩,
    ⟨{ ready with regs := { ready.regs with keyBusy := true, keyReq := 1#2048 } }, rfl, rfl, by decide +kernel, by decide +kernel⟩,
    ⟨{ ready with keys := [(5, { st := .clearing })], regs := { ready.regs with keyClear := some 5 } }, 5, by decide, by decide, rfl⟩,
    ⟨{ ready with regs := { ready.regs with attBusy := true, attCmd := 1#64 } }, rfl, rfl⟩, { ready with regs := { ready.regs with attBusy := true, attCmd := 2#64 } }, rfl, rfl⟩

/-- Page tables at 0x100000 that map the first GiB. -/
def tabled (leaf : Byte) : State :=
  { ready with
    tlb := [], keys := [(0, { st := .loaded })]
    mem := [(0x100000, 0x01#8), (0x100001, 0x10#8), (0x100002, 0x10#8), (0x101000, 0x01#8), (0x101001, 0x20#8), (0x101002, 0x10#8), (0x102000, leaf)].foldl
      (fun m e => NMap.set 0#8 m e.1 e.2) [] }

/-- What a walk finds. -/
def walkOk (r : TrOut) (p : DWord → Nat → Nat → Bool) : Bool :=
  match r with
  | .ok pte level pa => p pte level pa
  | _ => false

theorem walk_of {r : TrOut} {p : DWord → Nat → Nat → Bool} (h : walkOk r p = true) : ∃ pte level pa, r = .ok pte level pa ∧ p pte level pa = true := by
  cases r with
  | ok pte level pa => exact ⟨pte, level, pa, rfl, h⟩
  | _ => cases h

theorem wit_translationCommands :
    (∃ (core root va level pa : Nat) (pte : DWord) (s : State), tlbLookup s core (BitVec.ofNat 64 root) va = none ∧
      walk s (BitVec.ofNat 64 root) va = .ok pte level pa ∧ fcWaits s (lineOf (leafPa pte level va)) (pte.getLsbD 2) = false) ∧
    (∃ (core root va : Nat) (s : State), tlbLookup s core (BitVec.ofNat 64 root) va = none ∧ walk s (BitVec.ofNat 64 root) va = .retry ∧
      ({ core := core, root := BitVec.ofNat 64 root, va := va } : StalledWalk) ∈ s.walks) ∧
    ∀ k, k < 4 → ∃ (c : BitVec 256) (s : State), hostReady s = true ∧ tcKind c = k := by
  refine ⟨?_, ⟨0, 0x100000, 0, { tabled 0#8 with mem := NMap.set 0#8 (tabled 0#8).mem 0x102001 1#8, walks := [{ core := 0, root := 0x100000#64, va := 0 }] },
    by decide +kernel, by decide +kernel, by decide⟩, fun k hk => ?_⟩
  · obtain ⟨pte, level, pa, h, h2⟩ := walk_of (r := walk (tabled 0x1F#8) 0x100000#64 0) (p := fun pte level _ => !(fcWaits (tabled 0x1F#8) (lineOf (leafPa pte level 0)) (pte.getLsbD 2)))
      (by decide +kernel)
    exact ⟨0, 0x100000, 0, level, pa, pte, tabled 0x1F#8, by decide +kernel, h, Bool.not_eq_true' _ ▸ h2⟩
  · have : k = 0 ∨ k = 1 ∨ k = 2 ∨ k = 3 := by omega
    rcases this with rfl | rfl | rfl | rfl
    · exact ⟨0#256, ready, by decide, by decide⟩
    · exact ⟨1#256, ready, by decide, by decide⟩
    · exact ⟨2#256, ready, by decide, by decide⟩
    · exact ⟨3#256, ready, by decide, by decide⟩

/-- A request of a service whose unit has been sent. -/
def asking (n : Nat) (status : Option Word) : State :=
  let s := withUnit { memUnit (.scall 0) memPiece with pieces := [], writes := [(.main 3 0, 0#64)] }
  { s with scalls := [{ no := 1, uid := 0, convoy := 0, unit := 0, rcb := 0x50000, root := 0#64, service := n, arg := 0x10000#64, status := status }] }

theorem wit_services :
    (∀ n, ∃ (r : Scall) (s : State), Asked s 0 r n) ∧ (∀ n < 7, ∃ (s : State), Mailed s n ∧ (regionOf s s.regs.arg.toNat).isSome = true) ∧
    (∃ (r : Scall) (x : Word) (u : Pending) (s : State), s.scalls[0]? = some r ∧ r.status = some x ∧ s.focus = true ∧ r.uid = s.ch.uid ∧ r.convoy = s.cv.id ∧
      s.cv.units.find? (fun v => v.seq = r.unit) = some u ∧ u.writes ≠ []) ∧
    ∃ (uid : Nat) (s : State) (p : Parked), p ∈ s.parked ∧ p.co.uid = uid ∧ p.why = .sleeping 5 ∧ 5 ≤ s.ns :=
  ⟨fun n => ⟨_, asking n none, rfl, rfl, rfl, by rfl⟩,
    fun n hn => ⟨mailed (BitVec.ofNat 64 n) 0x50000#64, ⟨rfl, by simp [mailed]; omega⟩, by decide +revert⟩,
    ⟨_, 7#32, _, asking 0 (some 7#32), rfl, rfl, rfl, rfl, rfl, rfl, by decide⟩,
    1, { idle with parked := [{ co := gone, why := .sleeping 5, since := 0 }], ns := 6 }, _, List.mem_singleton.mpr rfl, rfl, rfl, by decide⟩

/-- A BIND of a launch's cohort to slot 0 of core 0, its record in order or with no tracks; a cohort that runs, is to leave, or wants more pages. -/
def bound (c : Cohort) : State :=
  { ended with others := [c], slotTab := [(0, 2#256)], regions := [{ rcb := 0, spool := 0x800000, ssize := 64 }] }
def binding (tracks : BitVec 16) : State :=
  { ended with
    others := [], slotTab := [(0, (tracks.setWidth 256 <<< 112) ||| (1#256 <<< 168) ||| 1#256)]
    binds := [{ core := 0, slot := 0, tmask := 1#16, src := .launch 1 0, co := { uid := 1, desc := { convoys := 1 } } }] }

theorem wit_slotChanges :
    (∃ (r : SlotRef) (s : State) (b : BindReq), s.binds.find? (fun b => b.core = r.core && b.slot = r.slot) = some b ∧ bindFault s b = some 1 ∧ ringRoom s (dieOf b.core) = true) ∧
    (∃ (r : SlotRef) (s : State) (b : BindReq), s.binds.find? (fun b => b.core = r.core && b.slot = r.slot) = some b ∧ bindFault s b = none ∧
      (∀ d ∈ (unfocus s).others, ¬ (d.core = b.co.core ∧ d.slot = b.co.slot)) ∧ b.src = .launch 1 0 ∧ b.co.payloads = [] ∧ 0 < b.co.desc.convoys) ∧
    (∃ (r : SlotRef) (s : State) (c : Cohort), (unfocus s).others.find? (fun d => d.core = r.core && d.slot = r.slot) = some c ∧ slotSt s r.core r.slot = 2#2) ∧
    (∃ (r : SlotRef) (s : State) (c : Cohort), (unfocus s).others.find? (fun d => d.core = r.core && d.slot = r.slot) = some c ∧ c.evict = true ∧ c.faulting = false ∧
      c.stopping = false ∧ canSave (unfocus s) c = true) ∧
    (∃ (r : SlotRef) (s : State) (c : Cohort) (n ctx : Nat), (unfocus s).others.find? (fun d => d.core = r.core && d.slot = r.slot) = some c ∧ c.growWant = some n ∧
      (poolRegion (unfocus s) c.rcb).spool ≤ ctx ∧ (ctx - (poolRegion (unfocus s) c.rcb).spool) % 4096 = 0 ∧
      (ctx - (poolRegion (unfocus s) c.rcb).spool) / 4096 + n ≤ (poolRegion (unfocus s) c.rcb).ssize ∧
      ∀ a ∈ allocsOf s (poolRegion (unfocus s) c.rcb).rcb 2, a.start + a.len ≤ (ctx - (poolRegion (unfocus s) c.rcb).spool) / 4096 ∨
        (ctx - (poolRegion (unfocus s) c.rcb).spool) / 4096 + n ≤ a.start) ∧
    ∃ s : State, s.ch.faulting = false ∧ (∀ c ∈ allCohorts s, c.dying = false ∧ c.faulting = false) ∧ (∀ x ∈ s.spawnqs, x.want = false) ∧ allCohorts s ≠ [] :=
  ⟨⟨{ core := 0, slot := 0 }, binding 0#16, _, rfl, by decide +kernel, by decide⟩,
    ⟨{ core := 0, slot := 0 }, binding 1#16, _, rfl, by decide +kernel, by decide, rfl, rfl, by decide⟩,
    ⟨{ core := 0, slot := 0 }, bound gone, gone, rfl, by decide +kernel⟩,
    ⟨{ core := 0, slot := 0 }, bound { gone with evict := true }, _, rfl, rfl, rfl, rfl, by decide +kernel⟩,
    ⟨{ core := 0, slot := 0 }, bound { gone with growWant := some 8 }, _, 8, 0x804000, rfl, rfl, by decide, by decide, by decide, by decide⟩,
    idle, rfl, by decide, by decide, by decide⟩

theorem wit_schedulingAndPower :
    (∃ (logical : Nat) (r : SlotRef) (tmask : BitVec 16) (s : State), tmask ≠ 0#16 ∧ logical ≤ 319 ∧ physOf s logical = r.core ∧ r.slot ∈ freeSlots s r.core ∧
      bindable s logical tmask = []) ∧
    (∃ (rcb : Nat) (g : Region) (s : State), regionOf s rcb = some g ∧ s.ns ≤ effFld s 4 rcb 1471 1408) ∧
    (∃ (r : SlotRef) (c : Cohort) (s : State), (unfocus s).others.find? (fun d => d.core = r.core && d.slot = r.slot) = some c ∧ slotSt s c.core c.slot = 2#2 ∧
      c.yielded_ = true) ∧
    (∀ n < 4, ∃ (mw : Nat) (s : State), 1000 * s.power.envelope < mw ∧ s.power.step_ = n) ∧
    ∃ (mw : Nat) (s : State), ¬ (1000 * s.power.envelope < mw) ∧ s.power.floor < s.power.clock :=
  ⟨⟨0, { core := 0, slot := 0 }, 1#16, State.reset, by decide, by decide, by decide, by decide, by decide +kernel⟩,
    ⟨0, _, bound gone, rfl, Nat.zero_le _⟩,
    ⟨{ core := 0, slot := 0 }, _, bound { gone with yielded_ := true }, rfl, by decide +kernel, rfl⟩,
    fun n _ => ⟨3000000, { idle with power := { idle.power with step_ := n } }, (show 1000 * 2000 < 3000000 by decide), rfl⟩, 100, idle, by decide, by decide⟩

/-- A region whose queue is empty, or holds a record at 65,536 in order, or one that is serial. -/
def replaying (pass : Nat) (running : Option Nat) : State :=
  { ready with session := some { rcb := 0, root := 0#64, launch := 0x10000#64, result := 0#64, wsbuf := 0x30000#64, wspages := 2, events := [1, 2], stop := false, pass := pass, running := running } }

theorem wit_launchesAndReplay :
    (∃ (rcb : Nat) (s : State), regionOf s rcb = none) ∧
    (∃ (rcb x : Nat) (s s1 : State) (g : Region), regionOf s rcb = some g ∧ rcbFld s rcb 1855 1792 ≠ 0 ∧
      readRec s fwCore (effRoot s rcb) (rcbFld s rcb 1855 1792) 64 = (some x, false, s1) ∧ (launchRec x).serial = false ∧ s.session = none) ∧
    (∃ (l : Launch) (s : State), launchOf s l.no = some l ∧ l.ended < l.count) ∧
    (∃ (l : Launch) (s : State), launchOf s l.no = some l ∧ l.count ≤ l.ended ∧ passDue s l.no = false ∧ signalRetry s (effRoot s l.rcb) l.signal = false ∧
      l.commit = false ∧ s.session = none) ∧
    (∃ (x : Session) (s : State), s.session = some x ∧ x.running = none ∧ x.pass < (x.events.length + 3) / 4 ∧ x.pass = 0 ∧ linkRetry s x.rcb x.launch.toNat = false) ∧
    ∃ (page : Nat) (x : Session) (bs : List Byte) (s s1 : State), s.session = some x ∧ x.pass = 1 ∧ x.running.isSome = true ∧ x.full = false ∧ page ∉ x.pages ∧
      x.pages.length < x.wspages ∧ readPage s x.root (4096 * page) = (some bs, s1) := by
  refine ⟨⟨0, State.reset, rfl⟩, ?_, ⟨grid_, ended, rfl, by decide⟩, ⟨{ grid_ with ended := 1 }, { ended with launches := [{ grid_ with ended := 1 }] }, rfl, by decide, by decide,
      by decide +kernel, rfl, rfl⟩, ⟨_, replaying 0 none, rfl, rfl, by decide, rfl, by decide +kernel⟩, ?_⟩
  · obtain ⟨x, s1, h, h2⟩ := rec_of (r := readRec { ready with mem := NMap.set 0#8 [] 0x500E2 1#8, regions := [{ rcb := 0x50000 }] } fwCore 0#64 0x10000 64)
      (p := fun x _ => !(launchRec x).serial) (by decide +kernel)
    exact ⟨0x50000, x, { ready with mem := NMap.set 0#8 [] 0x500E2 1#8, regions := [{ rcb := 0x50000 }] }, s1, _, rfl, by decide +kernel, h, by simpa using h2, rfl⟩
  · obtain ⟨bs, h⟩ := Option.isSome_iff_exists.mp (show (readPage (replaying 1 (some 1)) 0#64 (4096 * 5)).1.isSome = true by decide +kernel)
    exact ⟨5, _, bs, replaying 1 (some 1), _, rfl, rfl, rfl, rfl, by decide, by decide, fst_of h⟩

end Sys2Proof.Tests
end

section
/-! Writes at the point of coherence, the numbers they store, and what an address that is named as a whole leaves of its cohort. -/

namespace Sys2Proof.Machine

/-! Numbers in memory -/

section
variable {α : Type} {d : α} [DecidableEq α]

/-- Reading back a list that was written. -/
theorem NMap.getAll_setAll (xs : List α) (m : NMap α) (i : Nat) : NMap.getAll d (NMap.setAll d m i xs) i xs.length = xs := by
  induction xs generalizing m i with
  | nil => rfl
  | cons x xs ih =>
    rw [List.length_cons, NMap.getAll, NMap.setAll, ih, NMap.get_setAll_out _ _ _ _ (by omega), NMap.get_set_same]

end

@[simp] theorem length_bytesOf (x n : Nat) : (bytesOf x n).length = n := by
  induction n generalizing x with
  | zero => rfl
  | succ n ih => simp [bytesOf, ih]

theorem natOfBytes_bytesOf (x n : Nat) : natOfBytes (bytesOf x n) = x % 256 ^ n := by
  induction n generalizing x with
  | zero => simp [bytesOf, natOfBytes, Nat.mod_one]
  | succ n ih =>
    rw [bytesOf, natOfBytes, ih, Nat.shiftRight_eq_div_pow, BitVec.toNat_ofNat, show 2 ^ 8 = 256 from rfl, Nat.pow_succ',
      Nat.mod_mul]

/-- What a place reads after a number was written there. -/
theorem memNat_of_mem {t : State} {m : NMap Byte} {a x n : Nat} (h : t.mem = NMap.setAll 0#8 m a (bytesOf x n)) :
    memNat t a n = x % 256 ^ n := by
  have hread := NMap.getAll_setAll (d := 0#8) (bytesOf x n) m a
  rw [length_bytesOf] at hread
  rw [memNat, memGet, h, hread, natOfBytes_bytesOf]

theorem memoryKeptOutside_of_mem {s t : State} {a : Nat} {bs : List Byte} (h : t.mem = NMap.setAll 0#8 s.mem a bs) :
    MemoryKeptOutside a bs.length s t := by
  intro b hb
  rw [memByte, h, NMap.get_setAll_out _ _ _ _ (by omega), memByte]

/-! Writes at the point of coherence (04 R82) -/

theorem rekey_keyed {s : State} {line k : Nat} (h : NMap.get 0 s.ltag line = k ∨ homeOf line ≠ s.pkg) : rekey s line k = s := by
  rw [rekey, if_pos (by simpa using h)]

/-- A range that is held under its key is left alone by the access (30 R469). -/
theorem rekeyAt_keyed {s : State} {a n key : Nat} (h : KeyedAt s a n key) : rekeyAt s a n key = s := by
  rw [rekeyAt, rekey_keyed (h a (.inl rfl)), rekey_keyed (h _ (.inr rfl))]

/-- As before but for what the caches, the fabric and the poison record hold of lines. -/
def LinesKept (s t : State) : Prop := ∃ l1 owner fab poison, t = { s with l1 := l1, owner := owner, fab := fab, poison := poison }

theorem LinesKept.trans {s t u : State} (h : LinesKept s t) (k : LinesKept t u) : LinesKept s u := by
  obtain ⟨_, _, _, _, rfl⟩ := h
  obtain ⟨_, _, _, _, rfl⟩ := k
  exact ⟨_, _, _, _, rfl⟩

theorem LinesKept.memPut {s t : State} (h : LinesKept s t) (a : Nat) (bs : List Byte) : LinesKept (memPut s a bs) (memPut t a bs) := by
  obtain ⟨_, _, _, _, rfl⟩ := h
  exact ⟨_, _, _, _, rfl⟩

theorem linesKept_leaveCopy (s : State) (core line : Nat) : LinesKept s (leaveCopy s core line) := by
  unfold leaveCopy
  dsimp only
  split <;> exact ⟨_, _, _, _, rfl⟩

theorem linesKept_fcDirty (s : State) (line : Nat) : LinesKept s (fcDirty s line) := by
  unfold fcDirty
  split <;> exact ⟨_, _, _, _, rfl⟩

/-- A write of no owning core, to lines held under its key, stores the bytes. -/
theorem linesKept_writeCoherent {s : State} {a key : Nat} {bs : List Byte} (h : KeyedAt s a bs.length key) :
    LinesKept (memPut s a bs) (writeCoherent s none a key bs) := by
  have hput : ∀ s2, LinesKept s s2 → LinesKept (memPut s a bs) (memPut (fcDirty s2 (lineOf a)) a bs) :=
    fun s2 h2 => (h2.trans (linesKept_fcDirty s2 _)).memPut a bs
  have hend : ∀ s3 : State, LinesKept s3 { (if a % 128 = 0 ∧ bs.length = 128 then setPoison s3 (lineOf a) false else s3) with
      owner := (wordsOfRange a bs.length).foldl (fun o w => NMap.set 0 o w 0)
        (if a % 128 = 0 ∧ bs.length = 128 then setPoison s3 (lineOf a) false else s3).owner } := by
    intro s3
    split <;> exact ⟨_, _, _, _, rfl⟩
  cases hl : lineOwner s (lineOf a) with
  | none =>
    simp only [writeCoherent, rekeyAt_keyed h, hl]
    exact (hput s ⟨_, _, _, _, rfl⟩).trans (hend _)
  | some c =>
    simp only [writeCoherent, rekeyAt_keyed h, hl, reduceCtorEq, if_false]
    exact (hput _ (linesKept_leaveCopy s c _)).trans (hend _)

theorem LinesKept.cv_eq {s t : State} (h : LinesKept s t) : t.cv = s.cv := by
  obtain ⟨_, _, _, _, rfl⟩ := h
  rfl

theorem LinesKept.mem_eq {s t : State} (h : LinesKept s t) : t.mem = s.mem := by
  obtain ⟨_, _, _, _, rfl⟩ := h
  rfl

/-! What an address that is named as a whole changes -/

/-- The cohort is as it was, and its convoy but for pending boundary faults. -/
structure CohortKept (s t : State) : Prop where
  ch : t.ch = s.ch
  cv : ∃ fs, t.cv = { s.cv with bfaults := fs }

theorem CohortKept.refl (s : State) : CohortKept s s := ⟨rfl, _, rfl⟩

theorem CohortKept.trans {s t u : State} (h : CohortKept s t) (k : CohortKept t u) : CohortKept s u := by
  obtain ⟨fs, hfs⟩ := h.cv
  obtain ⟨gs, hgs⟩ := k.cv
  exact ⟨k.ch.trans h.ch, gs, by rw [hgs, hfs]⟩

theorem cohortKept_translate (s : State) (core : Nat) (root : DWord) (va : Nat) : CohortKept s (translate s core root va).2 := by
  unfold translate
  split
  · exact .refl s
  · split <;> exact ⟨rfl, _, rfl⟩

theorem cohortKept_fcDirty (s : State) (line : Nat) : CohortKept s (fcDirty s line) := by
  unfold fcDirty
  split <;> exact ⟨rfl, _, rfl⟩

theorem cohortKept_setDirty (s : State) (core : Nat) (root : DWord) (va : Nat) : CohortKept s (setDirty s core root va).2 := by
  have ht := cohortKept_translate s core root va
  unfold setDirty
  split
  · next pte level pa s1 h =>
    rw [h] at ht
    dsimp only
    split
    · exact ht
    · split
      · exact ht
      · split
        · next p l a _ =>
          split
          · exact ht
          · have hd := cohortKept_fcDirty s1 (lineOf a)
            exact ht.trans ⟨hd.ch, hd.cv⟩
        · exact ⟨ht.ch, ht.cv⟩
  · exact ht

theorem cohortKept_translateAll (ps : List Span) (s : State) : CohortKept s (translateAll s ps).2 := by
  induction ps generalizing s with
  | nil => exact .refl s
  | cons p ps ih => exact (cohortKept_translate s _ _ _).trans (ih _)

theorem cohortKept_dirtyAll (ps : List Span) (s : State) : CohortKept s (dirtyAll s ps).2 := by
  induction ps generalizing s with
  | nil => exact .refl s
  | cons p ps ih => exact (cohortKept_setDirty s _ _ _).trans (ih _)

theorem noteConsumed_kept (c : Convoy) (f : FaultRec) : ∃ fs, noteConsumed c f = { c with bfaults := fs } := by
  unfold noteConsumed
  dsimp only
  split <;> exact ⟨_, rfl⟩

theorem cohortKept_notePoisonWalk (s : State) (rs : List (Span × TrOut)) : CohortKept s (notePoisonWalk s rs) := by
  unfold notePoisonWalk
  split
  · exact .refl s
  · exact ⟨rfl, noteConsumed_kept _ _⟩

/-- Page checks that pass leave the cohort as it was. -/
theorem cohortKept_of_pageChecks {s t : State} {write scadd : Bool} {as : List Acc} {ps : List PSpan}
    (h : pageChecks s write scadd as = .go t ps) : CohortKept s t := by
  have h1 := cohortKept_translateAll (as.flatMap (spansOf s)) s
  unfold pageChecks at h
  dsimp only at h
  split at h
  · cases h
  · split at h
    · cases h
    · split at h
      · cases h
      · split at h
        · cases h
          exact h1.trans (cohortKept_notePoisonWalk _ _)
        · split at h
          · cases h
          · split at h
            · cases h
            · cases h
              exact h1.trans ((cohortKept_dirtyAll _ _).trans (cohortKept_notePoisonWalk _ _))

theorem cohortKept_rekey (s : State) (line k : Nat) : CohortKept s (rekey s line k) := by
  have hput : ∀ a bs tag, CohortKept s { memPut s a bs with ltag := tag } := fun _ _ _ => ⟨rfl, _, rfl⟩
  unfold rekey memPutNat
  dsimp only
  split
  · exact .refl s
  · exact hput _ _ _

/-- An address that is reached leaves the cohort as it was. -/
theorem cohortKept_of_wholeAddr {s t : State} {va : DWord} {align pa key : Nat} {write : Bool}
    (h : wholeAddr s va align write = .ok t pa key) : CohortKept s t := by
  unfold wholeAddr at h
  dsimp only at h
  split at h
  · cases h
  · split at h
    · split at h
      · cases h
      · cases h
      · next s0 ps hgo =>
        have hw : CohortKept s (widenNoted s0) := (cohortKept_of_pageChecks hgo).trans ⟨rfl, _, rfl⟩
        split at h
        · split at h
          · cases h
          · cases h
            exact hw.trans ((cohortKept_rekey _ _ _).trans (cohortKept_rekey _ _ _))
        · cases h
    · cases h

theorem CohortKept.clause_eq {s t : State} (h : CohortKept s t) : t.cv.clause = s.cv.clause := by
  obtain ⟨_, hfs⟩ := h.cv
  rw [hfs]

theorem CohortKept.activeMask_eq {s t : State} (h : CohortKept s t) : activeMask t = activeMask s := by
  rw [activeMask, activeMask, h.clause_eq]

theorem CohortKept.actLanes_eq {s t : State} (h : CohortKept s t) : actLanes t = actLanes s := by
  rw [actLanes, actLanes, uniform, uniform, header, header, lowest, lowest, h.activeMask_eq, h.clause_eq]

theorem CohortKept.readLoc_eq {s t : State} (h : CohortKept s t) (l : Loc) : readLoc t l = readLoc s l := by
  obtain ⟨_, hfs⟩ := h.cv
  rw [readLoc, hfs]
  rfl

/-- The destination lies where it lay. -/
theorem CohortKept.dstLoc_eq {s t : State} (h : CohortKept s t) (d : Dst) (x k : Nat) : dstLoc t d x k = dstLoc s d x k := by
  cases d with
  | idx i => simp only [dstLoc, xBase, xIndex, h.readLoc_eq]
  | uni n => rw [dstLoc, dstLoc, lowest, lowest, h.activeMask_eq]
  | _ => rfl

end Sys2Proof.Machine
end

section
/-! How the instructions of synchronisation end: a predicate in every active thread, or a wait; and the counter's word. -/

namespace Sys2Proof.Machine

/-! A predicate set or cleared in every active thread (16 R297) -/

/-- The writes of one value of a predicate in threads of a mask; p7 takes none. -/
def maskWrites (k : Nat) (m : Word) (b : Bool) : List (Loc × DWord) :=
  if k = 7 then [] else (lanes m).map (fun x => (Loc.pred k x, BitVec.ofNat 64 (b2n b)))

theorem mem_maskWrites {k : Nat} {m : Word} {b : Bool} {e : Loc × DWord} (h : e ∈ maskWrites k m b) :
    k ≠ 7 ∧ ∃ x ∈ lanes m, e.1 = .pred k x := by
  unfold maskWrites at h
  split at h
  · cases h
  · next hk =>
    obtain ⟨x, hx, rfl⟩ := List.mem_map.1 h
    exact ⟨hk, x, hx, rfl⟩

/-- Where no result is on its way to the predicate, writing it writes the predicate alone. -/
theorem setPredMask_free {s : State} {k : Nat} {m : Word} (b : Bool) (h : ∀ x ∈ lanes m, Settled s.cv (.pred k x)) :
    setPredMask s k m b = { s with cv := (maskWrites k m b).foldl put s.cv } := by
  unfold setPredMask maskWrites
  split
  · rfl
  · rw [← foldl_writeLoc _ s, List.foldl_map]
    intro e he
    obtain ⟨x, hx, rfl⟩ := List.mem_map.1 he
    exact h x hx

theorem getLoc_maskWrites_other {k : Nat} {m : Word} {b : Bool} {l : Loc} (c : Convoy) (hl : realLoc l)
    (h : k = 7 ∨ ∀ x ∈ lanes m, l ≠ .pred k x) : getLoc ((maskWrites k m b).foldl put c) l = getLoc c l := by
  apply getLoc_foldl_other _ _ _ hl
  · intro e he
    obtain ⟨_, x, hx, hel⟩ := mem_maskWrites he
    rw [hel]
    exact lt_of_mem_lanes hx
  · intro e he
    obtain ⟨hk, x, hx, hel⟩ := mem_maskWrites he
    rw [hel]
    exact (h.resolve_left hk x hx).symm

theorem RestKept.l1_eq {s t : State} (h : RestKept s t) : t.l1 = s.l1 := (congrArg State.l1 h).trans rfl

theorem RestKept.mem_eq {s t : State} (h : RestKept s t) : t.mem = s.mem := (congrArg State.mem h).trans rfl

theorem RestKept.passed_eq {s t : State} (h : RestKept s t) : t.ch.passed = s.ch.passed := (congrArg (·.ch.passed) h).trans rfl

theorem RestKept.forget_l1 {s t : State} (h : RestKept s t) : RestKept { s with l1 := t.l1 } t := by
  rw [h.l1_eq]
  exact h

theorem retire_rest_cv {st : Stall} {s : State} {c : Convoy} (hb : c.bad = 0#32) : RestKept s (retire st { s with cv := c }) :=
  (retire_rest st { s with cv := c } hb).trans rfl

theorem preds_maskWrites {k : Nat} {m : Word} {b : Bool} (c : Convoy) (hk : k ≠ 7) :
    ∀ x ∈ lanes m, NMap.get false ((maskWrites k m b).foldl put c).preds (32 * k + x) = b := by
  rw [maskWrites, if_neg hk]
  exact predWrites_mem k (fun _ => b) hk (lanes m) c

/-- An instruction that ends with its predicate set or cleared; beside it only the passing of its opportunity changes anything. -/
theorem retire_setPredMask {st : Stall} {p : Pn} {s : State} (b : Bool) (hb : s.cv.bad = 0#32) (hp : PredFree s p) :
    PredDone st p b s (retire st (setPredMask s p.toNat (activeMask s) b)) ∧
    RestKept s (retire st (setPredMask s p.toNat (activeMask s) b)) := by
  have hseven : p = 7#3 ↔ p.toNat = 7 := BitVec.toNat_inj.symm
  have hval := fun hk => preds_maskWrites (k := p.toNat) (m := activeMask s) (b := b) s.cv hk
  have hoth := fun l hl h => getLoc_maskWrites_other (k := p.toNat) (m := activeMask s) (b := b) (l := l) s.cv hl h
  obtain ⟨_, _, _, _, _, _, _, _, hput⟩ := foldl_put_exists (maskWrites p.toNat (activeMask s) b) s.cv
  rw [setPredMask_free b hp]
  rw [hput] at hval hoth ⊢
  refine ⟨⟨fun h7 => ?_, fun l hl h => ?_, ?_, ?_, RestKept.forget_l1 (retire_rest_cv hb)⟩, retire_rest_cv hb⟩
  · rw [retire_cv st _ (by exact hb)]
    exact hval (h7 ∘ hseven.2)
  · rw [getLoc_retire st _ (by exact hb)]
    exact hoth l hl (h.imp_left hseven.1)
  · rw [MovedOn, retire_cv st _ (by exact hb)]
    exact ⟨rfl, rfl, rfl⟩
  · rw [ConvoyKept, retire_cv st _ (by exact hb)]
    rfl

/-- After an acquire the core's L1 serves no copy (04 R84). -/
theorem copyByte_of_invalidateL1 {s t : State} {core : Nat} (h : t.l1 = (invalidateL1 s core).l1) (a : Nat) : copyByte t core a = none := by
  have hnone : t.l1.find? (fun l => l.core = core && l.line = lineOf a && !l.priv && l.valid.getLsbD (a % 128)) = none := by
    rw [h, List.find?_eq_none]
    intro l hl
    have hkeep := (List.mem_filter.1 hl).2
    simp only [Bool.not_eq_true', Bool.and_eq_false_iff, Bool.not_eq_false', decide_eq_false_iff_not] at hkeep
    rcases hkeep with hcore | hpriv
    · simp [hcore]
    · simp [hpriv]
  rw [copyByte, hnone]

/-! Waits (01 R34, 05 R97) -/

theorem waitEntry_parks (w : Wait) (s : State) : Parks w s (waitEntry w s) := by
  cases hk : s.cv.clause with
  | none =>
    have he : waitEntry w s = s := by rw [waitEntry, hk]
    rw [he]
    refine ⟨fun k h => ?_, hk, fun _ => rfl, rfl⟩
    cases hk.symm.trans h
  | some k =>
    cases hs : k.spilled <;> simp only [waitEntry, hk, moveClause, ageOthers, hs, Option.isSome_some, if_true, Bool.false_eq_true, if_false]
    · refine ⟨fun k' h => ?_, rfl, fun l => (by cases l <;> rfl), rfl⟩
      cases hk.symm.trans h
      exact ⟨_, List.mem_append_left _ (List.mem_append_right _ (List.mem_singleton.2 rfl)), rfl, rfl, rfl, rfl⟩
    · refine ⟨fun k' h => ?_, rfl, fun l => (by cases l <;> rfl), rfl⟩
      cases hk.symm.trans h
      exact ⟨_, List.mem_append_right _ (List.mem_append_right _ (List.mem_singleton.2 rfl)), rfl, rfl, rfl, rfl⟩

/-! The counter's word (05 R105) -/

theorem serving_eq (x : DWord) : serving x = (x.setWidth 33).toNat := by
  rw [serving, BitVec.setWidth_eq_extractLsb' (by decide)]

theorem serving_withServing (x : DWord) {k : Nat} (hk : k < 2 ^ 33) : serving (withServing x k) = k := by
  rw [serving, withServing, BitVec.extractLsb'_append_eq_right, BitVec.toNat_ofNat, Nat.mod_eq_of_lt hk]

theorem extractLsb_withServing (x : DWord) (k : Nat) : (withServing x k).extractLsb' 33 31 = x.extractLsb' 33 31 := by
  rw [withServing, BitVec.extractLsb'_append_eq_left]

end Sys2Proof.Machine
end

section
/-! The ticket instructions and the automatic pass (05 R105 to R108), and the obligation about them. -/

namespace Sys2Proof.Machine

/-! TICKET (05 R106) -/

/-- An instruction that ends with units added to its convoy, nothing of which waits on poison. -/
theorem retire_issued {st : Stall} {tok : Tok} {new : List Pending} {s : State} (hb : s.cv.bad = 0#32)
    (h : ∀ u ∈ new, u.tok = some tok.toNat) : Issued st tok new s (retire st { s with cv := addUnits s.cv new }) := by
  have hc : s.cv = { s.cv with bad := 0#32 } := by rw [← hb]
  obtain ⟨hcount, hmoved, hunits, hrest, hmem⟩ := retire_units (st := st) s hb h hc
  exact ⟨hcount, hmoved, hunits, hrest, hmem⟩

theorem calm_eq {s : State} (hb : s.cv.bad = 0#32) : calm s = s := by rw [calm, ← hb]

theorem clean_actLanes {s : State} (hb : s.cv.bad = 0#32) : (actLanes s).filter (clean s) = actLanes s := by
  have h := clean_calm s
  rwa [calm_eq hb] at h

/-- The unit of a TICKET: it is to write the cohort's linear id. -/
def ticketUnit (s : State) (d : Dst) (t : Tok) : Pending :=
  { newUnit s t .value with writes := laneWrites s d 1 (fun _ => BitVec.ofNat 64 (s.ch.linear % 2 ^ 32)) }

theorem ticketUnit_writes {s : State} {d : Dst} {t : Tok} {y : Nat} {l : Loc} (hy : y ∈ actLanes s) (hl : dstLoc s d y 0 = some l) :
    ∃ e ∈ (ticketUnit s d t).writes, e.1 = l ∧ e.2.lo = BitVec.ofNat 32 s.ch.linear := by
  refine ⟨(l, BitVec.setWidth 64 _), mem_laneWrites.2 ⟨y, hy, 0, Nat.one_pos, hl, rfl⟩, rfl, (lo_setWidth _).trans ?_⟩
  apply BitVec.eq_of_toNat_eq
  simp only [Nat.mul_zero, BitVec.ushiftRight_zero, BitVec.toNat_setWidth, BitVec.toNat_ofNat]
  omega

/-- A TICKET on ready operands whose counter is reached. -/
theorem execTicket_reached {st : Stall} {d : Dst} {a : Src} {t : Tok} {s s2 : State} {pa key : Nat} (hb : s.cv.bad = 0#32)
    (h : Ready s [⟨0, a, 2⟩] [] (some (d, 1))) (hw : wholeAddr s (rd64 s a (lowest s)) 8 true = .ok s2 pa key) :
    execTicket st d a t s =
      if s2.ch.ticket.isSome && s2.ch.ticket ≠ some (pa, key) then
        faultOut s2 { kind := 0x0E, sub := 6, addr := (rd64 s a (lowest s)).toNat, mask := activeMask s2 }
      else if !(tokRoom s2.cv t.toNat 1) then .next (waitIssue s2)
      else .next (retire st { s2 with ch := { s2.ch with ticket := some (pa, key) }, cv := addUnits s2.cv [ticketUnit s2 d t] }) := by
  have hidx : settleIdx s [⟨0, a, 2⟩] (some d) = s := settleIdx_ready h
  have hready : checkReady s (useLocs s [⟨0, a, 2⟩] ++ dstLocs s d 1) = none :=
    checkReady_settled _ _ (fun l hl => (List.mem_append.1 hl).elim (fun hm => h.settled l (by simpa using hm)) (h.settledDst d 1 rfl l))
  have hreads : settleReads s [⟨0, a, 2⟩] [] = s := (settleReads_calm h).trans (calm_eq hb)
  have hb2 : s2.cv.bad = 0#32 := by
    obtain ⟨_, hfs⟩ := (cohortKept_of_wholeAddr hw).cv
    rw [hfs, ← hb]
  simp only [execTicket, hidx, h.bounds, hready, hreads, hw, clean_actLanes hb2, ticketUnit, laneWrites]

theorem ticket_registers {st : Stall} {d : Dst} {a : Src} {t : Tok} {s s2 : State} {pa key : Nat} (hb : s.cv.bad = 0#32)
    (h : Ready s [⟨0, a, 2⟩] [] (some (d, 1))) (hw : wholeAddr s (rd64 s a (lowest s)) 8 true = .ok s2 pa key)
    (hheld : s.ch.ticket = none ∨ s.ch.ticket = some (pa, key)) (hroom : tokRoom s.cv t.toNat 1 = true) :
    ∃ v u, exec (.ticket st d a t) s = .next v ∧ Issued st t [u] { s2 with ch := { s2.ch with ticket := some (pa, key) } } v ∧
      u.kind = .value ∧ ∀ y ∈ actLanes s, ∀ l, dstLoc s d y 0 = some l → ∃ e ∈ u.writes, e.1 = l ∧ e.2.lo = BitVec.ofNat 32 s.ch.linear := by
  have hk := cohortKept_of_wholeAddr hw
  obtain ⟨fs, hfs⟩ := hk.cv
  have hb2 : s2.cv.bad = 0#32 := by rw [hfs, ← hb]
  have hsame : (s2.ch.ticket.isSome && decide (s2.ch.ticket ≠ some (pa, key))) = false := by
    rw [hk.ch]
    rcases hheld with hn | hs
    · simp [hn]
    · simp [hs]
  have hroom2 : tokRoom s2.cv t.toNat 1 = true := by rw [hfs]; exact hroom
  refine ⟨_, ticketUnit s2 d t, ?_, retire_issued (s := { s2 with ch := { s2.ch with ticket := some (pa, key) } }) hb2 ?_, rfl, ?_⟩
  · show execTicket st d a t s = _
    rw [execTicket_reached hb h hw, hsame, hroom2]
    rfl
  · intro u hu
    rw [List.mem_singleton.1 hu]
    rfl
  · intro y hy l hl
    rw [← hk.actLanes_eq] at hy
    rw [← hk.dstLoc_eq] at hl
    rw [← hk.ch]
    exact ticketUnit_writes hy hl

theorem ticket_otherCounter {st : Stall} {d : Dst} {a : Src} {t : Tok} {s s2 : State} {pa key : Nat} {other : Nat × Nat}
    (hb : s.cv.bad = 0#32) (h : Ready s [⟨0, a, 2⟩] [] (some (d, 1)))
    (hw : wholeAddr s (rd64 s a (lowest s)) 8 true = .ok s2 pa key) (ho : s.ch.ticket = some other) (hne : other ≠ (pa, key)) :
    exec (.ticket st d a t) s =
      .next (takeFault s2 { kind := 0x0E, sub := 6, addr := (rd64 s a (lowest s)).toNat, mask := activeMask s }) := by
  have hk := cohortKept_of_wholeAddr hw
  have hother : (s2.ch.ticket.isSome && decide (s2.ch.ticket ≠ some (pa, key))) = true := by
    rw [hk.ch, ho]
    simpa using hne
  show execTicket st d a t s = _
  rw [execTicket_reached hb h hw, hother, hk.activeMask_eq]
  rfl

/-! TKWAIT and TKDONE (05 R107) -/

section
variable {st : Stall} {p : Pn} {s : State} {pa key : Nat}

theorem execTkwait_none (ht : s.ch.ticket = none) : execTkwait st p s = .next (takeFault s (noTicket s)) := by
  rw [execTkwait, ht]
  rfl

theorem execTkdone_none (ht : s.ch.ticket = none) : execTkdone st p s = .next (takeFault s (noTicket s)) := by
  rw [execTkdone, ht]
  rfl

theorem execTkwait_poisoned (ht : s.ch.ticket = some (pa, key)) (hx : (ticketWord s pa).getLsbD 63 = true) :
    execTkwait st p s = .next (retire st (setPredMask s p.toNat (activeMask s) true)) := by
  simp only [execTkwait, ht, hx, if_true]

theorem execTkwait_served (ht : s.ch.ticket = some (pa, key)) (hx : (ticketWord s pa).getLsbD 63 = false)
    (hid : s.ch.linear ≤ serving (ticketWord s pa)) :
    execTkwait st p s = .next (retire st (setPredMask (invalidateL1 s s.ch.core) p.toNat (activeMask s) false)) := by
  simp only [execTkwait, ht, hx, if_pos hid, Bool.false_eq_true, if_false]

theorem execTkwait_waits (ht : s.ch.ticket = some (pa, key)) (hx : (ticketWord s pa).getLsbD 63 = false)
    (hid : serving (ticketWord s pa) < s.ch.linear) : execTkwait st p s = .next (waitEntry .tkwait s) := by
  simp only [execTkwait, ht, hx, if_neg (Nat.not_le.2 hid), Bool.false_eq_true, if_false]

theorem execTkdone_poisoned (ht : s.ch.ticket = some (pa, key)) (hx : (ticketWord s pa).getLsbD 63 = true) :
    execTkdone st p s = .next (retire st (setPredMask s p.toNat (activeMask s) true)) := by
  simp only [execTkdone, ht, hx, if_true]

theorem execTkdone_behind (ht : s.ch.ticket = some (pa, key)) (hx : (ticketWord s pa).getLsbD 63 = false)
    (hid : s.ch.linear < serving (ticketWord s pa)) :
    execTkdone st p s = .next (retire st (setPredMask { s with ch := { s.ch with passed := true } } p.toNat (activeMask s) false)) := by
  simp only [execTkdone, ht, hx, if_pos hid, Bool.false_eq_true, if_false]
  rfl

theorem execTkdone_waits (ht : s.ch.ticket = some (pa, key)) (hx : (ticketWord s pa).getLsbD 63 = false)
    (hid : serving (ticketWord s pa) < s.ch.linear) : execTkdone st p s = .next (waitEntry .tkdone s) := by
  simp only [execTkdone, ht, hx, if_neg (Nat.lt_asymm hid), decide_eq_true hid, Bool.true_or, Bool.false_eq_true, if_false, if_true]

/-- A release finds nothing to register where the core has no unregistered store. -/
theorem releaseStores_none (m : Word) (h : ∀ q ∈ s.pstores, q.core ≠ s.ch.core) : releaseStores s m = s := by
  have hnone : s.pstores.filter (fun q => q.core = s.ch.core) = [] :=
    List.filter_eq_nil_iff.2 (fun q hq => by simpa using h q hq)
  simp only [releaseStores, registerThrough, hnone, List.take_nil, List.foldl_nil]

theorem execTkdone_turn (ht : s.ch.ticket = some (pa, key)) (hx : (ticketWord s pa).getLsbD 63 = false)
    (hid : serving (ticketWord s pa) = s.ch.linear) (ha : accessPending s.cv (activeMask s) = false)
    (hq : ∀ q ∈ s.pstores, q.core ≠ s.ch.core) (s2 : State)
    (hs2 : writeCoherent s none pa key (bytesOf (withServing (ticketWord s pa) (s.ch.linear + 1)).toNat 8) = s2) :
    execTkdone st p s = .next (retire st (setPredMask { s2 with ch := { s2.ch with passed := true } } p.toNat (activeMask s2) false)) := by
  simp only [execTkdone, ht, hx, hid, Nat.lt_irrefl, decide_false, ha, Bool.or_self, Bool.false_eq_true, if_false,
    releaseStores_none _ hq, hs2]
  rfl

end

/-- The turn is passed: the counter serves the next number, its other fields and all other memory as before (05 R105, R107). -/
theorem turnPassed_of_mem {s t : State} {x : DWord} {pa k : Nat} (hk : k < 2 ^ 33)
    (h : t.mem = (memPut s pa (bytesOf (withServing x k).toNat 8)).mem) :
    serving (ticketWord t pa) = k ∧ (ticketWord t pa).extractLsb' 33 31 = x.extractLsb' 33 31 ∧ MemoryKeptOutside pa 8 s t := by
  have hword : ticketWord t pa = withServing x k := by
    rw [ticketWord, memNat_of_mem h, show 256 ^ 8 = 2 ^ 64 from rfl, Nat.mod_eq_of_lt (withServing x k).isLt, BitVec.ofNat_toNat,
      BitVec.setWidth_eq]
  refine ⟨by rw [hword, serving_withServing x hk], by rw [hword, extractLsb_withServing], ?_⟩
  have hout := memoryKeptOutside_of_mem h
  rwa [length_bytesOf] at hout

/-- The end of a TKDONE that has stored to memory: the turn is passed and the predicate clear. -/
theorem tkdone_ends {st : Stall} {p : Pn} {s s2 : State} (hb : s.cv.bad = 0#32) (hp : PredFree s p) (hcv : s2.cv = s.cv) :
    let t := retire st (setPredMask { s2 with ch := { s2.ch with passed := true } } p.toNat (activeMask s2) false)
    t.mem = s2.mem ∧ t.ch.passed = true ∧
      (p ≠ 7#3 → ∀ y ∈ lanes (activeMask s), NMap.get false t.cv.preds (32 * p.toNat + y) = false) ∧ MovedOn st s t := by
  have hmask : activeMask s2 = activeMask s := by rw [activeMask, activeMask, hcv]
  have hfree : PredFree s2 p := by
    intro x hx
    rw [hcv]
    exact hp x (hmask ▸ hx)
  obtain ⟨hdone, hrest⟩ := retire_setPredMask (st := st) (s := { s2 with ch := { s2.ch with passed := true } }) false
    (hcv ▸ hb) hfree
  refine ⟨hrest.mem_eq, hrest.passed_eq, fun h7 y hy => hdone.value h7 y (hmask.symm ▸ hy), ?_⟩
  have hmoved := hdone.moved
  rw [MovedOn] at hmoved ⊢
  rwa [← hcv]

theorem tkdone_passes {st : Stall} {p : Pn} {s : State} {pa key : Nat} (hb : s.cv.bad = 0#32) (hp : PredFree s p)
    (ht : s.ch.ticket = some (pa, key)) (hx : (ticketWord s pa).getLsbD 63 = false) (hid : serving (ticketWord s pa) = s.ch.linear)
    (hlt : s.ch.linear < 2 ^ 33 - 1) (ha : accessPending s.cv (activeMask s) = false) (hq : ∀ q ∈ s.pstores, q.core ≠ s.ch.core)
    (hkey : KeyedAt s pa 8 key) :
    ∃ t, execTkdone st p s = .next t ∧ t.ch.passed = true ∧
      (p ≠ 7#3 → ∀ y ∈ lanes (activeMask s), NMap.get false t.cv.preds (32 * p.toNat + y) = false) ∧ MovedOn st s t ∧
      serving (ticketWord t pa) = s.ch.linear + 1 ∧ (ticketWord t pa).extractLsb' 33 31 = (ticketWord s pa).extractLsb' 33 31 ∧
      MemoryKeptOutside pa 8 s t := by
  have hlines := linesKept_writeCoherent (s := s) (a := pa) (key := key)
    (bs := bytesOf (withServing (ticketWord s pa) (s.ch.linear + 1)).toNat 8) (by rwa [length_bytesOf])
  obtain ⟨hmem, hpassed, hpred, hmoved⟩ := tkdone_ends (st := st) hb hp hlines.cv_eq
  exact ⟨_, execTkdone_turn ht hx hid ha hq _ rfl, hpassed, hpred, hmoved, turnPassed_of_mem (by omega) (hmem.trans hlines.mem_eq)⟩

/-- A TKWAIT whose number is served is an acquire: its predicate is clear and the core's L1 serves no copy (05 R107). -/
theorem tkwait_acquires {st : Stall} {p : Pn} {s : State} {pa key : Nat} (hb : s.cv.bad = 0#32) (hp : PredFree s p)
    (ht : s.ch.ticket = some (pa, key)) (hx : (ticketWord s pa).getLsbD 63 = false) (hid : s.ch.linear ≤ serving (ticketWord s pa)) :
    ∃ t, execTkwait st p s = .next t ∧ PredDone st p false s t ∧ ∀ y, copyByte t s.ch.core y = none := by
  obtain ⟨hdone, hrest⟩ := retire_setPredMask (st := st) (s := invalidateL1 s s.ch.core) false hb hp
  exact ⟨_, execTkwait_served ht hx hid, ⟨hdone.value, hdone.others, hdone.moved, hdone.convoy, hdone.rest⟩,
    copyByte_of_invalidateL1 hrest.l1_eq⟩

/-! TICKET_AUTO_PASS (05 R108) -/

section
variable {s : State} {q : TicketPass} {rest : List TicketPass}

theorem execTicketAutoPass_waits (hs : s.passes = q :: rest) (hq : serving (ticketWord s q.pa) < q.id)
    (hrest : ∀ r ∈ rest, r.pa = q.pa → serving (ticketWord s q.pa) < r.id) : execTicketAutoPass q.pa s = .next s := by
  have hnone : s.passes.find? (fun r => r.pa = q.pa && decide (r.id ≤ serving (ticketWord s q.pa))) = none := by
    rw [hs, List.find?_eq_none]
    intro r hr
    rcases List.mem_cons.1 hr with rfl | hr
    · simp [hq]
    · simpa using hrest r hr
  rw [execTicketAutoPass, ← ticketWord]
  simp only [hnone]

theorem execTicketAutoPass_due (hs : s.passes = q :: rest) (hq : q.id ≤ serving (ticketWord s q.pa)) :
    execTicketAutoPass q.pa s =
      if (ticketWord s q.pa).getLsbD 63 || serving (ticketWord s q.pa) ≠ q.id then .next { s with passes := rest }
      else .next (writeCoherent { s with passes := rest } none q.pa q.key
        (bytesOf (withServing (ticketWord s q.pa) (q.id + 1)).toNat 8)) := by
  have hfind : s.passes.find? (fun r => r.pa = q.pa && decide (r.id ≤ serving (ticketWord s q.pa))) = some q := by
    rw [hs, List.find?_cons_of_pos]
    simpa using hq
  have herase : s.passes.erase q = rest := by rw [hs, List.erase_cons_head]
  rw [execTicketAutoPass, ← ticketWord]
  simp only [hfind, herase, withServing]

theorem execTicketAutoPass_dropped (hs : s.passes = q :: rest) (hq : q.id ≤ serving (ticketWord s q.pa))
    (hx : serving (ticketWord s q.pa) ≠ q.id ∨ (ticketWord s q.pa).getLsbD 63 = true) :
    execTicketAutoPass q.pa s = .next { s with passes := rest } := by
  rw [execTicketAutoPass_due hs hq, if_pos]
  rcases hx with hx | hx
  · simp [hx]
  · simp [hx]

theorem ticketAutoPass_passes (hs : s.passes = q :: rest) (hkey : KeyedAt s q.pa 8 q.key) (hq : serving (ticketWord s q.pa) = q.id)
    (hlt : q.id < 2 ^ 33 - 1) (hx : (ticketWord s q.pa).getLsbD 63 = false) :
    ∃ t, execTicketAutoPass q.pa s = .next t ∧ t.passes = rest ∧ serving (ticketWord t q.pa) = q.id + 1 ∧
      MemoryKeptOutside q.pa 8 s t := by
  have hlines := linesKept_writeCoherent (s := { s with passes := rest }) (a := q.pa) (key := q.key)
    (bs := bytesOf (withServing (ticketWord s q.pa) (q.id + 1)).toNat 8) (by rw [length_bytesOf]; exact hkey)
  obtain ⟨hserves, -, hout⟩ := turnPassed_of_mem (s := s) (by omega) hlines.mem_eq
  refine ⟨_, ?_, ?_, hserves, hout⟩
  · rw [execTicketAutoPass_due hs (Nat.le_of_eq hq.symm), if_neg]
    rw [hx, hq]
    simp
  · obtain ⟨_, _, _, _, ht⟩ := hlines
    rw [ht]
    rfl

end

/-! The obligation -/

/-- Settles O30: each clause is one branch of its instruction, by the counter held and by where its word stands against the cohort's
number. -/
theorem tickets : Obligations.tickets := by
  unfold Obligations.tickets
  refine ⟨?_, ?_, ?_, ?_⟩
  · intro st d a t s s2 pa key hb hready hw
    exact ⟨ticket_registers hb hready hw, fun _ => ticket_otherCounter hb hready hw⟩
  · intro st p s pa key hb hp ht x now id
    have hnow : now = serving (ticketWord s pa) := (serving_eq _).symm
    rw [hnow]
    refine ⟨fun hx => ⟨?_, ?_⟩, fun hx hid => ?_, fun hx hid => ⟨?_, ?_⟩, fun hx hid => ?_, fun hx hid hlt ha hq hkey => ?_⟩
    · exact ⟨_, execTkwait_poisoned ht hx, (retire_setPredMask true hb hp).1⟩
    · exact ⟨_, execTkdone_poisoned ht hx, (retire_setPredMask true hb hp).1⟩
    · exact tkwait_acquires hb hp ht hx hid
    · exact ⟨_, execTkwait_waits ht hx hid, waitEntry_parks _ s⟩
    · exact ⟨_, execTkdone_waits ht hx hid, waitEntry_parks _ s⟩
    · exact ⟨_, execTkdone_behind ht hx hid, (retire_setPredMask (s := { s with ch := { s.ch with passed := true } }) false hb hp).1⟩
    · obtain ⟨t, hexec, hpassed, hpred, hmoved, hserves, hkept, hmem⟩ := tkdone_passes (st := st) hb hp ht hx hid hlt ha hq hkey
      exact ⟨t, hexec, hpassed, hpred, hmoved, ⟨(serving_eq _).symm.trans hserves, hkept⟩, hmem⟩
  · intro st p s ht
    exact ⟨execTkwait_none ht, execTkdone_none ht⟩
  · intro s q rest hs hkey x now
    have hnow : now = serving (ticketWord s q.pa) := (serving_eq _).symm
    rw [hnow]
    refine ⟨fun hq _ hrest => execTicketAutoPass_waits hs hq hrest, fun hq hx => execTicketAutoPass_dropped hs hq hx,
      fun hq hlt hx => ?_⟩
    obtain ⟨t, hexec, hpasses, hserves, hmem⟩ := ticketAutoPass_passes hs hkey hq hlt hx
    exact ⟨t, hexec, hpasses, (serving_eq _).symm.trans hserves, hmem⟩

end Sys2Proof.Machine
end

section
/-! The choice by a predicate (13 R247), and the obligation about it. -/

namespace Sys2Proof.Machine

/-! What an instruction reads does not depend on the mark of poison -/

theorem readLoc_calm (s : State) (l : Loc) : readLoc (calm s) l = readLoc s l := rfl

theorem srcLoc_calm (s : State) (a : Src) (x k : Nat) : srcLoc (calm s) a x k = srcLoc s a x k := by
  cases a <;> rfl

theorem rd32_calm (s : State) (a : Src) (x : Nat) : rd32 (calm s) a x = rd32 s a x := by
  unfold rd32 readWord
  simp only [srcLoc_calm, readLoc_calm]

theorem pred_calm (s : State) (k x : Nat) : pred (calm s) k x = pred s k x := by
  rw [pred, pred, readLoc_calm]

/-! SEL -/

/-- Predicate p7 reads as set in every thread (02 R47). -/
theorem pred_seven (s : State) (x : Nat) : pred s 7 x = true := rfl

/-- What SEL gives a thread (13 R247). -/
def selValue (a b : Src) (k : Pn) (s : State) (x : Nat) : DWord :=
  (if pred s k.toNat x then rd32 s a x else rd32 s b x).setWidth 64

theorem selValue_calm (a b : Src) (k : Pn) (s : State) : selValue a b k (calm s) = selValue a b k s := by
  funext x
  rw [selValue, selValue, pred_calm, rd32_calm, rd32_calm]

theorem exec_sel (st : Stall) (d : Dst) (a b : Src) (k : Pn) (s : State) :
    exec (.sel st d a b k) s = fixedOp st 2 [⟨0, a, 1⟩, ⟨1, b, 1⟩] [k.toNat] d 1 (selValue a b k) s :=
  exec_intForm (i := .sel st d a b k) rfl s

/-- By p7 SEL is a MOV of a; by another predicate the thread's own decides (13 R247). -/
theorem selValue_rule (a b : Src) (k : Pn) (s : State) (x : Nat) :
    selValue a b k s x =
      (if k = 7#3 then rd32 s a x else if pred s k.toNat x then rd32 s a x else rd32 s b x).setWidth 64 := by
  by_cases hk : k = 7#3
  · have hset : pred s k.toNat x = true := by rw [hk]; exact pred_seven s x
    rw [selValue, if_pos hset, if_pos hk]
  · rw [selValue, if_neg hk]

/-- Settles O9: SEL is an instruction of fixed latency, whose value is the rule's. -/
theorem selectByPredicate : Obligations.selectByPredicate := by
  unfold Obligations.selectByPredicate
  intro st d a b k s hready
  have hreads : Ready s [⟨0, a, 1⟩, ⟨1, b, 1⟩] ([k.toNat].flatMap (predLocs s)) (some (d, 1)) := by
    rw [List.flatMap_singleton]
    exact hready
  obtain ⟨t, hnext, heffect⟩ := fixedOp_effect (st := st) (by decide : 1 ≤ 2) hreads (selValue_calm a b k s)
  rw [exec_sel, ← funext (selValue_rule a b k s)]
  exact ⟨t, hnext, heffect⟩

end Sys2Proof.Machine
end

section
/-! The floating and packed instructions of fixed latency (14 R259 to R266, R270 to R277), and the obligation about them. -/

namespace Sys2Proof.Machine

/-! Wide operands and the clause's rounding mode do not depend on the mark of poison either -/

theorem rd64_calm (s : State) (a : Src) (x : Nat) : rd64 (calm s) a x = rd64 s a x := by
  unfold rd64 readWord
  simp only [srcLoc_calm, readLoc_calm]

theorem clauseRm_calm (s : State) : clauseRm (calm s) = clauseRm s := rfl

/-! Forms that take time and whose value is that of the operands -/

/-- The result is ready no sooner than one opportunity later, and its value does not depend on the mark of poison. -/
structure DataForm.Steady (f : DataForm) : Prop where
  lat : 1 ≤ f.lat
  val : ∀ s, f.val (calm s) = f.val s

/-- An instruction of such a form completes with the form's value. -/
theorem DataForm.Steady.completes {f : DataForm} (hf : f.Steady) {i : Instr} {s : State}
    (hexec : exec i s = fixedOp f.stall f.lat f.uses f.preds f.dst f.words f.val s)
    (hready : Ready s f.uses (f.preds.flatMap (predLocs s)) (some (f.dst, f.words))) :
    ∃ t, exec i s = .next t ∧ FixedEffect f.stall f.lat f.dst f.words (f.val s) s t := by
  rw [hexec]
  exact fixedOp_effect hf.lat hready (hf.val s)

section
variable (st : Stall) (d : Dst) (a b c : Src)

theorem steady_form1 {lat : Nat} (hlat : 1 ≤ lat) (g : Word → Word) : (form1 lat st d a g).Steady :=
  ⟨hlat, fun s => by simp only [form1, rd32_calm]⟩

theorem steady_form2 {lat : Nat} (hlat : 1 ≤ lat) (g : Word → Word → Word) : (form2 lat st d a b g).Steady :=
  ⟨hlat, fun s => by simp only [form2, rd32_calm]⟩

theorem steady_form3 {lat : Nat} (hlat : 1 ≤ lat) (g : Word → Word → Word → Word) : (form3 lat st d a b c g).Steady :=
  ⟨hlat, fun s => by simp only [form3, rd32_calm]⟩

theorem steady_fpForm2 (f : FFlags) (g : RMode → FV → FV → FV) : (fpForm2 st d a b f g).Steady :=
  ⟨by simp [fpForm2], fun s => by simp only [fpForm2, rd32_calm, clauseRm_calm]⟩

theorem steady_dpForm2 (f : FFlags) (g : RMode → FV → FV → FV) : (dpForm2 st d a b f g).Steady :=
  ⟨by simp [dpForm2], fun s => by simp only [dpForm2, rd64_calm, clauseRm_calm]⟩

theorem steady_convForm (src dst : Fmt) (f : FFlags) : (convForm st d a src dst f).Steady :=
  ⟨by simp [convForm], fun s => by simp only [convForm, rd64_calm, clauseRm_calm]⟩

theorem steady_halfForm (uses : List Use) (f : FFlags) (fa : Fmt) {g : State → Nat → Nat → FV} (hg : ∀ s, g (calm s) = g s) :
    (halfForm st d uses f fa g).Steady :=
  ⟨by simp [halfForm], fun s => by simp only [halfForm, hg, clauseRm_calm]⟩

theorem steady_dotForm (n w : Nat) (fa fb : Fmt) (ftzi ftzo : Bool) : (dotForm st d a b c n w fa fb ftzi ftzo).Steady :=
  ⟨by simp [dotForm], fun s => by simp only [dotForm, rd32_calm, clauseRm_calm]⟩

theorem steady_dotIntForm (n w : Nat) (fa fb : Fmt) (sat : Bool) : (dotIntForm st d a b c n w fa fb sat).Steady :=
  steady_form3 st d a b c (by decide) _

end

theorem steady_fltForm {i : Instr} {f : DataForm} (h : fltForm i = some f) : f.Steady := by
  cases i with
  | fadd | fsub | fmul => cases h; exact steady_fpForm2 ..
  | dadd | dmul => cases h; exact steady_dpForm2 ..
  | fcvti | icvtf | dcvt => cases h; exact steady_convForm ..
  | fnegabs | fclass => cases h; exact steady_form1 _ _ _ (by decide) _
  | ffma | fmin | fmax | frnd | fscale =>
    cases h
    exact ⟨by simp, fun s => by simp only [rd32_calm, clauseRm_calm]⟩
  | dfma | dminmax =>
    cases h
    exact ⟨by simp, fun s => by simp only [rd64_calm, clauseRm_calm]⟩
  | _ => simp only [fltForm, reduceCtorEq] at h

theorem steady_pkdForm {i : Instr} {f : DataForm} (h : pkdForm i = some f) : f.Steady := by
  cases i with
  | hadd2 | hmul2 | hfma2 => cases h; exact steady_halfForm _ _ _ _ _ (fun s => by simp only [rd32_calm, clauseRm_calm])
  | hminmax2 => cases h; exact steady_form2 _ _ _ _ (by decide) _
  | dot2h | dot4f8 | dot8f4 => cases h; exact steady_dotForm ..
  | dot4i8 | dot8i4 => cases h; exact steady_dotIntForm ..
  | prmt => cases h; exact steady_form3 _ _ _ _ _ (by decide) _
  | pack | unpack | scl | hcvt =>
    cases h
    exact ⟨by simp, fun s => by simp only [rd32_calm, clauseRm_calm]⟩
  | _ => simp only [pkdForm, reduceCtorEq] at h

/-! The obligation -/

/-- Settles O11: each instruction is its form's operation of fixed latency, and every such form is steady. -/
theorem floatResults : Obligations.floatResults := by
  unfold Obligations.floatResults
  exact ⟨fun _ _ s hform hready => (steady_fltForm hform).completes (exec_fltForm hform s) hready,
    fun _ _ s hform hwf hready => (steady_pkdForm hform).completes (exec_pkdForm hform hwf s) hready⟩

end Sys2Proof.Machine
end
